-- ==== Sys2Proof/Word.lean ====
section
/-! DEFINITION. The word types of the arbiter: bytes of frames and of the access map image, and the two-byte
quantities of 00 §0.5. -/

namespace Sys2Proof

/-- One byte of a frame or of the access map image (11 §11.9). -/
abbrev Byte := BitVec 8

/-- A two-byte quantity: a duration, a lease value, an arrival stamp, a digest (00 §0.5). -/
abbrev Word16 := BitVec 16

end Sys2Proof
end

