-- ==== Sys2Proof/Config.lean ====
section
/-! DEFINITION. The constants of the part (its fixed time units and capacities) and the free values of the model. -/

namespace Sys2Proof.Config

/-- Reference clocks in one millisecond, the lease unit (R91). -/
def clocksPerMs : Nat := 8000

/-- Reference clocks in one microsecond, the fault window unit (R133). -/
def clocksPerUs : Nat := 8

/-- Reference clocks in one guard unit of 16 µs (R12). -/
def clocksPerGuardUnit : Nat := 128

/-- Reference clocks in the 10 ms settle time (R139). -/
def settleClocks : Nat := 80000

/-- Reference clocks in the 20 µs by which a reply is ready (R168). -/
def replyClocks : Nat := 160

/-- Bytes of the access map image (10 §10.1). -/
def mapBytes : Nat := 132

/-- Entries of the segment store (R104). -/
def storeEntries : Nat := 96

/-- Notices one queue holds at most (R118). -/
def noticeCapacity : Nat := 16

/-- FREE VALUE (log 3, DESIGN CHOICE; safe: nothing constrains it). Where the spec leaves the order of two things of one instant
open (R121: "either order may be found in the queue"; R141: "Its place ... is not fixed"; two events that the
clock brings due together, R88 and its like), `orderChoice n i` is the `i`-th choice made at the `n`-th such
occasion. It has no body, so no statement can rest on an order the spec does not give. -/
opaque orderChoice : Nat → Nat → Bool

/-- FREE VALUE (log 32, DESIGN CHOICE; safe: nothing constrains it). A present port drives HnDO while its HnSELN is low
(R162); the spec gives no frame for one that is selected with no transaction begun. `unframedByte n i` is the `i`-th
byte driven there at occasion `n`. -/
opaque unframedByte : Nat → Nat → Byte

end Sys2Proof.Config
end

