-- ==== Sys2Proof/Syntax.lean ====
section
/-! DEFINITION. The commands of the block: one constructor of `Instr` per row of spec/opcode_table.json, with the
operands its rule gives it. -/

namespace Sys2Proof

/-- A host and its port, H0 to H3 (00 §0.4). -/
abbrev HostNo := Fin 4

/-- A line, L0 to L7 (00 §0.4). -/
abbrev LineNo := Fin 8

/-- What a pad input reads, by the thresholds of 00 §0.7: LOW below 0.3 VDD, HIGH above 0.7 VDD, and between the
two neither (R57, R132). -/
inductive PadLevel where
  | low | between | high
  deriving DecidableEq, Repr

/-- A command of the block. A request row carries the port, the tag and the fields of its body as the raw bytes
of Table 11-8, since a byte outside its enumeration is answered INVALID by the request (R174). An event row
carries the port, the line or the claim it concerns. -/
inductive Instr where
  -- requests answered by the port (R171, R172) and requests that read
  | nop (port : HostNo) (tag : Byte)
  | deviceStatus (port : HostNo) (tag : Byte)
  | lineStatus (port : HostNo) (tag : Byte) (line : Byte)
  | fetch (port : HostNo) (tag : Byte) (maximum : Byte) (ack : Option Byte)
  | readMap (port : HostNo) (tag : Byte) (offset length : Byte)
  | digest (port : HostNo) (tag : Byte)
  -- requests on the map and the barrier (Section 10, R98)
  | writeMap (port : HostNo) (tag : Byte) (offset : Byte) (bytes : List Byte)
  | ready (port : HostNo) (tag : Byte) (digest : Word16)
  | attach (port : HostNo) (tag : Byte) (digest : Word16)
  | reopen (port : HostNo) (tag : Byte) (choice : Byte)
  | detach (port : HostNo) (tag : Byte)
  -- requests on claims (Sections 5 and 6)
  | claim (port : HostNo) (tag : Byte) (line cutMode option restLevel : Byte) (lease : Word16)
  | release (port : HostNo) (tag : Byte) (line option : Byte)
  | renew (port : HostNo) (tag : Byte) (selector : Byte) (newLease : Option Word16)
  -- requests on segments and lines (Sections 2, 7 and 9)
  | submit (port : HostNo) (tag : Byte) (line count : Byte) (segments : List Byte)
  | flush (port : HostNo) (tag : Byte) (line scope label cut : Byte)
  | amend (port : HostNo) (tag : Byte) (line : Byte) (period active : Word16)
  | clearFault (port : HostNo) (tag : Byte) (line : Byte)
  -- events of a host port (Sections 10 and 11)
  | transactionSelect (port : HostNo)
  | deselect (port : HostNo) (bytes : List Byte) (bits : Nat)
  | replyReady (port : HostNo)
  | presentRise (port : HostNo)
  | presentFall (port : HostNo)
  -- device reset and supply events (R159, R139 to R142)
  | deviceReset
  | supplyFallsLow
  | settleTimerStart
  | settleTimerCleared
  | supplyRestore
  | firstSettleEnd
  -- events of claims and lines (Sections 1 to 6 and 9)
  | leaseExpiry (line : LineNo) (host : HostNo)
  | guardEnd (line : LineNo)
  | pulsePhaseEnd (line : LineNo)
  | pulseCycleEnd (line : LineNo)
  | carrierElementEnd (line : LineNo)
  | carrierPartChange (line : LineNo)
  | holdEnd (line : LineNo)
  | senseRelease (line : LineNo)
  | sensePadHigh (line : LineNo)
  | senseLimitReached (line : LineNo)
  | padMismatchBegins (line : LineNo) (reads : PadLevel)
  | padMatches (line : LineNo)
  | readbackFault (line : LineNo)
  deriving DecidableEq, Repr

end Sys2Proof
end

