-- ==== Sys2Proof/WellFormed.lean ====
section
/-! DEFINITION. Which commands are well formed: those a transaction of the host port can carry. The line and port
numbers of events are bounded by their types; what remains is the length of a request's variable part (Table 11-8)
and the count of left-over bits of a transaction. An ill-formed command is still given an outcome by the machine:
a request with such a body is answered INVALID (R167). -/

namespace Sys2Proof

/-- The check on each command: WRITE_MAP places 1 to 56 bytes (R146, Table 11-8: L is 2 to 57); the segments of a
SUBMIT fill 1 to 58 bytes of its body (Table 11-8: L is 3 to 60); a byte not completed has 1 to 7 bits, and 0
stands for none (R164). -/
def Instr.wellFormed : Instr → Bool
  | .writeMap _ _ _ bytes => decide (1 ≤ bytes.length ∧ bytes.length ≤ 56)
  | .submit _ _ _ _ segments => decide (1 ≤ segments.length ∧ segments.length ≤ 58)
  | .deselect _ _ bits => decide (bits ≤ 7)
  | .nop _ _ | .deviceStatus _ _ | .lineStatus _ _ _ | .fetch _ _ _ _ | .readMap _ _ _ _ | .digest _ _
  | .ready _ _ _ | .attach _ _ _ | .reopen _ _ _ | .detach _ _
  | .claim _ _ _ _ _ _ _ | .release _ _ _ _ | .renew _ _ _ _
  | .flush _ _ _ _ _ _ | .amend _ _ _ _ _ | .clearFault _ _ _
  | .transactionSelect _ | .replyReady _ | .presentRise _ | .presentFall _
  | .deviceReset | .supplyFallsLow | .settleTimerStart | .settleTimerCleared | .supplyRestore | .firstSettleEnd
  | .leaseExpiry _ _ | .guardEnd _ | .pulsePhaseEnd _ | .pulseCycleEnd _ | .carrierElementEnd _
  | .carrierPartChange _ | .holdEnd _ | .senseRelease _ | .sensePadHigh _ | .senseLimitReached _
  | .padMismatchBegins _ _ | .padMatches _ | .readbackFault _ => true

end Sys2Proof
end

