-- ==== Sys2Proof/Decode.lean ====
section
/-! DEFINITION. The block has no instruction words: no row of spec/opcode_table.json gives bits ("fields" is empty
in every row), so no word spells a command. The bytes of a host port's frames are read by Machine/Operands.lean. -/

namespace Sys2Proof

/-- The command a word spells by the table's bits: none, for every word, since no row gives any. -/
def decodeTableWord (_nbits _w : Nat) : Option Instr := none

end Sys2Proof
end

