-- ==== Sys2Proof/Machine/State.lean ====
section
/-! DEFINITION. The state of the arbiter as plain data: everything the spec gives it (INVENTORY.md, "State"), the
queue of waiting commands, the reasons a step can stop, and the state right after device reset. -/

namespace Sys2Proof.Machine

/-! ### Segments (Section 2 to 4) -/

/-- A driven level (00 §0.5, "Drive levels"). -/
inductive Level where
  | low | high | float
  deriving DecidableEq, Repr

/-- The rest level of a claim: a level, or SAFE for the line's safe level (R9, Table 5-1). -/
inductive RestLevel where
  | low | high | float | safe
  deriving DecidableEq, Repr

/-- The six taps of the tick ladder (Table 0-2). -/
inductive Tap where
  | t0 | t1 | t2 | t3 | t4 | t5
  deriving DecidableEq, Repr

inductive Polarity where
  | activeHigh | activeLow
  deriving DecidableEq, Repr

/-- The carrier source settings (Section 3). -/
inductive Source where
  | ca | cb
  deriving DecidableEq, Repr

/-- The resume policy, read when a segment is cut at a yield point (R22). -/
inductive Policy where
  | restart | drop
  deriving DecidableEq, Repr

/-- The kind of a segment with its kind-specific fields (Tables 2-4, 2-5, 3-1, 4-1). -/
inductive SegmentBody where
  | hold (level : Level) (duration : Word16)
  | pulse (period active : Word16) (polarity : Polarity) (count : Word16)
  | carrier (source : Source) (polarity : Polarity) (durations : List Word16)
  | sense (discharge limit : Word16)
  deriving DecidableEq, Repr

/-- A segment record (Table 2-1). -/
structure Segment where
  label : Byte
  tap : Tap
  join : Bool
  notify : Bool
  policy : Policy
  body : SegmentBody
  deriving DecidableEq, Repr

/-- An entry in use of the segment store: the record, and whether the segment was kept by a CUT_KEPT cut (R104). -/
structure Entry where
  seg : Segment
  kept : Bool
  deriving DecidableEq, Repr

/-- The ten segment outcomes (Table 2-3). -/
inductive SegOutcome where
  | done | cutKept | cutDropped | stopped | fault | supply | late | brokenChain | flushed | withdrawn
  deriving DecidableEq, Repr

/-! ### Claims (Section 5) -/

inductive CutMode where
  | cycle | segment
  deriving DecidableEq, Repr

/-- The ending cause of a claim in ENDING (Table 5-1). -/
inductive EndingCause where
  | released | lease | departed
  deriving DecidableEq, Repr

/-- The claim states of Table 5-2. LEAVING carries whether the claim is displaced, that is, stands behind a taker
(R78); ENDING carries its cause (R79). -/
inductive ClaimState where
  | waiting | taking | holding | yielding
  | leaving (displaced : Bool)
  | ending (cause : EndingCause)
  deriving DecidableEq, Repr

/-- The claim record (Table 5-1). `leaseElapsed` counts reference clocks since the lease was last restarted
(R91); `forestalled` says that a renewal was taken at this instant before the expiry due at it (Table 6-2, log 34);
`yieldRun` is the yield run of R74; the queue holds the claim's store entries, oldest first (R106). -/
structure Claim where
  host : HostNo
  priority : Nat
  arrival : Word16
  cutMode : CutMode
  leaseValue : Word16
  leaseElapsed : Nat
  forestalled : Bool
  restLevel : RestLevel
  state : ClaimState
  yieldRun : Nat
  queue : List Entry
  deriving DecidableEq, Repr

/-! ### Line engines (Sections 1 to 4 and 9) -/

/-- The seven engine states of Table 1-2. -/
inductive EngineState where
  | idle | running | starved | guard | faulted | retired | halted
  deriving DecidableEq, Repr

/-- The current phase or element of the running segment (Table 1-1): the one phase of a HOLD, the two phases of a
PULSE cycle (R29), the element of a CARRIER by its place in the list (R43), the two phases of a SENSE (R56, R57). -/
inductive Phase where
  | whole | active | inactive | element (index : Nat) | discharge | release
  deriving DecidableEq, Repr

/-- Running segment progress (Table 1-1): the phase or element, the reference clocks elapsed in it (R23), and the
cycles or elements completed. -/
structure Progress where
  phase : Phase
  elapsed : Nat
  completed : Nat
  deriving DecidableEq, Repr

/-- The progress of no segment (Table 1-5: zero). -/
def Progress.zero : Progress := ⟨.whole, 0, 0⟩

/-- The staged amendment slot's content (R16). -/
structure Amendment where
  period : Word16
  active : Word16
  deriving DecidableEq, Repr

/-- The last-ended record, where present (R17). -/
structure LastEnded where
  outcome : SegOutcome
  starvedSince : Bool
  deriving DecidableEq, Repr

/-- The carrier generator of a line (R44). `atBoundary` says that the clock has brought a part of the carrier period to
its end at this instant, and that the generator has not passed to the next part yet (log 22). -/
structure CarrierGen where
  position : Nat
  period : Nat
  active : Nat
  running : Bool
  atBoundary : Bool
  deriving DecidableEq, Repr

/-- One line: its engine with the readback monitor, its claim list, and its pad input (Table 1-1, R69, R132). The
executing claim and the running segment are read from the claim list (`LineState.executing`, `LineState.running`
in Machine/Flags.lean). `startedAtEnd` is the condition of R113: the running segment started at this instant
because its predecessor ended at it. `mismatchAtEntry` is present where the mismatch timer ran when the entry to
SETUP at this instant cleared it, and is what it stood at where that had reached the window, else 0 (Table 9-1,
log 33). `faultForestalled` says that an event of this instant has cleared or restarted the mismatch timer where it stood
at its window, so that no fault of this instant follows (Table 9-1, log 37). -/
structure LineState where
  engine : EngineState
  progress : Progress
  startedAtEnd : Bool
  guardRemaining : Nat
  staged : Option Amendment
  lastEnded : Option LastEnded
  gen : CarrierGen
  senseCounter : Nat
  mismatch : Option Nat
  mismatchAtEntry : Option Nat
  faultForestalled : Bool
  faultCount : Nat
  arrivals : Word16
  claims : List Claim
  pad : PadLevel
  deriving DecidableEq, Repr

/-! ### Notices (Section 8) -/

/-- The results of a SENSE (Table 4-3). -/
inductive SenseResult where
  | count | timeout | aborted
  deriving DecidableEq, Repr

/-- The reasons of CLAIM_ENDED (Table 5-8). -/
inductive EndReason where
  | released | drained | lease | displacedLeaving | retired | reopen
  deriving DecidableEq, Repr

/-- The 17 notice kinds, each with the fields Table 8-3 gives it. -/
inductive NoticeBody where
  | segmentDone (line : LineNo) (label : Byte)
  | segmentEnded (line : LineNo) (label : Byte) (outcome : SegOutcome)
  | senseResult (line : LineNo) (label : Byte) (result : SenseResult) (value : Nat)
  | claimGranted (line : LineNo)
  | preempted (line : LineNo) (taker : HostNo)
  | claimEnded (line : LineNo) (reason : EndReason)
  | amendLost (line : LineNo)
  | lineFault (line : LineNo) (count : Nat)
  | faultCleared (line : LineNo) (host : HostNo)
  | lineRetired (line : LineNo)
  | supplyLow
  | supplyRestored
  | mapChanged (host : HostNo)
  | runEntered (attached : Nat)
  | setupEntered
  | reopenVote (cancel : Bool) (host : HostNo)
  | overflow (lost : Nat)
  deriving DecidableEq, Repr

/-- A notice record (Table 8-2). -/
structure Notice where
  seq : Byte
  body : NoticeBody
  delivered : Bool
  deriving DecidableEq, Repr

/-! ### Host ports (Sections 10 and 11) -/

/-- The port states of Table 10-5. HnPRES is high exactly where the state is not ABSENT. -/
inductive PortStatus where
  | absent | open | ready | attached | pending
  deriving DecidableEq, Repr

/-- The frame chosen at select (R163). -/
inductive FrameChoice where
  | reply | notReady
  deriving DecidableEq, Repr

/-- One host port with its notice queue (Tables 11-1 and 8-1). `transaction` is the transaction in progress with
the frame chosen at its select; `preparing` the reply in preparation, and `preparingClocks` the reference clocks
since its request was taken (R168). `selnLow` is the HnSELN pin. -/
structure Port where
  status : PortStatus
  vote : Bool
  selnLow : Bool
  transaction : Option FrameChoice
  rxBytes : List Byte
  rxBits : Nat
  reply : List Byte
  replyReady : Bool
  preparing : Option (List Byte)
  preparingClocks : Nat
  notices : List Notice
  nextSeq : Byte
  deriving DecidableEq, Repr

/-! ### Collections of eight lines and four ports -/

/-- Eight things of one kind, one for each line. -/
structure PerLine (α : Type) where
  l0 : α
  l1 : α
  l2 : α
  l3 : α
  l4 : α
  l5 : α
  l6 : α
  l7 : α
  deriving DecidableEq, Repr

/-- The thing of line `k`. -/
def PerLine.get {α : Type} (v : PerLine α) : LineNo → α
  | 0 => v.l0 | 1 => v.l1 | 2 => v.l2 | 3 => v.l3 | 4 => v.l4 | 5 => v.l5 | 6 => v.l6 | 7 => v.l7

/-- The eight things a function of the line gives. -/
def PerLine.ofFn {α : Type} (f : LineNo → α) : PerLine α := ⟨f 0, f 1, f 2, f 3, f 4, f 5, f 6, f 7⟩

/-- `v` with the thing of line `k` replaced. -/
def PerLine.set {α : Type} (v : PerLine α) (k : LineNo) (x : α) : PerLine α :=
  .ofFn fun j => if j = k then x else v.get j

/-- The eight things, L0 first. -/
def PerLine.toList {α : Type} (v : PerLine α) : List α := [v.l0, v.l1, v.l2, v.l3, v.l4, v.l5, v.l6, v.l7]

/-- Four things of one kind, one for each port. -/
structure PerPort (α : Type) where
  p0 : α
  p1 : α
  p2 : α
  p3 : α
  deriving DecidableEq, Repr

/-- The thing of port `p`. -/
def PerPort.get {α : Type} (v : PerPort α) : HostNo → α
  | 0 => v.p0 | 1 => v.p1 | 2 => v.p2 | 3 => v.p3

/-- The four things a function of the port gives. -/
def PerPort.ofFn {α : Type} (f : HostNo → α) : PerPort α := ⟨f 0, f 1, f 2, f 3⟩

/-- `v` with the thing of port `p` replaced. -/
def PerPort.set {α : Type} (v : PerPort α) (p : HostNo) (x : α) : PerPort α :=
  .ofFn fun q => if q = p then x else v.get q

/-- The four things, H0 first. -/
def PerPort.toList {α : Type} (v : PerPort α) : List α := [v.p0, v.p1, v.p2, v.p3]

/-! ### The device -/

/-- The device states of Table 10-4. -/
inductive DeviceState where
  | setup | run
  deriving DecidableEq, Repr

/-- The supply state (R139). -/
inductive Supply where
  | ok | low
  deriving DecidableEq, Repr

/-- The access map image: the cells that differ from the reset image, by rising offset (see Machine/Ops.lean,
"The access map image"). -/
abbrev Memory := List Host.Cell

/-- The state of the arbiter. `settle` is the settle timer, clear or its count of reference clocks (R139).
`orderCount` is the model's own: the occasion number handed to the free value `Config.orderChoice` (log 3).
`pending` is the queue of waiting commands, first in, first out. -/
structure State where
  device : DeviceState
  supply : Supply
  firstSettle : Bool
  settle : Option Nat
  map : Memory
  lines : PerLine LineState
  ports : PerPort Port
  orderCount : Nat
  pending : List Instr
  deriving DecidableEq, Repr

/-- The reasons a step can stop with a fault: none. No rule of the spec stops the arbiter; a readback fault is a
state of a line (R134 to R136). Nothing raises this, which is safe. -/
inductive Fault
  deriving DecidableEq, Repr

/-- The reasons a step can refuse. -/
inductive Refusal where
  /-- The command has no meaning in the model yet, by its mnemonic in the table. Raised by no arm of `exec`:
  every command has its meaning. Safe. -/
  | notModelled (mnemonic : String)
  deriving DecidableEq, Repr

/-! ### Device reset -/

/-- The carrier generator after device reset: stopped at position 0 (R47, Table 1-5). The period and active part
in use have no effect until a mark reads them afresh (R47): DESIGN CHOICE 0 (log 7). -/
def CarrierGen.reset : CarrierGen := ⟨0, 0, 0, false, false⟩

/-- A line after device reset (Table 1-5, R67, R89), with its pad input given: a reset does not change what the
pad reads. -/
def LineState.resetWith (pad : PadLevel) : LineState where
  engine := .idle
  progress := .zero
  startedAtEnd := false
  guardRemaining := 0
  staged := none
  lastEnded := none
  gen := .reset
  senseCounter := 0
  mismatch := none
  mismatchAtEntry := none
  faultForestalled := false
  faultCount := 0
  arrivals := 0
  claims := []
  pad := pad

/-- The NONE frame: status NONE (10h), tag 00h, an empty body, and its check byte (R161, Table 11-7). -/
def noneFrame : List Byte := [0x10, 0x00, 0x00, 0xA2]

/-- A port after device reset (R159, R161, R131), with its presence input and its select pin given: a reset does
not change the pins. -/
def Port.resetWith (present selnLow : Bool) : Port where
  status := if present then .open else .absent
  vote := false
  selnLow := selnLow
  transaction := none
  rxBytes := []
  rxBits := 0
  reply := noneFrame
  replyReady := true
  preparing := none
  preparingClocks := 0
  notices := []
  nextSeq := 0

/-- The arbiter right after device reset: R18, R89, R91, R117, R131, R140, R145, R159, R161. The inputs have no
reset value in the spec: every presence input low, every select high, every pad reading LOW (DESIGN CHOICE,
logs 6 and 7). The order counter starts at 0 (DESIGN CHOICE, log 3). -/
def State.reset : State where
  device := .setup
  supply := .low
  firstSettle := true
  settle := none
  map := []
  lines := .ofFn fun _ => .resetWith .low
  ports := .ofFn fun _ => .resetWith false false
  orderCount := 0
  pending := []

end Sys2Proof.Machine
end

