-- ==== Sys2Proof/Machine/Operands.lean ====
section
/-! DEFINITION. The byte layouts of 11 §11.9: enumerated bytes, two-byte quantities, the CRC-8 and CRC-16, request
and reply frames, the segment encoding, the notice encoding. Reading (for requests) and writing (for replies) stand
beside each other. -/

namespace Sys2Proof.Machine

/-! ### Two-byte quantities, most significant byte first (00 §0.5) -/

/-- The quantity carried by two bytes. -/
def word16 (hi lo : Byte) : Word16 := hi ++ lo

/-- The most significant byte of a quantity. -/
def hiByte (w : Word16) : Byte := w.extractLsb' 8 8

/-- The least significant byte of a quantity. -/
def loByte (w : Word16) : Byte := w.extractLsb' 0 8

/-- A quantity as the two bytes that carry it. -/
def word16Bytes (w : Word16) : List Byte := [hiByte w, loByte w]

/-- A count of at most 65535 as the two bytes that carry it. -/
def natBytes (n : Nat) : List Byte := word16Bytes (BitVec.ofNat 16 n)

/-- A yes or no indication, 00h or 01h. -/
def boolByte (b : Bool) : Byte := if b then 0x01 else 0x00

/-! ### Bits (R162) -/

/-- The eight bits of a byte in the order in which they travel, most significant bit first (R162). -/
def bitsOfByte (b : Byte) : List Bool := (List.range 8).map fun i => b.getLsbD (7 - i)

/-- A bit shifted in behind the bits of a byte received so far. -/
def shiftIn (b : Byte) (bit : Bool) : Byte := (b <<< 1) ||| (if bit then 0x01 else 0x00)

/-- The whole bytes among the bits sampled on HnDI, in order (R162, R164). -/
def bytesOfBits : List Bool → List Byte
  | b7 :: b6 :: b5 :: b4 :: b3 :: b2 :: b1 :: b0 :: rest =>
    [b7, b6, b5, b4, b3, b2, b1, b0].foldl shiftIn 0x00 :: bytesOfBits rest
  | _ => []

/-! ### Checks (R166, R175) -/

/-- One step of the CRC-8 of R166: shift toward the most significant bit; where the bit shifted out was 1,
combine with 07h. -/
def crc8Step (v : Byte) : Byte := if v.msb then (v <<< 1) ^^^ 0x07 else v <<< 1

/-- One byte taken into the CRC-8 value. -/
def crc8Byte (v b : Byte) : Byte := Nat.repeat crc8Step 8 (v ^^^ b)

/-- The CRC-8 of a run of bytes (R166). -/
def crc8 (bytes : List Byte) : Byte := bytes.foldl crc8Byte 0x00

/-- One step of the CRC-16 of R175. -/
def crc16Step (v : Word16) : Word16 := if v.msb then (v <<< 1) ^^^ 0x1021 else v <<< 1

/-- One byte taken into the most significant eight bits of the CRC-16 value. -/
def crc16Byte (v : Word16) (b : Byte) : Word16 := Nat.repeat crc16Step 8 (v ^^^ word16 b 0x00)

/-- The CRC-16 of a run of bytes, from FFFFh (R175). -/
def crc16 (bytes : List Byte) : Word16 := bytes.foldl crc16Byte 0xFFFF

/-! ### Enumerated bytes -/

/-- A line number 0 to 7; any other byte names no line. -/
def lineOfByte (b : Byte) : Option LineNo := if h : b.toNat < 8 then some ⟨b.toNat, h⟩ else none

/-- Cut mode 00h CYCLE, 01h SEGMENT. -/
def cutModeOfByte (b : Byte) : Option CutMode :=
  if b = 0x00 then some .cycle else if b = 0x01 then some .segment else none

def CutMode.toByte : CutMode → Byte
  | .cycle => 0x00 | .segment => 0x01

/-- Level 00h LOW, 01h HIGH, 02h FLOAT, 03h SAFE, in a rest level. -/
def restLevelOfByte (b : Byte) : Option RestLevel :=
  if b = 0x00 then some .low else if b = 0x01 then some .high else if b = 0x02 then some .float
  else if b = 0x03 then some .safe else none

def RestLevel.toByte : RestLevel → Byte
  | .low => 0x00 | .high => 0x01 | .float => 0x02 | .safe => 0x03

/-- Level 00h LOW, 01h HIGH, 02h FLOAT, in a HOLD; SAFE is not accepted there (R26). -/
def levelOfByte (b : Byte) : Option Level :=
  if b = 0x00 then some .low else if b = 0x01 then some .high else if b = 0x02 then some .float else none

def Level.toByte : Level → Byte
  | .low => 0x00 | .high => 0x01 | .float => 0x02

/-- Polarity 00h ACTIVE_HIGH, 01h ACTIVE_LOW. -/
def polarityOfByte (b : Byte) : Option Polarity :=
  if b = 0x00 then some .activeHigh else if b = 0x01 then some .activeLow else none

def Polarity.toByte : Polarity → Byte
  | .activeHigh => 0x00 | .activeLow => 0x01

/-- Source 00h CA, 01h CB (Table 11-12). -/
def sourceOfByte (b : Byte) : Option Source :=
  if b = 0x00 then some .ca else if b = 0x01 then some .cb else none

def Source.toByte : Source → Byte
  | .ca => 0x00 | .cb => 0x01

/-- Tap 00h T0 to 05h T5 (Table 11-11). -/
def tapOfByte (b : Byte) : Option Tap :=
  if b = 0x00 then some .t0 else if b = 0x01 then some .t1 else if b = 0x02 then some .t2
  else if b = 0x03 then some .t3 else if b = 0x04 then some .t4 else if b = 0x05 then some .t5 else none

def Tap.toByte : Tap → Byte
  | .t0 => 0x00 | .t1 => 0x01 | .t2 => 0x02 | .t3 => 0x03 | .t4 => 0x04 | .t5 => 0x05

/-- Reference clocks in one line tick of a tap (Table 0-2, R23). -/
def Tap.clocks : Tap → Nat
  | .t0 => 1 | .t1 => 4 | .t2 => 16 | .t3 => 64 | .t4 => 256 | .t5 => 1024

/-! ### Segments (Tables 11-11, 11-12) -/

/-- The list of `n` two-byte durations at the front of a run of bytes, with what follows them. -/
def takeDurations : Nat → List Byte → Option (List Word16 × List Byte)
  | 0, bytes => some ([], bytes)
  | n + 1, hi :: lo :: rest =>
    match takeDurations n rest with
    | some (ds, rest') => some (word16 hi lo :: ds, rest')
    | none => none
  | _ + 1, _ => none

/-- The kind-specific fields of a segment at the front of a run of bytes, with what follows them, where the
encoding is whole; `none` where it runs past the end, or holds a value outside a listed enumeration or range: R26
for HOLD, R28 for PULSE, R42 for CARRIER, R55 for SENSE (`join` is the segment's join field). -/
def takeBody (kind : Byte) (join : Bool) (bytes : List Byte) : Option (SegmentBody × List Byte) :=
  if kind = 0x00 then
    match bytes with
    | lv :: dhi :: dlo :: rest => (levelOfByte lv).map fun level => (.hold level (word16 dhi dlo), rest)
    | _ => none
  else if kind = 0x01 then
    match bytes with
    | phi :: plo :: ahi :: alo :: pol :: chi :: clo :: rest =>
      match polarityOfByte pol with
      | none => none
      | some polarity =>
        if 2 ≤ (word16 phi plo).toNat ∧ (word16 ahi alo).toNat ≤ (word16 phi plo).toNat then
          some (.pulse (word16 phi plo) (word16 ahi alo) polarity (word16 chi clo), rest)
        else none
    | _ => none
  else if kind = 0x02 then
    match bytes with
    | src :: pol :: n :: rest =>
      match sourceOfByte src, polarityOfByte pol, takeDurations n.toNat rest with
      | some source, some polarity, some (ds, rest') =>
        if 1 ≤ n.toNat ∧ n.toNat ≤ 12 ∧ ds.all (fun d => decide (d ≠ 0)) then
          some (.carrier source polarity ds, rest')
        else none
      | _, _, _ => none
    | _ => none
  else if kind = 0x03 then
    match bytes with
    | dhi :: dlo :: lhi :: llo :: rest =>
      if word16 dhi dlo ≠ 0 ∧ word16 lhi llo ≠ 0 ∧ join = false then
        some (.sense (word16 dhi dlo) (word16 lhi llo), rest)
      else none
    | _ => none
  else none

/-- The segment at the front of a run of bytes, with what follows it: kind, label, tap, flags (bit 0 join, bit 1
notify, bit 2 policy; bits 7 to 3 clear), then the kind-specific part (Tables 11-11, 11-12, R22). -/
def takeSegment : List Byte → Option (Segment × List Byte)
  | kind :: label :: tapByte :: flags :: rest =>
    match tapOfByte tapByte with
    | none => none
    | some tap =>
      if flags.toNat < 8 then
        match takeBody kind (flags.getLsbD 0) rest with
        | some (body, rest') =>
          some (⟨label, tap, flags.getLsbD 0, flags.getLsbD 1, if flags.getLsbD 2 then .drop else .restart, body⟩, rest')
        | none => none
      else none
  | _ => none

/-- The `n` segments of a SUBMIT body in list order, or the place in the list of the first that fails, counted from
`place`; bytes left over after the last give place 0 (R107, R174). A body that has both is answered with the place of
the segment: the model's choice (log 28), since R107 and R174 do not order the two. -/
def takeSegments : Nat → Nat → List Byte → Except Nat (List Segment)
  | _, 0, bytes => if bytes.isEmpty then .ok [] else .error 0
  | place, n + 1, bytes =>
    match takeSegment bytes with
    | none => .error place
    | some (seg, rest) =>
      match takeSegments (place + 1) n rest with
      | .ok segs => .ok (seg :: segs)
      | .error p => .error p

/-- The flags byte of a segment (Table 11-11). -/
def Segment.flagsByte (g : Segment) : Byte :=
  (if g.join then 0x01 else 0x00) ||| (if g.notify then 0x02 else 0x00)
    ||| (match g.policy with | .restart => 0x00 | .drop => 0x04)

/-- The kind byte of a segment (Table 11-11). -/
def SegmentBody.kindByte : SegmentBody → Byte
  | .hold _ _ => 0x00 | .pulse _ _ _ _ => 0x01 | .carrier _ _ _ => 0x02 | .sense _ _ => 0x03

/-- The kind-specific part of a segment as its bytes (Table 11-12). -/
def SegmentBody.bytes : SegmentBody → List Byte
  | .hold level d => level.toByte :: word16Bytes d
  | .pulse p a pol c => word16Bytes p ++ word16Bytes a ++ pol.toByte :: word16Bytes c
  | .carrier src pol ds => src.toByte :: pol.toByte :: BitVec.ofNat 8 ds.length :: (ds.map word16Bytes).flatten
  | .sense d l => word16Bytes d ++ word16Bytes l

/-- A segment as its bytes (Tables 11-11, 11-12). -/
def Segment.bytes (g : Segment) : List Byte :=
  g.body.kindByte :: g.label :: g.tap.toByte :: g.flagsByte :: g.body.bytes

/-- The values of the kind-specific fields that R26, R28, R42 and R55 accept. -/
def Segment.valid (g : Segment) : Bool :=
  match g.body with
  | .hold _ _ => true
  | .pulse p a _ _ => decide (2 ≤ p.toNat ∧ a.toNat ≤ p.toNat)
  | .carrier _ _ ds => decide (1 ≤ ds.length ∧ ds.length ≤ 12) && ds.all (fun d => decide (d ≠ 0))
  | .sense d l => decide (d ≠ 0 ∧ l ≠ 0) && !g.join

/-! ### Requests and their frames (Tables 11-2, 11-6, 11-8) -/

/-- The names of the 18 requests (Table 11-8). -/
inductive RequestName where
  | nop | deviceStatus | lineStatus | fetch | readMap | digest | writeMap | ready | attach | reopen | detach
  | claim | release | renew | submit | flush | amend | clearFault
  deriving DecidableEq, Repr

/-- A request with the fields of its body. -/
inductive Request where
  | nop
  | deviceStatus
  | lineStatus (line : Byte)
  | fetch (maximum : Byte) (ack : Option Byte)
  | readMap (offset length : Byte)
  | digest
  | writeMap (offset : Byte) (bytes : List Byte)
  | ready (digest : Word16)
  | attach (digest : Word16)
  | reopen (choice : Byte)
  | detach
  | claim (line cutMode option restLevel : Byte) (lease : Word16)
  | release (line option : Byte)
  | renew (selector : Byte) (newLease : Option Word16)
  | submit (line count : Byte) (segments : List Byte)
  | flush (line scope label cut : Byte)
  | amend (line : Byte) (period active : Word16)
  | clearFault (line : Byte)
  deriving DecidableEq, Repr

def Request.name : Request → RequestName
  | .nop => .nop | .deviceStatus => .deviceStatus | .lineStatus _ => .lineStatus | .fetch _ _ => .fetch
  | .readMap _ _ => .readMap | .digest => .digest | .writeMap _ _ => .writeMap | .ready _ => .ready
  | .attach _ => .attach | .reopen _ => .reopen | .detach => .detach | .claim _ _ _ _ _ => .claim
  | .release _ _ => .release | .renew _ _ => .renew | .submit _ _ _ => .submit | .flush _ _ _ _ => .flush
  | .amend _ _ _ => .amend | .clearFault _ => .clearFault

/-- The request code of Table 11-8. -/
def RequestName.code : RequestName → Byte
  | .nop => 0x01 | .deviceStatus => 0x02 | .lineStatus => 0x03 | .fetch => 0x04 | .readMap => 0x08
  | .digest => 0x09 | .writeMap => 0x0A | .ready => 0x0B | .attach => 0x0C | .reopen => 0x0D | .detach => 0x0E
  | .claim => 0x10 | .release => 0x11 | .renew => 0x12 | .submit => 0x18 | .flush => 0x19 | .amend => 0x1A
  | .clearFault => 0x1B

/-- The request a code names, where Table 11-8 lists it. -/
def requestOfCode (b : Byte) : Option RequestName :=
  match b.toNat with
  | 0x01 => some .nop | 0x02 => some .deviceStatus | 0x03 => some .lineStatus | 0x04 => some .fetch
  | 0x08 => some .readMap | 0x09 => some .digest | 0x0A => some .writeMap | 0x0B => some .ready
  | 0x0C => some .attach | 0x0D => some .reopen | 0x0E => some .detach | 0x10 => some .claim
  | 0x11 => some .release | 0x12 => some .renew | 0x18 => some .submit | 0x19 => some .flush
  | 0x1A => some .amend | 0x1B => some .clearFault | _ => none

/-- Whether a request is taken in a port state (Table 11-2, R170). -/
def RequestName.takenIn : RequestName → PortStatus → Bool
  | .nop, st | .deviceStatus, st | .lineStatus, st | .fetch, st | .readMap, st | .digest, st => st != .absent
  | .writeMap, st => st == .open || st == .ready
  | .ready, st => st == .open
  | .attach, st => st == .pending
  | .reopen, st | .detach, st | .claim, st | .release, st | .renew, st | .submit, st | .flush, st | .amend, st =>
    st == .attached
  | .clearFault, st => st == .open || st == .ready || st == .attached

/-- The fields of a request's body, where its length is one the layout allows (Table 11-8). -/
def parseBody (name : RequestName) (body : List Byte) : Option Request :=
  match name with
  | .nop => if body.isEmpty then some .nop else none
  | .deviceStatus => if body.isEmpty then some .deviceStatus else none
  | .digest => if body.isEmpty then some .digest else none
  | .detach => if body.isEmpty then some .detach else none
  | .lineStatus => match body with | [line] => some (.lineStatus line) | _ => none
  | .clearFault => match body with | [line] => some (.clearFault line) | _ => none
  | .reopen => match body with | [choice] => some (.reopen choice) | _ => none
  | .fetch =>
    match body with
    | [maximum] => some (.fetch maximum none)
    | [maximum, ack] => some (.fetch maximum (some ack))
    | _ => none
  | .readMap => match body with | [offset, length] => some (.readMap offset length) | _ => none
  | .release => match body with | [line, option] => some (.release line option) | _ => none
  | .ready => match body with | [hi, lo] => some (.ready (word16 hi lo)) | _ => none
  | .attach => match body with | [hi, lo] => some (.attach (word16 hi lo)) | _ => none
  | .renew =>
    match body with
    | [selector] => some (.renew selector none)
    | [selector, hi, lo] => some (.renew selector (some (word16 hi lo)))
    | _ => none
  | .flush => match body with | [line, scope, label, cut] => some (.flush line scope label cut) | _ => none
  | .amend =>
    match body with
    | [line, phi, plo, ahi, alo] => some (.amend line (word16 phi plo) (word16 ahi alo))
    | _ => none
  | .claim =>
    match body with
    | [line, cutMode, option, restLevel, hi, lo] => some (.claim line cutMode option restLevel (word16 hi lo))
    | _ => none
  | .writeMap =>
    match body with
    | offset :: bytes => if 1 ≤ bytes.length ∧ bytes.length ≤ 56 then some (.writeMap offset bytes) else none
    | [] => none
  | .submit =>
    match body with
    | line :: count :: segments =>
      if 1 ≤ segments.length ∧ segments.length ≤ 58 then some (.submit line count segments) else none
    | _ => none

/-- A request's body as its bytes (Table 11-8). -/
def Request.body : Request → List Byte
  | .nop | .deviceStatus | .digest | .detach => []
  | .lineStatus line | .clearFault line => [line]
  | .fetch maximum none => [maximum]
  | .fetch maximum (some ack) => [maximum, ack]
  | .readMap offset length => [offset, length]
  | .writeMap offset bytes => offset :: bytes
  | .ready d | .attach d => word16Bytes d
  | .reopen choice => [choice]
  | .claim line cutMode option restLevel lease => line :: cutMode :: option :: restLevel :: word16Bytes lease
  | .release line option => [line, option]
  | .renew selector none => [selector]
  | .renew selector (some v) => selector :: word16Bytes v
  | .submit line count segments => line :: count :: segments
  | .flush line scope label cut => [line, scope, label, cut]
  | .amend line period active => line :: (word16Bytes period ++ word16Bytes active)

/-- Whether the body has a length Table 11-8 allows. Only the two requests with a variable part can fail. -/
def Request.lengthOk : Request → Bool
  | .writeMap _ bytes => decide (1 ≤ bytes.length ∧ bytes.length ≤ 56)
  | .submit _ _ segments => decide (1 ≤ segments.length ∧ segments.length ≤ 58)
  | _ => true

/-- A request frame (Table 11-6): code, tag, body length, body, check. -/
def Request.frame (r : Request) (tag : Byte) : List Byte :=
  let front := r.name.code :: tag :: BitVec.ofNat 8 r.body.length :: r.body
  front ++ [crc8 front]

/-- A received transaction as R165 reads it. -/
inductive Received where
  | framing
  | checkError
  | frame (code tag : Byte) (body : List Byte)
  deriving DecidableEq, Repr

/-- The bytes of a transaction examined as a request frame, first by the framing tests of R165 and then by the
check. `bits` is the number of bits of a byte not completed. -/
def receive (bytes : List Byte) (bits : Nat) : Received :=
  match bytes with
  | code :: tag :: len :: rest =>
    if bits ≠ 0 ∨ 60 < len.toNat ∨ rest.length < len.toNat + 1 ∨ 61 < rest.length
        ∨ (rest.drop (len.toNat + 1)).any (fun b => decide (b ≠ 0x00)) then
      .framing
    else if crc8 (code :: tag :: len :: rest.take len.toNat) = rest.getD len.toNat 0x00 then
      .frame code tag (rest.take len.toNat)
    else .checkError
  | _ => .framing

/-! ### Replies (Tables 11-7, 11-9) -/

/-- The statuses of Table 11-3. -/
inductive Status where
  | ok | granted | waiting | taking | staged | none | notReady | checkError | framing | unknown | wrongState
  | notPermitted | held | duplicate | noClaim | notHolder | leaving | storeFull | invalid | retired | notFaulted
  | mapMismatch | mapInvalid | badAck
  deriving DecidableEq, Repr

/-- The status codes of Table 11-9. -/
def Status.code : Status → Byte
  | .ok => 0x00 | .granted => 0x01 | .waiting => 0x02 | .taking => 0x03 | .staged => 0x04
  | .none => 0x10 | .notReady => 0x11 | .checkError => 0x12 | .framing => 0x13 | .unknown => 0x14
  | .wrongState => 0x15 | .notPermitted => 0x20 | .held => 0x21 | .duplicate => 0x22 | .noClaim => 0x23
  | .notHolder => 0x24 | .leaving => 0x25 | .storeFull => 0x26 | .invalid => 0x27 | .retired => 0x28
  | .notFaulted => 0x29 | .mapMismatch => 0x2A | .mapInvalid => 0x2B | .badAck => 0x2C

/-- What a request is answered: a status and a body (R168). -/
structure Reply where
  status : Status
  body : List Byte
  deriving DecidableEq, Repr

/-- A reply with an empty body. -/
def Reply.plain (status : Status) : Reply := ⟨status, []⟩

/-- A reply frame (Table 11-7): status code, tag, body length, body, check (R166). -/
def Reply.frame (r : Reply) (tag : Byte) : List Byte :=
  let front := r.status.code :: tag :: BitVec.ofNat 8 r.body.length :: r.body
  front ++ [crc8 front]

/-- The NOT_READY frame: status NOT_READY, tag 00h, an empty body (R163). -/
def notReadyFrame : List Byte := (Reply.plain .notReady).frame 0x00

/-! ### Encoded states (Table 11-10) -/

def EngineState.toByte : EngineState → Byte
  | .idle => 0x00 | .running => 0x01 | .starved => 0x02 | .guard => 0x03 | .faulted => 0x04 | .retired => 0x05
  | .halted => 0x06

def PortStatus.toByte : PortStatus → Byte
  | .absent => 0x00 | .open => 0x01 | .ready => 0x02 | .attached => 0x03 | .pending => 0x04

def DeviceState.toByte : DeviceState → Byte
  | .setup => 0x00 | .run => 0x01

def Supply.toByte : Supply → Byte
  | .ok => 0x00 | .low => 0x01

def ClaimState.toByte : ClaimState → Byte
  | .waiting => 0x00 | .taking => 0x01 | .holding => 0x02 | .yielding => 0x03 | .leaving _ => 0x04 | .ending _ => 0x05

/-- The ending cause of a claim entry: 00h none, 01h RELEASED, 02h LEASE, 03h DEPARTED. -/
def ClaimState.causeByte : ClaimState → Byte
  | .ending .released => 0x01 | .ending .lease => 0x02 | .ending .departed => 0x03
  | .waiting | .taking | .holding | .yielding | .leaving _ => 0x00

/-- Whether a claim entry shows a displaced LEAVING claim. -/
def ClaimState.displacedByte : ClaimState → Byte
  | .leaving d => boolByte d
  | .waiting | .taking | .holding | .yielding | .ending _ => 0x00

/-- A host number as a byte. -/
def hostByte (h : HostNo) : Byte := BitVec.ofNat 8 h.val

/-- A line number as a byte. -/
def lineByte (k : LineNo) : Byte := BitVec.ofNat 8 k.val

/-! ### Notices (Table 11-13) -/

def SegOutcome.toByte : SegOutcome → Byte
  | .cutDropped => 0x01 | .stopped => 0x02 | .fault => 0x03 | .supply => 0x04 | .late => 0x05 | .brokenChain => 0x06
  | .done | .cutKept | .flushed | .withdrawn => 0x00

def SenseResult.toByte : SenseResult → Byte
  | .count => 0x10 | .timeout => 0x11 | .aborted => 0x12

def EndReason.toByte : EndReason → Byte
  | .released => 0x20 | .drained => 0x21 | .lease => 0x22 | .displacedLeaving => 0x23 | .retired => 0x24
  | .reopen => 0x25

/-- The fields of a notice as Table 8-3 gives them for its kind: kind byte, line, label, reason or outcome, value;
an absent field is `none`. -/
structure NoticeFields where
  kind : Byte
  line : Option LineNo
  label : Option Byte
  reason : Option Byte
  value : Option Nat
  deriving DecidableEq, Repr

def NoticeBody.fields : NoticeBody → NoticeFields
  | .segmentDone k l => ⟨0x01, some k, some l, none, none⟩
  | .segmentEnded k l o => ⟨0x02, some k, some l, some o.toByte, none⟩
  | .senseResult k l r v => ⟨0x03, some k, some l, some r.toByte, some v⟩
  | .claimGranted k => ⟨0x04, some k, none, none, none⟩
  | .preempted k h => ⟨0x05, some k, none, none, some h.val⟩
  | .claimEnded k r => ⟨0x06, some k, none, some r.toByte, none⟩
  | .amendLost k => ⟨0x07, some k, none, none, none⟩
  | .lineFault k n => ⟨0x08, some k, none, none, some n⟩
  | .faultCleared k h => ⟨0x09, some k, none, none, some h.val⟩
  | .lineRetired k => ⟨0x0A, some k, none, none, none⟩
  | .supplyLow => ⟨0x0B, none, none, none, none⟩
  | .supplyRestored => ⟨0x0C, none, none, none, none⟩
  | .mapChanged h => ⟨0x0D, none, none, none, some h.val⟩
  | .runEntered n => ⟨0x0E, none, none, none, some n⟩
  | .setupEntered => ⟨0x0F, none, none, none, none⟩
  | .reopenVote cancel h => ⟨0x10, none, none, some (if cancel then 0x31 else 0x30), some h.val⟩
  | .overflow n => ⟨0x11, none, none, none, some n⟩

/-- The flags byte of a notice: bit 0 delivered before this FETCH, bits 1 to 4 set where line, label, reason and
value are present (Table 11-13). -/
def Notice.flagsByte (n : Notice) : Byte :=
  (if n.delivered then 0x01 else 0x00) ||| (if n.body.fields.line.isSome then 0x02 else 0x00)
    ||| (if n.body.fields.label.isSome then 0x04 else 0x00) ||| (if n.body.fields.reason.isSome then 0x08 else 0x00)
    ||| (if n.body.fields.value.isSome then 0x10 else 0x00)

/-- The 8 bytes of a notice (Table 11-13); absent fields are 00h (R174). -/
def Notice.bytes (n : Notice) : List Byte :=
  [n.seq, n.body.fields.kind, n.flagsByte, (n.body.fields.line.map lineByte).getD 0x00,
    n.body.fields.label.getD 0x00, n.body.fields.reason.getD 0x00] ++ natBytes (n.body.fields.value.getD 0)

end Sys2Proof.Machine
end

