-- ==== Sys2Proof/Machine/Flags.lean ====
section
/-! DEFINITION. What the state shows without holding it as a field of its own: the executing claim, the running
segment, the driven level and whether it is checked, the pad comparison, the carrier output, in-use counts, ATTN and
the bytes a port shifts out. -/

namespace Sys2Proof.Machine

/-! ### The claim list (R4, R69, R70) -/

/-- HOLDING, YIELDING, LEAVING and ENDING are the executing states (Table 5-2). -/
def ClaimState.isExecuting : ClaimState → Bool
  | .holding | .yielding | .leaving _ | .ending _ => true
  | .waiting | .taking => false

/-- Whether a claim is ENDING. -/
def ClaimState.isEnding : ClaimState → Bool
  | .ending _ => true
  | .waiting | .taking | .holding | .yielding | .leaving _ => false

/-- The executing claim of a line, where it has one (R4). -/
def LineState.executing (L : LineState) : Option Claim := L.claims.find? fun c => c.state.isExecuting

/-- The claim of a host on a line, where it has one; a list holds at most one of each host (R69). -/
def LineState.claimOf (L : LineState) (h : HostNo) : Option Claim := L.claims.find? fun c => c.host == h

/-- The running segment: the front of the executing claim's queue, while the engine is RUNNING (R5, R106). -/
def LineState.running (L : LineState) : Option Segment :=
  match L.engine with
  | .running => (L.executing.bind fun c => c.queue.head?).map Entry.seg
  | .idle | .starved | .guard | .faulted | .retired | .halted => none

/-- The lease remaining of a claim in reference clocks: the lease value less the elapsed time (R91). -/
def Claim.leaseRemaining (c : Claim) : Nat := c.leaseValue.toNat * Config.clocksPerMs - c.leaseElapsed

/-! ### What an engine reads of the rest of the arbiter -/

/-- A carrier source setting (R44). -/
structure CarrierSetting where
  period : Nat
  active : Nat
  deriving DecidableEq, Repr

/-- What a line reads at an instant: its number, its line setting (Table 10-2), the carrier sources, the device and
supply states, and whether the first settle is still running (R140). -/
structure LineCtx where
  line : LineNo
  safe : Level
  guard : Nat
  window : Nat
  check : Bool
  ca : CarrierSetting
  cb : CarrierSetting
  device : DeviceState
  supply : Supply
  firstSettle : Bool
  deriving DecidableEq, Repr

/-- The setting of the source a record names (R44). -/
def LineCtx.setting (ctx : LineCtx) : Source → CarrierSetting
  | .ca => ctx.ca
  | .cb => ctx.cb

/-! ### The driven level (R1, R2, R3) -/

/-- A driven level with the statement whether it is checked (R3). -/
structure Drive where
  level : Level
  checked : Bool
  deriving DecidableEq, Repr

/-- A steady level, checked where it is LOW or HIGH (Table 1-3: IDLE, GUARD, STARVED, HOLD). -/
def Drive.steady (level : Level) : Drive := ⟨level, level != .float⟩

/-- FLOAT, unchecked (FAULTED, RETIRED, HALTED, and the release phase of a SENSE). -/
def Drive.floating : Drive := ⟨.float, false⟩

/-- A rest level with SAFE resolved (R9). -/
def RestLevel.resolve (safe : Level) : RestLevel → Level
  | .low => .low | .high => .high | .float => .float | .safe => safe

/-- The level of the active phase or part (R29, R46). -/
def Polarity.activeLevel : Polarity → Level
  | .activeHigh => .high | .activeLow => .low

/-- The level of the inactive phase or part, and the idle level of a CARRIER (R29, R46). -/
def Polarity.inactiveLevel : Polarity → Level
  | .activeHigh => .low | .activeLow => .high

/-- Whether an element of a CARRIER is a mark: the entries at odd positions, counted from the first, that is, at
even indexes counted from 0 (R42). -/
def isMark (index : Nat) : Bool := index % 2 == 0

/-- The level the running segment calls for in its current phase or element, and whether it is checked (R2,
Table 1-3). -/
def segmentDrive (g : Segment) (p : Progress) (gen : CarrierGen) : Drive :=
  match g.body with
  | .hold level _ => .steady level
  | .pulse _ _ pol _ => ⟨if p.phase = .active then pol.activeLevel else pol.inactiveLevel, true⟩
  | .carrier _ pol _ =>
    ⟨if gen.running && decide (gen.position < gen.active) then pol.activeLevel else pol.inactiveLevel, false⟩
  | .sense _ _ => if p.phase = .release then .floating else ⟨.low, true⟩

/-- The level a line drives and whether it is checked (Table 1-2, Table 1-3). During the first settle an IDLE
engine drives FLOAT whatever safe level the map holds (R140). -/
def LineState.drive (ctx : LineCtx) (L : LineState) : Drive :=
  match L.engine with
  | .idle => if ctx.firstSettle then .floating else .steady ctx.safe
  | .guard => .steady ctx.safe
  | .starved => .steady (((L.executing.map Claim.restLevel).getD .safe).resolve ctx.safe)
  | .running =>
    match L.running with
    | some g => segmentDrive g L.progress L.gen
    | none => .steady ctx.safe
  | .faulted | .retired | .halted => .floating

/-! ### Readback (R132) -/

/-- Whether the monitor compares the pad: check enable on, the driven level checked, and LOW or HIGH. -/
def Drive.compared (check : Bool) (d : Drive) : Bool := check && d.checked && d.level != .float

/-- Whether a pad reading mismatches a driven level: a driven LOW whenever the pad does not read LOW, a driven HIGH
whenever it does not read HIGH. FLOAT is never compared. -/
def padMismatches (pad : PadLevel) : Level → Bool
  | .low => pad != .low
  | .high => pad != .high
  | .float => false

/-- The reading that matches a driven level; a driven FLOAT leaves the pad as it reads. -/
def padMatching (pad : PadLevel) : Level → PadLevel
  | .low => .low
  | .high => .high
  | .float => pad

/-! ### The store (R105) -/

/-- The entries in use of a host on one line. -/
def LineState.inUse (L : LineState) (h : HostNo) : Nat :=
  ((L.claims.filter fun c => c.host == h).map fun c => c.queue.length).sum

/-- The in-use count of a host: the entries in use that hold its segments, in every condition and on every line
(R105). -/
def State.inUse (s : State) (h : HostNo) : Nat := (s.lines.toList.map fun L => L.inUse h).sum

/-- The condition of an entry in use (R104). -/
inductive EntryCondition where
  | queued | running | kept
  deriving DecidableEq, Repr

/-- The condition of the entry at place `i` of a claim's queue on a line (R104). -/
def LineState.condition (L : LineState) (c : Claim) (i : Nat) (e : Entry) : EntryCondition :=
  if L.engine = .running ∧ c.state.isExecuting ∧ i = 0 then .running else if e.kept then .kept else .queued

/-! ### Outputs of a port (R129, R162) -/

/-- The ATTN output: high while the queue holds a notice whose delivered mark is clear (R129). -/
def Port.attn (P : Port) : Bool := P.notices.any fun n => !n.delivered

/-- The frame a port shifts out while selected (R163). -/
def Port.outFrame (P : Port) : Option (List Byte) :=
  P.transaction.map fun
    | .reply => P.reply
    | .notReady => notReadyFrame

/-- The `i`-th byte a port shifts out: while it is present and selected, the frame chosen at select, then 00h; where no
transaction was begun by that select, a free value at occasion `n` (R162, log 32). HnDO is at high impedance otherwise
(`none`). -/
def Port.outByte (n : Nat) (P : Port) (i : Nat) : Option Byte :=
  if P.status = .absent ∨ P.selnLow = false then none
  else match P.outFrame with
    | some f => some (f.getD i 0x00)
    | none => some (Config.unframedByte n i)

/-- The `i`-th byte port `p` of the arbiter shifts out. -/
def State.outByte (s : State) (p : HostNo) (i : Nat) : Option Byte := (s.ports.get p).outByte s.orderCount i

/-- HnDO after `j` falling edges of HnCLK since the select: the bits of the bytes, most significant first (R162). -/
def State.outBit (s : State) (p : HostNo) (j : Nat) : Option Bool :=
  (s.outByte p (j / 8)).map fun b => b.getLsbD (7 - j % 8)

/-- Whether a port receives notices (R120, Table 10-5). -/
def PortStatus.receives : PortStatus → Bool
  | .open | .ready | .attached => true
  | .absent | .pending => false

end Sys2Proof.Machine
end

