-- ==== Sys2Proof/Machine/Ops.lean ====
section
/-! DEFINITION. The named operations over the access map image, the notice queues and the ports that the meanings
share: reading and writing the image, the map's fields, posting a notice, merging the notices of several lines,
answering a request. -/

namespace Sys2Proof.Machine

/-! ### The access map image -/

/-- The image after device reset (Table 10-3, Table 11-14): what an offset reads as while it is not listed. -/
def mapDefault (a : Nat) : Byte :=
  if a < 4 then 0x00
  else if a < 100 then (if (a - 4) % 3 = 0 then 0x00 else if (a - 4) % 3 = 1 then 0x03 else 0xE8)
  else if a < 124 then (if (a - 100) % 3 = 0 then 0x82 else if (a - 100) % 3 = 1 then 0x00 else 0x10)
  else match a - 124 with
    | 1 => 0xD3 | 3 => 0x46 | 5 => 0x8C | 7 => 0x2F
    | _ => 0x00

/-- The byte at an offset. -/
def Memory.read : Memory → Nat → Byte
  | [], a => mapDefault a
  | c :: m, a => if c.1 = a then c.2 else Memory.read m a

/-- A cell placed at its offset; a byte equal to the reset image's removes the entry. -/
def Memory.write : Memory → Nat → Byte → Memory
  | [], a, b => if b = mapDefault a then [] else [(a, b)]
  | c :: m, a, b =>
    if a < c.1 then (if b = mapDefault a then c :: m else (a, b) :: c :: m)
    else if a = c.1 then (if b = mapDefault a then m else (a, b) :: m)
    else c :: Memory.write m a b

/-- Bytes placed from an offset on. -/
def Memory.writeAll (m : Memory) (a : Nat) : List Byte → Memory
  | [] => m
  | b :: bs => Memory.writeAll (m.write a b) (a + 1) bs

/-- Whether every listed offset is at least `lo`, the offsets strictly rise, none reaches beyond the image, and no
entry equals what an unlisted offset reads as. -/
def Memory.wfFrom (lo : Nat) : Memory → Bool
  | [] => true
  | c :: m =>
    decide (lo ≤ c.1 ∧ c.1 < Config.mapBytes ∧ c.2 ≠ mapDefault c.1) && Memory.wfFrom (c.1 + 1) m

/-- The canonical form of the image. -/
def Memory.wf (m : Memory) : Bool := m.wfFrom 0

/-- `n` bytes read from an offset on. -/
def Memory.readRange (m : Memory) (a : Nat) : Nat → List Byte
  | 0 => []
  | n + 1 => m.read a :: Memory.readRange m (a + 1) n

/-- The digest of the map: the CRC-16 of the 132 bytes in offset order (R175). -/
def Memory.digest (m : Memory) : Word16 := crc16 (m.readRange 0 Config.mapBytes)

/-! ### The fields of the map (Table 10-1, Table 11-14) -/

/-- The quota of a host: the byte at offset h (R105). -/
def quota (m : Memory) (h : HostNo) : Nat := (m.read h.val).toNat

/-- The sum of the four quotas (R144, R151). -/
def quotaSum (m : Memory) : Nat := quota m 0 + quota m 1 + quota m 2 + quota m 3

/-- The offset of the cell of a host and a line (Table 10-1). -/
def cellOffset (h : HostNo) (k : LineNo) : Nat := 4 + 3 * (8 * h.val + k.val)

/-- Permission: bit 7 of a cell's first byte. -/
def permitted (m : Memory) (h : HostNo) (k : LineNo) : Bool := (m.read (cellOffset h k)).getLsbD 7

/-- May-cut: bit 6 of a cell's first byte. -/
def mayCut (m : Memory) (h : HostNo) (k : LineNo) : Bool := (m.read (cellOffset h k)).getLsbD 6

/-- Priority: bits 2 to 0 of a cell's first byte. -/
def cellPriority (m : Memory) (h : HostNo) (k : LineNo) : Nat := (m.read (cellOffset h k)).toNat % 8

/-- Lease limit: a cell's second and third bytes, in ms. -/
def leaseLimit (m : Memory) (h : HostNo) (k : LineNo) : Word16 :=
  word16 (m.read (cellOffset h k + 1)) (m.read (cellOffset h k + 2))

/-- The offset of the setting of a line (Table 10-1). -/
def settingOffset (k : LineNo) : Nat := 100 + 3 * k.val

/-- Safe level: bits 1 to 0 of a line setting's first byte, 0 LOW, 1 HIGH, 2 FLOAT. -/
def safeLevel (m : Memory) (k : LineNo) : Level :=
  match (m.read (settingOffset k)).toNat % 4 with
  | 0 => .low
  | 1 => .high
  | _ => .float

/-- Check enable: bit 7 of a line setting's first byte. -/
def checkEnable (m : Memory) (k : LineNo) : Bool := (m.read (settingOffset k)).getLsbD 7

/-- Guard, in guard units: a line setting's second byte. -/
def guardUnits (m : Memory) (k : LineNo) : Nat := (m.read (settingOffset k + 1)).toNat

/-- Fault window, in µs: a line setting's third byte. -/
def faultWindow (m : Memory) (k : LineNo) : Nat := (m.read (settingOffset k + 2)).toNat

/-- A carrier source: period and active, two bytes each, CA at 124 and CB at 128. -/
def carrierSetting (m : Memory) : Source → CarrierSetting
  | .ca => ⟨(word16 (m.read 124) (m.read 125)).toNat, (word16 (m.read 126) (m.read 127)).toNat⟩
  | .cb => ⟨(word16 (m.read 128) (m.read 129)).toNat, (word16 (m.read 130) (m.read 131)).toNat⟩

/-- The items of the image: the offset of the first byte and the size of each (Table 10-1). -/
def mapItems : List (Nat × Nat) :=
  [(0, 1), (1, 1), (2, 1), (3, 1)] ++ (List.range 32).map (fun i => (4 + 3 * i, 3))
    ++ (List.range 8).map (fun k => (100 + 3 * k, 3)) ++ [(124, 4), (128, 4)]

/-- Whether the fields of the item at an offset lie within their ranges (Table 10-2, Table 11-14: the bits the
table gives no field are clear). -/
def itemValid (m : Memory) (a : Nat) : Bool :=
  if a < 4 then true
  else if a < 100 then
    decide ((m.read a).toNat / 8 % 8 = 0) && decide (word16 (m.read (a + 1)) (m.read (a + 2)) ≠ 0)
  else if a < 124 then
    decide ((m.read a).toNat / 4 % 32 = 0 ∧ (m.read a).toNat % 4 ≠ 3) && decide (m.read (a + 2) ≠ 0x00)
  else
    let period := (word16 (m.read a) (m.read (a + 1))).toNat
    let active := (word16 (m.read (a + 2)) (m.read (a + 3))).toNat
    decide (2 ≤ period ∧ period ≤ 4095 ∧ 1 ≤ active ∧ active ≤ period - 1)

/-- Every item of the map holds values within its ranges (R144). -/
def mapValid (m : Memory) : Bool := mapItems.all fun i => itemValid m i.1

/-- What line `k` reads of the arbiter at this instant. -/
def State.ctx (s : State) (k : LineNo) : LineCtx where
  line := k
  safe := safeLevel s.map k
  guard := guardUnits s.map k
  window := faultWindow s.map k
  check := checkEnable s.map k
  ca := carrierSetting s.map .ca
  cb := carrierSetting s.map .cb
  device := s.device
  supply := s.supply
  firstSettle := s.firstSettle

/-! ### Notice queues (R118 to R123) -/

/-- A notice appended at the newest end with the next sequence number and a clear mark (R121). -/
def Port.append (P : Port) (b : NoticeBody) : Port :=
  { P with notices := P.notices ++ [⟨P.nextSeq, b, false⟩], nextSeq := P.nextSeq + 1 }

/-- An OVERFLOW raised by one, to at most 65535, its mark cleared where the value rises (R122). -/
def raiseOverflow (n : Notice) (lost : Nat) : Notice :=
  if lost < 65535 then { n with body := .overflow (lost + 1), delivered := false } else n

/-- A notice posted to a queue: appended where the length is 0 to 14 (R121), otherwise lost and recorded in an
OVERFLOW at the newest end (R122). -/
def Port.enqueue (P : Port) (b : NoticeBody) : Port :=
  if P.notices.length < 15 then P.append b
  else
    match P.notices.getLast? with
    | some ⟨seq, .overflow lost, d⟩ =>
      { P with notices := P.notices.dropLast ++ [raiseOverflow ⟨seq, .overflow lost, d⟩ lost] }
    | _ => P.append (.overflow 1)

/-- A notice posted to a port: queued where the port receives notices, otherwise discarded (R120). -/
def Port.post (P : Port) (b : NoticeBody) : Port := if P.status.receives then P.enqueue b else P

/-- The recipients of a posted notice (R120): the host of the claim concerned; the ports permitted on a line; every
port that receives notices; every ATTACHED port but one. -/
inductive Recipients where
  | host (h : HostNo)
  | permittedOn (k : LineNo)
  | all
  | attachedBut (h : HostNo)
  deriving DecidableEq, Repr

/-- A notice on its way to the queues. -/
structure Post where
  dest : Recipients
  body : NoticeBody
  deriving DecidableEq, Repr

/-- Whether port `h` is among the recipients at this instant (R120). -/
def Recipients.includes (s : State) (h : HostNo) : Recipients → Bool
  | .host g => g == h
  | .permittedOn k =>
    permitted s.map h k &&
      (match s.device with
        | .run => (s.ports.get h).status == .attached
        | .setup => (s.ports.get h).status == .open || (s.ports.get h).status == .ready)
  | .all => true
  | .attachedBut g => h != g && (s.ports.get h).status == .attached

/-- A notice posted: a copy to the queue of each recipient (R120). -/
def State.post (s : State) (n : Post) : State :=
  { s with ports := .ofFn fun h => if n.dest.includes s h then (s.ports.get h).post n.body else s.ports.get h }

/-- Notices posted one after the other. -/
def State.postAll (s : State) (ns : List Post) : State := ns.foldl State.post s

/-! ### Orders the spec leaves open (R121, R141; log 3) -/

/-- `x` placed before or after the front of the notices that follow, as the free value chooses, and so on, `k`
giving the merge of what stands behind `x`. -/
def mergeHead {α : Type} (n : Nat) (x : α) (k : List α → Nat → List α) : List α → Nat → List α
  | [], i => x :: k [] i
  | y :: ys, i => if Config.orderChoice n i then x :: k (y :: ys) (i + 1) else y :: mergeHead n x k ys (i + 1)

/-- Two runs merged into one that keeps the order of each; where both have an element left, the free value chooses
which comes next. -/
def merge {α : Type} (n : Nat) : List α → List α → Nat → List α
  | [], ys, _ => ys
  | x :: xs, ys, i => mergeHead n x (merge n xs) ys i

/-- Several runs merged into one that keeps the order of each. The choices of the `i`-th merge start at an
index of its own. -/
def mergeAll {α : Type} (n : Nat) : Nat → List (List α) → List α
  | _, [] => []
  | i, run :: runs => merge n run (mergeAll n (i + 1) runs) (1000 * i)

/-- The notices of one instant posted, each run in its own order and the runs merged by the free value. -/
def State.postMerged (s : State) (runs : List (List Post)) : State :=
  { s.postAll (mergeAll s.orderCount 0 runs) with orderCount := s.orderCount + 1 }

/-! ### Ports -/

/-- A port replaced. -/
def State.setPort (s : State) (p : HostNo) (P : Port) : State := { s with ports := s.ports.set p P }

/-- The reply buffer, receive buffer and transaction of a port as PRESENT falling leaves them: the NONE frame,
ready (R101, R161). -/
def Port.clearBuffers (P : Port) : Port :=
  { P with
    transaction := none, rxBytes := [], rxBits := 0
    reply := noneFrame, replyReady := true, preparing := none, preparingClocks := 0 }

/-- The buffers as the teardown by DETACH leaves them: emptied, the flag clear until the reply to the DETACH is
ready (R101, R161). -/
def Port.emptyBuffers (P : Port) : Port :=
  { P with
    rxBytes := [], rxBits := 0
    reply := [], replyReady := false, preparing := none, preparingClocks := 0 }

/-- The notice queue emptied, the next sequence number 0 (R101). -/
def Port.emptyNotices (P : Port) : Port := { P with notices := [], nextSeq := 0 }

/-- A reply fixed for a port: the flag is cleared and the frame is in preparation (R164, R168). -/
def Port.prepare (P : Port) (frame : List Byte) : Port :=
  { P with replyReady := false, preparing := some frame, preparingClocks := 0 }

/-- A request of a port answered with a reply and a tag echo (R168, R169). -/
def State.answer (s : State) (p : HostNo) (tag : Byte) (r : Reply) : State :=
  s.setPort p ((s.ports.get p).prepare (r.frame tag))

/-- The ports in a state, counted. -/
def State.countPorts (s : State) (st : PortStatus) : Nat := (s.ports.toList.filter fun P => P.status == st).length

/-- The ATTACHED ports without an open vote, counted (R155). -/
def State.countNonVoters (s : State) : Nat :=
  (s.ports.toList.filter fun P => P.status == .attached && !P.vote).length

end Sys2Proof.Machine
end

