-- ==== Sys2Proof/Machine/Claims.lean ====
section
/-! DEFINITION. The claim list of a line (Section 5): insertion, removal, the states a change of head sets (R70, R73),
the yield run (R74), and what the claim unit decides at a point of the running segment (R74 to R80). -/

namespace Sys2Proof.Machine

/-! ### The list (R69) -/

/-- A claim inserted behind every claim of equal or higher priority and in front of every claim of lower priority
(R69). -/
def insertClaim (c : Claim) : List Claim → List Claim
  | [] => [c]
  | d :: ds => if d.priority < c.priority then c :: d :: ds else d :: insertClaim c ds

/-- The list without the claim of a host; the others keep their order (R81). -/
def removeHost (h : HostNo) (cs : List Claim) : List Claim := cs.filter fun c => c.host != h

/-- The list with the claim of a host changed. -/
def mapHost (h : HostNo) (f : Claim → Claim) (cs : List Claim) : List Claim :=
  cs.map fun c => if c.host = h then f c else c

/-- The place of a host's claim in the list, 0 for the head. -/
def placeOf (h : HostNo) (cs : List Claim) : Nat := cs.findIdx fun c => c.host == h

/-- The cut mode in force: that of the head (R75). An empty list has no head and no taker. -/
def headCut (cs : List Claim) : CutMode := (cs.head?.map Claim.cutMode).getD .cycle

/-! ### Change of head (R70, R73, R74) -/

/-- The yield run of a claim whose running segment stands at the front of its queue: the segments with join set
directly behind it, up to the first with join clear (R74). -/
def countYieldRun (queue : List Entry) : Nat := (queue.tail.takeWhile fun e => e.seg.join).length

/-- A claim of the list that is not the head: no longer TAKING; a HOLDING one yields, and a LEAVING one becomes
displaced, each with its yield run counted at that instant (Table 5-5, R74, R78). -/
def behindHead (c : Claim) : Claim :=
  match c.state with
  | .taking => { c with state := .waiting }
  | .holding => { c with state := .yielding, yieldRun := countYieldRun c.queue }
  | .leaving false => { c with state := .leaving true, yieldRun := countYieldRun c.queue }
  | .waiting | .yielding | .leaving true | .ending _ => c

/-- The head of the list: TAKING where it does not execute; HOLDING where it was YIELDING; no longer displaced where
it is LEAVING; ENDING unchanged (Table 5-5). The yield run is cleared on the return (R74). -/
def asHead (c : Claim) : Claim :=
  match c.state with
  | .waiting => { c with state := .taking }
  | .yielding => { c with state := .holding, yieldRun := 0 }
  | .leaving true => { c with state := .leaving false, yieldRun := 0 }
  | .taking | .holding | .leaving false | .ending _ => c

/-- The states of a list set after a change of it (R70, R73). -/
def settle : List Claim → List Claim
  | [] => []
  | c :: cs => asHead c :: cs.map behindHead

/-! ### Decisions of the claim unit at a point -/

/-- At a segment point of the running segment of a YIELDING or displaced LEAVING claim, under cut mode SEGMENT: the
yield run left where the claim goes on to its next segment, `none` where the yield point is reached (R74). `rest`
is what stands behind the running segment. -/
def yieldRunGoesOn (run : Nat) : List Entry → Option Nat
  | [] => none
  | e :: _ => if 0 < run ∧ e.seg.join = true then some (run - 1) else none

/-- At the natural end of the running segment, which is a cycle point and a segment point at once (R7): the yield
run with which the claim goes on, or `none` where it stops there. HOLDING and undisplaced LEAVING claims go on; an
ENDING claim stops (R79); a YIELDING or displaced LEAVING claim goes by the cut mode of the head (R74, R78). -/
def goesOnAtEnd (cut : CutMode) (c : Claim) (rest : List Entry) : Option Nat :=
  match c.state with
  | .waiting | .taking | .holding | .leaving false => some c.yieldRun
  | .ending _ => none
  | .yielding | .leaving true =>
    match cut with
    | .cycle => none
    | .segment => yieldRunGoesOn c.yieldRun rest

/-- At a cycle point that is not the natural end: whether the claim's yield or stop point is reached.
`segmentPoint` says whether the point is also a segment point (Table 2-6: the cycle end of a continuous PULSE, every
instant of a continuous HOLD). -/
def stopsAtCyclePoint (cut : CutMode) (c : Claim) (segmentPoint : Bool) (rest : List Entry) : Bool :=
  match c.state with
  | .waiting | .taking | .holding | .leaving false => false
  | .ending _ => true
  | .yielding | .leaving true =>
    match cut with
    | .cycle => true
    | .segment => segmentPoint && (yieldRunGoesOn c.yieldRun rest).isNone

/-- The outcome of a running segment cut at a yield or stop point that is not its natural end: for a YIELDING claim
by join and resume policy (R76); STOPPED for an ENDING (R79) or displaced LEAVING claim (R78). -/
def cutOutcome (c : Claim) (g : Segment) : SegOutcome :=
  match c.state with
  | .yielding => if g.join then .cutDropped else match g.policy with | .restart => .cutKept | .drop => .cutDropped
  | .waiting | .taking | .holding | .leaving _ | .ending _ => .stopped

/-- A claim placed in ENDING: its lease timer stops with 0 remaining (R79, R91). -/
def Claim.toEnding (cause : EndingCause) (c : Claim) : Claim :=
  { c with state := .ending cause, leaseElapsed := c.leaseValue.toNat * Config.clocksPerMs }

/-- The CLAIM_ENDED reason of an ending cause; DEPARTED has none, since nothing is posted for it (R87, R100). -/
def EndingCause.reason : EndingCause → Option EndReason
  | .released => some .released
  | .lease => some .lease
  | .departed => none

end Sys2Proof.Machine
end

