-- ==== Sys2Proof/Machine/Engine.lean ====
section
/-! DEFINITION. The line engine with the claim unit's part on its line (Sections 1 to 6, 9): the start and advance of
segments, the end of the running segment, the stop of the executing claim, guard and take, entry to FAULTED, HALTED,
RETIRED and SETUP, and the readback monitor. Every operation here reads one line and what `LineCtx` gives of the
rest, and yields that line with the notices it posts. -/

namespace Sys2Proof.Machine

/-- What an event does to a line: the line after it, and the notices it posts in the order of R8: those of segments
(AMEND_LOST, the ending segment, the joined segments dropped in cascade), then those of the claim unit. -/
structure LineOut where
  line : LineState
  seg : List Post
  claim : List Post
  deriving DecidableEq, Repr

/-- The notices of an event on a line, in the order of R8. -/
def LineOut.posts (o : LineOut) : List Post := o.seg ++ o.claim

/-- A line on which nothing is posted. -/
def LineOut.quiet (L : LineState) : LineOut := ⟨L, [], []⟩

/-- An event's outcome with segment notices in front. -/
def LineOut.afterSeg (ps : List Post) (o : LineOut) : LineOut := { o with seg := ps ++ o.seg }

/-- An event's outcome with claim unit notices in front of its own. -/
def LineOut.afterClaim (ps : List Post) (o : LineOut) : LineOut := { o with claim := ps ++ o.claim }

/-! ### Notices of segments (R24, R25, R61) -/

/-- The notice of a segment that ends with an outcome, if it has one (Table 2-3). A SENSE posts SENSE_RESULT in
place of SEGMENT_DONE and SEGMENT_ENDED (R61); `result` and `value` are those of its completion, ABORTED and 0 for
every other end (Table 4-3). -/
def endNotice (k : LineNo) (h : HostNo) (g : Segment) (outcome : SegOutcome) (result : SenseResult) (value : Nat) :
    List Post :=
  match outcome with
  | .cutKept | .flushed | .withdrawn => []
  | .done =>
    match g.body with
    | .sense _ _ => [⟨.host h, .senseResult k g.label result value⟩]
    | .hold _ _ | .pulse _ _ _ _ | .carrier _ _ _ =>
      if g.notify then [⟨.host h, .segmentDone k g.label⟩] else []
  | .stopped | .fault | .supply =>
    match g.body with
    | .sense _ _ => [⟨.host h, .senseResult k g.label .aborted 0⟩]
    | .hold _ _ | .pulse _ _ _ _ | .carrier _ _ _ => [⟨.host h, .segmentEnded k g.label outcome⟩]
  | .cutDropped | .late | .brokenChain => [⟨.host h, .segmentEnded k g.label outcome⟩]

/-- AMEND_LOST, where the slot is full (R16, R41). -/
def amendLostNotice (k : LineNo) (h : HostNo) (staged : Option Amendment) : List Post :=
  match staged with
  | some _ => [⟨.host h, .amendLost k⟩]
  | none => []

/-- CLAIM_ENDED for a reason (R87); none for a claim ENDING with cause DEPARTED (R100). -/
def claimEndedNotice (k : LineNo) (h : HostNo) (reason : Option EndReason) : List Post :=
  match reason with
  | some r => [⟨.host h, .claimEnded k r⟩]
  | none => []

/-! ### Starting segments (R5, R32, R35) -/

/-- The first phase or element of a segment (R5, R29, R30, R43, R56). -/
def SegmentBody.firstPhase : SegmentBody → Phase
  | .hold _ _ => .whole
  | .pulse _ active _ _ => if active = 0 then .inactive else .active
  | .carrier _ _ _ => .element 0
  | .sense _ _ => .discharge

/-- The carrier generator at the start of a mark: it reads the source's setting and runs from position 0 (R44). -/
def CarrierGen.start (set : CarrierSetting) : CarrierGen := ⟨0, set.period, set.active, true, false⟩

/-- The carrier generator stopped, its position back at 0 (R47). -/
def CarrierGen.stop (gen : CarrierGen) : CarrierGen :=
  { gen with position := 0, running := false, atBoundary := false }

/-- The carrier generator when a segment starts: running for a CARRIER, whose first element is a mark (R5, R42), from its
first instant, so that the pad carries the active level then (R46). R51 says that a joined HOLD at the idle level between
two CARRIERs shows no change at either joint; R46 is followed, also at the joint to the second (log 38). -/
def startGen (ctx : LineCtx) (gen : CarrierGen) : SegmentBody → CarrierGen
  | .carrier source _ _ => .start (ctx.setting source)
  | .hold _ _ | .pulse _ _ _ _ | .sense _ _ => gen.stop

/-- Whether a segment is a continuous HOLD (R26, R32). -/
def Segment.isContinuousHold (g : Segment) : Bool :=
  match g.body with
  | .hold _ duration => duration == 0
  | .pulse _ _ _ _ | .carrier _ _ _ | .sense _ _ => false

/-- The start test of a joined segment passes (Table 1-4). -/
def joinHolds (last : Option LastEnded) : Bool := last == some ⟨.done, false⟩

/-- The outcome of a joined segment that fails its start test (Table 1-4). -/
def dropOutcome (last : Option LastEnded) : SegOutcome :=
  match last with
  | some ⟨.done, _⟩ => .late
  | _ => .brokenChain

/-- How the consideration of a queue comes out: its front starts; nothing is left to start; the claim stops. -/
inductive Verdict where
  | starts | empty | stops
  deriving DecidableEq, Repr

/-- The consideration of a queue: how it comes out, the queue left, the last-ended record and the yield run left,
and the notices posted on the way. -/
structure QueueRun where
  verdict : Verdict
  queue : List Entry
  last : Option LastEnded
  run : Nat
  posts : List Post
  deriving DecidableEq, Repr

/-- The queue of the executing claim `c` considered from its oldest segment on, all at one instant (R5): joined
segments that fail their test are dropped in cascade (R35); a continuous HOLD with a segment behind it, or of an
undisplaced LEAVING claim, ends DONE at its own start (R32, R80), and the claim unit decides at that end (R6); a
continuous HOLD started by a claim whose yield point stands there is cut at its start (R27, R74); any other segment
starts. -/
def runQueue (k : LineNo) (cut : CutMode) (c : Claim) :
    Option LastEnded → Nat → List Entry → QueueRun
  | last, run, [] => ⟨.empty, [], last, run, []⟩
  | last, run, e :: rest =>
    if e.seg.join && !joinHolds last then
      let r := runQueue k cut c (some ⟨dropOutcome last, false⟩) run rest
      { r with posts := endNotice k c.host e.seg (dropOutcome last) .aborted 0 ++ r.posts }
    else if e.seg.isContinuousHold then
      if !rest.isEmpty || c.state == .leaving false then
        match goesOnAtEnd cut { c with yieldRun := run } rest with
        | some run' =>
          let r := runQueue k cut c (some ⟨.done, false⟩) run' rest
          { r with posts := endNotice k c.host e.seg .done .aborted 0 ++ r.posts }
        | none => ⟨.stops, rest, some ⟨.done, false⟩, run, endNotice k c.host e.seg .done .aborted 0⟩
      else if stopsAtCyclePoint cut { c with yieldRun := run } true rest then
        ⟨.stops, if cutOutcome c e.seg = .cutKept then { e with kept := true } :: rest else rest,
          some ⟨cutOutcome c e.seg, false⟩, run, endNotice k c.host e.seg (cutOutcome c e.seg) .aborted 0⟩
      else ⟨.starts, e :: rest, last, run, []⟩
    else ⟨.starts, e :: rest, last, run, []⟩

/-- A line with the queue and yield run of a host's claim replaced. -/
def LineState.withQueue (L : LineState) (h : HostNo) (queue : List Entry) (run : Nat) : LineState :=
  { L with claims := mapHost h (fun c => { c with queue := queue, yieldRun := run }) L.claims }

/-- A line whose executing claim's front segment starts: RUNNING at its first phase with no ticks elapsed (R5). -/
def LineState.startFront (ctx : LineCtx) (L : LineState) (queue : List Entry) (startedAtEnd : Bool) : LineState :=
  match queue with
  | [] => L
  | e :: _ =>
    { L with
      engine := .running
      progress := ⟨e.seg.body.firstPhase, 0, 0⟩
      startedAtEnd := startedAtEnd
      gen := startGen ctx L.gen e.seg.body
      senseCounter := 0 }

/-- A line that enters STARVED: the starved-since mark is set where the record is present (R9, R17). -/
def LineState.starve (L : LineState) : LineState :=
  { L with engine := .starved, lastEnded := L.lastEnded.map fun r => { r with starvedSince := true } }

/-- A line with no running segment's leavings: progress, staged slot, generator and sense counter (R16, R47, R67). -/
def LineState.clearRun (L : LineState) : LineState :=
  { L with
    progress := .zero, startedAtEnd := false, staged := none, gen := L.gen.stop, senseCounter := 0 }

/-! ### Guard and take (R12, R13) -/

/-- The state of the head at a take: TAKING and WAITING become HOLDING; a kept claim continues (R13, R82). -/
def ClaimState.atTake : ClaimState → ClaimState
  | .waiting | .taking | .yielding | .holding => .holding
  | .leaving _ => .leaving false
  | .ending cause => .ending cause

/-- Whether the take posts CLAIM_GRANTED (R82). -/
def ClaimState.granted : ClaimState → Bool
  | .waiting | .taking => true
  | .holding | .yielding | .leaving _ | .ending _ => false

/-- A line that enters GUARD for its guard time (R12), its claim states set under R70. -/
def LineState.enterGuard (ctx : LineCtx) (L : LineState) (claims : List Claim) : LineState :=
  { L with
    engine := .guard, guardRemaining := ctx.guard * Config.clocksPerGuardUnit, claims := settle claims }

/-- A line that enters IDLE with an empty list (R14). -/
def LineState.enterIdle (L : LineState) : LineState := { L with engine := .idle, guardRemaining := 0, claims := [] }

/-- The head of a list as the take makes it (R13). -/
def takenClaim (c : Claim) : Claim := { c with state := c.state.atTake, yieldRun := 0 }

/-- The consideration of the head's queue at the take; a claim in ENDING is not considered. -/
def takenRun (ctx : LineCtx) (c : Claim) : QueueRun :=
  match c.state with
  | .ending _ => ⟨.stops, c.queue, none, 0, []⟩
  | .waiting | .taking | .holding | .yielding | .leaving _ =>
    runQueue ctx.line c.cutMode (takenClaim c) none 0 c.queue

/-- Whether the head is removed by the take, and the CLAIM_ENDED reason of the removal (R11): a kept LEAVING claim
with nothing left to start is DRAINED, an ENDING one goes with its cause. -/
def takeEnds (ctx : LineCtx) (c : Claim) : Option (Option EndReason) :=
  match c.state with
  | .ending cause => some cause.reason
  | .leaving _ => if (takenRun ctx c).verdict = .starts then none else some (some .drained)
  | .waiting | .taking | .holding | .yielding => none

/-- A line taken for the head `c` of its list, with `cs` behind it: RUNNING where a segment starts, STARVED where
none does (R13). Whether a FLUSH of this instant can cut the started segment: it can where nothing of this claim ended at
the take, also at a guard-less take at the end of another claim's segment (log 29), and cannot where a joined segment
was dropped or a continuous HOLD ended at the take, also at a guard's end (log 30); R113 and R116 leave both open. -/
def takenLine (ctx : LineCtx) (L : LineState) (c : Claim) (cs : List Claim) : LineState :=
  let r := takenRun ctx c
  let L' : LineState :=
    { L with
      guardRemaining := 0, lastEnded := r.last
      claims := { takenClaim c with queue := r.queue } :: cs.map behindHead }
  if r.verdict = .starts then L'.startFront ctx r.queue (decide (r.queue.length < c.queue.length)) else L'.starve

/-- CLAIM_GRANTED, for a claim that was TAKING or WAITING (R82). -/
def grantNotice (k : LineNo) (c : Claim) : List Post :=
  if c.state.granted then [⟨.host c.host, .claimGranted k⟩] else []

/-- The take of a line for the head of its list (R13). An empty list leaves it IDLE. CLAIM_GRANTED follows the notices
of segments dropped at the take (R8, log 9). The removal of the head is a stop, after which the line enters GUARD, or
is taken at once for the next head where the guard time is 0 (R11). -/
def takeLine (ctx : LineCtx) (L : LineState) : List Claim → LineOut
  | [] => .quiet L.enterIdle
  | c :: cs =>
    match takeEnds ctx c with
    | some reason =>
      .afterSeg (takenRun ctx c).posts (.afterClaim (claimEndedNotice ctx.line c.host reason)
        (if ctx.guard = 0 then takeLine ctx L cs else .quiet (L.enterGuard ctx cs)))
    | none => ⟨takenLine ctx L c cs, (takenRun ctx c).posts, grantNotice ctx.line c⟩

/-- The passage of a line to its next holder after a stop, or back to normal running (R11, R15): the last-ended
record is made absent, and the line enters GUARD, or is taken at once where the guard time is 0. -/
def guardOrTake (ctx : LineCtx) (L : LineState) (claims : List Claim) : LineOut :=
  let L' : LineState := { L.clearRun with lastEnded := none }
  if ctx.guard = 0 then takeLine ctx L' claims else .quiet (L'.enterGuard ctx claims)

/-! ### The stop of the executing claim (R11) -/

/-- The host the PREEMPTED notice names: that of the head at that instant (R86). -/
def takerHost (c : Claim) (claims : List Claim) : HostNo := (claims.head?.map Claim.host).getD c.host

/-- The stopped claim resolved (R11): YIELDING becomes WAITING with PREEMPTED and keeps its queue (R76); ENDING is
removed with CLAIM_ENDED for its cause (R79); LEAVING is removed, DISPLACED_LEAVING where it is displaced (R78) and
DRAINED where it is not (R80). A claim in another state does not stop. -/
def resolveStop (k : LineNo) (c : Claim) (claims : List Claim) : List Claim × List Post :=
  match c.state with
  | .yielding =>
    (mapHost c.host (fun d => { d with state := .waiting, yieldRun := 0 }) claims,
      [⟨.host c.host, .preempted k (takerHost c claims)⟩])
  | .ending cause => (removeHost c.host claims, claimEndedNotice k c.host cause.reason)
  | .leaving true => (removeHost c.host claims, claimEndedNotice k c.host (some .displacedLeaving))
  | .leaving false => (removeHost c.host claims, claimEndedNotice k c.host (some .drained))
  | .waiting | .taking | .holding => (claims, [])

/-- The stop of the executing claim `c`, its running segment already ended: the claim is resolved, and a line that
was RUNNING or STARVED goes on to GUARD or a take (R11); one in GUARD, FAULTED or HALTED stays as it is (R15). -/
def stopClaim (ctx : LineCtx) (L : LineState) (c : Claim) : LineOut :=
  let (claims, posts) := resolveStop ctx.line c L.claims
  match L.engine with
  | .running | .starved => .afterClaim posts (guardOrTake ctx L claims)
  | .idle | .guard | .faulted | .retired | .halted =>
    ⟨{ L.clearRun with lastEnded := none, claims := settle claims }, [], posts⟩

/-! ### The end of the running segment (R6, R24) -/

/-- The queue left by the end of its front segment: CUT_KEPT keeps the entry, every other outcome frees it. -/
def queueAfterEnd (e : Entry) (rest : List Entry) (outcome : SegOutcome) : List Entry :=
  if outcome = .cutKept then { e with kept := true } :: rest else rest

/-- The running segment `e` of claim `c` ended with an outcome: its entry freed or kept, the staged amendment lost,
the last-ended record written, the generator stopped and the sense counter back at 0 (R6, R16, R17, R24, R47, R67).
The engine state is left to what follows. -/
def endRunning (L : LineState) (c : Claim) (e : Entry) (rest : List Entry) (outcome : SegOutcome) : LineState :=
  { (L.clearRun.withQueue c.host (queueAfterEnd e rest outcome) c.yieldRun) with lastEnded := some ⟨outcome, false⟩ }

/-- The notices of the end of the running segment: AMEND_LOST first, then the segment's own (R8). -/
def endPosts (k : LineNo) (L : LineState) (c : Claim) (e : Entry) (outcome : SegOutcome) (result : SenseResult)
    (value : Nat) : List Post :=
  amendLostNotice k c.host L.staged ++ endNotice k c.host e.seg outcome result value

/-- The executing claim `c` goes on to the next of its queue (R5, R6): a segment starts; with an empty queue a
HOLDING claim leaves the line STARVED and any other stops. `fresh` says that a segment of the claim ended at this
instant. -/
def advance (ctx : LineCtx) (L : LineState) (c : Claim) (queue : List Entry) (run : Nat) (fresh : Bool) : LineOut :=
  let r := runQueue ctx.line (headCut L.claims) c L.lastEnded run queue
  let L' : LineState := { L.withQueue c.host r.queue r.run with lastEnded := r.last }
  .afterSeg r.posts
    (match r.verdict with
      | .starts => .quiet (L'.startFront ctx r.queue (fresh || decide (r.queue.length < queue.length)))
      | .empty => if c.state = .holding then .quiet L'.starve else stopClaim ctx L' c
      | .stops => stopClaim ctx L' c)

/-- The natural end of the running segment, outcome DONE (R6): the claim unit decides at the point (R7), and the
claim goes on or stops. -/
def naturalEnd (ctx : LineCtx) (L : LineState) (c : Claim) (e : Entry) (rest : List Entry) (result : SenseResult)
    (value : Nat) : LineOut :=
  let L' := endRunning L c e rest .done
  .afterSeg (endPosts ctx.line L c e .done result value)
    (match goesOnAtEnd (headCut L.claims) c rest with
      | some run => advance ctx L' c rest run true
      | none => stopClaim ctx L' c)

/-- The running segment cut at a yield or stop point that is not its natural end, and the claim stopped (R7). -/
def cutAndStop (ctx : LineCtx) (L : LineState) (c : Claim) (e : Entry) (rest : List Entry) : LineOut :=
  .afterSeg (endPosts ctx.line L c e (cutOutcome c e.seg) .aborted 0)
    (stopClaim ctx (endRunning L c e rest (cutOutcome c e.seg)) c)

/-- The running segment ended STOPPED by FLUSH with the cut option, and the claim going on by its state
(Table 7-4). -/
def flushCut (ctx : LineCtx) (L : LineState) (c : Claim) (e : Entry) (rest : List Entry) : LineOut :=
  let L' := endRunning L c e rest .stopped
  .afterSeg (endPosts ctx.line L c e .stopped .aborted 0)
    (match c.state with
      | .waiting | .taking | .holding | .leaving false => advance ctx L' c rest c.yieldRun true
      | .yielding | .leaving true | .ending _ => stopClaim ctx L' c)

/-! ### Points that stand at an instant (R9, R15, R27, R37) -/

/-- Whether a running HOLD with a duration stands at the end of its last line tick (R26). -/
def holdIsOver (L : LineState) (e : Entry) (duration : Word16) : Bool :=
  decide (duration ≠ 0 ∧ duration.toNat * e.seg.tap.clocks ≤ L.progress.elapsed)

/-- What the executing claim's state brings about at this very instant. With no running segment (STARVED, FAULTED,
HALTED, or a kept claim in GUARD) every yield and stop point is immediate (R9, R15, R37), and a LEAVING claim on a
STARVED line is drained (R80). A running HOLD stands at its cycle point at every instant, a continuous one at its
segment point too (Table 2-6), and a continuous HOLD with a segment behind it, or of an undisplaced LEAVING claim,
ends DONE (R32, R80). A yield or stop decided at the instant a HOLD's duration ends falls on its natural end (R7, R37).
A running SENSE of an ENDING claim is aborted (R64). Nothing else happens. -/
def checkNow (ctx : LineCtx) (L : LineState) : LineOut :=
  match L.executing with
  | none => .quiet L
  | some c =>
    match L.engine with
    | .idle | .retired => .quiet L
    | .starved =>
      if c.state = .holding then .quiet L else stopClaim ctx L c
    | .guard | .faulted | .halted =>
      match c.state with
      | .yielding | .leaving true | .ending _ => stopClaim ctx L c
      | .waiting | .taking | .holding | .leaving false => .quiet L
    | .running =>
      match c.queue with
      | [] => .quiet L
      | e :: rest =>
        match e.seg.body with
        | .hold _ duration =>
          if duration = 0 ∧ c.state.isEnding = false ∧ (rest ≠ [] ∨ c.state = .leaving false) then
            naturalEnd ctx L c e rest .aborted 0
          else if stopsAtCyclePoint (headCut L.claims) c (duration == 0) rest then
            if holdIsOver L e duration then naturalEnd ctx L c e rest .aborted 0 else cutAndStop ctx L c e rest
          else .quiet L
        | .sense _ _ => if c.state.isEnding then cutAndStop ctx L c e rest else .quiet L
        | .pulse _ _ _ _ | .carrier _ _ _ => .quiet L

/-- A change of the claim list: its states set under R70 and R73, and what they bring about at once. -/
def withClaims (ctx : LineCtx) (L : LineState) (claims : List Claim) : LineOut :=
  checkNow ctx { L with claims := settle claims }

/-! ### Claims entering, ending and leaving (R72, R79, R81) -/

/-- A claim placed on a line (R72): HOLDING at once, with the engine STARVED, on an IDLE line with an empty list
(R14); otherwise inserted at its place (R69), the head where it outranks the list. `c` carries the arrival stamp; the
counter advances by one. -/
def enlist (ctx : LineCtx) (L : LineState) (c : Claim) : LineOut :=
  let L' : LineState := { L with arrivals := L.arrivals + 1 }
  if L.claims.isEmpty && L.engine == .idle then
    .quiet { L' with claims := [{ c with state := .holding }], engine := .starved, lastEnded := none }
  else withClaims ctx L' (insertClaim { c with state := .waiting } L.claims)

/-- The claim of a host placed in ENDING (R79), with the stop where its stop point stands at this instant. -/
def endClaim (ctx : LineCtx) (L : LineState) (h : HostNo) (cause : EndingCause) : LineOut :=
  checkNow ctx { L with claims := mapHost h (Claim.toEnding cause) L.claims }

/-- A claim that does not execute removed at once, its queue withdrawn (R81), the head changed under R73. -/
def dropClaim (ctx : LineCtx) (L : LineState) (h : HostNo) : LineOut := withClaims ctx L (removeHost h L.claims)

/-- A HOLDING claim made LEAVING by RELEASE DRAIN (R80, R84). -/
def drainClaim (ctx : LineCtx) (L : LineState) (h : HostNo) : LineOut :=
  checkNow ctx { L with claims := mapHost h (fun c => { c with state := .leaving false }) L.claims }

/-- The expiry of the lease of a host's claim (R92). -/
def expireClaim (ctx : LineCtx) (L : LineState) (h : HostNo) : LineOut :=
  match L.claimOf h with
  | none => .quiet L
  | some c =>
    match c.state with
    | .holding | .yielding | .leaving _ => endClaim ctx L h .lease
    | .waiting | .taking => .afterClaim (claimEndedNotice ctx.line h (some .lease)) (dropClaim ctx L h)
    | .ending _ => .quiet L

/-- The departure of a host on one line (R99): its executing claim enters ENDING with cause DEPARTED, keeping at
most its running segment; a WAITING or TAKING claim is removed; an ENDING one keeps its cause. -/
def departClaim (ctx : LineCtx) (L : LineState) (h : HostNo) : LineOut :=
  match L.claimOf h with
  | none => .quiet L
  | some c =>
    let o :=
      match c.state with
      | .holding | .yielding | .leaving _ => endClaim ctx L h .departed
      | .waiting | .taking => dropClaim ctx L h
      | .ending _ => .quiet L
    { o with
      line :=
        { o.line with
          claims := mapHost h (fun d => { d with queue := d.queue.take (if o.line.engine = .running then 1 else 0) })
            o.line.claims } }

/-! ### Faults and supply (R15, R134, R135, R141, R142) -/

/-- Entry of a line to FAULTED or HALTED (R15): the running segment ends with the outcome given, a staged amendment
is lost, a guard is abandoned, and the executing claim is resolved: YIELDING to WAITING with PREEMPTED, ENDING
removed, a displaced LEAVING claim stopped at its now immediate yield point (log 10), HOLDING and LEAVING kept. -/
def enterSafeStop (ctx : LineCtx) (L : LineState) (target : EngineState) (outcome : SegOutcome) : LineOut :=
  match L.executing with
  | none => .quiet { L.clearRun with engine := target, guardRemaining := 0 }
  | some c =>
    match L.engine, c.queue with
    | .running, e :: rest =>
      .afterSeg (endPosts ctx.line L c e outcome .aborted 0)
        (checkNow ctx { endRunning L c e rest outcome with engine := target, guardRemaining := 0 })
    | _, _ => checkNow ctx { L.clearRun with engine := target, guardRemaining := 0 }

/-- Retirement of a line (R135): the running segment ends FAULT, a staged amendment is lost, every claim is removed
in list order with CLAIM_ENDED RETIRED, except that a claim ENDING with cause DEPARTED posts none. -/
def retireLine (ctx : LineCtx) (L : LineState) : LineOut :=
  let ended : List Post :=
    match L.executing, L.engine with
    | some c, .running =>
      match c.queue with
      | e :: _ => endPosts ctx.line L c e .fault .aborted 0
      | [] => []
    | _, _ => []
  ⟨{ L.clearRun with engine := .retired, guardRemaining := 0, lastEnded := none, claims := [] }, ended,
    (L.claims.map fun c =>
      claimEndedNotice ctx.line c.host (if c.state = .ending .departed then none else some .retired)).flatten⟩

/-- A line that leaves FAULTED or HALTED for normal running (R15). -/
def leaveSafeStop (ctx : LineCtx) (L : LineState) : LineOut := guardOrTake ctx L L.claims

/-- Whether a mismatch timer has reached the fault window of `window` µs (R133). -/
def timerReached (window : Nat) : Option Nat → Bool
  | none => false
  | some t => decide (window * Config.clocksPerUs ≤ t)

/-- The engines a readback fault can be declared on (R134, R136): those whose level can be checked. -/
def EngineState.canFault : EngineState → Bool
  | .idle | .running | .starved | .guard => true
  | .faulted | .retired | .halted => false

/-- Whether a fault is due on a line: its mismatch timer has reached the window, and its engine is one a fault can be
declared on (R133, R134). -/
def faultDue (window : Nat) (L : LineState) : Bool := timerReached window L.mismatch && L.engine.canFault

/-- Entry of the device to SETUP, on one line (R19, R89, R158): the running segment ends STOPPED, a staged amendment
is lost, and every claim is removed with CLAIM_ENDED REOPEN; for a claim ENDING with cause DEPARTED nothing is
posted. The engine enters IDLE; a HALTED one stays HALTED, and a FAULTED one enters HALTED while the supply is LOW.
Fault count, mismatch timer, arrival counter and last-ended record return to their reset values. That the
timer ran is kept to the end of the instant, for a fault that falls at it too (Table 9-1, log 33): with its count where
that had reached the window in force at the entry, and as 0 where it had not. A fault that an earlier event of the instant
has forestalled is not carried. -/
def setupLine (ctx : LineCtx) (L : LineState) : LineOut :=
  let ended : List Post :=
    match L.executing, L.engine with
    | some c, .running =>
      match c.queue with
      | e :: _ => if c.state = .ending .departed then [] else endPosts ctx.line L c e .stopped .aborted 0
      | [] => []
    | _, _ => []
  let engine : EngineState :=
    match L.engine with
    | .halted => .halted
    | .faulted => if ctx.supply = .low then .halted else .idle
    | .idle | .running | .starved | .guard | .retired => .idle
  ⟨{ L.clearRun with
      engine := engine, guardRemaining := 0, lastEnded := none, mismatch := none
      mismatchAtEntry :=
        if L.faultForestalled then none else L.mismatch.map fun t => if timerReached ctx.window (some t) then t else 0
      faultCount := 0, arrivals := 0, claims := [] },
    ended,
    (L.claims.map fun c =>
      claimEndedNotice ctx.line c.host (if c.state = .ending .departed then none else some .reopen)).flatten⟩

/-- A readback fault declared on a line (R134, R135, R136). In RUN it is counted: FAULTED at a count of 1 to 3,
RETIRED at 4, with LINE_FAULT and LINE_RETIRED last. In SETUP it is not counted and posts nothing. -/
def faultLine (ctx : LineCtx) (L : LineState) : LineOut :=
  match ctx.device with
  | .setup => .quiet (enterSafeStop ctx L .faulted .fault).line
  | .run =>
    let L' : LineState := { L with faultCount := L.faultCount + 1 }
    if L'.faultCount < 4 then
      let o := enterSafeStop ctx L' .faulted .fault
      { o with claim := o.claim ++ [⟨.permittedOn ctx.line, .lineFault ctx.line L'.faultCount⟩] }
    else
      let o := retireLine ctx L'
      { o with
        claim := o.claim ++
          [⟨.permittedOn ctx.line, .lineFault ctx.line L'.faultCount⟩, ⟨.permittedOn ctx.line, .lineRetired ctx.line⟩] }

/-! ### Work submitted and removed (R10, R108, R112, R113) -/

/-- Whether the lease of a claim runs out at this instant: the elapsed time has reached the lease value (R91). -/
def Claim.leaseOver (c : Claim) : Bool := decide (c.leaseValue.toNat * Config.clocksPerMs ≤ c.leaseElapsed)

/-- A claim with its lease count restarted from 0 (R95, R96). An expiry due at this instant is forestalled (Table 6-2). -/
def Claim.restartLease (c : Claim) : Claim :=
  { c with leaseElapsed := 0, forestalled := c.forestalled || c.leaseOver }

/-- A line with segments appended to the queue of a host's claim, its lease restarted (R96, R108). -/
def LineState.appendWork (L : LineState) (h : HostNo) (segs : List Segment) : LineState :=
  { L with
    claims := mapHost h (fun c => { c.restartLease with queue := c.queue ++ segs.map (⟨·, false⟩) }) L.claims }

/-- Segments submitted to a host's claim. On a STARVED line the executing claim's first appended segment starts
(R10); behind a running continuous HOLD they bring it to its end (R32). -/
def submitTo (ctx : LineCtx) (L : LineState) (h : HostNo) (segs : List Segment) : LineOut :=
  match (L.appendWork h segs).executing with
  | none => .quiet (L.appendWork h segs)
  | some c =>
    if c.host = h then
      match L.engine with
      | .starved => advance ctx (L.appendWork h segs) c c.queue c.yieldRun false
      | .running => checkNow ctx (L.appendWork h segs)
      | .idle | .guard | .faulted | .retired | .halted => .quiet (L.appendWork h segs)
    else .quiet (L.appendWork h segs)

/-- The scope of a FLUSH (R111). -/
inductive FlushScope where
  | all
  | label (l : Byte)
  | none
  deriving DecidableEq, Repr

/-- Whether a scope covers an entry (R111). -/
def FlushScope.covers (scope : FlushScope) (e : Entry) : Bool :=
  match scope with
  | .all => true
  | .label l => e.seg.label == l
  | .none => false

/-- How many entries at the front of a claim's queue are running: one where the claim executes and the engine is
RUNNING. -/
def runningEntries (L : LineState) (c : Claim) : Nat := if L.engine = .running ∧ c.state.isExecuting then 1 else 0

/-- The queue of claim `c` less the queued segments a scope covers; the running segment stays (R112). -/
def flushedQueue (L : LineState) (c : Claim) (scope : FlushScope) : List Entry :=
  c.queue.take (runningEntries L c) ++ (c.queue.drop (runningEntries L c)).filter fun e => !scope.covers e

/-- The yield run less the removed segments that lay within it (R112). -/
def flushedYieldRun (L : LineState) (c : Claim) (scope : FlushScope) : Nat :=
  c.yieldRun - (((c.queue.drop (runningEntries L c)).take c.yieldRun).filter scope.covers).length

/-- The line after the removal of a FLUSH (R112). -/
def flushedLine (L : LineState) (c : Claim) (scope : FlushScope) : LineState :=
  L.withQueue c.host (flushedQueue L c scope) (flushedYieldRun L c scope)

/-- The number of segments a FLUSH removes (R112). -/
def flushedCount (L : LineState) (c : Claim) (scope : FlushScope) : Nat :=
  c.queue.length - (flushedQueue L c scope).length

/-- Whether the cut option of a FLUSH ends a running segment: the claim executes, the engine is RUNNING on one of
its segments, and that segment did not start at this instant because its predecessor ended at it (R113, R116). -/
def flushCuts (L : LineState) (c : Claim) : Bool :=
  L.engine == .running && c.state.isExecuting && !L.startedAtEnd

/-! ### The readback monitor (R133) -/

/-- What an event leaves of a fault of its instant: where it takes the mismatch timer back from a window it had reached,
or the window from it, other than by the fault itself, no fault of this instant follows (row 1 of Table 9-1, log 37).
`L0` is the line before the event, under the window `w0`; `L1` the line after it, under `w1`. -/
def LineState.forestall (w0 : Nat) (L0 : LineState) (w1 : Nat) (L1 : LineState) : LineState :=
  { L1 with
    faultForestalled := L1.faultForestalled
      || (faultDue w0 L0 && !faultDue w1 L1 && L1.engine != .faulted && L1.engine != .retired) }

/-- The mismatch timer after an event that took a line from `L0` under `ctx0` to `L1` under `ctx1`: clear where the level
is not compared; running on where the same level is compared before and after; otherwise restarted from 0 if the pad
mismatches the new level, and cleared if not (R3, R133). -/
def timerAfter (ctx0 : LineCtx) (L0 : LineState) (ctx1 : LineCtx) (L1 : LineState) : Option Nat :=
  if (L1.drive ctx1).compared ctx1.check then
    if ctx0.check ∧ L0.drive ctx0 = L1.drive ctx1 then L1.mismatch
    else if padMismatches L1.pad (L1.drive ctx1).level then some 0 else none
  else none

/-- A line whose monitor has been told of an event that took it from `L0` under `ctx0` to `L1` under `ctx1`: its mismatch
timer, and whether a fault of this instant can still follow (R3, R133, R143). -/
def remonitor (ctx0 : LineCtx) (L0 : LineState) (ctx1 : LineCtx) (L1 : LineState) : LineState :=
  .forestall ctx0.window L0 ctx1.window { L1 with mismatch := timerAfter ctx0 L0 ctx1 L1 }

/-- What a pad reading does to the mismatch timer while the level is compared (R133): a mismatch that begins starts
it from 0, one that goes on leaves it running, a match clears it. -/
def padTimer (timer : Option Nat) (mismatched : Bool) : Option Nat :=
  if mismatched then some (timer.getD 0) else none

/-- The pad of a line reads a level. -/
def padReads (ctx : LineCtx) (L : LineState) (reads : PadLevel) : LineState :=
  let d := L.drive ctx
  .forestall ctx.window L ctx.window { L with
    pad := reads
    mismatch := if d.compared ctx.check then padTimer L.mismatch (padMismatches reads d.level) else none }

/-! ### An event on one line, and on every line -/

/-- The state after an event on line `k`: the line replaced, its monitor told of the change, its notices posted in
order (R3, R8). -/
def State.updateLine (s : State) (k : LineNo) (o : LineOut) : State :=
  { s with lines := s.lines.set k (remonitor (s.ctx k) (s.lines.get k) (s.ctx k) o.line) }.postAll o.posts

/-- The state after an event that changed a line's surroundings and lines: `s0` is the state before, `s1` the state
after with its lines; every monitor is told of the change (R3, R133). -/
def State.remonitorAll (s1 s0 : State) : State :=
  { s1 with lines := .ofFn fun k => remonitor (s0.ctx k) (s0.lines.get k) (s1.ctx k) (s1.lines.get k) }

/-- The state after an event on every line at one instant: each line replaced, each monitor told, and the notices of
the lines, with those of `extra`, posted in an order the spec leaves open between lines (R121, log 3). -/
def State.updateLines (s : State) (f : LineNo → LineOut) (extra : List (List Post)) : State :=
  { s with lines := .ofFn fun k => remonitor (s.ctx k) (s.lines.get k) (s.ctx k) (f k).line }.postMerged
    ((PerLine.ofFn fun k => (f k).posts).toList ++ extra)

end Sys2Proof.Machine
end

