-- ==== Sys2Proof/Machine/Barrier.lean ====
section
/-! DEFINITION. The join barrier (Section 10): entry to RUN and to SETUP, the evaluations of R152 and R157; the
teardown of a departing port (R98 to R101); and the one operation by which a port serves a request (R167, R168). -/

namespace Sys2Proof.Machine

/-! ### Entry to RUN (R152, R153) -/

/-- A port at entry to RUN: READY becomes ATTACHED. -/
def Port.attachReady (P : Port) : Port := if P.status = .ready then { P with status := .attached } else P

/-- The entry of the device to RUN (R153): every READY port becomes ATTACHED, then RUN_ENTERED is posted with the
number of ATTACHED ports. The lines are as they were. -/
def enterRun (s : State) : State :=
  let s1 : State := { s with device := .run, ports := .ofFn fun h => (s.ports.get h).attachReady }
  s1.post ⟨.all, .runEntered (s1.countPorts .attached)⟩

/-- The conditions of R152: a present port, every present port READY, the first settle ended. -/
def barrierComplete (s : State) : Bool :=
  s.ports.toList.any (fun P => P.status == .ready)
    && s.ports.toList.all (fun P => P.status == .ready || P.status == .absent) && !s.firstSettle

/-- The barrier evaluated in SETUP (R152). -/
def evaluateSetup (s : State) : State := if barrierComplete s then enterRun s else s

/-! ### Entry to SETUP (R157, R158, R19) -/

/-- A port at entry to SETUP: its vote is closed, and ATTACHED and PENDING become OPEN. -/
def Port.reopen (P : Port) : Port :=
  { P with
    vote := false
    status := if P.status = .attached ∨ P.status = .pending then .open else P.status }

/-- The entry of the device to SETUP (R158): the ports first, then the lines, claims and store with their notices
(the segment notices of all lines, then CLAIM_ENDED REOPEN, R89, log 12), then SETUP_ENTERED. -/
def enterSetup (s : State) : State :=
  let s1 : State := { s with device := .setup, ports := .ofFn fun h => (s.ports.get h).reopen }
  let out : LineNo → LineOut := fun k => setupLine (s1.ctx k) (s1.lines.get k)
  let s2 : State :=
    { s1 with lines := .ofFn fun k => remonitor (s.ctx k) (s.lines.get k) (s1.ctx k) (out k).line }
  let s3 := s2.postMerged (PerLine.ofFn fun k => (out k).seg).toList
  let s4 := s3.postMerged (PerLine.ofFn fun k => (out k).claim).toList
  s4.post ⟨.all, .setupEntered⟩

/-- The conditions of R157: the ATTACHED set is empty, or every ATTACHED port has an open vote. -/
def returnComplete (s : State) : Bool := s.ports.toList.all fun P => P.status != .attached || P.vote

/-- The barrier evaluated in RUN (R157). -/
def evaluateRun (s : State) : State := if returnComplete s then enterSetup s else s

/-! ### Teardown (R98 to R101) -/

/-- The claims of a departing host resolved on every line (R99). Its port has changed state already, so what is
posted to it is discarded (R98). Each stop is an event of its line, before the barrier is evaluated: where it changes
the driven level, the timer of a fault due at this instant restarts or clears (row 1 of Table 9-1), and an entry to
SETUP that follows finds none to carry (row 5; log 36). -/
def departHost (s : State) (h : HostNo) : State :=
  s.updateLines (fun k => departClaim (s.ctx k) (s.lines.get k) h) []

/-! ### Serving a request (R167, R168) -/

/-- What a request did: the state after it, and the reply. -/
structure Acted where
  state : State
  reply : Reply
  deriving DecidableEq, Repr

/-- A refusal, or an answer that changes nothing. -/
def Acted.unchanged (s : State) (r : Reply) : Acted := ⟨s, r⟩

/-- A request that reaches a port: nothing on an ABSENT one (R170); WRONG_STATE where it is not taken in the port's
state; INVALID where its body has no length of its layout; otherwise what it does. Its reply is fixed at this instant
and in preparation (R167, R168). -/
def serve (p : HostNo) (tag : Byte) (name : RequestName) (lengthOk : Bool) (act : State → Acted) (s : State) : State :=
  if (s.ports.get p).status = .absent then s
  else if name.takenIn (s.ports.get p).status = false then s.answer p tag (.plain .wrongState)
  else if lengthOk = false then s.answer p tag (.plain .invalid)
  else (act s).state.answer p tag (act s).reply

end Sys2Proof.Machine
end

