-- ==== Sys2Proof/Machine/PortRequests.lean ====
section
/-! DEFINITION. NOP, DEVICE_STATUS, LINE_STATUS, FETCH, READ_MAP and DIGEST: the requests any present port may send. -/

namespace Sys2Proof.Machine

/-! ### NOP (R171) -/

/-- NOP changes nothing and is answered OK with an empty body. -/
def actNop (s : State) : Acted := .unchanged s (.plain .ok)

def execNop (port : HostNo) (tag : Byte) (s : State) : Host.Outcome State Fault Refusal :=
  .next (serve port tag .nop true actNop s)

/-! ### DEVICE_STATUS (R172) -/

/-- The set of ports with an open vote, bit h for port h (Table 11-10). -/
def voteSet (s : State) : Byte :=
  (if (s.ports.get 0).vote then 0x01 else 0x00) ||| (if (s.ports.get 1).vote then 0x02 else 0x00)
    ||| (if (s.ports.get 2).vote then 0x04 else 0x00) ||| (if (s.ports.get 3).vote then 0x08 else 0x00)

/-- The body of the DEVICE_STATUS reply (Table 11-10). -/
def deviceStatusBody (port : HostNo) (s : State) : List Byte :=
  [s.device.toByte, s.supply.toByte, boolByte s.firstSettle, hostByte port]
    ++ s.ports.toList.map (fun P => P.status.toByte) ++ [voteSet s]

def actDeviceStatus (port : HostNo) (s : State) : Acted := .unchanged s ⟨.ok, deviceStatusBody port s⟩

def execDeviceStatus (port : HostNo) (tag : Byte) (s : State) : Host.Outcome State Fault Refusal :=
  .next (serve port tag .deviceStatus true (actDeviceStatus port) s)

/-! ### LINE_STATUS (R90) -/

/-- A claim entry of the reply (Table 11-10): 12 bytes. The lease remaining is in whole ms, rounded down (R91). -/
def claimEntry (c : Claim) : List Byte :=
  [hostByte c.host, BitVec.ofNat 8 c.priority] ++ word16Bytes c.arrival
    ++ [c.state.toByte, c.state.causeByte, c.state.displacedByte, c.cutMode.toByte, c.restLevel.toByte]
    ++ natBytes (c.leaseRemaining / Config.clocksPerMs) ++ [BitVec.ofNat 8 c.queue.length]

/-- The guard remaining in whole µs, rounded down; 0 outside GUARD (Table 5-10). -/
def guardMicroseconds (L : LineState) : Nat :=
  if L.engine = .guard then L.guardRemaining / Config.clocksPerUs else 0

/-- The body of the LINE_STATUS reply (Table 11-10). None and absent are FFh (R174). -/
def lineStatusBody (k : LineNo) (L : LineState) : List Byte :=
  [lineByte k, L.engine.toByte, (L.executing.map fun c => hostByte c.host).getD 0xFF,
    (L.running.map Segment.label).getD 0xFF, (L.running.map fun g => g.body.kindByte).getD 0xFF,
    boolByte L.staged.isSome]
    ++ natBytes (guardMicroseconds L) ++ [BitVec.ofNat 8 L.faultCount] ++ word16Bytes L.arrivals
    ++ [BitVec.ofNat 8 L.claims.length] ++ (L.claims.map claimEntry).flatten

def actLineStatus (line : Byte) (s : State) : Acted :=
  match lineOfByte line with
  | none => .unchanged s (.plain .invalid)
  | some k => .unchanged s ⟨.ok, lineStatusBody k (s.lines.get k)⟩

def execLineStatus (port : HostNo) (tag : Byte) (line : Byte) (s : State) : Host.Outcome State Fault Refusal :=
  .next (serve port tag .lineStatus true (actLineStatus line) s)

/-! ### FETCH (R126, R127, R176, R177) -/

/-- The acknowledgement step on a queue: every notice through the one that carries the number is removed where that
one is delivered; `none` (BAD_ACK) where it is not, or no notice carries it. Numbers are compared for equality only,
and removal runs in queue order (R176). -/
def acknowledge (q : List Notice) (ack : Byte) : Option (List Notice) :=
  match q with
  | [] => none
  | n :: rest => if n.seq = ack then (if n.delivered then some rest else none) else acknowledge rest ack

/-- The queue after the return step: the oldest `maximum` notices have their marks set (R124, R127). -/
def markDelivered (q : List Notice) (maximum : Nat) : List Notice :=
  (q.take maximum).map (fun n => { n with delivered := true }) ++ q.drop maximum

/-- The body of the FETCH reply: the counts after both steps, and the returned notices with the marks they had
before. `q` is the queue between the two steps. -/
def fetchBody (q : List Notice) (maximum : Nat) : List Byte :=
  [BitVec.ofNat 8 q.length, BitVec.ofNat 8 ((markDelivered q maximum).countP fun n => !n.delivered),
    BitVec.ofNat 8 (q.take maximum).length] ++ ((q.take maximum).map Notice.bytes).flatten

/-- FETCH: acknowledgement first, return second. -/
def actFetch (port : HostNo) (maximum : Byte) (ack : Option Byte) (s : State) : Acted :=
  if 1 ≤ maximum.toNat ∧ maximum.toNat ≤ 4 then
    let P := s.ports.get port
    let acked : Option (List Notice) :=
      match ack with
      | none => some P.notices
      | some a => acknowledge P.notices a
    let q := acked.getD P.notices
    ⟨s.setPort port { P with notices := markDelivered q maximum.toNat },
      ⟨if acked.isSome then .ok else .badAck, fetchBody q maximum.toNat⟩⟩
  else .unchanged s (.plain .invalid)

def execFetch (port : HostNo) (tag : Byte) (maximum : Byte) (ack : Option Byte) (s : State) :
    Host.Outcome State Fault Refusal :=
  .next (serve port tag .fetch true (actFetch port maximum ack) s)

/-! ### READ_MAP and DIGEST (R148) -/

def actReadMap (offset length : Byte) (s : State) : Acted :=
  if 1 ≤ length.toNat ∧ length.toNat ≤ 56 ∧ offset.toNat + length.toNat ≤ Config.mapBytes then
    .unchanged s ⟨.ok, s.map.readRange offset.toNat length.toNat⟩
  else .unchanged s (.plain .invalid)

def execReadMap (port : HostNo) (tag : Byte) (offset length : Byte) (s : State) :
    Host.Outcome State Fault Refusal :=
  .next (serve port tag .readMap true (actReadMap offset length) s)

def actDigest (s : State) : Acted := .unchanged s ⟨.ok, word16Bytes s.map.digest⟩

def execDigest (port : HostNo) (tag : Byte) (s : State) : Host.Outcome State Fault Refusal :=
  .next (serve port tag .digest true actDigest s)

end Sys2Proof.Machine
end

