-- ==== Sys2Proof/Machine/MapRequests.lean ====
section
/-! DEFINITION. WRITE_MAP, READY, ATTACH, REOPEN and DETACH: the requests on the access map and the join barrier. -/

namespace Sys2Proof.Machine

/-! ### WRITE_MAP (R146, R147) -/

/-- Whether a write covers whole items: its offset is the first byte of an item, and its last byte the last byte of
one (R146). -/
def coversWholeItems (offset n : Nat) : Bool :=
  mapItems.any (fun i => i.1 == offset) && mapItems.any (fun i => i.1 + i.2 == offset + n)

/-- Whether every item written holds values within its ranges in the image `m` after the write (R146). -/
def writtenItemsValid (m : Memory) (offset n : Nat) : Bool :=
  mapItems.all fun i => !(decide (offset ≤ i.1 ∧ i.1 < offset + n)) || itemValid m i.1

/-- A port after an accepted write: READY becomes OPEN (R147). -/
def Port.withdrawReady (P : Port) : Port := if P.status = .ready then { P with status := .open } else P

/-- What a write does to a fault carried from the entry to SETUP of this instant (log 33): the change of level or of
the check enable that restarts or clears a mismatch timer ends it too, and so does a window made longer than its count. A
shorter window brings none about, since the mark of a window that the entry found unreached counts 0. -/
def LineState.carryEntryFault (ctx0 ctx1 : LineCtx) (L : LineState) : LineState :=
  { L with
    mismatchAtEntry :=
      if ctx1.check ∧ L.drive ctx0 = L.drive ctx1
          ∧ (timerReached ctx0.window L.mismatchAtEntry → timerReached ctx1.window L.mismatchAtEntry) then
        L.mismatchAtEntry
      else none }

/-- The map written, and what the new values do to the lines at that instant: a changed safe level is reported to
the monitor, a check enable turned off clears the timer, and a window shortened to no more than the time counted
declares a fault (R133, R136, R147). -/
def writeMapTo (s : State) (m : Memory) : State :=
  let s1 := State.remonitorAll { s with map := m } s
  { s1 with
    lines := .ofFn fun k =>
      let L := (s1.lines.get k).carryEntryFault (s.ctx k) (s1.ctx k)
      if faultDue (s1.ctx k).window L then remonitor (s1.ctx k) L (s1.ctx k) (faultLine (s1.ctx k) L).line else L }

/-- The checks of WRITE_MAP, in any order, since each gives INVALID: the image after an accepted write. -/
def mapAfterWrite (m : Memory) (offset : Nat) (bytes : List Byte) : Option Memory :=
  if offset + bytes.length ≤ Config.mapBytes ∧ coversWholeItems offset bytes.length = true
      ∧ writtenItemsValid (m.writeAll offset bytes) offset bytes.length = true then
    some (m.writeAll offset bytes)
  else none

/-- WRITE_MAP: the items, then every READY declaration removed, then MAP_CHANGED; the reply carries the digest of the
map after the write. -/
def actWriteMap (port : HostNo) (offset : Byte) (bytes : List Byte) (s : State) : Acted :=
  match mapAfterWrite s.map offset.toNat bytes with
  | none => .unchanged s (.plain .invalid)
  | some m =>
    let s1 := writeMapTo s m
    let s2 : State := { s1 with ports := .ofFn fun h => (s1.ports.get h).withdrawReady }
    ⟨s2.post ⟨.all, .mapChanged port⟩, ⟨.ok, word16Bytes m.digest⟩⟩

def execWriteMap (port : HostNo) (tag : Byte) (offset : Byte) (bytes : List Byte) (s : State) :
    Host.Outcome State Fault Refusal :=
  .next (serve port tag .writeMap (Request.writeMap offset bytes).lengthOk (actWriteMap port offset bytes) s)

/-! ### READY (R151) -/

/-- READY: the digest, then the quota sum; the port declared; the barrier evaluated; the reply as the device then
stands. -/
def actReady (port : HostNo) (digest : Word16) (s : State) : Acted :=
  if digest ≠ s.map.digest then .unchanged s (.plain .mapMismatch)
  else if 96 < quotaSum s.map then .unchanged s (.plain .mapInvalid)
  else
    let s1 := evaluateSetup (s.setPort port { s.ports.get port with status := .ready })
    ⟨s1, ⟨.ok, [s1.device.toByte, BitVec.ofNat 8 (s1.countPorts .open)]⟩⟩

def execReady (port : HostNo) (tag : Byte) (digest : Word16) (s : State) : Host.Outcome State Fault Refusal :=
  .next (serve port tag .ready true (actReady port digest) s)

/-! ### ATTACH (R154) -/

def actAttach (port : HostNo) (digest : Word16) (s : State) : Acted :=
  if digest ≠ s.map.digest then .unchanged s (.plain .mapMismatch)
  else
    let s1 := s.setPort port { s.ports.get port with status := .attached }
    ⟨s1, ⟨.ok, [BitVec.ofNat 8 (s1.countPorts .attached)]⟩⟩

def execAttach (port : HostNo) (tag : Byte) (digest : Word16) (s : State) : Host.Outcome State Fault Refusal :=
  .next (serve port tag .attach true (actAttach port digest) s)

/-! ### REOPEN (R155) -/

/-- The reply of REOPEN, given the state after the request has acted: whether the port's vote is open, and the
ATTACHED ports without one. A VOTE that completes the return is answered with 0, and its vote is closed by then
(R156, R158, log 17). -/
def reopenReply (port : HostNo) (s : State) : Reply :=
  ⟨.ok, [boolByte (s.ports.get port).vote, BitVec.ofNat 8 s.countNonVoters]⟩

/-- REOPEN with 01h VOTE or 02h CANCEL: a vote opened or closed is told to the other ATTACHED ports, and a vote
opened evaluates the barrier. -/
def actReopen (port : HostNo) (choice : Byte) (s : State) : Acted :=
  let P := s.ports.get port
  if choice = 0x01 then
    if P.vote then .unchanged s (reopenReply port s)
    else
      let s1 := (s.setPort port { P with vote := true }).post ⟨.attachedBut port, .reopenVote false port⟩
      ⟨evaluateRun s1, reopenReply port (evaluateRun s1)⟩
  else if choice = 0x02 then
    if P.vote then
      let s1 := (s.setPort port { P with vote := false }).post ⟨.attachedBut port, .reopenVote true port⟩
      ⟨s1, reopenReply port s1⟩
    else .unchanged s (reopenReply port s)
  else .unchanged s (.plain .invalid)

def execReopen (port : HostNo) (tag : Byte) (choice : Byte) (s : State) : Host.Outcome State Fault Refusal :=
  .next (serve port tag .reopen true (actReopen port choice) s)

/-! ### DETACH (R98 to R101) -/

/-- DETACH: the port becomes PENDING, its claims are resolved, its notices and buffers emptied and its vote removed,
and the barrier is evaluated; the reply OK is placed in the emptied buffer at the end. -/
def actDetach (port : HostNo) (s : State) : Acted :=
  let s1 := departHost (s.setPort port { s.ports.get port with status := .pending }) port
  let s2 := s1.setPort port { (s1.ports.get port).emptyNotices.emptyBuffers with vote := false }
  ⟨evaluateRun s2, .plain .ok⟩

def execDetach (port : HostNo) (tag : Byte) (s : State) : Host.Outcome State Fault Refusal :=
  .next (serve port tag .detach true (actDetach port) s)

end Sys2Proof.Machine
end

