-- ==== Sys2Proof/Machine/ClaimRequests.lean ====
section
/-! DEFINITION. CLAIM, RELEASE and RENEW: the requests on claims (Sections 5 and 6). -/

namespace Sys2Proof.Machine

/-! ### CLAIM (R71, R72) -/

/-- The fields of a CLAIM with their enumerations read. -/
structure ClaimFields where
  line : LineNo
  cutMode : CutMode
  try_ : Bool
  restLevel : RestLevel
  deriving DecidableEq, Repr

/-- The option of a CLAIM: 00h WAIT, 01h TRY. -/
def tryOfByte (b : Byte) : Option Bool := if b = 0x00 then some false else if b = 0x01 then some true else none

/-- The first check of Table 5-3. -/
def claimFields (line cutMode option restLevel : Byte) : Option ClaimFields :=
  match lineOfByte line, cutModeOfByte cutMode, tryOfByte option, restLevelOfByte restLevel with
  | some k, some m, some t, some r => some ⟨k, m, t, r⟩
  | _, _, _, _ => none

/-- What Table 5-4 answers a CLAIM of a priority on a line with: GRANTED, TAKING or WAITING. -/
def admission (L : LineState) (priority : Nat) : Status :=
  match L.claims with
  | [] => if L.engine = .idle then .granted else .taking
  | c :: _ => if c.priority < priority then .taking else .waiting

/-- The claim a CLAIM creates (R72). -/
def newClaim (s : State) (port : HostNo) (f : ClaimFields) (lease : Word16) : Claim where
  host := port
  priority := cellPriority s.map port f.line
  arrival := (s.lines.get f.line).arrivals
  cutMode := f.cutMode
  leaseValue := lease
  leaseElapsed := 0
  forestalled := false
  restLevel := f.restLevel
  state := .waiting
  yieldRun := 0
  queue := []

/-- The checks of Table 5-3 from the second on: the status of the first that fails. -/
def claimRefusal (s : State) (port : HostNo) (f : ClaimFields) (lease : Word16) : Option Status :=
  let L := s.lines.get f.line
  if permitted s.map port f.line = false then some .notPermitted
  else if f.cutMode = .cycle ∧ mayCut s.map port f.line = false then some .notPermitted
  else if lease = 0 ∨ (leaseLimit s.map port f.line).toNat < lease.toNat then some .invalid
  else if L.engine = .retired then some .retired
  else if (L.claimOf port).isSome then some .duplicate
  else if f.try_ ∧ admission L (cellPriority s.map port f.line) = .waiting then some .held
  else none

/-- CLAIM: the reply carries the status at admission, the arrival stamp and the place after insertion. -/
def actClaim (port : HostNo) (line cutMode option restLevel : Byte) (lease : Word16) (s : State) : Acted :=
  match claimFields line cutMode option restLevel with
  | none => .unchanged s (.plain .invalid)
  | some f =>
    match claimRefusal s port f lease with
    | some st => .unchanged s (.plain st)
    | none =>
      let L := s.lines.get f.line
      let c := newClaim s port f lease
      ⟨s.updateLine f.line (enlist (s.ctx f.line) L c),
        ⟨admission L c.priority,
          word16Bytes c.arrival ++ [BitVec.ofNat 8 (placeOf port (insertClaim c L.claims))]⟩⟩

def execClaim (port : HostNo) (tag : Byte) (line cutMode option restLevel : Byte) (lease : Word16) (s : State) :
    Host.Outcome State Fault Refusal :=
  .next (serve port tag .claim true (actClaim port line cutMode option restLevel lease) s)

/-! ### RELEASE (R83 to R85) -/

/-- The option of a RELEASE. -/
inductive ReleaseOption where
  | now | drain
  deriving DecidableEq, Repr

/-- 00h NOW, 01h DRAIN (Table 11-8). -/
def releaseOptionOfByte (b : Byte) : Option ReleaseOption :=
  if b = 0x00 then some .now else if b = 0x01 then some .drain else none

/-- What a RELEASE does to a claim by its state (Table 5-6). -/
def releaseClaim (ctx : LineCtx) (L : LineState) (c : Claim) (option : ReleaseOption) : LineOut :=
  match c.state, option with
  | .waiting, _ | .taking, _ => dropClaim ctx L c.host
  | .ending _, _ | .leaving _, .drain => .quiet L
  | .holding, .drain => drainClaim ctx L c.host
  | .holding, .now | .yielding, _ | .leaving _, .now => endClaim ctx L c.host .released

/-- The standing of a host's claim (Table 11-10): 00h ENDING, 01h LEAVING, 02h REMOVED. -/
def standing (L : LineState) (h : HostNo) : Byte :=
  match L.claimOf h with
  | none => 0x02
  | some c => match c.state with
    | .leaving _ => 0x01
    | .waiting | .taking | .holding | .yielding | .ending _ => 0x00

def actRelease (port : HostNo) (line option : Byte) (s : State) : Acted :=
  match lineOfByte line, releaseOptionOfByte option with
  | some k, some opt =>
    match (s.lines.get k).claimOf port with
    | none => .unchanged s (.plain .noClaim)
    | some c =>
      let o := releaseClaim (s.ctx k) (s.lines.get k) c opt
      ⟨s.updateLine k o, ⟨.ok, [standing o.line port]⟩⟩
  | _, _ => .unchanged s (.plain .invalid)

def execRelease (port : HostNo) (tag : Byte) (line option : Byte) (s : State) : Host.Outcome State Fault Refusal :=
  .next (serve port tag .release true (actRelease port line option) s)

/-! ### RENEW (R94, R95) -/

/-- The lines a selector names: one line, or all for FFh. -/
def linesSelected (selector : Byte) : Option (List LineNo) :=
  if selector = 0xFF then some [0, 1, 2, 3, 4, 5, 6, 7] else (lineOfByte selector).map fun k => [k]

/-- Whether a host has a claim on a line that a RENEW renews: one that is not ENDING. -/
def renewable (s : State) (h : HostNo) (k : LineNo) : Bool :=
  match (s.lines.get k).claimOf h with
  | none => false
  | some c => !c.state.isEnding

/-- A claim renewed: the new value where one is given, and the count from 0 (R95). -/
def Claim.renew (newLease : Option Word16) (c : Claim) : Claim :=
  { c.restartLease with leaseValue := newLease.getD c.leaseValue }

/-- A line with a host's claim renewed. -/
def LineState.renewClaim (L : LineState) (h : HostNo) (newLease : Option Word16) : LineState :=
  { L with claims := mapHost h (Claim.renew newLease) L.claims }

/-- The lease value of a host's claim on a line. -/
def leaseValueOf (s : State) (h : HostNo) (k : LineNo) : Word16 :=
  (((s.lines.get k).claimOf h).map Claim.leaseValue).getD 0

/-- RENEW: the checks of Table 6-1, then every claim named renewed. The value in force is the new one, or that of
the renewed claim on the lowest-numbered line. -/
def actRenew (port : HostNo) (selector : Byte) (newLease : Option Word16) (s : State) : Acted :=
  match linesSelected selector with
  | none => .unchanged s (.plain .invalid)
  | some ks =>
    if newLease = some 0 then .unchanged s (.plain .invalid)
    else
      match ks.filter (renewable s port) with
      | [] => .unchanged s (.plain .noClaim)
      | k :: rest =>
        if (newLease.map fun v => (k :: rest).all fun j => decide (v.toNat ≤ (leaseLimit s.map port j).toNat))
            = some false then
          .unchanged s (.plain .invalid)
        else
          ⟨{ s with
              lines := .ofFn fun j =>
                if j ∈ k :: rest then (s.lines.get j).renewClaim port newLease else s.lines.get j },
            ⟨.ok, BitVec.ofNat 8 (k :: rest).length :: word16Bytes (newLease.getD (leaseValueOf s port k))⟩⟩

def execRenew (port : HostNo) (tag : Byte) (selector : Byte) (newLease : Option Word16) (s : State) :
    Host.Outcome State Fault Refusal :=
  .next (serve port tag .renew true (actRenew port selector newLease) s)

end Sys2Proof.Machine
end

