-- ==== Sys2Proof/Machine/StoreRequests.lean ====
section
/-! DEFINITION. SUBMIT, FLUSH, AMEND and CLEAR_FAULT: the requests on segments and lines (Sections 2, 7 and 9). -/

namespace Sys2Proof.Machine

/-! ### SUBMIT (R107, R108) -/

/-- The segments of a SUBMIT in list order, or the place an INVALID reply carries: 0 for the list length or bytes
left over, the place of the first segment that fails otherwise (R107, R174). -/
def submitSegments (count : Byte) (segments : List Byte) : Except Nat (List Segment) :=
  if 1 ≤ count.toNat ∧ count.toNat ≤ 8 then takeSegments 1 count.toNat segments else .error 0

/-- Whether a claim is refused LEAVING: LEAVING or ENDING (R107). -/
def ClaimState.refusesWork : ClaimState → Bool
  | .leaving _ | .ending _ => true
  | .waiting | .taking | .holding | .yielding => false

/-- The queue length of a host's claim on a line. -/
def queueLength (L : LineState) (h : HostNo) : Nat := ((L.claimOf h).map fun c => c.queue.length).getD 0

/-- SUBMIT: the checks of Table 7-1, then the segments appended and what the line makes of them; the counts of the
reply are those after the request has acted. -/
def actSubmit (port : HostNo) (line count : Byte) (segments : List Byte) (s : State) : Acted :=
  match lineOfByte line with
  | none => .unchanged s ⟨.invalid, [0x00]⟩
  | some k =>
    match submitSegments count segments with
    | .error place => .unchanged s ⟨.invalid, [BitVec.ofNat 8 place]⟩
    | .ok segs =>
      match (s.lines.get k).claimOf port with
      | none => .unchanged s (.plain .noClaim)
      | some c =>
        if c.state.refusesWork then .unchanged s (.plain .leaving)
        else if quota s.map port < s.inUse port + segs.length then
          .unchanged s ⟨.storeFull, [BitVec.ofNat 8 (s.inUse port), BitVec.ofNat 8 (quota s.map port)]⟩
        else
          let s1 := s.updateLine k (submitTo (s.ctx k) (s.lines.get k) port segs)
          ⟨s1, ⟨.ok, [BitVec.ofNat 8 segs.length, BitVec.ofNat 8 (queueLength (s1.lines.get k) port),
            BitVec.ofNat 8 (s1.inUse port)]⟩⟩

def execSubmit (port : HostNo) (tag : Byte) (line count : Byte) (segments : List Byte) (s : State) :
    Host.Outcome State Fault Refusal :=
  .next (serve port tag .submit (Request.submit line count segments).lengthOk
    (actSubmit port line count segments) s)

/-! ### FLUSH (R111 to R113) -/

/-- 00h ALL, 01h LABEL with the label byte, 02h NONE (Table 11-8). -/
def flushScopeOfBytes (scope label : Byte) : Option FlushScope :=
  if scope = 0x00 then some .all else if scope = 0x01 then some (.label label)
  else if scope = 0x02 then some .none else Option.none

/-- The cut option: 00h no, 01h yes. -/
def cutOfByte (b : Byte) : Option Bool := if b = 0x00 then some false else if b = 0x01 then some true else none

/-- What a FLUSH does to a line: the removal, then the cut where the option is yes and there is a running segment
to cut. -/
structure Flushed where
  out : LineOut
  removed : Nat
  cut : Bool
  deriving DecidableEq, Repr

/-- A FLUSH of claim `c` on its line (R112, R113). -/
def flushLine (ctx : LineCtx) (L : LineState) (c : Claim) (scope : FlushScope) (cut : Bool) : Flushed :=
  if cut && flushCuts L c then
    match flushedQueue L c scope with
    | e :: rest =>
      ⟨flushCut ctx (flushedLine L c scope) { c with queue := e :: rest, yieldRun := flushedYieldRun L c scope } e rest,
        flushedCount L c scope, true⟩
    | [] => ⟨.quiet (flushedLine L c scope), flushedCount L c scope, false⟩
  else ⟨.quiet (flushedLine L c scope), flushedCount L c scope, false⟩

/-- FLUSH: the checks of R111, then the claim flushed; the in-use count is that after the request has acted. -/
def actFlush (port : HostNo) (line scope label cut : Byte) (s : State) : Acted :=
  match lineOfByte line, flushScopeOfBytes scope label, cutOfByte cut with
  | some k, some sc, some ct =>
    match (s.lines.get k).claimOf port with
    | none => .unchanged s (.plain .noClaim)
    | some c =>
      let f := flushLine (s.ctx k) (s.lines.get k) c sc ct
      let s1 := s.updateLine k f.out
      ⟨s1, ⟨.ok, [BitVec.ofNat 8 f.removed, boolByte f.cut, BitVec.ofNat 8 (s1.inUse port)]⟩⟩
  | _, _, _ => .unchanged s (.plain .invalid)

def execFlush (port : HostNo) (tag : Byte) (line scope label cut : Byte) (s : State) :
    Host.Outcome State Fault Refusal :=
  .next (serve port tag .flush true (actFlush port line scope label cut) s)

/-! ### AMEND (R39, R40) -/

/-- Whether a segment is a PULSE. -/
def Segment.isPulse (g : Segment) : Bool :=
  match g.body with
  | .pulse _ _ _ _ => true
  | .hold _ _ | .carrier _ _ _ | .sense _ _ => false

/-- Whether a host's claim is the executing claim of a line. -/
def executes (L : LineState) (h : HostNo) : Bool := (L.executing.map Claim.host) == some h

/-- AMEND: the checks of R39 in order, then the slot filled; the reply says whether earlier values were replaced. -/
def actAmend (port : HostNo) (line : Byte) (period active : Word16) (s : State) : Acted :=
  match lineOfByte line with
  | none => .unchanged s (.plain .invalid)
  | some k =>
    let L := s.lines.get k
    if period.toNat < 2 ∨ period.toNat < active.toNat then .unchanged s (.plain .invalid)
    else if executes L port = false then .unchanged s (.plain .notHolder)
    else if (L.running.map Segment.isPulse) ≠ some true then .unchanged s (.plain .invalid)
    else
      ⟨{ s with lines := s.lines.set k { L with staged := some ⟨period, active⟩ } },
        ⟨.staged, [boolByte L.staged.isSome]⟩⟩

def execAmend (port : HostNo) (tag : Byte) (line : Byte) (period active : Word16) (s : State) :
    Host.Outcome State Fault Refusal :=
  .next (serve port tag .amend true (actAmend port line period active) s)

/-! ### CLEAR_FAULT (R137, R138) -/

/-- A FAULTED line cleared: normal running under supply OK, HALTED under supply LOW with its claims kept. -/
def clearFaultLine (ctx : LineCtx) (L : LineState) : LineOut :=
  match ctx.supply with
  | .ok => leaveSafeStop ctx L
  | .low => .quiet { L with engine := .halted }

/-- The state after an event on one line that also posts a notice whose place among the line's the spec leaves open
(R138, log 18). -/
def State.updateLineWith (s : State) (k : LineNo) (o : LineOut) (extra : List Post) : State :=
  { s with lines := s.lines.set k (remonitor (s.ctx k) (s.lines.get k) (s.ctx k) o.line) }.postMerged
    [o.posts, extra]

/-- CLEAR_FAULT: the checks of R137 in order, then the line cleared and FAULT_CLEARED posted. -/
def actClearFault (port : HostNo) (line : Byte) (s : State) : Acted :=
  match lineOfByte line with
  | none => .unchanged s (.plain .invalid)
  | some k =>
    if s.device = .run ∧ permitted s.map port k = false then .unchanged s (.plain .notPermitted)
    else if (s.lines.get k).engine ≠ .faulted then .unchanged s (.plain .notFaulted)
    else
      ⟨s.updateLineWith k (clearFaultLine (s.ctx k) (s.lines.get k)) [⟨.permittedOn k, .faultCleared k port⟩],
        .plain .ok⟩

def execClearFault (port : HostNo) (tag : Byte) (line : Byte) (s : State) : Host.Outcome State Fault Refusal :=
  .next (serve port tag .clearFault true (actClearFault port line) s)

end Sys2Proof.Machine
end

