-- ==== Sys2Proof/Machine/PortEvents.lean ====
section
/-! DEFINITION. The events of a host port: TRANSACTION_SELECT, DESELECT, REPLY_READY, PRESENT_RISE, PRESENT_FALL; and
DEVICE_RESET. -/

namespace Sys2Proof.Machine

/-! ### TRANSACTION_SELECT (R162, R163) -/

/-- The reply in preparation placed in the reply buffer, and the ready flag set. -/
def Port.replyBecomesReady (P : Port) : Port :=
  match P.preparing with
  | none => P
  | some frame => { P with reply := frame, replyReady := true, preparing := none, preparingClocks := 0 }

/-- A port whose reply has been in preparation for 20 us has it ready: a host that waits that long before it selects
receives the reply and never NOT_READY (R168). -/
def Port.replyAtLatest (P : Port) : Port :=
  if Config.replyClocks ≤ P.preparingClocks then P.replyBecomesReady else P

/-- The frame chosen at select: the reply frame where the ready flag is set, NOT_READY otherwise (R163). -/
def Port.chosenFrame (P : Port) : FrameChoice := if P.replyReady then .reply else .notReady

/-- The falling edge of HnSELN on a port: a transaction begins where the port is present (R162), with the reply where
it is ready by then, at the latest 20 us after its deselect (R168). -/
def Port.select (P : Port) : Port :=
  if P.selnLow then P
  else
    { P.replyAtLatest with
      selnLow := true
      transaction := if P.status = .absent then P.transaction else some P.replyAtLatest.chosenFrame }

def execTransactionSelect (port : HostNo) (s : State) : Host.Outcome State Fault Refusal :=
  .next (s.setPort port (s.ports.get port).select)

/-! ### DESELECT (R164 to R167) -/

/-- What the block that owns the state does with a request of a port (Table 11-2, "Owner"). -/
def Request.act (r : Request) (port : HostNo) : State → Acted :=
  match r with
  | .nop => actNop
  | .deviceStatus => actDeviceStatus port
  | .lineStatus line => actLineStatus line
  | .fetch maximum ack => actFetch port maximum ack
  | .readMap offset length => actReadMap offset length
  | .digest => actDigest
  | .writeMap offset bytes => actWriteMap port offset bytes
  | .ready d => actReady port d
  | .attach d => actAttach port d
  | .reopen choice => actReopen port choice
  | .detach => actDetach port
  | .claim line cutMode option restLevel lease => actClaim port line cutMode option restLevel lease
  | .release line option => actRelease port line option
  | .renew selector newLease => actRenew port selector newLease
  | .submit line count segments => actSubmit port line count segments
  | .flush line scope label cut => actFlush port line scope label cut
  | .amend line period active => actAmend port line period active
  | .clearFault line => actClearFault port line

/-- A frame dispatched by its code (R167): UNKNOWN for a code Table 11-8 does not list, then as `serve`. -/
def dispatchFrame (port : HostNo) (code tag : Byte) (body : List Byte) (s : State) : State :=
  match requestOfCode code with
  | none => s.answer port tag (.plain .unknown)
  | some name =>
    match parseBody name body with
    | some r => serve port tag name true (r.act port) s
    | none => serve port tag name false (fun t => .unchanged t (.plain .invalid)) s

/-- The bytes of a transaction that began with the reply frame, examined (R165): refused at frame level with tag
00h, or dispatched. -/
def examine (port : HostNo) (bytes : List Byte) (bits : Nat) (s : State) : State :=
  match receive bytes bits with
  | .framing => s.answer port 0x00 (.plain .framing)
  | .checkError => s.answer port 0x00 (.plain .checkError)
  | .frame code tag body => dispatchFrame port code tag body s

/-- A port after the rising edge of HnSELN: its receive buffer is empty and no transaction is in progress. -/
def Port.deselected (P : Port) : Port :=
  { P with selnLow := false, transaction := none, rxBytes := [], rxBits := 0 }

/-- The rising edge of HnSELN with the bytes and left-over bits the host clocked since the select (R164): a
transaction with none is ignored, one begun with NOT_READY is discarded unread, any other is examined. -/
def deselectPort (port : HostNo) (bytes : List Byte) (bits : Nat) (s : State) : State :=
  let P := s.ports.get port
  if P.selnLow = false then s
  else
    let s1 := s.setPort port P.deselected
    match P.transaction with
    | none | some .notReady => s1
    | some .reply =>
      if (P.rxBytes ++ bytes).isEmpty ∧ P.rxBits + bits = 0 then s1
      else examine port (P.rxBytes ++ bytes) (P.rxBits + bits) s1

/-- The command of a deselect after the bits sampled on HnDI at the rising edges of HnCLK: their whole bytes, most
significant bit first, and the number of bits left over (R162, R164). -/
def deselectAfter (port : HostNo) (sampled : List Bool) : Instr :=
  .deselect port (bytesOfBits sampled) (sampled.length % 8)

def execDeselect (port : HostNo) (bytes : List Byte) (bits : Nat) (s : State) : Host.Outcome State Fault Refusal :=
  .next (deselectPort port bytes bits s)

/-! ### REPLY_READY (R168): `Port.replyBecomesReady` above -/

def replyBecomesReady (port : HostNo) (s : State) : State := s.setPort port (s.ports.get port).replyBecomesReady

def execReplyReady (port : HostNo) (s : State) : Host.Outcome State Fault Refusal :=
  .next (replyBecomesReady port s)

/-! ### PRESENT_RISE (R150) -/

/-- HnPRES rising on an ABSENT port: OPEN in SETUP, PENDING in RUN. An arrival evaluates the barrier in SETUP and
cannot complete it (R152). -/
def presentRise (port : HostNo) (s : State) : State :=
  let P := s.ports.get port
  if P.status = .absent then
    match s.device with
    | .setup => evaluateSetup (s.setPort port { P with status := .open })
    | .run => s.setPort port { P with status := .pending }
  else s

def execPresentRise (port : HostNo) (s : State) : Host.Outcome State Fault Refusal := .next (presentRise port s)

/-! ### PRESENT_FALL (R98 to R102) -/

/-- HnPRES falling on a present port: ABSENT, then the teardown: claims, notice queue and buffers, vote, and the
barrier, in RUN where the port was ATTACHED (R157). -/
def presentFall (port : HostNo) (s : State) : State :=
  let P := s.ports.get port
  if P.status = .absent then s
  else
    let s1 := departHost (s.setPort port { P with status := .absent }) port
    let s2 := s1.setPort port { (s1.ports.get port).emptyNotices.clearBuffers with vote := false }
    match s.device with
    | .setup => evaluateSetup s2
    | .run => if P.status = .attached then evaluateRun s2 else s2

def execPresentFall (port : HostNo) (s : State) : Host.Outcome State Fault Refusal := .next (presentFall port s)

/-! ### DEVICE_RESET (R18, R89, R117, R131, R140, R145, R159, R161) -/

/-- Device reset: every block at its reset value. The input pins stay as they are: a port whose presence input is
high becomes OPEN (R159). The waiting commands and the order counter are the model's own and stay (log 8). The settle timer
is clear (R140); where VDD stands above 3.05 V at the release of RESETN, with no rise through it to come, R139 and R140 do
not say when it starts: it starts at SETTLE_TIMER_START, which the sender sends then too (log 39). -/
def deviceReset (s : State) : State :=
  { State.reset with
    lines := .ofFn fun k => .resetWith (s.lines.get k).pad
    ports := .ofFn fun h => .resetWith (decide ((s.ports.get h).status ≠ .absent)) (s.ports.get h).selnLow
    orderCount := s.orderCount
    pending := s.pending }

def execDeviceReset (s : State) : Host.Outcome State Fault Refusal := .next (deviceReset s)

end Sys2Proof.Machine
end

