-- ==== Sys2Proof/Machine/SupplyEvents.lean ====
section
/-! DEFINITION. The events of the supply watch (R139 to R142). -/

namespace Sys2Proof.Machine

/-- Whether entry of the watch to LOW halts an engine: every one that is not FAULTED or RETIRED (R141). -/
def EngineState.halts : EngineState → Bool
  | .idle | .running | .starved | .guard | .halted => true
  | .faulted | .retired => false

/-- VDD below 2.9 V (R139, R141). In OK the watch enters LOW, the engines halt, and SUPPLY_LOW is posted, its place
among the lines' notices open (R141, log 3). In LOW the settle timer is clear. -/
def supplyFallsLow (s : State) : State :=
  match s.supply with
  | .low => { s with settle := none }
  | .ok =>
    let s1 : State := { s with supply := .low, settle := none }
    s1.updateLines
      (fun k =>
        if (s1.lines.get k).engine.halts then enterSafeStop (s1.ctx k) (s1.lines.get k) .halted .supply
        else .quiet (s1.lines.get k))
      [[⟨.all, .supplyLow⟩]]

def execSupplyFallsLow (s : State) : Host.Outcome State Fault Refusal := .next (supplyFallsLow s)

/-- VDD rising above 3.05 V: in LOW the settle timer starts from 0; in OK nothing changes (R139). -/
def settleTimerStart (s : State) : State :=
  match s.supply with
  | .low => { s with settle := some 0 }
  | .ok => s

def execSettleTimerStart (s : State) : Host.Outcome State Fault Refusal := .next (settleTimerStart s)

/-- VDD at 3.05 V or below: in LOW a running settle timer is cleared; in OK nothing changes (R139). -/
def settleTimerCleared (s : State) : State :=
  match s.supply with
  | .low => { s with settle := none }
  | .ok => s

def execSettleTimerCleared (s : State) : Host.Outcome State Fault Refusal := .next (settleTimerCleared s)

/-- Whether the end of the settle time can come: the watch is LOW and its timer runs, in the first settle or after
it. -/
def settling (first : Bool) (s : State) : Bool := s.supply == .low && s.settle.isSome && s.firstSettle == first

/-- The settle timer reaching 10 ms after a later LOW (R142): the watch enters OK, every HALTED engine leaves it for
GUARD or a take, and SUPPLY_RESTORED is posted, its place among the lines' notices open (log 18). -/
def supplyRestore (s : State) : State :=
  if settling false s then
    let s1 : State := { s with supply := .ok, settle := none }
    s1.updateLines
      (fun k =>
        if (s1.lines.get k).engine = .halted then leaveSafeStop (s1.ctx k) (s1.lines.get k)
        else .quiet (s1.lines.get k))
      [[⟨.all, .supplyRestored⟩]]
  else s

def execSupplyRestore (s : State) : Host.Outcome State Fault Refusal := .next (supplyRestore s)

/-- The settle timer reaching 10 ms after device reset (R140): the watch enters OK without notices, the IDLE lines
drive their safe levels and their monitors are told, and the barrier is evaluated (R152). -/
def firstSettleEnd (s : State) : State :=
  if settling true s then
    let s1 := State.remonitorAll { s with supply := .ok, settle := none, firstSettle := false } s
    match s.device with
    | .setup => evaluateSetup s1
    | .run => s1
  else s

def execFirstSettleEnd (s : State) : Host.Outcome State Fault Refusal := .next (firstSettleEnd s)

end Sys2Proof.Machine
end

