-- ==== Sys2Proof/Machine/LineEvents.lean ====
section
/-! DEFINITION. The timed events of claims and lines and the events of the pads. An event acts where what it ends is in
progress, and leaves the state as it is where it is not (log 2). -/

namespace Sys2Proof.Machine

/-- The running segment of a line: the executing claim, the entry at the front of its queue and the rest of it, while
the engine is RUNNING (R5, R106). -/
structure Front where
  claim : Claim
  entry : Entry
  rest : List Entry
  deriving DecidableEq, Repr

def LineState.front (L : LineState) : Option Front :=
  match L.engine, L.executing with
  | .running, some c =>
    match c.queue with
    | e :: rest => some ⟨c, e, rest⟩
    | [] => none
  | _, _ => none

/-- The state after an event that found nothing on the line (`none`) or did something there. -/
def State.applyLine (s : State) (k : LineNo) : Option LineOut → State
  | none => s
  | some o => s.updateLine k o

/-! ### LEASE_EXPIRY (R92) -/

/-- The lease of a host's claim runs out: nothing where it has no claim on the line, one that is ENDING, or one whose
expiry of this instant a renewal has forestalled (R92, Table 6-2). -/
def leaseExpiryOut (ctx : LineCtx) (L : LineState) (h : HostNo) : Option LineOut :=
  match L.claimOf h with
  | none => none
  | some c => if c.state.isEnding || c.forestalled then none else some (expireClaim ctx L h)

def leaseExpiry (line : LineNo) (host : HostNo) (s : State) : State :=
  s.applyLine line (leaseExpiryOut (s.ctx line) (s.lines.get line) host)

def execLeaseExpiry (line : LineNo) (host : HostNo) (s : State) : Host.Outcome State Fault Refusal :=
  .next (leaseExpiry line host s)

/-! ### GUARD_END (R13) -/

/-- The guard ends: the line is taken for the head of its list, or becomes IDLE. -/
def guardEndOut (ctx : LineCtx) (L : LineState) : Option LineOut :=
  if L.engine = .guard then some (takeLine ctx { L with guardRemaining := 0 } L.claims) else none

def guardEnd (line : LineNo) (s : State) : State := s.applyLine line (guardEndOut (s.ctx line) (s.lines.get line))

def execGuardEnd (line : LineNo) (s : State) : Host.Outcome State Fault Refusal := .next (guardEnd line s)

/-! ### PULSE_PHASE_END (R29) -/

/-- The active phase of a cycle ends and the inactive phase begins, where the cycle has one (R30). -/
def pulsePhaseEndOut (L : LineState) : Option LineOut :=
  match L.front with
  | none => none
  | some f =>
    match f.entry.seg.body with
    | .pulse period active _ _ =>
      if L.progress.phase = .active ∧ active ≠ period then
        some (.quiet { L with progress := ⟨.inactive, 0, L.progress.completed⟩, startedAtEnd := false })
      else none
    | .hold _ _ | .carrier _ _ _ | .sense _ _ => none

def pulsePhaseEnd (line : LineNo) (s : State) : State := s.applyLine line (pulsePhaseEndOut (s.lines.get line))

def execPulsePhaseEnd (line : LineNo) (s : State) : Host.Outcome State Fault Refusal := .next (pulsePhaseEnd line s)

/-! ### PULSE_CYCLE_END (R31, R33, R40) -/

/-- The record of a running PULSE with a staged amendment written into it (R40). -/
def SegmentBody.amended (staged : Option Amendment) : SegmentBody → SegmentBody
  | .pulse period active pol count =>
    match staged with
    | some a => .pulse a.period a.active pol count
    | none => .pulse period active pol count
  | .hold l d => .hold l d
  | .carrier s p ds => .carrier s p ds
  | .sense d l => .sense d l

/-- Whether the end of a cycle is the end of the PULSE: of a counted one when its cycles are completed, of a
continuous one when a segment stands behind it (R33) or its claim is LEAVING and not displaced (R80). `completed`
counts the cycle that ends. -/
def pulseEnds (c : Claim) (count : Word16) (completed : Nat) (rest : List Entry) : Bool :=
  if count = 0 then !rest.isEmpty || c.state == .leaving false else decide (count.toNat ≤ completed)

/-- The next cycle of a PULSE, with a staged amendment applied: the record, the slot and the progress (R16, R40). -/
def nextCycle (L : LineState) (f : Front) : LineState :=
  let body := f.entry.seg.body.amended L.staged
  { L.withQueue f.claim.host ({ f.entry with seg := { f.entry.seg with body := body } } :: f.rest) f.claim.yieldRun with
    staged := none
    progress := ⟨body.firstPhase, 0, L.progress.completed + 1⟩
    startedAtEnd := false }

/-- A cycle of the running PULSE ends (R31): its natural end, a cut at the cycle point, or the next cycle. The cycle
end of a continuous PULSE is a segment point too (Table 2-6). For a SUBMIT and the yield point of a continuous PULSE
(RESTART, join clear) at one instant, row 2 of Table 7-5 gives the same queue in both orders; R33 and Table 7-2 end the
PULSE DONE and free it where the SUBMIT is first, R76 keeps it where the yield is. The model follows these (log 35). -/
def pulseCycleEndOut (ctx : LineCtx) (L : LineState) : Option LineOut :=
  match L.front with
  | none => none
  | some f =>
    match f.entry.seg.body with
    | .pulse _ _ _ count =>
      if pulseEnds f.claim count (L.progress.completed + 1) f.rest then
        some (naturalEnd ctx L f.claim f.entry f.rest .aborted 0)
      else if stopsAtCyclePoint (headCut L.claims) f.claim (count == 0) f.rest then
        some (cutAndStop ctx L f.claim f.entry f.rest)
      else some (.quiet (nextCycle L f))
    | .hold _ _ | .carrier _ _ _ | .sense _ _ => none

def pulseCycleEnd (line : LineNo) (s : State) : State :=
  s.applyLine line (pulseCycleEndOut (s.ctx line) (s.lines.get line))

def execPulseCycleEnd (line : LineNo) (s : State) : Host.Outcome State Fault Refusal := .next (pulseCycleEnd line s)

/-! ### CARRIER_ELEMENT_END (R43, R44, R47, R49) -/

/-- The next element of a CARRIER: a mark reads its source afresh and starts the generator; a space stops it. -/
def nextElement (ctx : LineCtx) (L : LineState) (source : Source) (index : Nat) : LineState :=
  { L with
    progress := ⟨.element index, 0, L.progress.completed + 1⟩
    gen := if isMark index then .start (ctx.setting source) else L.gen.stop
    startedAtEnd := false }

/-- An element of the running CARRIER ends (R49): the segment's natural end after the last, a cut at the cycle point,
or the next element. -/
def carrierElementEndOut (ctx : LineCtx) (L : LineState) : Option LineOut :=
  match L.front with
  | none => none
  | some f =>
    match f.entry.seg.body, L.progress.phase with
    | .carrier source _ durations, .element i =>
      if durations.length ≤ i + 1 then some (naturalEnd ctx L f.claim f.entry f.rest .aborted 0)
      else if stopsAtCyclePoint (headCut L.claims) f.claim false f.rest then
        some (cutAndStop ctx L f.claim f.entry f.rest)
      else some (.quiet (nextElement ctx L source (i + 1)))
    | _, _ => none

def carrierElementEnd (line : LineNo) (s : State) : State :=
  s.applyLine line (carrierElementEndOut (s.ctx line) (s.lines.get line))

def execCarrierElementEnd (line : LineNo) (s : State) : Host.Outcome State Fault Refusal :=
  .next (carrierElementEnd line s)

/-! ### CARRIER_PART_CHANGE (R44, R45) -/

/-- The position at which the current part of the carrier period ends: the active part before position active, the
inactive part before the period (R44). -/
def CarrierGen.partEnd (gen : CarrierGen) : Nat :=
  if gen.position < gen.active then min gen.active gen.period else gen.period

/-- The reference clocks left of the current part: none where the clock has brought its end at this instant. -/
def CarrierGen.partLeft (gen : CarrierGen) : Nat := if gen.atBoundary then 0 else gen.partEnd - gen.position

/-- The generator at its next part: from the active part to the first position of the inactive part, from the
inactive part to position 0 of a new carrier period (R44). -/
def CarrierGen.nextPart (gen : CarrierGen) : CarrierGen :=
  { gen with position := if gen.partEnd < gen.period then gen.partEnd else 0, atBoundary := false }

/-- The reference clocks left of the running mark; none where no mark runs (R43). -/
def LineState.markLeft (L : LineState) : Option Nat :=
  match L.front with
  | none => none
  | some f =>
    match f.entry.seg.body, L.progress.phase with
    | .carrier _ _ ds, .element i =>
      if isMark i then some ((ds.getD i 0).toNat * f.entry.seg.tap.clocks - L.progress.elapsed) else none
    | _, _ => none

/-- The generator passes to its next part (R44). At the instant the clock brings the end of a part no time passes with
it; sent before, the reference clocks left of the part have elapsed in the mark too, so that each part lasts its clocks
as the mark counts them (log 22). A part that the end of its mark cuts short has no such passage (R45). -/
def carrierPartChangeOut (L : LineState) : Option LineOut :=
  match L.markLeft with
  | none => none
  | some left =>
    if L.gen.running = true ∧ L.gen.partLeft ≤ left then
      some (.quiet { L with
        progress := { L.progress with elapsed := L.progress.elapsed + L.gen.partLeft }
        gen := L.gen.nextPart
        startedAtEnd := false })
    else none

def carrierPartChange (line : LineNo) (s : State) : State :=
  s.applyLine line (carrierPartChangeOut (s.lines.get line))

def execCarrierPartChange (line : LineNo) (s : State) : Host.Outcome State Fault Refusal :=
  .next (carrierPartChange line s)

/-! ### HOLD_END (R26) -/

/-- A HOLD with a duration ends DONE. -/
def holdEndOut (ctx : LineCtx) (L : LineState) : Option LineOut :=
  match L.front with
  | none => none
  | some f =>
    match f.entry.seg.body with
    | .hold _ duration =>
      if duration = 0 then none else some (naturalEnd ctx L f.claim f.entry f.rest .aborted 0)
    | .pulse _ _ _ _ | .carrier _ _ _ | .sense _ _ => none

def holdEnd (line : LineNo) (s : State) : State := s.applyLine line (holdEndOut (s.ctx line) (s.lines.get line))

def execHoldEnd (line : LineNo) (s : State) : Host.Outcome State Fault Refusal := .next (holdEnd line s)

/-! ### The events of a SENSE (R56 to R60) -/

/-- The running SENSE of a line in a phase, with its limit. -/
def LineState.senseIn (L : LineState) (phase : Phase) : Option (Front × Word16) :=
  match L.front with
  | none => none
  | some f =>
    match f.entry.seg.body with
    | .sense _ limit => if L.progress.phase = phase then some (f, limit) else none
    | .hold _ _ | .pulse _ _ _ _ | .carrier _ _ _ => none

/-- The discharge ends: the release phase begins with the counter at 0, and its first sample, taken at this instant,
completes the measurement where the pad reads HIGH (R57, R58). The release is a change to an unchecked FLOAT also where
the measurement completes at it: the window is abandoned, and what follows is a new change of level (R57, R133). -/
def senseReleaseOut (ctx : LineCtx) (L : LineState) : Option LineOut :=
  match L.senseIn .discharge with
  | none => none
  | some (f, _) =>
    let released : LineState :=
      { L with progress := ⟨.release, 0, L.progress.completed⟩, senseCounter := 0, startedAtEnd := false }
    if L.pad = .high then
      let o := naturalEnd ctx L f.claim f.entry f.rest .count 0
      some { o with line := remonitor ctx released ctx o.line }
    else some (.quiet released)

def senseRelease (line : LineNo) (s : State) : State :=
  s.applyLine line (senseReleaseOut (s.ctx line) (s.lines.get line))

def execSenseRelease (line : LineNo) (s : State) : Host.Outcome State Fault Refusal := .next (senseRelease line s)

/-- The pad reads HIGH in the release phase: COUNT with the sense counter (R58). -/
def sensePadHighOut (ctx : LineCtx) (L : LineState) : Option LineOut :=
  match L.senseIn .release with
  | none => none
  | some (f, _) => some (naturalEnd ctx { L with pad := .high } f.claim f.entry f.rest .count L.senseCounter)

def sensePadHigh (line : LineNo) (s : State) : State :=
  s.applyLine line (sensePadHighOut (s.ctx line) (s.lines.get line))

def execSensePadHigh (line : LineNo) (s : State) : Host.Outcome State Fault Refusal := .next (sensePadHigh line s)

/-- The limit-th line tick ends: TIMEOUT with value 0, or COUNT with the limit where the last sample, taken at this
instant, reads HIGH (R58, R59). -/
def senseLimitReachedOut (ctx : LineCtx) (L : LineState) : Option LineOut :=
  match L.senseIn .release with
  | none => none
  | some (f, limit) =>
    if L.pad = .high then some (naturalEnd ctx L f.claim f.entry f.rest .count limit.toNat)
    else some (naturalEnd ctx L f.claim f.entry f.rest .timeout 0)

def senseLimitReached (line : LineNo) (s : State) : State :=
  s.applyLine line (senseLimitReachedOut (s.ctx line) (s.lines.get line))

def execSenseLimitReached (line : LineNo) (s : State) : Host.Outcome State Fault Refusal :=
  .next (senseLimitReached line s)

/-! ### The events of the readback monitor (R132 to R136) -/

def padMismatchBegins (line : LineNo) (reads : PadLevel) (s : State) : State :=
  { s with lines := s.lines.set line (padReads (s.ctx line) (s.lines.get line) reads) }

/-- The pad of a line reads something that may differ from the driven level: the mismatch timer starts from 0 where
the level is compared and differs (R132, R133). -/
def execPadMismatchBegins (line : LineNo) (reads : PadLevel) (s : State) : Host.Outcome State Fault Refusal :=
  .next (padMismatchBegins line reads s)

def padMatches (line : LineNo) (s : State) : State :=
  let L := s.lines.get line
  { s with lines := s.lines.set line (padReads (s.ctx line) L (padMatching L.pad (L.drive (s.ctx line)).level)) }

/-- The pad of a line reads the driven level: the mismatch timer is cleared (R133). -/
def execPadMatches (line : LineNo) (s : State) : Host.Outcome State Fault Refusal := .next (padMatches line s)

/-- The mismatch timer reaches the fault window: a fault where the timer runs and no event of this instant has taken it
back from its window (row 1 of Table 9-1, log 37), or where it ran when the entry to SETUP at this instant cleared it (row
5), on an engine that can fault. -/
def readbackFaultOut (ctx : LineCtx) (L : LineState) : Option LineOut :=
  if ((L.mismatch.isSome && !L.faultForestalled) || L.mismatchAtEntry.isSome) = true ∧ L.engine.canFault = true then
    some (faultLine ctx { L with mismatchAtEntry := none })
  else none

def readbackFault (line : LineNo) (s : State) : State :=
  s.applyLine line (readbackFaultOut (s.ctx line) (s.lines.get line))

def execReadbackFault (line : LineNo) (s : State) : Host.Outcome State Fault Refusal := .next (readbackFault line s)

end Sys2Proof.Machine
end

