-- ==== Sys2Proof/Machine/Dispatch.lean ====
section
/-! DEFINITION. The command of the front of the queue run on the state: one arm for each constructor of `Instr`. -/

namespace Sys2Proof.Machine

def exec (i : Instr) (s : State) : Host.Outcome State Fault Refusal :=
  match i with
  | .nop port tag => Sys2Proof.Machine.execNop port tag s
  | .deviceStatus port tag => Sys2Proof.Machine.execDeviceStatus port tag s
  | .lineStatus port tag line => Sys2Proof.Machine.execLineStatus port tag line s
  | .fetch port tag maximum ack => Sys2Proof.Machine.execFetch port tag maximum ack s
  | .readMap port tag offset length => Sys2Proof.Machine.execReadMap port tag offset length s
  | .digest port tag => Sys2Proof.Machine.execDigest port tag s
  | .writeMap port tag offset bytes => Sys2Proof.Machine.execWriteMap port tag offset bytes s
  | .ready port tag digest => Sys2Proof.Machine.execReady port tag digest s
  | .attach port tag digest => Sys2Proof.Machine.execAttach port tag digest s
  | .reopen port tag choice => Sys2Proof.Machine.execReopen port tag choice s
  | .detach port tag => Sys2Proof.Machine.execDetach port tag s
  | .claim port tag line cutMode option restLevel lease => Sys2Proof.Machine.execClaim port tag line cutMode option restLevel lease s
  | .release port tag line option => Sys2Proof.Machine.execRelease port tag line option s
  | .renew port tag selector newLease => Sys2Proof.Machine.execRenew port tag selector newLease s
  | .submit port tag line count segments => Sys2Proof.Machine.execSubmit port tag line count segments s
  | .flush port tag line scope label cut => Sys2Proof.Machine.execFlush port tag line scope label cut s
  | .amend port tag line period active => Sys2Proof.Machine.execAmend port tag line period active s
  | .clearFault port tag line => Sys2Proof.Machine.execClearFault port tag line s
  | .transactionSelect port => Sys2Proof.Machine.execTransactionSelect port s
  | .deselect port bytes bits => Sys2Proof.Machine.execDeselect port bytes bits s
  | .replyReady port => Sys2Proof.Machine.execReplyReady port s
  | .presentRise port => Sys2Proof.Machine.execPresentRise port s
  | .presentFall port => Sys2Proof.Machine.execPresentFall port s
  | .deviceReset => Sys2Proof.Machine.execDeviceReset s
  | .supplyFallsLow => Sys2Proof.Machine.execSupplyFallsLow s
  | .settleTimerStart => Sys2Proof.Machine.execSettleTimerStart s
  | .settleTimerCleared => Sys2Proof.Machine.execSettleTimerCleared s
  | .supplyRestore => Sys2Proof.Machine.execSupplyRestore s
  | .firstSettleEnd => Sys2Proof.Machine.execFirstSettleEnd s
  | .leaseExpiry line host => Sys2Proof.Machine.execLeaseExpiry line host s
  | .guardEnd line => Sys2Proof.Machine.execGuardEnd line s
  | .pulsePhaseEnd line => Sys2Proof.Machine.execPulsePhaseEnd line s
  | .pulseCycleEnd line => Sys2Proof.Machine.execPulseCycleEnd line s
  | .carrierElementEnd line => Sys2Proof.Machine.execCarrierElementEnd line s
  | .carrierPartChange line => Sys2Proof.Machine.execCarrierPartChange line s
  | .holdEnd line => Sys2Proof.Machine.execHoldEnd line s
  | .senseRelease line => Sys2Proof.Machine.execSenseRelease line s
  | .sensePadHigh line => Sys2Proof.Machine.execSensePadHigh line s
  | .senseLimitReached line => Sys2Proof.Machine.execSenseLimitReached line s
  | .padMismatchBegins line reads => Sys2Proof.Machine.execPadMismatchBegins line reads s
  | .padMatches line => Sys2Proof.Machine.execPadMatches line s
  | .readbackFault line => Sys2Proof.Machine.execReadbackFault line s

end Sys2Proof.Machine
end

