-- ==== Sys2Proof/Machine/Tick.lean ====
section
/-! DEFINITION. What a step does while no command waits (log 1): where events are due at this instant they are taken, in
an order a free value chooses (log 3), each by the very operation its command runs; where none is, one reference clock
passes and every timer of the part advances by one (R12, R23, R44, R57, R91, R133, R139, R168). A command put on the
queue while an event is due is taken before it, at the same instant. -/

namespace Sys2Proof.Machine

/-! ### The timers advance -/

/-- The lease timer counts in every state but ENDING (R91). -/
def Claim.elapse (c : Claim) : Claim :=
  if c.state.isEnding then { c with forestalled := false }
  else { c with leaseElapsed := c.leaseElapsed + 1, forestalled := false }

/-- The generator counts one reference clock (R44): it advances by one position within its part. The clock that ends the
part brings the passage to the next part due at this instant, which is CARRIER_PART_CHANGE. -/
def CarrierGen.elapse (gen : CarrierGen) : CarrierGen :=
  if gen.running then
    if gen.partEnd ≤ gen.position + 1 then { gen with atBoundary := true } else { gen with position := gen.position + 1 }
  else gen

/-- The mismatch timer after one reference clock: it counts while the level is compared and differs, starts where it
was clear (log 14), and is clear otherwise (R132, R133). -/
def mismatchAfter (ctx : LineCtx) (L : LineState) : Option Nat :=
  let d := L.drive ctx
  if d.compared ctx.check ∧ padMismatches L.pad d.level = true then some ((L.mismatch.map (· + 1)).getD 0) else none

/-- The sense counter `elapsed` reference clocks after the release: the whole line ticks, up to the limit (R57). -/
def senseCount (tap : Tap) (limit : Word16) (elapsed : Nat) : Nat := min limit.toNat (elapsed / tap.clocks)

/-- The sense counter of a line after one more reference clock; it counts in the release phase only (R67). -/
def senseCounterAfter (L : LineState) : Nat :=
  match L.senseIn .release with
  | none => L.senseCounter
  | some (f, limit) => senseCount f.entry.seg.tap limit (L.progress.elapsed + 1)

/-- One line one reference clock later, nothing taken yet. -/
def LineState.elapse (ctx : LineCtx) (L : LineState) : LineState :=
  { L with
    progress := if L.engine = .running then { L.progress with elapsed := L.progress.elapsed + 1 } else L.progress
    startedAtEnd := false
    guardRemaining := if L.engine = .guard then L.guardRemaining - 1 else L.guardRemaining
    gen := L.gen.elapse
    senseCounter := senseCounterAfter L
    mismatch := mismatchAfter ctx L
    mismatchAtEntry := none
    faultForestalled := false
    claims := L.claims.map Claim.elapse }

/-- One port one reference clock later. -/
def Port.elapse (P : Port) : Port :=
  if P.preparing.isSome then { P with preparingClocks := P.preparingClocks + 1 } else P

/-- The arbiter one reference clock later, nothing taken yet. -/
def State.elapse (s : State) : State :=
  { s with
    settle := s.settle.map (· + 1)
    lines := .ofFn fun k => (s.lines.get k).elapse (s.ctx k)
    ports := .ofFn fun h => (s.ports.get h).elapse }

/-! ### What is due -/

/-- The event that ends the current phase or element of the running segment, and the reference clocks it lasts
(R23, R26, R29, R30, R43, R56, R59). -/
def LineState.boundary (L : LineState) (k : LineNo) : Option (Instr × Nat) :=
  match L.front with
  | none => none
  | some f =>
    match f.entry.seg.body, L.progress.phase with
    | .hold _ d, .whole => if d = 0 then none else some (.holdEnd k, d.toNat * f.entry.seg.tap.clocks)
    | .pulse p a _ _, .active =>
      if a = p then some (.pulseCycleEnd k, p.toNat * f.entry.seg.tap.clocks)
      else some (.pulsePhaseEnd k, a.toNat * f.entry.seg.tap.clocks)
    | .pulse p a _ _, .inactive => some (.pulseCycleEnd k, (p.toNat - a.toNat) * f.entry.seg.tap.clocks)
    | .carrier _ _ ds, .element i =>
      some (.carrierElementEnd k, (ds.getD i 0).toNat * f.entry.seg.tap.clocks)
    | .sense d _, .discharge => some (.senseRelease k, d.toNat * f.entry.seg.tap.clocks)
    | .sense _ l, .release => some (.senseLimitReached k, l.toNat * f.entry.seg.tap.clocks)
    | _, _ => none

/-- Whether a fault is due that the entry to SETUP at this instant found at its window (Table 9-1, log 33). -/
def faultAtEntryDue (window : Nat) (L : LineState) : Bool := timerReached window L.mismatchAtEntry && L.engine.canFault

/-- The events the clock has brought due on a line. -/
def lineDue (s : State) (k : LineNo) : List Instr :=
  let L := s.lines.get k
  (match L.boundary k with
    | some (i, n) => if n ≤ L.progress.elapsed then [i] else []
    | none => [])
  ++ (if L.markLeft.isSome ∧ L.gen.running = true ∧ L.gen.atBoundary = true then [.carrierPartChange k] else [])
  ++ (if (L.senseIn .release).isSome ∧ L.pad = .high then [.sensePadHigh k] else [])
  ++ (if L.engine = .guard ∧ L.guardRemaining = 0 then [.guardEnd k] else [])
  ++ (if (faultDue (s.ctx k).window L && !L.faultForestalled) || faultAtEntryDue (s.ctx k).window L then
        [.readbackFault k] else [])
  ++ (L.claims.filter fun c =>
        !c.state.isEnding && !c.forestalled && c.leaseOver).map
      fun c => .leaseExpiry k c.host

/-- The event the settle timer has brought due (R139, R140). -/
def supplyDue (s : State) : List Instr :=
  match s.settle with
  | none => []
  | some n =>
    if Config.settleClocks ≤ n ∧ s.supply = .low then [if s.firstSettle then .firstSettleEnd else .supplyRestore] else []

/-- The reply of a port that is ready at the latest (R168). -/
def portDue (s : State) (p : HostNo) : List Instr :=
  let P := s.ports.get p
  if P.preparing.isSome ∧ Config.replyClocks ≤ P.preparingClocks then [.replyReady p] else []

/-- Everything due at this instant. -/
def dueEvents (s : State) : List Instr :=
  ((PerLine.ofFn fun k => lineDue s k).toList ++ [supplyDue s] ++ (PerPort.ofFn fun p => portDue s p).toList).flatten

/-- A due event taken; the commands that are not timed are never due. -/
def takeTimed (i : Instr) (s : State) : State :=
  match i with
  | .replyReady p => replyBecomesReady p s
  | .supplyRestore => supplyRestore s
  | .firstSettleEnd => firstSettleEnd s
  | .leaseExpiry k h => leaseExpiry k h s
  | .guardEnd k => guardEnd k s
  | .pulsePhaseEnd k => pulsePhaseEnd k s
  | .pulseCycleEnd k => pulseCycleEnd k s
  | .carrierElementEnd k => carrierElementEnd k s
  | .carrierPartChange k => carrierPartChange k s
  | .holdEnd k => holdEnd k s
  | .senseRelease k => senseRelease k s
  | .sensePadHigh k => sensePadHigh k s
  | .senseLimitReached k => senseLimitReached k s
  | .readbackFault k => readbackFault k s
  | _ => s

/-- Events of one instant taken one after the other, each only where an earlier one has not undone it. A fault that is due
with a yield point whose stop changes the driven level, the yield taken first, is undone: the first row of Table 9-1 is
followed, not its last (log 31). -/
def takeAll : List Instr → State → State
  | [], s => s
  | i :: is, s => takeAll is (if i ∈ dueEvents s then takeTimed i s else s)

/-- The events due at this instant taken, or one reference clock where none is. -/
def tick (s : State) : State :=
  match dueEvents s with
  | [] => s.elapse
  | e :: es =>
    takeAll (mergeAll s.orderCount 0 ((e :: es).map fun i => [i])) { s with orderCount := s.orderCount + 1 }

end Sys2Proof.Machine
end

