-- ==== Sys2Proof/Safety.lean ====
section
/-! DEFINITION. What the statements about the block speak of: completion, requests as commands, the frames of an answer
and of an event on one line, and the laws the block keeps at every step. -/

namespace Sys2Proof.Machine

/-- The outcome is a next state: the block neither faults nor refuses. -/
def Completes (o : Host.Outcome State Fault Refusal) : Prop := ∃ t, o = .next t

/-- A request of a port as the command of its row. -/
def Request.command (r : Request) (port : HostNo) (tag : Byte) : Instr :=
  match r with
  | .nop => .nop port tag
  | .deviceStatus => .deviceStatus port tag
  | .lineStatus line => .lineStatus port tag line
  | .fetch maximum ack => .fetch port tag maximum ack
  | .readMap offset length => .readMap port tag offset length
  | .digest => .digest port tag
  | .writeMap offset bytes => .writeMap port tag offset bytes
  | .ready d => .ready port tag d
  | .attach d => .attach port tag d
  | .reopen choice => .reopen port tag choice
  | .detach => .detach port tag
  | .claim line cutMode option restLevel lease => .claim port tag line cutMode option restLevel lease
  | .release line option => .release port tag line option
  | .renew selector newLease => .renew port tag selector newLease
  | .submit line count segments => .submit port tag line count segments
  | .flush line scope label cut => .flush port tag line scope label cut
  | .amend line period active => .amend port tag line period active
  | .clearFault line => .clearFault port tag line

/-- `t` is `s` but for line `k` and the ports. -/
def SameButLine (k : LineNo) (s t : State) : Prop :=
  (∀ j, j ≠ k → t.lines.get j = s.lines.get j) ∧ t.device = s.device ∧ t.supply = s.supply
    ∧ t.firstSettle = s.firstSettle ∧ t.settle = s.settle ∧ t.map = s.map ∧ t.orderCount = s.orderCount
    ∧ t.pending = s.pending

/-- `Q` is `P` but for the notice queue and its next sequence number. -/
def Port.SameButNotices (P Q : Port) : Prop := Q = { P with notices := Q.notices, nextSeq := Q.nextSeq }

/-- Line `k` RUNNING for the HOLDING head `c` of its list, whose front entry is `e` with `rest` behind it; `cs` are the
claims behind the head, of other hosts (R5, R69, R106). -/
def HoldsAndRuns (s : State) (k : LineNo) (c : Claim) (cs : List Claim) (e : Entry) (rest : List Entry) : Prop :=
  (s.lines.get k).engine = .running ∧ (s.lines.get k).claims = c :: cs ∧ c.state = .holding ∧ c.queue = e :: rest
    ∧ ∀ d ∈ cs, d.host ≠ c.host

/-- A line whose running segment has ended DONE with nothing behind it, for the HOLDING head `c`: STARVED, the record
DONE with its mark set, the entry freed (R6, R9, R17). -/
def starvedAfterDone (L : LineState) (c : Claim) (cs : List Claim) : LineState :=
  { L with
    engine := .starved, progress := .zero, startedAtEnd := false, staged := none
    gen := { L.gen with position := 0, running := false, atBoundary := false }, senseCounter := 0
    lastEnded := some ⟨.done, true⟩, claims := { c with queue := [] } :: cs }

/-- A line whose running segment has ended DONE and whose next entry `e` starts at that instant, for the HOLDING head
`c` (R5, R6, R17). -/
def nextAfterDone (ctx : LineCtx) (L : LineState) (c : Claim) (cs : List Claim) (e : Entry) (rest : List Entry) :
    LineState :=
  { L with
    engine := .running, progress := ⟨e.seg.body.firstPhase, 0, 0⟩, startedAtEnd := true, staged := none
    gen := startGen ctx { L.gen with position := 0, running := false, atBoundary := false } e.seg.body
    senseCounter := 0
    lastEnded := some ⟨.done, false⟩, claims := { c with queue := e :: rest } :: cs }

/-- AMEND_LOST where an amendment is staged (R16). -/
def lostPosts (k : LineNo) (c : Claim) (L : LineState) : List Post :=
  if L.staged.isSome then [⟨.host c.host, .amendLost k⟩] else []

/-- SEGMENT_DONE where notify is set (R25). -/
def donePosts (k : LineNo) (c : Claim) (e : Entry) : List Post :=
  if e.seg.notify then [⟨.host c.host, .segmentDone k e.seg.label⟩] else []

/-- The notices of a running segment that ends STOPPED, FAULT or SUPPLY: AMEND_LOST first, then SEGMENT_ENDED, or
SENSE_RESULT ABORTED for a SENSE; none where no segment runs (R16, R24, R61). -/
def brokenOffPosts (k : LineNo) (L : LineState) (outcome : SegOutcome) : List Post :=
  match L.front with
  | none => []
  | some f =>
    lostPosts k f.claim L ++
      [match f.entry.seg.body with
        | .sense _ _ => ⟨.host f.claim.host, .senseResult k f.entry.seg.label .aborted 0⟩
        | _ => ⟨.host f.claim.host, .segmentEnded k f.entry.seg.label outcome⟩]

/-- A line whose executing claim has stopped, in GUARD for a guard time of `guard` units with `cs` on its list (R11,
R12). -/
def guardedWith (guard : Nat) (L : LineState) (cs : List Claim) : LineState :=
  { L.clearRun with lastEnded := none, engine := .guard, guardRemaining := guard * 128, claims := cs }

/-- `i` is the command at which the running entry `e` comes to its natural end: a HOLD with a duration, the last cycle
of a counted PULSE, the last element of a CARRIER (R26, R31, R43). -/
def EndsNaturally (k : LineNo) (L : LineState) (e : Entry) (i : Instr) : Prop :=
  (∃ level duration, e.seg.body = .hold level duration ∧ duration ≠ 0 ∧ i = .holdEnd k)
    ∨ (∃ period active pol count, e.seg.body = .pulse period active pol count ∧ count ≠ 0
        ∧ count.toNat ≤ L.progress.completed + 1 ∧ i = .pulseCycleEnd k)
    ∨ (∃ source pol durations j, e.seg.body = .carrier source pol durations ∧ L.progress.phase = .element j
        ∧ durations.length ≤ j + 1 ∧ i = .carrierElementEnd k)

/-- `i` is the command at which a cycle or element of the running entry `e` ends that is not its last: a cycle of a
counted PULSE, an element of a CARRIER (R31, R49). -/
def EndsACycle (k : LineNo) (L : LineState) (e : Entry) (i : Instr) : Prop :=
  (∃ period active pol count, e.seg.body = .pulse period active pol count
      ∧ L.progress.completed + 1 < count.toNat ∧ i = .pulseCycleEnd k)
    ∨ (∃ source pol durations j, e.seg.body = .carrier source pol durations ∧ L.progress.phase = .element j
        ∧ j + 1 < durations.length ∧ i = .carrierElementEnd k)

/-- Line `k` RUNNING for the claim `c` behind the TAKING head `taker`, with `e` at the front of its queue and `rest`
behind it; `cs` wait behind (R70, R73). -/
def RunsBehindTaker (s : State) (k : LineNo) (taker c : Claim) (cs : List Claim) (e : Entry) (rest : List Entry) : Prop :=
  (s.lines.get k).engine = .running ∧ (s.lines.get k).claims = taker :: c :: cs ∧ taker.state = .taking
    ∧ c.queue = e :: rest ∧ taker.host ≠ c.host ∧ ∀ d ∈ cs, d.host ≠ c.host ∧ d.state = .waiting

/-! ### Laws kept at every step -/

/-- The access map has its canonical form and holds valid items (R144). -/
def MapLaw (s : State) : Prop := s.map.wf = true ∧ mapValid s.map = true

/-- The law of one notice queue (R118, R121): at most 16 notices; the newest of 16 is an OVERFLOW; the sequence
numbers run consecutively up to the next one; the delivered notices are a run beginning at the oldest. -/
def Port.NoticeLaw (P : Port) : Prop :=
  P.notices.length ≤ 16
    ∧ (P.notices.length = 16 → ∃ seq lost d, P.notices.getLast? = some ⟨seq, .overflow lost, d⟩)
    ∧ (∀ (i : Nat) (n : Notice), P.notices[i]? = some n → n.seq = P.nextSeq - BitVec.ofNat 8 (P.notices.length - i))
    ∧ (∀ (i j : Nat) (m n : Notice), i < j → P.notices[i]? = some m → P.notices[j]? = some n → n.delivered = true → m.delivered = true)

/-- The law of every notice queue. -/
def NoticeLaw (s : State) : Prop := ∀ h, (s.ports.get h).NoticeLaw

/-- The law of the join barrier (R149, R152, R157, Table 10-4, Table 10-5). In RUN some ATTACHED port has no open
vote, no port is OPEN or READY, and the first settle has ended; in SETUP no port is ATTACHED or PENDING, and the
barrier is not complete. Only an ATTACHED port has an open vote. -/
def BarrierLaw (s : State) : Prop :=
  (s.device = .run →
    (∃ h, (s.ports.get h).status = .attached ∧ (s.ports.get h).vote = false)
      ∧ (∀ h, (s.ports.get h).status ≠ .open ∧ (s.ports.get h).status ≠ .ready) ∧ s.firstSettle = false)
  ∧ (s.device = .setup →
    (∀ h, (s.ports.get h).status ≠ .attached ∧ (s.ports.get h).status ≠ .pending) ∧ barrierComplete s = false)
  ∧ (∀ h, (s.ports.get h).vote = true → (s.ports.get h).status = .attached)

/-- The law of the fault counts (R134 to R136): at most 4, a line is RETIRED exactly when its count is 4, and in SETUP
every count is 0. -/
def FaultLaw (s : State) : Prop :=
  (∀ k, (s.lines.get k).faultCount ≤ 4 ∧ ((s.lines.get k).engine = .retired ↔ (s.lines.get k).faultCount = 4))
    ∧ (s.device = .setup → ∀ k, (s.lines.get k).faultCount = 0)

/-- The states the head of a list can have (R70, Table 5-5). -/
def ClaimState.headLike : ClaimState → Bool
  | .taking | .holding | .leaving false | .ending _ => true
  | .waiting | .yielding | .leaving true => false

/-- The states a claim behind the head can have (R70, Table 5-5). -/
def ClaimState.behindLike : ClaimState → Bool
  | .waiting | .yielding | .leaving true | .ending _ => true
  | .taking | .holding | .leaving false => false

/-- The law of a claim list (R4, R69, R70): one claim of each host, priorities never rising, head and followers in the
states R70 allows, at most one executing. -/
def ClaimsLaw (cs : List Claim) : Prop :=
  (cs.map Claim.host).Nodup
    ∧ cs.Pairwise (fun a b => b.priority ≤ a.priority)
    ∧ (∀ c ∈ cs.head?, c.state.headLike = true)
    ∧ (∀ c ∈ cs.tail, c.state.behindLike = true)
    ∧ (cs.filter fun c => c.state.isExecuting).length ≤ 1

/-- The executing claim each engine state has (R4, R9, R15, Table 1-2). -/
def LineState.EngineLaw (L : LineState) : Prop :=
  (L.engine = .idle ∨ L.engine = .retired → L.claims = [])
    ∧ (L.engine = .running → ∃ c, L.executing = some c ∧ c.queue ≠ [])
    ∧ (L.engine = .starved → ∃ c, L.executing = some c ∧ c.state = .holding ∧ c.queue = [])
    ∧ (L.engine = .guard ∨ L.engine = .faulted ∨ L.engine = .halted →
        ∀ c, L.executing = some c → c.state = .holding ∨ c.state = .leaving false)

/-- The law of one line's claim list and engine. -/
def LineState.ListLaw (L : LineState) : Prop := ClaimsLaw L.claims ∧ L.EngineLaw

/-- The law of every claim list. -/
def ListLaw (s : State) : Prop := ∀ k, (s.lines.get k).ListLaw

/-- The law of the store (R105, R117, R151): no host's entries exceed its quota; quotas agreed to sum to 96 or less; in
SETUP no claim exists, so the store is empty. -/
def StoreLaw (s : State) : Prop :=
  (∀ h, s.inUse h ≤ quota s.map h)
    ∧ (s.device = .run ∨ (∃ h, (s.ports.get h).status = .ready) → quotaSum s.map ≤ 96)
    ∧ (s.device = .setup → ∀ k, (s.lines.get k).claims = [])

end Sys2Proof.Machine
end

