-- ==== Sys2Proof/Certificates/Slice0/Obligations.lean ====
section
/-! DEFINITION. The statements for the provers, by subject: the queue and the clock, requests and replies, notices,
the map and the barrier, claims, the store, lines, the supply watch, and the laws kept at every step. -/

open Sys2Proof Sys2Proof.Machine

/-! ### The queue and the clock -/

/-- A step with a command at the front of the queue is that command run on the state with the rest of the queue. -/
def Obligations.StepRunsTheFrontCommand : Prop :=
  ∀ (c : Instr) (rest : List Instr) (s : State),
    step { s with pending := c :: rest } = exec c { s with pending := rest }

/-- Every command answers a next state from every state, and none touches the queue of waiting commands. The queue is
the model's own (log 1), and that DEVICE_RESET keeps it is the model's choice (log 8). -/
def Obligations.EveryCommandCompletes : Prop :=
  ∀ (c : Instr) (s : State), ∃ t, exec c s = .next t ∧ t.pending = s.pending

/-- A step on an empty queue (log 1: the model's choice). Where nothing is due, one reference clock passes: every
timer of every line and port has advanced by one: phases (R23), guards (R12), leases but those of ENDING claims (R91),
carrier generators (R44; the clock that ends a part brings the passage to the next one due, log 22), the sense counter
(R57, R67), the mismatch timer (R132, R133; that a pad which reads otherwise from the start is counted from the first
clock is log 14), the settle timer (R139), the preparation of a reply (R168). The marks of what fell at the instant
that ends are cleared: a segment started at its predecessor's end (startedAtEnd, log 15), a timer that ran at an entry
to SETUP (mismatchAtEntry, log 33), a fault that is forestalled (faultForestalled, log 37), a lease whose expiry is
forestalled (log 34). Nothing else changes. Where something is due, no time passes and it is taken: one event by its
command, several one after the other in an order that is free (log 3), each where an earlier one has not undone it.
What is due: the end of a guard (R12, R13), of a phase, cycle, element, HOLD or SENSE (R23), of a part of the carrier
period in a mark (R44), of a lease (R91, R92), of a fault window (R133, R134; also one met by the entry to SETUP at
this instant, log 33), of the settle time (R139, R140), and a reply in preparation for 160 clocks: R168 says only that
it is ready no later than 20 us, and that the clock makes it ready exactly then is the model's choice (log 16). A
lease restarted at this instant is not due (R97, log 34), nor is a fault whose timer an event of this instant has
taken back from its window (Table 9-1, log 37). -/
def Obligations.ClockAdvancesEveryTimer : Prop :=
  ∀ s : State, s.pending = [] →
    (dueEvents s = [] →
      ∃ t, step s = .next t
        ∧ t = { s with settle := s.settle.map (· + 1), lines := t.lines, ports := t.ports }
        ∧ (∀ (k : LineNo) (L : LineState) (d : Drive), L = s.lines.get k → d = L.drive (s.ctx k) →
            t.lines.get k = { L with
              progress := if L.engine = .running then { L.progress with elapsed := L.progress.elapsed + 1 } else L.progress
              startedAtEnd := false
              guardRemaining := if L.engine = .guard then L.guardRemaining - 1 else L.guardRemaining
              gen := if L.gen.running then
                  if L.gen.position + 1 = L.gen.active ∨ L.gen.period ≤ L.gen.position + 1 then
                    { L.gen with atBoundary := true }
                  else { L.gen with position := L.gen.position + 1 }
                else L.gen
              senseCounter := match L.senseIn .release with
                | none => L.senseCounter
                | some (f, limit) => min limit.toNat ((L.progress.elapsed + 1) / f.entry.seg.tap.clocks)
              mismatch :=
                if checkEnable s.map k = true ∧ d.checked = true
                    ∧ ((d.level = .low ∧ L.pad ≠ .low) ∨ (d.level = .high ∧ L.pad ≠ .high)) then
                  some (match L.mismatch with | none => 0 | some n => n + 1)
                else none
              mismatchAtEntry := none
              faultForestalled := false
              claims := L.claims.map fun c =>
                if c.state.isEnding then { c with forestalled := false }
                else { c with leaseElapsed := c.leaseElapsed + 1, forestalled := false } })
        ∧ (∀ h, t.ports.get h =
            if (s.ports.get h).preparing = none then s.ports.get h
            else { s.ports.get h with preparingClocks := (s.ports.get h).preparingClocks + 1 }))
    ∧ (dueEvents s ≠ [] →
        ∃ order, order.Perm (dueEvents s) ∧ step s = .next (takeAll order { s with orderCount := s.orderCount + 1 }))
    ∧ (∀ i, dueEvents s = [i] → step s = exec i { s with orderCount := s.orderCount + 1 })
    ∧ (∀ (k : LineNo) (L : LineState), L = s.lines.get k →
        (.guardEnd k ∈ dueEvents s ↔ L.engine = .guard ∧ L.guardRemaining = 0)
        ∧ (.holdEnd k ∈ dueEvents s ↔ ∃ f level d, L.front = some f ∧ f.entry.seg.body = .hold level d
            ∧ L.progress.phase = .whole ∧ d ≠ 0 ∧ d.toNat * f.entry.seg.tap.clocks ≤ L.progress.elapsed)
        ∧ (.pulsePhaseEnd k ∈ dueEvents s ↔ ∃ f p a pol n, L.front = some f ∧ f.entry.seg.body = .pulse p a pol n
            ∧ L.progress.phase = .active ∧ a ≠ p ∧ a.toNat * f.entry.seg.tap.clocks ≤ L.progress.elapsed)
        ∧ (.pulseCycleEnd k ∈ dueEvents s ↔ ∃ f p a pol n, L.front = some f ∧ f.entry.seg.body = .pulse p a pol n
            ∧ ((L.progress.phase = .active ∧ a = p ∧ p.toNat * f.entry.seg.tap.clocks ≤ L.progress.elapsed)
              ∨ (L.progress.phase = .inactive
                  ∧ (p.toNat - a.toNat) * f.entry.seg.tap.clocks ≤ L.progress.elapsed)))
        ∧ (.carrierElementEnd k ∈ dueEvents s ↔ ∃ f src pol ds j, L.front = some f
            ∧ f.entry.seg.body = .carrier src pol ds ∧ L.progress.phase = .element j
            ∧ (ds.getD j 0).toNat * f.entry.seg.tap.clocks ≤ L.progress.elapsed)
        ∧ (.carrierPartChange k ∈ dueEvents s ↔ ∃ f src pol ds j, L.front = some f
            ∧ f.entry.seg.body = .carrier src pol ds ∧ L.progress.phase = .element j ∧ j % 2 = 0
            ∧ L.gen.running = true ∧ L.gen.atBoundary = true)
        ∧ (.senseRelease k ∈ dueEvents s ↔ ∃ f d l, L.front = some f ∧ f.entry.seg.body = .sense d l
            ∧ L.progress.phase = .discharge ∧ d.toNat * f.entry.seg.tap.clocks ≤ L.progress.elapsed)
        ∧ (.senseLimitReached k ∈ dueEvents s ↔ ∃ f d l, L.front = some f ∧ f.entry.seg.body = .sense d l
            ∧ L.progress.phase = .release ∧ l.toNat * f.entry.seg.tap.clocks ≤ L.progress.elapsed)
        ∧ (.sensePadHigh k ∈ dueEvents s ↔ ∃ f d l, L.front = some f ∧ f.entry.seg.body = .sense d l
            ∧ L.progress.phase = .release ∧ L.pad = .high)
        ∧ (∀ h, .leaseExpiry k h ∈ dueEvents s ↔ ∃ c ∈ L.claims, c.host = h ∧ c.state.isEnding = false
            ∧ c.forestalled = false ∧ c.leaseValue.toNat * 8000 ≤ c.leaseElapsed)
        ∧ (.readbackFault k ∈ dueEvents s ↔
            (L.engine = .idle ∨ L.engine = .running ∨ L.engine = .starved ∨ L.engine = .guard)
            ∧ ∃ n, ((L.mismatch = some n ∧ L.faultForestalled = false) ∨ L.mismatchAtEntry = some n)
              ∧ faultWindow s.map k * 8 ≤ n))
    ∧ (.supplyRestore ∈ dueEvents s ↔ s.supply = .low ∧ s.firstSettle = false ∧ ∃ n, s.settle = some n ∧ 80000 ≤ n)
    ∧ (.firstSettleEnd ∈ dueEvents s ↔ s.supply = .low ∧ s.firstSettle = true ∧ ∃ n, s.settle = some n ∧ 80000 ≤ n)
    ∧ (∀ p, .replyReady p ∈ dueEvents s ↔ (s.ports.get p).preparing ≠ none ∧ 160 ≤ (s.ports.get p).preparingClocks)

/-! ### Requests and replies (Section 11) -/

/-- R170: Table 11-2 and what a request does by the state of its port. -/
def Obligations.PortStatesOfRequests : Prop :=
  (∀ (st : PortStatus) (n : RequestName), n.takenIn st = true ↔
    match n with
    | .nop | .deviceStatus | .lineStatus | .fetch | .readMap | .digest =>
      st = .open ∨ st = .ready ∨ st = .attached ∨ st = .pending
    | .writeMap => st = .open ∨ st = .ready
    | .ready => st = .open
    | .attach => st = .pending
    | .reopen | .detach | .claim | .release | .renew | .submit | .flush | .amend => st = .attached
    | .clearFault => st = .open ∨ st = .ready ∨ st = .attached)
  ∧ ∀ (r : Request) (p : HostNo) (tag : Byte) (s : State),
    ((s.ports.get p).status = .absent → exec (r.command p tag) s = .next s)
    ∧ ((s.ports.get p).status ≠ .absent → r.name.takenIn (s.ports.get p).status = false →
        exec (r.command p tag) s = .next (s.answer p tag ⟨.wrongState, []⟩))
    ∧ (r.name.takenIn (s.ports.get p).status = true → r.lengthOk = false →
        exec (r.command p tag) s = .next (s.answer p tag ⟨.invalid, []⟩))
    ∧ (r.name.takenIn (s.ports.get p).status = true → r.lengthOk = true →
        exec (r.command p tag) s = .next ((r.act p s).state.answer p tag (r.act p s).reply))

/-- R168. Fixing a reply (R164): the frame is in preparation on its port and the ready flag clear; nothing else of the
arbiter changes. The frame is status, tag, body length, body and check (Table 11-7). REPLY_READY places it in the buffer
and sets the flag; that without a reply in preparation it changes nothing is the model's choice (log 2). -/
def Obligations.RepliesAreFixedThenReady : Prop :=
  ∀ (s : State) (p : HostNo) (tag : Byte) (r : Reply),
    (∀ h, (s.answer p tag r).ports.get h =
      if h = p then
        { s.ports.get p with
          replyReady := false, preparingClocks := 0
          preparing := some (r.status.code :: tag :: BitVec.ofNat 8 r.body.length :: r.body ++
            [crc8 (r.status.code :: tag :: BitVec.ofNat 8 r.body.length :: r.body)]) }
      else s.ports.get h)
    ∧ (s.answer p tag r).lines = s.lines ∧ (s.answer p tag r).map = s.map ∧ (s.answer p tag r).device = s.device
    ∧ (s.answer p tag r).supply = s.supply ∧ (s.answer p tag r).firstSettle = s.firstSettle
    ∧ (s.answer p tag r).settle = s.settle ∧ (s.answer p tag r).orderCount = s.orderCount
    ∧ (s.answer p tag r).pending = s.pending
    ∧ (∀ frame, (s.ports.get p).preparing = some frame →
      exec (.replyReady p) s = .next (s.setPort p { s.ports.get p with
        reply := frame, replyReady := true, preparing := none, preparingClocks := 0 }))
    ∧ ((s.ports.get p).preparing = none → exec (.replyReady p) s = .next (s.setPort p (s.ports.get p)))

/-- R171 and R172, with the body of Table 11-10: NOP is answered OK and changes nothing; DEVICE_STATUS reports the
device, the supply, the settle, the port's number, the port states and the open votes, and changes nothing. -/
def Obligations.DeviceRequestsReport : Prop :=
  ∀ (p : HostNo) (tag : Byte) (s : State), (s.ports.get p).status ≠ .absent →
    exec (.nop p tag) s = .next (s.answer p tag ⟨.ok, []⟩)
    ∧ ∃ votes : Byte, (∀ i : Nat, votes.getLsbD i = (if h : i < 4 then (s.ports.get ⟨i, h⟩).vote else false))
      ∧ exec (.deviceStatus p tag) s = .next (s.answer p tag ⟨.ok,
          [match s.device with | .setup => 0x00 | .run => 0x01, match s.supply with | .ok => 0x00 | .low => 0x01,
            if s.firstSettle then 0x01 else 0x00, BitVec.ofNat 8 p.val, (s.ports.get 0).status.toByte,
            (s.ports.get 1).status.toByte, (s.ports.get 2).status.toByte, (s.ports.get 3).status.toByte, votes]⟩)

/-- R90, with the body of Table 11-10: none and absent are FFh, the guard remaining and the leases are rounded down. -/
def Obligations.LineStatusReportsTheLine : Prop :=
  ∀ (p : HostNo) (tag line : Byte) (s : State), (s.ports.get p).status ≠ .absent →
    (8 ≤ line.toNat → exec (.lineStatus p tag line) s = .next (s.answer p tag ⟨.invalid, []⟩))
    ∧ (∀ k : LineNo, k.val = line.toNat →
      exec (.lineStatus p tag line) s = .next (s.answer p tag ⟨.ok,
        [line, (s.lines.get k).engine.toByte,
          (match (s.lines.get k).executing with | none => 0xFF | some c => BitVec.ofNat 8 c.host.val),
          (match (s.lines.get k).running with | none => 0xFF | some g => g.label),
          (match (s.lines.get k).running with | none => 0xFF | some g => g.body.kindByte),
          (if (s.lines.get k).staged = none then 0x00 else 0x01)]
        ++ natBytes (if (s.lines.get k).engine = .guard then (s.lines.get k).guardRemaining / 8 else 0)
        ++ [BitVec.ofNat 8 (s.lines.get k).faultCount]
        ++ word16Bytes (s.lines.get k).arrivals ++ [BitVec.ofNat 8 (s.lines.get k).claims.length]
        ++ ((s.lines.get k).claims.map fun c =>
            [BitVec.ofNat 8 c.host.val, BitVec.ofNat 8 c.priority] ++ word16Bytes c.arrival
            ++ [c.state.toByte, c.state.causeByte, c.state.displacedByte, c.cutMode.toByte, c.restLevel.toByte]
            ++ natBytes ((c.leaseValue.toNat * 8000 - c.leaseElapsed) / 8000)
            ++ [BitVec.ofNat 8 c.queue.length]).flatten⟩))

/-- R148. -/
def Obligations.MapReadsChangeNothing : Prop :=
  ∀ (p : HostNo) (tag offset length : Byte) (s : State), (s.ports.get p).status ≠ .absent →
    (length.toNat = 0 ∨ 56 < length.toNat ∨ 132 < offset.toNat + length.toNat →
      exec (.readMap p tag offset length) s = .next (s.answer p tag ⟨.invalid, []⟩))
    ∧ (1 ≤ length.toNat → length.toNat ≤ 56 → offset.toNat + length.toNat ≤ 132 →
      exec (.readMap p tag offset length) s =
        .next (s.answer p tag ⟨.ok, (List.range length.toNat).map fun i => s.map.read (offset.toNat + i)⟩))
    ∧ exec (.digest p tag) s =
        .next (s.answer p tag ⟨.ok, word16Bytes (crc16 ((List.range 132).map s.map.read))⟩)

/-- R166: the eight steps for each byte from 00h, the two test values, the property that the check of a run with its
own check byte is 00h, and a correct check on every frame, NONE and NOT_READY among them. -/
def Obligations.CheckByteIsCrc8 : Prop :=
  (∀ v b : Byte, crc8Byte v b =
      Nat.repeat (fun w : Byte => if w.msb = true then (w <<< 1) ^^^ 0x07 else w <<< 1) 8 (v ^^^ b))
    ∧ (∀ (r : Reply) (tag : Byte), crc8 (r.frame tag) = 0x00)
    ∧ (∀ (r : Request) (tag : Byte), crc8 (r.frame tag) = 0x00)
    ∧ crc8 noneFrame = 0x00 ∧ crc8 notReadyFrame = 0x00
    ∧ crc8 [0x31, 0x32, 0x33, 0x34, 0x35, 0x36, 0x37, 0x38, 0x39] = 0xF4
    ∧ crc8 [0x01, 0x00, 0x00] = 0x6B
    ∧ Request.nop.frame 0x00 = [0x01, 0x00, 0x00, 0x6B]
    ∧ noneFrame = (Reply.plain .none).frame 0x00
    ∧ (∀ bytes : List Byte, crc8 (bytes ++ [crc8 bytes]) = 0x00)
    ∧ (∀ (bytes : List Byte) (b : Byte), crc8 (bytes ++ [b]) = crc8Byte (crc8 bytes) b) ∧ crc8 [] = 0x00

/-- R163 and R162: what a select chooses and what the port then shifts out, byte by byte and bit by bit, most significant
bit first. A reply in preparation for 20 us or more is ready by the select, so that NOT_READY is not chosen (R168); before
that it is ready where REPLY_READY made it so (log 16). An ABSENT or unselected port drives nothing; and the bits sampled
on HnDI give their whole bytes, most significant bit first, with the number of bits left over, to the deselect that
follows (the edges themselves are no rows of the table, log 5). -/
def Obligations.SelectChoosesTheFrame : Prop :=
  (∀ (p : HostNo) (s : State) (P : Port), (s.ports.get p).selnLow = false → (s.ports.get p).status ≠ .absent →
    (∀ frame, (s.ports.get p).preparing = some frame → 160 ≤ (s.ports.get p).preparingClocks →
      P = { s.ports.get p with reply := frame, replyReady := true, preparing := none, preparingClocks := 0 }) →
    ((s.ports.get p).preparing = none ∨ (s.ports.get p).preparingClocks < 160 → P = s.ports.get p) →
    ∃ t, exec (.transactionSelect p) s = .next t
      ∧ t = s.setPort p { P with
          selnLow := true, transaction := some (if P.replyReady then .reply else .notReady) }
      ∧ (∀ i, t.outByte p i = some (
          (if P.replyReady then P.reply else (Reply.plain .notReady).frame 0x00).getD i 0x00))
      ∧ (∀ i j, j < 8 → ∀ b, t.outByte p i = some b → t.outBit p (8 * i + j) = some (b.getLsbD (7 - j))))
    ∧ (∀ (p : HostNo) (s : State) (i : Nat), ((s.ports.get p).status = .absent ∨ (s.ports.get p).selnLow = false) →
        s.outByte p i = none ∧ s.outBit p i = none)
    ∧ (∀ b : Byte, bitsOfByte b = [b.getLsbD 7, b.getLsbD 6, b.getLsbD 5, b.getLsbD 4, b.getLsbD 3, b.getLsbD 2,
        b.getLsbD 1, b.getLsbD 0])
    ∧ (∀ (p : HostNo) (bytes : List Byte) (extra : List Bool), extra.length < 8 →
        deselectAfter p ((bytes.map bitsOfByte).flatten ++ extra) = .deselect p bytes extra.length)

/-- R164: which transactions are ignored or discarded. R165: which are refused at frame level: FRAMING for left-over
bits, fewer than 4 or more than 64 bytes, a length byte above 60, fewer bytes than it calls for, a padding byte other
than 00h; CHECK_ERROR for a whole frame with another check byte. R167: UNKNOWN for a code that Table 11-8 does not
list, with the tag of the frame. -/
def Obligations.DeselectDisposesOfTheTransaction : Prop :=
  ∀ (p : HostNo) (bytes : List Byte) (bits : Nat) (s : State),
    (s.ports.get p).selnLow = true → (s.ports.get p).rxBytes = [] → (s.ports.get p).rxBits = 0 →
    ((s.ports.get p).transaction = some .reply → bytes = [] → bits = 0 →
      exec (.deselect p bytes bits) s = .next (s.setPort p (s.ports.get p).deselected))
    ∧ ((s.ports.get p).transaction = some .notReady →
      exec (.deselect p bytes bits) s = .next (s.setPort p (s.ports.get p).deselected))
    ∧ ((s.ports.get p).transaction = some .reply →
      (bits ≠ 0 ∨ (bytes ≠ [] ∧ bytes.length < 4) ∨ 64 < bytes.length) →
      exec (.deselect p bytes bits) s =
        .next ((s.setPort p (s.ports.get p).deselected).answer p 0x00 ⟨.framing, []⟩))
    ∧ ((s.ports.get p).transaction = some .reply → ∀ code tag len rest, bytes = code :: tag :: len :: rest →
      (60 < len.toNat ∨ bytes.length < 4 + len.toNat ∨ ∃ b ∈ bytes.drop (4 + len.toNat), b ≠ 0x00) →
      exec (.deselect p bytes bits) s =
        .next ((s.setPort p (s.ports.get p).deselected).answer p 0x00 ⟨.framing, []⟩))
    ∧ ((s.ports.get p).transaction = some .reply → bits = 0 → ∀ (code tag check : Byte) (body : List Byte) (padding : Nat),
      bytes = code :: tag :: BitVec.ofNat 8 body.length :: body ++ check :: List.replicate padding 0x00 →
      body.length ≤ 60 → bytes.length ≤ 64 →
      (check ≠ crc8 (code :: tag :: BitVec.ofNat 8 body.length :: body) →
        exec (.deselect p bytes bits) s =
          .next ((s.setPort p (s.ports.get p).deselected).answer p 0x00 ⟨.checkError, []⟩))
      ∧ (check = crc8 (code :: tag :: BitVec.ofNat 8 body.length :: body) → (∀ n : RequestName, n.code ≠ code) →
        exec (.deselect p bytes bits) s =
          .next ((s.setPort p (s.ports.get p).deselected).answer p tag ⟨.unknown, []⟩)))

/-- A transaction begun with the reply frame that carries a request frame, padded with 00h bytes to 64 bytes at most,
does what the request does (R165, R167). -/
def Obligations.DeselectRunsTheRequest : Prop :=
  ∀ (r : Request) (p : HostNo) (tag : Byte) (padding : Nat) (s : State),
    r.lengthOk = true → (r.frame tag).length + padding ≤ 64 →
    (s.ports.get p).selnLow = true → (s.ports.get p).transaction = some .reply →
    (s.ports.get p).rxBytes = [] → (s.ports.get p).rxBits = 0 →
    exec (.deselect p (r.frame tag ++ List.replicate padding 0x00) 0) s =
      exec (r.command p tag) (s.setPort p (s.ports.get p).deselected)

/-- Every valid segment is read back from its bytes whatever follows them, and so is a SUBMIT list (Tables 11-11,
11-12). -/
def Obligations.SegmentsReadBack : Prop :=
  (∀ (g : Segment) (rest : List Byte), g.valid = true → takeSegment (g.bytes ++ rest) = some (g, rest))
    ∧ (∀ (gs : List Segment), (∀ g ∈ gs, g.valid = true) →
        takeSegments 1 gs.length (gs.map Segment.bytes).flatten = .ok gs)

/-! ### Notices (Section 8) -/

/-- R121, R122: a notice posted to a queue by its length and its newest notice; R120: nothing is queued on a port that
does not receive notices, and a posting of the arbiter puts a copy on the port of each recipient and changes nothing
else. The recipients: the host of the claim; the ports permitted on a line among the ATTACHED ones in RUN and among the
OPEN and READY ones in SETUP; every port; the ATTACHED ports but one. -/
def Obligations.PostingAppendsOrCounts : Prop :=
  (∀ (P : Port) (b : NoticeBody),
    ((P.status = .absent ∨ P.status = .pending) → P.post b = P)
    ∧ (P.status ≠ .absent → P.status ≠ .pending →
      (P.notices.length ≤ 14 →
        P.post b = { P with notices := P.notices ++ [⟨P.nextSeq, b, false⟩], nextSeq := P.nextSeq + 1 })
      ∧ (15 ≤ P.notices.length → (∀ seq lost d, P.notices.getLast? ≠ some ⟨seq, .overflow lost, d⟩) →
        P.post b = { P with notices := P.notices ++ [⟨P.nextSeq, .overflow 1, false⟩], nextSeq := P.nextSeq + 1 })
      ∧ (∀ older seq lost d, 15 ≤ P.notices.length → P.notices = older ++ [⟨seq, .overflow lost, d⟩] →
        P.post b = { P with
          notices := older ++ [if lost < 65535 then ⟨seq, .overflow (lost + 1), false⟩ else ⟨seq, .overflow lost, d⟩] })))
    ∧ ∀ (s : State) (h : HostNo),
      (∀ n : Post, s.post n = { s with ports := (s.post n).ports }
        ∧ (s.post n).ports.get h = if n.dest.includes s h = true then (s.ports.get h).post n.body else s.ports.get h)
      ∧ (∀ g, Recipients.includes s h (.host g) = true ↔ g = h)
      ∧ (∀ k, Recipients.includes s h (.permittedOn k) = true ↔ permitted s.map h k = true
          ∧ ((s.device = .run ∧ (s.ports.get h).status = .attached)
            ∨ (s.device = .setup ∧ ((s.ports.get h).status = .open ∨ (s.ports.get h).status = .ready))))
      ∧ Recipients.includes s h .all = true
      ∧ (∀ g, Recipients.includes s h (.attachedBut g) = true ↔ h ≠ g ∧ (s.ports.get h).status = .attached)

/-- R126 and R127 without an acknowledgement, and the maximum outside its range. -/
def Obligations.FetchReturnsTheOldest : Prop :=
  ∀ (p : HostNo) (tag maximum : Byte) (ack : Option Byte) (s : State), (s.ports.get p).status ≠ .absent →
    ((maximum.toNat = 0 ∨ 4 < maximum.toNat) →
      exec (.fetch p tag maximum ack) s = .next (s.answer p tag ⟨.invalid, []⟩))
    ∧ (1 ≤ maximum.toNat → maximum.toNat ≤ 4 →
      exec (.fetch p tag maximum none) s =
        .next ((s.setPort p { s.ports.get p with
            notices := ((s.ports.get p).notices.take maximum.toNat).map (fun n => { n with delivered := true })
              ++ (s.ports.get p).notices.drop maximum.toNat }).answer p tag
          ⟨.ok, [BitVec.ofNat 8 (s.ports.get p).notices.length,
              BitVec.ofNat 8 (((s.ports.get p).notices.drop maximum.toNat).countP fun n => !n.delivered),
              BitVec.ofNat 8 (min maximum.toNat (s.ports.get p).notices.length)]
            ++ (((s.ports.get p).notices.take maximum.toNat).map Notice.bytes).flatten⟩))

/-- R126, R128, R176: an acknowledgement of a delivered notice removes through it in queue order; one that no notice
carries, or an undelivered one, removes nothing and is answered BAD_ACK; the return step takes place in each case.
Numbers are compared for equality. -/
def Obligations.FetchAcknowledgesByEquality : Prop :=
  ∀ (p : HostNo) (tag maximum ack : Byte) (s : State), (s.ports.get p).status ≠ .absent →
    1 ≤ maximum.toNat → maximum.toNat ≤ 4 →
    (∀ pre n post, (s.ports.get p).notices = pre ++ n :: post → (∀ m ∈ pre, m.seq ≠ ack) → n.seq = ack →
      n.delivered = true →
      exec (.fetch p tag maximum (some ack)) s =
        .next ((s.setPort p { s.ports.get p with notices := markDelivered post maximum.toNat }).answer p tag
          ⟨.ok, fetchBody post maximum.toNat⟩))
    ∧ (∀ pre n post, (s.ports.get p).notices = pre ++ n :: post → (∀ m ∈ pre, m.seq ≠ ack) → n.seq = ack →
      n.delivered = false →
      exec (.fetch p tag maximum (some ack)) s =
        .next ((s.setPort p { s.ports.get p with
            notices := markDelivered (s.ports.get p).notices maximum.toNat }).answer p tag
          ⟨.badAck, fetchBody (s.ports.get p).notices maximum.toNat⟩))
    ∧ ((∀ m ∈ (s.ports.get p).notices, m.seq ≠ ack) →
      exec (.fetch p tag maximum (some ack)) s =
        .next ((s.setPort p { s.ports.get p with
            notices := markDelivered (s.ports.get p).notices maximum.toNat }).answer p tag
          ⟨.badAck, fetchBody (s.ports.get p).notices maximum.toNat⟩))

/-- ATTN is high exactly while an undelivered notice stands in the queue (R129); a posting to a receiving port raises
it unless a full OVERFLOW stands at the newest end; and in a queue that keeps its law an acknowledgement leaves the
undelivered notices as they are. -/
def Obligations.AttnFollowsTheMarks : Prop :=
  (∀ P : Port, P.attn = true ↔ ∃ n ∈ P.notices, n.delivered = false)
    ∧ (∀ (P : Port) (b : NoticeBody), P.status.receives = true → P.notices.length ≤ 14 → (P.post b).attn = true)
    ∧ (∀ (P : Port) (ack : Byte) (q : List Notice), P.NoticeLaw → acknowledge P.notices ack = some q →
        { P with notices := q }.attn = P.attn)

/-! ### The access map and the join barrier (Section 10) -/

/-- R146: the checks of WRITE_MAP from a port that may write; a refused write changes nothing. -/
def Obligations.WriteMapChecks : Prop :=
  ∀ (p : HostNo) (tag offset : Byte) (bytes : List Byte) (s : State),
    ((s.ports.get p).status = .open ∨ (s.ports.get p).status = .ready) → 1 ≤ bytes.length → bytes.length ≤ 56 →
    (132 < offset.toNat + bytes.length
      ∨ (∀ i ∈ mapItems, i.1 ≠ offset.toNat)
      ∨ (∀ i ∈ mapItems, i.1 + i.2 ≠ offset.toNat + bytes.length)
      ∨ (∃ i ∈ mapItems, offset.toNat ≤ i.1 ∧ i.1 < offset.toNat + bytes.length
          ∧ itemValid (s.map.writeAll offset.toNat bytes) i.1 = false)) →
    exec (.writeMap p tag offset bytes) s = .next (s.answer p tag ⟨.invalid, []⟩)

/-- R147: an accepted WRITE_MAP places its bytes, returns every READY port to OPEN, posts MAP_CHANGED to every port
that then is OPEN, and answers with the digest of the map after it. A line is as it was, but for its mismatch timer,
which restarts or clears where the write changes the level, and clears where it turns the check enable off (R133); that a
check enable turned on over a standing mismatch starts it from 0 is the model's reading (log 14). Such a change, and a
window made longer than the count, end a fault that was due at this instant, also one carried from an entry to SETUP: its
marks are the model's (log 33, log 37). Where the timer then has reached the fault
window of the map after the write, that line, and no other, is FAULTED (R133), uncounted (R136; its place within the
request is log 27: the model's reading). -/
def Obligations.WriteMapWritesAndWithdrawsReady : Prop :=
  ∀ (p : HostNo) (tag offset : Byte) (bytes : List Byte) (s : State),
    MapLaw s → BarrierLaw s →
    ((s.ports.get p).status = .open ∨ (s.ports.get p).status = .ready) → 1 ≤ bytes.length → bytes.length ≤ 56 →
    offset.toNat + bytes.length ≤ 132 →
    (∃ i ∈ mapItems, i.1 = offset.toNat) → (∃ i ∈ mapItems, i.1 + i.2 = offset.toNat + bytes.length) →
    (∀ i ∈ mapItems, offset.toNat ≤ i.1 → i.1 < offset.toNat + bytes.length →
      itemValid (s.map.writeAll offset.toNat bytes) i.1 = true) →
    ∃ t, exec (.writeMap p tag offset bytes) s = .next t
      ∧ (∀ a, t.map.read a =
          if offset.toNat ≤ a ∧ a < offset.toNat + bytes.length then bytes.getD (a - offset.toNat) 0x00
          else s.map.read a)
      ∧ (∀ h, (t.ports.get h).status =
          if (s.ports.get h).status = .ready then .open else (s.ports.get h).status)
      ∧ (∀ h, (t.ports.get h).notices =
          (if (s.ports.get h).status.receives then (s.ports.get h).enqueue (.mapChanged p) else s.ports.get h).notices)
      ∧ (t.ports.get p).preparing = some (Reply.frame ⟨.ok, word16Bytes t.map.digest⟩ tag)
      ∧ t.device = s.device ∧ t.supply = s.supply ∧ t.firstSettle = s.firstSettle ∧ t.settle = s.settle
      ∧ (∀ (k : LineNo) (d d' : Drive) (timer : Option Nat) (reached reached' : Option Nat → Bool) (L : LineState),
          d = (s.lines.get k).drive (s.ctx k) → d' = (s.lines.get k).drive (t.ctx k) →
          timer = (if checkEnable t.map k = true ∧ d'.checked = true ∧ d'.level ≠ .float then
              if checkEnable s.map k = true ∧ d = d' then (s.lines.get k).mismatch
              else if padMismatches (s.lines.get k).pad d'.level = true then some 0 else none
            else none) →
          (∀ m, reached m = true ↔ ∃ n, m = some n ∧ faultWindow s.map k * 8 ≤ n) →
          (∀ m, reached' m = true ↔ ∃ n, m = some n ∧ faultWindow t.map k * 8 ≤ n) →
          L = { s.lines.get k with
            mismatch := timer
            mismatchAtEntry :=
              if checkEnable t.map k = true ∧ d = d'
                  ∧ (reached (s.lines.get k).mismatchAtEntry = true → reached' (s.lines.get k).mismatchAtEntry = true)
              then (s.lines.get k).mismatchAtEntry else none
            faultForestalled := (s.lines.get k).faultForestalled
              || ((s.lines.get k).engine.canFault && reached (s.lines.get k).mismatch && !reached' timer) } →
          (((∃ n, L.mismatch = some n ∧ faultWindow t.map k * 8 ≤ n) ∧ L.engine.canFault = true) →
            (t.lines.get k).engine = .faulted ∧ (t.lines.get k).faultCount = L.faultCount
              ∧ (t.lines.get k).mismatch = none
              ∧ (L.claims = [] →
                t.lines.get k = { L.clearRun with
                  engine := .faulted, guardRemaining := 0, mismatch := none }))
          ∧ (¬ ((∃ n, L.mismatch = some n ∧ faultWindow t.map k * 8 ≤ n) ∧ L.engine.canFault = true) →
            t.lines.get k = L))

/-- R151: the checks of READY, and what an accepted READY does and is answered. -/
def Obligations.ReadyDeclares : Prop :=
  ∀ (p : HostNo) (tag : Byte) (digest : Word16) (s : State),
    ((s.ports.get p).status ≠ .open → (s.ports.get p).status ≠ .absent →
      exec (.ready p tag digest) s = .next (s.answer p tag ⟨.wrongState, []⟩))
    ∧ ((s.ports.get p).status = .open → digest ≠ s.map.digest →
        exec (.ready p tag digest) s = .next (s.answer p tag ⟨.mapMismatch, []⟩))
    ∧ ((s.ports.get p).status = .open → digest = s.map.digest → 96 < quotaSum s.map →
        exec (.ready p tag digest) s = .next (s.answer p tag ⟨.mapInvalid, []⟩))
    ∧ ((s.ports.get p).status = .open → digest = s.map.digest → quotaSum s.map ≤ 96 →
        ∃ t, t = evaluateSetup (s.setPort p { s.ports.get p with status := .ready })
          ∧ exec (.ready p tag digest) s = .next (t.answer p tag ⟨.ok,
              [match t.device with | .setup => 0x00 | .run => 0x01, BitVec.ofNat 8 (t.countPorts .open)]⟩))

/-- R152 and R153: the evaluation of the barrier in SETUP enters RUN exactly where a port is present, every present
port is READY and the first settle has ended; entry to RUN makes every READY port ATTACHED, posts RUN_ENTERED with the
number of ATTACHED ports, and changes no line and not the map. -/
def Obligations.BarrierEntersRun : Prop :=
  ∀ s : State,
    (barrierComplete s = true ↔
      (∃ h, (s.ports.get h).status ≠ .absent)
        ∧ (∀ h, (s.ports.get h).status ≠ .absent → (s.ports.get h).status = .ready) ∧ s.firstSettle = false)
    ∧ (barrierComplete s = false → evaluateSetup s = s)
    ∧ (barrierComplete s = true →
        (evaluateSetup s).device = .run ∧ (evaluateSetup s).lines = s.lines ∧ (evaluateSetup s).map = s.map
        ∧ (evaluateSetup s).supply = s.supply ∧ (evaluateSetup s).settle = s.settle
        ∧ ∀ h, (evaluateSetup s).ports.get h =
            if (s.ports.get h).status = .ready then
              { s.ports.get h with status := .attached }.enqueue (.runEntered (s.countPorts .ready))
            else s.ports.get h)

/-- R154. -/
def Obligations.AttachJoinsTheRun : Prop :=
  ∀ (p : HostNo) (tag : Byte) (digest : Word16) (s : State), (s.ports.get p).status = .pending →
    (digest ≠ s.map.digest → exec (.attach p tag digest) s = .next (s.answer p tag ⟨.mapMismatch, []⟩))
    ∧ (digest = s.map.digest →
        exec (.attach p tag digest) s =
          .next ((s.setPort p { s.ports.get p with status := .attached }).answer p tag
            ⟨.ok, [BitVec.ofNat 8 (s.countPorts .attached + 1)]⟩))

/-- R155: a vote opened, a vote closed, a choice that changes nothing, and a choice byte outside its values (R174). The
evaluation of the barrier that follows an opened vote is the one of `BarrierReturnsToSetup`. That the reply to the VOTE
that completes the return is computed after the entry to SETUP, and so shows the vote closed, is the model's reading
(log 17), not a sentence of R155. -/
def Obligations.ReopenVotes : Prop :=
  ∀ (p : HostNo) (tag choice : Byte) (s : State), (s.ports.get p).status = .attached →
    (choice = 0x01 → (s.ports.get p).vote = false →
      ∃ s1 t, s1 = (s.setPort p { s.ports.get p with vote := true }).post ⟨.attachedBut p, .reopenVote false p⟩
        ∧ t = evaluateRun s1
        ∧ exec (.reopen p tag choice) s = .next (t.answer p tag ⟨.ok,
            [if (t.ports.get p).vote then 0x01 else 0x00, BitVec.ofNat 8 t.countNonVoters]⟩))
    ∧ (choice = 0x02 → (s.ports.get p).vote = true →
      ∃ t, t = (s.setPort p { s.ports.get p with vote := false }).post ⟨.attachedBut p, .reopenVote true p⟩
        ∧ exec (.reopen p tag choice) s =
            .next (t.answer p tag ⟨.ok, [0x00, BitVec.ofNat 8 t.countNonVoters]⟩))
    ∧ (choice = 0x01 → (s.ports.get p).vote = true →
      exec (.reopen p tag choice) s = .next (s.answer p tag ⟨.ok, [0x01, BitVec.ofNat 8 s.countNonVoters]⟩))
    ∧ (choice = 0x02 → (s.ports.get p).vote = false →
      exec (.reopen p tag choice) s = .next (s.answer p tag ⟨.ok, [0x00, BitVec.ofNat 8 s.countNonVoters]⟩))
    ∧ (choice ≠ 0x01 → choice ≠ 0x02 → exec (.reopen p tag choice) s = .next (s.answer p tag ⟨.invalid, []⟩))

/-- R157, R158, R19, R89, R117: when the device returns to SETUP, what stands after it, and what is posted: the notices
of the segments that end STOPPED on all lines, then CLAIM_ENDED REOPEN for every claim, then SETUP_ENTERED last (log
12); for a claim ENDING with cause DEPARTED nothing. That a RETIRED line returns to IDLE also while the supply is LOW is
the model's reading (log 19). -/
def Obligations.BarrierReturnsToSetup : Prop :=
  ∀ s : State,
    (returnComplete s = true ↔ ∀ h, (s.ports.get h).status = .attached → (s.ports.get h).vote = true)
    ∧ (returnComplete s = false → evaluateRun s = s)
    ∧ (returnComplete s = true →
        (evaluateRun s).device = .setup ∧ (evaluateRun s).map = s.map ∧ (evaluateRun s).supply = s.supply
        ∧ (evaluateRun s).settle = s.settle ∧ (evaluateRun s).firstSettle = s.firstSettle
        ∧ (∀ h, ((evaluateRun s).ports.get h).vote = false
            ∧ ((evaluateRun s).ports.get h).status =
                (if (s.ports.get h).status = .attached ∨ (s.ports.get h).status = .pending then .open
                else (s.ports.get h).status)
            ∧ ((evaluateRun s).ports.get h).reply = (s.ports.get h).reply
            ∧ ((evaluateRun s).ports.get h).preparing = (s.ports.get h).preparing
            ∧ ((evaluateRun s).ports.get h).replyReady = (s.ports.get h).replyReady)
        ∧ (∀ h, (evaluateRun s).inUse h = 0)
        ∧ (∃ segs ends : List Post,
            segs.Perm ((List.finRange 8).map fun k =>
              if ((s.lines.get k).executing.map Claim.state) = some (.ending .departed) then []
              else brokenOffPosts k (s.lines.get k) .stopped).flatten
            ∧ ends.Perm ((List.finRange 8).map fun k => (s.lines.get k).claims.filterMap fun c =>
              if c.state = .ending .departed then none else some ⟨.host c.host, .claimEnded k .reopen⟩).flatten
            ∧ ∀ s1 : State, s1 = { s with device := .setup, ports := s1.ports } →
                (∀ h, s1.ports.get h = { s.ports.get h with
                  vote := false
                  status := if (s.ports.get h).status = .attached ∨ (s.ports.get h).status = .pending then .open
                    else (s.ports.get h).status }) →
                (evaluateRun s).ports = (((s1.postAll segs).postAll ends).post ⟨.all, .setupEntered⟩).ports)
        ∧ ∀ k, ((evaluateRun s).lines.get k).claims = [] ∧ ((evaluateRun s).lines.get k).faultCount = 0
            ∧ ((evaluateRun s).lines.get k).arrivals = 0 ∧ ((evaluateRun s).lines.get k).staged = none
            ∧ ((evaluateRun s).lines.get k).lastEnded = none ∧ ((evaluateRun s).lines.get k).gen.running = false
            ∧ ((evaluateRun s).lines.get k).gen.position = 0 ∧ ((evaluateRun s).lines.get k).gen.atBoundary = false
            ∧ ((evaluateRun s).lines.get k).engine =
                if (s.lines.get k).engine = .halted
                  ∨ ((s.lines.get k).engine = .faulted ∧ s.supply = .low) then .halted else .idle)

/-- DETACH (R98, R101): the port departs with its notices, votes and buffers emptied, the reply OK in preparation, and
no claim of its host left but one that is ENDING with at most one segment. Where an ATTACHED port without a vote
remains, the device stays in RUN and the port is PENDING; where none remains, it is OPEN in SETUP. -/
def Obligations.DetachTearsDown : Prop :=
  ∀ (p : HostNo) (tag : Byte) (s : State), (s.ports.get p).status = .attached → ListLaw s →
    ∃ t, exec (.detach p tag) s = .next t
      ∧ (t.ports.get p).vote = false ∧ (t.ports.get p).reply = [] ∧ (t.ports.get p).replyReady = false
      ∧ (t.ports.get p).preparing = some (Reply.frame ⟨.ok, []⟩ tag)
      ∧ (∀ k, ∀ c ∈ (t.lines.get k).claims, c.host = p → c.state.isEnding = true ∧ c.queue.length ≤ 1)
      ∧ ((∃ h, h ≠ p ∧ (s.ports.get h).status = .attached ∧ (s.ports.get h).vote = false) →
          t.device = s.device ∧ (t.ports.get p).status = .pending ∧ (t.ports.get p).notices = []
          ∧ (t.ports.get p).nextSeq = 0)
      ∧ ((∀ h, h ≠ p → (s.ports.get h).status = .attached → (s.ports.get h).vote = true) →
          t.device = .setup ∧ (t.ports.get p).status = .open)

/-- R150, R98, R101, R161: the presence input rising, and falling, which empties the port whatever its state was. -/
def Obligations.PresenceMovesThePort : Prop :=
  ∀ (p : HostNo) (s : State),
    ((s.ports.get p).status = .absent → s.device = .run →
      exec (.presentRise p) s = .next (s.setPort p { s.ports.get p with status := .pending }))
    ∧ ((s.ports.get p).status = .absent → s.device = .setup →
      exec (.presentRise p) s = .next (s.setPort p { s.ports.get p with status := .open }))
    ∧ ((s.ports.get p).status ≠ .absent → exec (.presentRise p) s = .next s)
    ∧ ((s.ports.get p).status = .absent → exec (.presentFall p) s = .next s)
    ∧ ((s.ports.get p).status ≠ .absent → ListLaw s →
      ∃ t, exec (.presentFall p) s = .next t
        ∧ t.ports.get p = { s.ports.get p with
            status := .absent, vote := false, transaction := none, rxBytes := [], rxBits := 0, reply := noneFrame
            replyReady := true, preparing := none, preparingClocks := 0, notices := [], nextSeq := 0 }
        ∧ (∀ k, ∀ c ∈ (t.lines.get k).claims, c.host = p → c.state.isEnding = true ∧ c.queue.length ≤ 1)
        ∧ t.map = s.map ∧ t.supply = s.supply)

/-- Device reset (Table 1-5, R18, R89, R117, R131, R140, R145, R159, R161). The pins, among them selects and pads, stay
as they are (log 8: the model's choice). -/
def Obligations.DeviceResetRestoresEveryBlock : Prop :=
  ∀ s : State, ∃ t, exec .deviceReset s = .next t
    ∧ t.device = .setup ∧ t.supply = .low ∧ t.firstSettle = true ∧ t.settle = none
    ∧ (∀ h, quota t.map h = 0)
    ∧ (∀ h k, permitted t.map h k = false ∧ mayCut t.map h k = false ∧ cellPriority t.map h k = 0
        ∧ leaseLimit t.map h k = 1000)
    ∧ (∀ k, safeLevel t.map k = .float ∧ guardUnits t.map k = 0 ∧ faultWindow t.map k = 16
        ∧ checkEnable t.map k = true)
    ∧ carrierSetting t.map .ca = ⟨211, 70⟩ ∧ carrierSetting t.map .cb = ⟨140, 47⟩
    ∧ (∀ k, (t.lines.get k).engine = .idle ∧ (t.lines.get k).claims = [] ∧ (t.lines.get k).arrivals = 0
        ∧ (t.lines.get k).guardRemaining = 0 ∧ (t.lines.get k).staged = none ∧ (t.lines.get k).lastEnded = none
        ∧ (t.lines.get k).gen.position = 0 ∧ (t.lines.get k).gen.running = false
        ∧ (t.lines.get k).gen.atBoundary = false
        ∧ (t.lines.get k).senseCounter = 0 ∧ (t.lines.get k).mismatch = none ∧ (t.lines.get k).faultCount = 0
        ∧ (t.lines.get k).progress = ⟨.whole, 0, 0⟩ ∧ (t.lines.get k).startedAtEnd = false
        ∧ (t.lines.get k).mismatchAtEntry = none ∧ (t.lines.get k).faultForestalled = false
        ∧ (t.lines.get k).pad = (s.lines.get k).pad
        ∧ (t.lines.get k).drive (t.ctx k) = ⟨.float, false⟩)
    ∧ (∀ h, (t.ports.get h).status = (if (s.ports.get h).status = .absent then .absent else .open)
        ∧ (t.ports.get h).vote = false ∧ (t.ports.get h).reply = noneFrame ∧ (t.ports.get h).replyReady = true
        ∧ (t.ports.get h).preparing = none ∧ (t.ports.get h).notices = [] ∧ (t.ports.get h).nextSeq = 0
        ∧ (t.ports.get h).attn = false ∧ (t.ports.get h).selnLow = (s.ports.get h).selnLow
        ∧ (t.ports.get h).transaction = none ∧ (t.ports.get h).rxBytes = [] ∧ (t.ports.get h).rxBits = 0
        ∧ (t.ports.get h).preparingClocks = 0)
    ∧ (∀ h, t.inUse h = 0)

/-! ### Claims (Sections 5 and 6) -/

/-- R71: the checks of Table 5-3 in order. -/
def Obligations.ClaimChecks : Prop :=
  ∀ (p : HostNo) (tag line cutMode option restLevel : Byte) (lease : Word16) (s : State),
    ((s.ports.get p).status ≠ .attached → (s.ports.get p).status ≠ .absent →
      exec (.claim p tag line cutMode option restLevel lease) s = .next (s.answer p tag ⟨.wrongState, []⟩))
    ∧ ((s.ports.get p).status = .attached →
      (8 ≤ line.toNat ∨ 2 ≤ cutMode.toNat ∨ 2 ≤ option.toNat ∨ 4 ≤ restLevel.toNat) →
      exec (.claim p tag line cutMode option restLevel lease) s = .next (s.answer p tag ⟨.invalid, []⟩))
    ∧ ((s.ports.get p).status = .attached →
      ∀ k : LineNo, k.val = line.toNat → cutMode.toNat < 2 → option.toNat < 2 → restLevel.toNat < 4 →
      ((permitted s.map p k = false ∨ (cutMode = 0x00 ∧ mayCut s.map p k = false)) →
        exec (.claim p tag line cutMode option restLevel lease) s = .next (s.answer p tag ⟨.notPermitted, []⟩))
      ∧ (permitted s.map p k = true → (cutMode = 0x01 ∨ mayCut s.map p k = true) →
        ((lease.toNat = 0 ∨ (leaseLimit s.map p k).toNat < lease.toNat) →
          exec (.claim p tag line cutMode option restLevel lease) s = .next (s.answer p tag ⟨.invalid, []⟩))
        ∧ (1 ≤ lease.toNat → lease.toNat ≤ (leaseLimit s.map p k).toNat →
          ((s.lines.get k).engine = .retired →
            exec (.claim p tag line cutMode option restLevel lease) s = .next (s.answer p tag ⟨.retired, []⟩))
          ∧ ((s.lines.get k).engine ≠ .retired →
            ((∃ c ∈ (s.lines.get k).claims, c.host = p) →
              exec (.claim p tag line cutMode option restLevel lease) s =
                .next (s.answer p tag ⟨.duplicate, []⟩))
            ∧ ((∀ c ∈ (s.lines.get k).claims, c.host ≠ p) → option = 0x01 →
              (∃ c ∈ (s.lines.get k).claims.head?, cellPriority s.map p k ≤ c.priority) →
              exec (.claim p tag line cutMode option restLevel lease) s =
                .next (s.answer p tag ⟨.held, []⟩))))))

/-- A CLAIM that passes the checks of Table 5-3 on a line with an empty list (Table 5-4, R14, R72): on an IDLE line it
is GRANTED, and the line is STARVED under it at once; in GUARD, FAULTED or HALTED it is TAKING, and the line stands. -/
def Obligations.ClaimOnIdleLineIsGranted : Prop :=
  ∀ (p : HostNo) (tag line cutMode option restLevel : Byte) (lease : Word16) (s : State) (f : ClaimFields),
    (s.ports.get p).status = .attached → claimFields line cutMode option restLevel = some f →
    claimRefusal s p f lease = none → (s.lines.get f.line).claims = [] →
    ((s.lines.get f.line).engine = .idle →
      exec (.claim p tag line cutMode option restLevel lease) s =
      .next ((s.updateLine f.line ⟨{ s.lines.get f.line with
            arrivals := (s.lines.get f.line).arrivals + 1, engine := .starved, lastEnded := none
            claims := [{ host := p, priority := cellPriority s.map p f.line
                         arrival := (s.lines.get f.line).arrivals, cutMode := f.cutMode, leaseValue := lease
                         leaseElapsed := 0, forestalled := false, restLevel := f.restLevel, state := .holding
                         yieldRun := 0, queue := [] }] }, [], []⟩).answer p tag
        ⟨.granted, word16Bytes (s.lines.get f.line).arrivals ++ [0x00]⟩))
    ∧ (((s.lines.get f.line).engine = .guard ∨ (s.lines.get f.line).engine = .faulted
        ∨ (s.lines.get f.line).engine = .halted) →
      exec (.claim p tag line cutMode option restLevel lease) s =
      .next ((s.updateLine f.line ⟨{ s.lines.get f.line with
            arrivals := (s.lines.get f.line).arrivals + 1
            claims := [{ host := p, priority := cellPriority s.map p f.line
                         arrival := (s.lines.get f.line).arrivals, cutMode := f.cutMode, leaseValue := lease
                         leaseElapsed := 0, forestalled := false, restLevel := f.restLevel, state := .taking
                         yieldRun := 0, queue := [] }] }, [], []⟩).answer p tag
        ⟨.taking, word16Bytes (s.lines.get f.line).arrivals ++ [0x00]⟩))

/-- A CLAIM on a line with a HOLDING head and claims that wait behind it (Table 5-4). Above the head of a line that runs
a PULSE it becomes the taker: TAKING in front, the holder YIELDING with its yield run counted, the PULSE running on
(R72, R73, R74). At the head's priority or below it waits at its place, and the line stands, whether it is STARVED, in
GUARD, FAULTED, HALTED or runs a PULSE. -/
def Obligations.ClaimAboveTheHolderTakes : Prop :=
  ∀ (p : HostNo) (tag line cutMode option restLevel : Byte) (lease : Word16) (s : State) (f : ClaimFields)
    (c : Claim) (cs : List Claim),
    (s.ports.get p).status = .attached → claimFields line cutMode option restLevel = some f →
    claimRefusal s p f lease = none → (∀ d ∈ cs, d.state = .waiting) →
    (∀ e rest period active pol count, HoldsAndRuns s f.line c cs e rest →
      e.seg.body = .pulse period active pol count → c.priority < cellPriority s.map p f.line →
      exec (.claim p tag line cutMode option restLevel lease) s =
      .next ((s.updateLine f.line ⟨{ s.lines.get f.line with
            arrivals := (s.lines.get f.line).arrivals + 1
            claims := { host := p, priority := cellPriority s.map p f.line
                        arrival := (s.lines.get f.line).arrivals, cutMode := f.cutMode, leaseValue := lease
                        leaseElapsed := 0, forestalled := false, restLevel := f.restLevel, state := .taking
                        yieldRun := 0, queue := [] }
              :: { c with state := .yielding, yieldRun := (rest.takeWhile fun e => e.seg.join).length } :: cs }, [],
            []⟩).answer p tag
        ⟨.taking, word16Bytes (s.lines.get f.line).arrivals ++ [0x00]⟩))
    ∧ ((s.lines.get f.line).claims = c :: cs → c.state = .holding → cellPriority s.map p f.line ≤ c.priority →
      ((s.lines.get f.line).engine = .starved ∨ (s.lines.get f.line).engine = .guard
        ∨ (s.lines.get f.line).engine = .faulted ∨ (s.lines.get f.line).engine = .halted
        ∨ ∃ e rest period active pol count, HoldsAndRuns s f.line c cs e rest
            ∧ e.seg.body = .pulse period active pol count) →
      exec (.claim p tag line cutMode option restLevel lease) s =
      .next ((s.updateLine f.line ⟨{ s.lines.get f.line with
            arrivals := (s.lines.get f.line).arrivals + 1
            claims := c :: insertClaim
              { host := p, priority := cellPriority s.map p f.line
                arrival := (s.lines.get f.line).arrivals, cutMode := f.cutMode, leaseValue := lease
                leaseElapsed := 0, forestalled := false, restLevel := f.restLevel, state := .waiting
                yieldRun := 0, queue := [] } cs }, [], []⟩).answer p tag
        ⟨.waiting, word16Bytes (s.lines.get f.line).arrivals ++
          [BitVec.ofNat 8 (1 + (cs.takeWhile fun d => decide (cellPriority s.map p f.line ≤ d.priority)).length)]⟩))

/-- Insertion in a list in order of priority (R69): behind every claim of equal or higher priority, in front of every
claim of lower priority, nothing else moved. -/
def Obligations.InsertionKeepsPriorityOrder : Prop :=
  ∀ (c : Claim) (cs : List Claim), cs.Pairwise (fun a b => b.priority ≤ a.priority) →
    insertClaim c cs =
        (cs.filter fun d => decide (c.priority ≤ d.priority)) ++ c :: (cs.filter fun d => decide (d.priority < c.priority))
      ∧ (insertClaim c cs).Pairwise (fun a b => b.priority ≤ a.priority)

/-- RELEASE (R83 to R85, Table 5-6). INVALID for a line or option outside its values, NO_CLAIM without a claim. On a line
that runs a PULSE: NOW and DRAIN of the HOLDING head; either option of a WAITING claim behind it; NOW of a YIELDING or
LEAVING claim, and DRAIN of a YIELDING one, ENDING; DRAIN of a LEAVING claim and either option of an ENDING one, no
change; either option of the TAKING head, removed, the YIELDING claim HOLDING again. NOW on a STARVED line with a guard
removes the claim at once. -/
def Obligations.ReleaseActsByClaimState : Prop :=
  (∀ (p : HostNo) (tag line option : Byte) (s : State), (s.ports.get p).status = .attached →
    (8 ≤ line.toNat ∨ 2 ≤ option.toNat) →
    exec (.release p tag line option) s = .next (s.answer p tag ⟨.invalid, []⟩))
  ∧ ∀ (p : HostNo) (tag line option : Byte) (s : State) (k : LineNo) (c : Claim) (cs : List Claim),
    (s.ports.get p).status = .attached → k.val = line.toNat →
    (option.toNat < 2 → (∀ d ∈ (s.lines.get k).claims, d.host ≠ p) →
      exec (.release p tag line option) s = .next (s.answer p tag ⟨.noClaim, []⟩))
    ∧ (∀ pre post e rest period active pol count, (s.lines.get k).engine = .running →
      (s.lines.get k).claims = pre ++ c :: post → (∀ d ∈ pre, d.state.isExecuting = false) →
      (∀ d ∈ pre ++ post, d.host ≠ p) → c.host = p → c.queue = e :: rest →
      e.seg.body = .pulse period active pol count →
      (((c.state = .yielding ∨ c.state = .leaving true ∨ c.state = .leaving false) ∧ option = 0x00)
          ∨ (c.state = .yielding ∧ option = 0x01) →
        exec (.release p tag line option) s =
          .next ((s.updateLine k ⟨{ s.lines.get k with
              claims := pre ++
                { c with state := .ending .released, leaseElapsed := c.leaseValue.toNat * 8000 } :: post },
              [], []⟩).answer p tag ⟨.ok, [0x00]⟩))
      ∧ ((c.state = .leaving true ∨ c.state = .leaving false) → option = 0x01 →
        exec (.release p tag line option) s =
          .next ((s.updateLine k ⟨s.lines.get k, [], []⟩).answer p tag ⟨.ok, [0x01]⟩))
      ∧ (c.state.isEnding = true → (option = 0x00 ∨ option = 0x01) →
        exec (.release p tag line option) s =
          .next ((s.updateLine k ⟨s.lines.get k, [], []⟩).answer p tag ⟨.ok, [0x00]⟩)))
    ∧ (∀ d e rest period active pol count, RunsBehindTaker s k c d cs e rest → d.state = .yielding → c.host = p →
      (∀ x ∈ cs, x.host ≠ p) → e.seg.body = .pulse period active pol count → (option = 0x00 ∨ option = 0x01) →
      exec (.release p tag line option) s =
        .next ((s.updateLine k ⟨{ s.lines.get k with claims := { d with state := .holding, yieldRun := 0 } :: cs },
            [], []⟩).answer p tag ⟨.ok, [0x02]⟩))
    ∧ (∀ e rest period active pol count, HoldsAndRuns s k c cs e rest → c.host = p →
      e.seg.body = .pulse period active pol count →
      (option = 0x00 →
        exec (.release p tag line option) s =
          .next ((s.updateLine k ⟨{ s.lines.get k with
              claims := { c with state := .ending .released, leaseElapsed := c.leaseValue.toNat * 8000 } :: cs },
              [], []⟩).answer p tag ⟨.ok, [0x00]⟩))
      ∧ (option = 0x01 →
        exec (.release p tag line option) s =
          .next ((s.updateLine k ⟨{ s.lines.get k with claims := { c with state := .leaving false } :: cs },
              [], []⟩).answer p tag ⟨.ok, [0x01]⟩)))
    ∧ (∀ e rest period active pol count, HoldsAndRuns s k c cs e rest → c.host ≠ p →
      e.seg.body = .pulse period active pol count → (∀ d ∈ cs, d.state = .waiting) → (∃ d ∈ cs, d.host = p) →
      (option = 0x00 ∨ option = 0x01) →
      exec (.release p tag line option) s =
        .next ((s.updateLine k ⟨{ s.lines.get k with claims := c :: cs.filter fun d => d.host != p },
            [], []⟩).answer p tag ⟨.ok, [0x02]⟩))
    ∧ ((s.lines.get k).engine = .starved → (s.lines.get k).claims = [c] → c.state = .holding → c.host = p →
      c.queue = [] → 0 < guardUnits s.map k → option = 0x00 →
      exec (.release p tag line option) s =
        .next ((s.updateLine k ⟨{ (s.lines.get k).clearRun with
            lastEnded := none, engine := .guard, guardRemaining := guardUnits s.map k * 128, claims := [] },
            [], [⟨.host p, .claimEnded k .released⟩]⟩).answer p tag ⟨.ok, [0x02]⟩))

/-- R94: the checks of RENEW in order. -/
def Obligations.RenewChecks : Prop :=
  ∀ (p : HostNo) (tag selector : Byte) (newLease : Option Word16) (s : State),
    ((s.ports.get p).status ≠ .attached → (s.ports.get p).status ≠ .absent →
      exec (.renew p tag selector newLease) s = .next (s.answer p tag ⟨.wrongState, []⟩))
    ∧ ((s.ports.get p).status = .attached → 8 ≤ selector.toNat → selector ≠ 0xFF →
      exec (.renew p tag selector newLease) s = .next (s.answer p tag ⟨.invalid, []⟩))
    ∧ ((s.ports.get p).status = .attached → (selector.toNat < 8 ∨ selector = 0xFF) → newLease = some 0 →
      exec (.renew p tag selector newLease) s = .next (s.answer p tag ⟨.invalid, []⟩))
    ∧ ((s.ports.get p).status = .attached → (selector.toNat < 8 ∨ selector = 0xFF) → newLease ≠ some 0 →
      (∀ k : LineNo, (selector = 0xFF ∨ k.val = selector.toNat) → renewable s p k = false) →
      exec (.renew p tag selector newLease) s = .next (s.answer p tag ⟨.noClaim, []⟩))
    ∧ ((s.ports.get p).status = .attached →
      ∀ (v : Word16) (k : LineNo), newLease = some v → v ≠ 0 → (selector = 0xFF ∨ k.val = selector.toNat) →
      renewable s p k = true → (leaseLimit s.map p k).toNat < v.toNat →
      exec (.renew p tag selector newLease) s = .next (s.answer p tag ⟨.invalid, []⟩))

/-- R95: an accepted RENEW of one line, or of ALL: every claim named that is not ENDING has its value set where a new one
is given and its count from 0, and nothing else of it changes; the reply carries their number and the value in force, for
ALL without a new value that of the lowest-numbered line. That a mark forestalls an expiry due at this instant is the
model's reading of R97 (log 34). -/
def Obligations.RenewRestartsLeases : Prop :=
  ∀ (p : HostNo) (tag selector : Byte) (newLease : Option Word16) (s : State), (s.ports.get p).status = .attached →
    ∀ lowest : LineNo,
    (selector = 0xFF ∨ lowest.val = selector.toNat) → renewable s p lowest = true →
    (∀ k : LineNo, k < lowest → selector = 0xFF → renewable s p k = false) →
    (∀ v, newLease = some v → v ≠ 0 ∧ ∀ k : LineNo, (selector = 0xFF ∨ k.val = selector.toNat) →
      renewable s p k = true → v.toNat ≤ (leaseLimit s.map p k).toNat) →
    ∃ (t : State) (n : Nat), exec (.renew p tag selector newLease) s =
        .next (t.answer p tag ⟨.ok, BitVec.ofNat 8 n :: word16Bytes (newLease.getD (leaseValueOf s p lowest))⟩)
      ∧ n = ((List.finRange 8).filter fun k =>
          decide (selector = 0xFF ∨ k.val = selector.toNat) && renewable s p k).length
      ∧ t = { s with lines := t.lines }
      ∧ ∀ k, t.lines.get k =
          if (selector = 0xFF ∨ k.val = selector.toNat) ∧ renewable s p k = true then
            { s.lines.get k with
              claims := (s.lines.get k).claims.map fun c =>
                if c.host = p then
                  { c with
                    leaseValue := newLease.getD c.leaseValue, leaseElapsed := 0
                    forestalled := c.forestalled || decide (c.leaseValue.toNat * 8000 ≤ c.leaseElapsed) }
                else c }
          else s.lines.get k

/-- R92: the expiry of a HOLDING claim that runs a PULSE, of the only claim of a STARVED line with a guard, of a
WAITING claim, and of a claim that is ENDING or whose expiry a renewal of this instant has forestalled (the model's
reading of R97 and Table 6-2, log 34).
That the command acts on a claim whatever its count stands at, and that it changes nothing for a host without a claim, is
the model's choice (log 2). -/
def Obligations.LeaseExpiryWithdraws : Prop :=
  ∀ (k : LineNo) (p : HostNo) (s : State) (c : Claim) (cs : List Claim),
    (∀ e rest period active pol count, HoldsAndRuns s k c cs e rest → c.host = p → c.forestalled = false →
      e.seg.body = .pulse period active pol count →
      exec (.leaseExpiry k p) s =
        .next (s.updateLine k ⟨{ s.lines.get k with
          claims := { c with state := .ending .lease, leaseElapsed := c.leaseValue.toNat * 8000 } :: cs }, [], []⟩))
    ∧ (∀ e rest period active pol count, HoldsAndRuns s k c cs e rest → c.host ≠ p →
      e.seg.body = .pulse period active pol count → (∀ d ∈ cs, d.state = .waiting) → (∃ d ∈ cs, d.host = p) →
      (∀ d ∈ cs, d.forestalled = false) →
      exec (.leaseExpiry k p) s =
        .next (s.updateLine k ⟨{ s.lines.get k with claims := c :: cs.filter fun d => d.host != p }, [],
          [⟨.host p, .claimEnded k .lease⟩]⟩))
    ∧ ((s.lines.get k).engine = .starved → (s.lines.get k).claims = [c] → c.state = .holding → c.host = p →
      c.forestalled = false → 0 < guardUnits s.map k →
      exec (.leaseExpiry k p) s =
        .next (s.updateLine k ⟨{ (s.lines.get k).clearRun with
          lastEnded := none, engine := .guard, guardRemaining := guardUnits s.map k * 128, claims := [] }, [],
          [⟨.host p, .claimEnded k .lease⟩]⟩))
    ∧ ((∀ d ∈ (s.lines.get k).claims, d.host = p → d.state.isEnding = true ∨ d.forestalled = true) →
      exec (.leaseExpiry k p) s = .next s)

/-! ### The segment store (Section 7) -/

/-- R107: the checks of SUBMIT in order, with the bodies of the refusals. The place of a body with both a failing segment
and bytes left over, which R107 and R174 leave open, is that of the segment: the model's choice (log 28). -/
def Obligations.SubmitChecks : Prop :=
  ∀ (p : HostNo) (tag line count : Byte) (segments : List Byte) (s : State),
    (s.ports.get p).status = .attached → 1 ≤ segments.length → segments.length ≤ 58 →
    ((8 ≤ line.toNat ∨ count.toNat = 0 ∨ 8 < count.toNat) →
      exec (.submit p tag line count segments) s = .next (s.answer p tag ⟨.invalid, [0x00]⟩))
    ∧ (∀ (k : LineNo), k.val = line.toNat → 1 ≤ count.toNat → count.toNat ≤ 8 →
      (∀ place, takeSegments 1 count.toNat segments = .error place →
        exec (.submit p tag line count segments) s =
          .next (s.answer p tag ⟨.invalid, [BitVec.ofNat 8 place]⟩))
      ∧ (∀ segs, takeSegments 1 count.toNat segments = .ok segs →
        ((∀ c ∈ (s.lines.get k).claims, c.host ≠ p) →
          exec (.submit p tag line count segments) s = .next (s.answer p tag ⟨.noClaim, []⟩))
        ∧ (∀ c, (s.lines.get k).claimOf p = some c →
          ((c.state.isEnding = true ∨ c.state = .leaving true ∨ c.state = .leaving false) →
            exec (.submit p tag line count segments) s = .next (s.answer p tag ⟨.leaving, []⟩))
          ∧ ((c.state = .waiting ∨ c.state = .taking ∨ c.state = .holding ∨ c.state = .yielding) →
            quota s.map p < s.inUse p + segs.length →
            exec (.submit p tag line count segments) s =
              .next (s.answer p tag
                ⟨.storeFull, [BitVec.ofNat 8 (s.inUse p), BitVec.ofNat 8 (quota s.map p)]⟩)))))

/-- R28: a PULSE with a period of 0 or 1, an active value above its period or a polarity that is not listed is refused
INVALID with its place in the list, wherever it stands behind valid segments (R107; that it is its own place also where
bytes are left over behind the last segment is the model's choice, log 28); and one within the ranges is read with every
count. -/
def Obligations.PulseRangesAreChecked : Prop :=
  ∀ (label tap flags pol : Byte) (period active count : Word16) (rest : List Byte),
    tap.toNat < 6 → flags.toNat < 8 →
    ((period.toNat < 2 ∨ period.toNat < active.toNat ∨ 2 ≤ pol.toNat) →
      ∀ (p : HostNo) (tag line n : Byte) (before : List Segment) (s : State),
        (s.ports.get p).status = .attached → line.toNat < 8 → before.length < n.toNat → n.toNat ≤ 8 →
        (∀ g ∈ before, g.valid = true) →
        ((before.map Segment.bytes).flatten ++ (0x01 :: label :: tap :: flags :: (word16Bytes period
            ++ word16Bytes active ++ pol :: word16Bytes count)) ++ rest).length ≤ 58 →
        exec (.submit p tag line n ((before.map Segment.bytes).flatten ++ (0x01 :: label :: tap :: flags ::
            (word16Bytes period ++ word16Bytes active ++ pol :: word16Bytes count)) ++ rest)) s =
          .next (s.answer p tag ⟨.invalid, [BitVec.ofNat 8 (before.length + 1)]⟩))
    ∧ (2 ≤ period.toNat → active.toNat ≤ period.toNat → pol.toNat < 2 →
      ∃ g, takeSegment ((0x01 :: label :: tap :: flags :: (word16Bytes period ++ word16Bytes active
          ++ pol :: word16Bytes count)) ++ rest) = some (g, rest)
        ∧ g.body = .pulse period active (if pol = 0x00 then .activeHigh else .activeLow) count)

/-- R108, R109: the SUBMIT of segments to a claim that waits appends them and restarts its lease; on a STARVED line the
first of the holder's segments starts at once, where it has join clear and is no continuous HOLD with a follower; behind
the running segment of the holder they wait; a running continuous HOLD they bring to its end DONE, and the first of them
starts at that instant, joined or not, where it is no continuous HOLD with a follower (R32). That an expiry due at this
instant is forestalled is the model's reading of R97 (log 34). -/
def Obligations.SubmitAppendsAndStarts : Prop :=
  ∀ (p : HostNo) (tag line count : Byte) (segments : List Byte) (segs : List Segment) (s : State) (k : LineNo)
    (c : Claim) (cs ds : List Claim),
    (s.ports.get p).status = .attached → 1 ≤ segments.length → segments.length ≤ 58 → k.val = line.toNat →
    1 ≤ count.toNat → count.toNat ≤ 8 → takeSegments 1 count.toNat segments = .ok segs →
    (s.lines.get k).claims = cs ++ c :: ds → c.host = p → (∀ d ∈ cs ++ ds, d.host ≠ p) →
    s.inUse p + segs.length ≤ quota s.map p →
    ∀ renewed : Claim, renewed = { c with
      leaseElapsed := 0
      forestalled := c.forestalled || decide (c.leaseValue.toNat * 8000 ≤ c.leaseElapsed) } →
    ((c.state = .waiting ∨ c.state = .taking) →
      exec (.submit p tag line count segments) s =
        .next ((s.updateLine k ⟨{ s.lines.get k with
            claims := cs ++ { renewed with queue := c.queue ++ segs.map (⟨·, false⟩) } :: ds }, [], []⟩).answer p tag
          ⟨.ok, [BitVec.ofNat 8 segs.length, BitVec.ofNat 8 (c.queue.length + segs.length),
            BitVec.ofNat 8 (s.inUse p + segs.length)]⟩))
    ∧ (∀ g gs, segs = g :: gs → (s.lines.get k).engine = .starved → cs = [] → c.state = .holding → c.queue = [] →
      g.join = false → (g.isContinuousHold = false ∨ gs = []) →
      exec (.submit p tag line count segments) s =
        .next ((s.updateLine k ⟨{ s.lines.get k with
            engine := .running, progress := ⟨g.body.firstPhase, 0, 0⟩, startedAtEnd := false
            gen := startGen (s.ctx k) (s.lines.get k).gen g.body, senseCounter := 0
            claims := { renewed with queue := segs.map (⟨·, false⟩) } :: ds }, [], []⟩).answer p tag
          ⟨.ok, [BitVec.ofNat 8 segs.length, BitVec.ofNat 8 segs.length,
            BitVec.ofNat 8 (s.inUse p + segs.length)]⟩))
    ∧ (∀ e rest, HoldsAndRuns s k c ds e rest → cs = [] → e.seg.isContinuousHold = false →
      exec (.submit p tag line count segments) s =
        .next ((s.updateLine k ⟨{ s.lines.get k with
            claims := { renewed with queue := c.queue ++ segs.map (⟨·, false⟩) } :: ds }, [], []⟩).answer p tag
          ⟨.ok, [BitVec.ofNat 8 segs.length, BitVec.ofNat 8 (c.queue.length + segs.length),
            BitVec.ofNat 8 (s.inUse p + segs.length)]⟩))
    ∧ (∀ e g gs, HoldsAndRuns s k c ds e [] → cs = [] → e.seg.isContinuousHold = true → segs = g :: gs →
      (g.isContinuousHold = false ∨ gs = []) →
      ∃ t, exec (.submit p tag line count segments) s = .next (t.answer p tag
          ⟨.ok, [BitVec.ofNat 8 segs.length, BitVec.ofNat 8 segs.length, BitVec.ofNat 8 (t.inUse p)]⟩)
        ∧ t = s.updateLine k
          ⟨nextAfterDone (s.ctx k) (s.lines.get k) renewed ds ⟨g, false⟩ (gs.map (⟨·, false⟩)),
            lostPosts k c (s.lines.get k) ++ donePosts k c e, []⟩)

/-- A joined segment submitted to a STARVED line is dropped at that instant, LATE behind a DONE record and BROKEN_CHAIN
behind any other (R10, R35, Table 1-4). That an expiry due at this instant is forestalled is the model's reading of R97
(log 34). -/
def Obligations.JoinedSegmentIsDroppedWhenLate : Prop :=
  ∀ (p : HostNo) (tag line count : Byte) (segments : List Byte) (g : Segment) (s : State) (k : LineNo)
    (c : Claim) (ds : List Claim),
    (s.ports.get p).status = .attached → 1 ≤ segments.length → segments.length ≤ 58 → k.val = line.toNat →
    count.toNat = 1 → takeSegments 1 1 segments = .ok [g] → g.join = true →
    (s.lines.get k).engine = .starved → (s.lines.get k).claims = c :: ds → c.host = p → c.state = .holding →
    c.queue = [] → (∀ d ∈ ds, d.host ≠ p) → s.inUse p + 1 ≤ quota s.map p →
    (s.lines.get k).lastEnded ≠ some ⟨.done, false⟩ →
    ∃ outcome, outcome = (if (s.lines.get k).lastEnded = some ⟨.done, true⟩ then .late else .brokenChain)
      ∧ exec (.submit p tag line count segments) s =
        .next ((s.updateLine k ⟨{ s.lines.get k with
            lastEnded := some ⟨outcome, true⟩
            claims := { c with
              leaseElapsed := 0
              forestalled := c.forestalled || decide (c.leaseValue.toNat * 8000 ≤ c.leaseElapsed) } :: ds },
            [⟨.host p, .segmentEnded k g.label outcome⟩], []⟩).answer p tag
          ⟨.ok, [0x01, 0x00, BitVec.ofNat 8 (s.inUse p)]⟩)

/-- R111 to R113. INVALID for a line, scope or cut byte outside its values, NO_CLAIM without a claim. FLUSH without the
cut option removes what its scope covers behind the running segment of a HOLDING claim, and anywhere in the queue of a
claim that does not execute, whatever the cut option. With it, the running segment ends STOPPED (a SENSE ABORTED), but
one that started at this instant because its predecessor ended at it, which runs on. Then (Table 7-4) the line of a
HOLDING claim runs the next segment left, or is STARVED; a YIELDING claim waits PREEMPTED; a displaced LEAVING, an ENDING
and a drained claim is removed, and the line enters GUARD, where its guard time is above 0. -/
def Obligations.FlushRemovesAndCuts : Prop :=
  (∀ (p : HostNo) (tag line scope label cut : Byte) (s : State), (s.ports.get p).status = .attached →
    (8 ≤ line.toNat ∨ 3 ≤ scope.toNat ∨ 2 ≤ cut.toNat) →
    exec (.flush p tag line scope label cut) s = .next (s.answer p tag ⟨.invalid, []⟩))
  ∧ (∀ (p : HostNo) (tag line scope label cut : Byte) (s : State) (k : LineNo), (s.ports.get p).status = .attached →
    k.val = line.toNat → scope.toNat < 3 → cut.toNat < 2 → (∀ d ∈ (s.lines.get k).claims, d.host ≠ p) →
    exec (.flush p tag line scope label cut) s = .next (s.answer p tag ⟨.noClaim, []⟩))
  ∧ (∀ (p : HostNo) (tag line scope label cut : Byte) (s : State) (k : LineNo) (c : Claim) (cs : List Claim)
    (e : Entry) (rest : List Entry),
    (s.ports.get p).status = .attached → k.val = line.toNat → HoldsAndRuns s k c cs e rest → c.host = p →
    (scope = 0x02 → cut = 0x00 →
      exec (.flush p tag line scope label cut) s =
        .next ((s.updateLine k ⟨s.lines.get k, [], []⟩).answer p tag
          ⟨.ok, [0x00, 0x00, BitVec.ofNat 8 (s.inUse p)]⟩))
    ∧ (scope = 0x00 → cut = 0x00 → c.yieldRun = 0 →
      ∃ t, exec (.flush p tag line scope label cut) s = .next (t.answer p tag
          ⟨.ok, [BitVec.ofNat 8 rest.length, 0x00, BitVec.ofNat 8 (t.inUse p)]⟩)
        ∧ t = s.updateLine k ⟨{ s.lines.get k with claims := { c with queue := [e] } :: cs }, [], []⟩)
    ∧ (scope = 0x00 → cut = 0x01 → c.yieldRun = 0 → (s.lines.get k).startedAtEnd = false →
      ∃ t, exec (.flush p tag line scope label cut) s = .next (t.answer p tag
          ⟨.ok, [BitVec.ofNat 8 rest.length, 0x01, BitVec.ofNat 8 (t.inUse p)]⟩)
        ∧ t = s.updateLine k ⟨{ starvedAfterDone (s.lines.get k) c cs with lastEnded := some ⟨.stopped, true⟩ },
            lostPosts k c (s.lines.get k) ++
              [match e.seg.body with
                | .sense _ _ => ⟨.host p, .senseResult k e.seg.label .aborted 0⟩
                | _ => ⟨.host p, .segmentEnded k e.seg.label .stopped⟩], []⟩))
  ∧ ∀ (p : HostNo) (tag line scope label cut : Byte) (s : State) (k : LineNo) (c : Claim) (keep : Entry → Bool),
    (s.ports.get p).status = .attached → k.val = line.toNat → c.host = p →
    ((scope = 0x00 ∧ keep = fun _ => false) ∨ (scope = 0x01 ∧ keep = fun e => e.seg.label != label)
      ∨ (scope = 0x02 ∧ keep = fun _ => true)) →
    (∀ cs e rest, HoldsAndRuns s k c cs e rest → c.yieldRun = 0 →
      (cut = 0x00 ∨ (cut = 0x01 ∧ (s.lines.get k).startedAtEnd = true)) →
      ∃ t, exec (.flush p tag line scope label cut) s = .next (t.answer p tag
          ⟨.ok, [BitVec.ofNat 8 (rest.length - (rest.filter keep).length), 0x00, BitVec.ofNat 8 (t.inUse p)]⟩)
        ∧ t = s.updateLine k ⟨{ s.lines.get k with claims := { c with queue := e :: rest.filter keep } :: cs }, [], []⟩)
    ∧ (∀ pre post, (s.lines.get k).claims = pre ++ c :: post → (∀ d ∈ pre ++ post, d.host ≠ p) →
      (c.state = .waiting ∨ c.state = .taking) → c.yieldRun = 0 → (cut = 0x00 ∨ cut = 0x01) →
      ∃ t, exec (.flush p tag line scope label cut) s = .next (t.answer p tag
          ⟨.ok, [BitVec.ofNat 8 (c.queue.length - (c.queue.filter keep).length), 0x00, BitVec.ofNat 8 (t.inUse p)]⟩)
        ∧ t = s.updateLine k ⟨{ s.lines.get k with
            claims := pre ++ { c with queue := c.queue.filter keep } :: post }, [], []⟩)
    ∧ (cut = 0x01 → (s.lines.get k).startedAtEnd = false →
      (∀ cs e rest e2 rest2, HoldsAndRuns s k c cs e rest → c.yieldRun = 0 → rest.filter keep = e2 :: rest2 →
        e2.seg.join = false → (e2.seg.isContinuousHold = false ∨ rest2 = []) →
        ∃ t, exec (.flush p tag line scope label cut) s = .next (t.answer p tag
            ⟨.ok, [BitVec.ofNat 8 (rest.length - (rest.filter keep).length), 0x01, BitVec.ofNat 8 (t.inUse p)]⟩)
          ∧ t = s.updateLine k
            ⟨{ nextAfterDone (s.ctx k) (s.lines.get k) c cs e2 rest2 with lastEnded := some ⟨.stopped, false⟩ },
              brokenOffPosts k (s.lines.get k) .stopped, []⟩)
      ∧ (∀ taker cs e rest, RunsBehindTaker s k taker c cs e rest → 0 < guardUnits s.map k →
        ∀ (left : List Claim) (posts : List Post),
        ((c.state = .yielding
            ∧ left = taker :: { c with state := .waiting, yieldRun := 0, queue := rest.filter keep } :: cs
            ∧ posts = [⟨.host p, .preempted k taker.host⟩])
          ∨ (c.state = .leaving true ∧ left = taker :: cs ∧ posts = [⟨.host p, .claimEnded k .displacedLeaving⟩])
          ∨ (c.state = .ending .released ∧ left = taker :: cs ∧ posts = [⟨.host p, .claimEnded k .released⟩])
          ∨ (c.state = .ending .lease ∧ left = taker :: cs ∧ posts = [⟨.host p, .claimEnded k .lease⟩])) →
        ∃ t, exec (.flush p tag line scope label cut) s = .next (t.answer p tag
            ⟨.ok, [BitVec.ofNat 8 (rest.length - (rest.filter keep).length), 0x01, BitVec.ofNat 8 (t.inUse p)]⟩)
          ∧ t = s.updateLine k ⟨guardedWith (guardUnits s.map k) (s.lines.get k) left,
              brokenOffPosts k (s.lines.get k) .stopped, posts⟩)
      ∧ (∀ e rest, (s.lines.get k).engine = .running → (s.lines.get k).claims = [c] → c.state = .leaving false →
        c.queue = e :: rest → rest.filter keep = [] → 0 < guardUnits s.map k →
        ∃ t, exec (.flush p tag line scope label cut) s = .next (t.answer p tag
            ⟨.ok, [BitVec.ofNat 8 rest.length, 0x01, BitVec.ofNat 8 (t.inUse p)]⟩)
          ∧ t = s.updateLine k ⟨guardedWith (guardUnits s.map k) (s.lines.get k) [],
              brokenOffPosts k (s.lines.get k) .stopped, [⟨.host p, .claimEnded k .drained⟩]⟩))

/-- R39 and R40: the checks of AMEND in order, and the amendment staged. -/
def Obligations.AmendStages : Prop :=
  ∀ (p : HostNo) (tag line : Byte) (period active : Word16) (s : State), (s.ports.get p).status = .attached →
    ((8 ≤ line.toNat ∨ period.toNat < 2 ∨ period.toNat < active.toNat) →
      exec (.amend p tag line period active) s = .next (s.answer p tag ⟨.invalid, []⟩))
    ∧ (∀ k : LineNo, k.val = line.toNat → 2 ≤ period.toNat → active.toNat ≤ period.toNat →
      ((∀ c, (s.lines.get k).executing = some c → c.host ≠ p) →
        exec (.amend p tag line period active) s = .next (s.answer p tag ⟨.notHolder, []⟩))
      ∧ (∀ c, (s.lines.get k).executing = some c → c.host = p →
        ((∀ g, (s.lines.get k).running = some g → ∀ a b q n, g.body ≠ .pulse a b q n) →
          exec (.amend p tag line period active) s = .next (s.answer p tag ⟨.invalid, []⟩))
        ∧ (∀ g a b q n, (s.lines.get k).running = some g → g.body = .pulse a b q n →
          exec (.amend p tag line period active) s =
            .next ({ s with
                lines := s.lines.set k { s.lines.get k with staged := some ⟨period, active⟩ } }.answer p tag
              ⟨.staged, [if (s.lines.get k).staged = none then 0x00 else 0x01]⟩))))

/-! ### Lines (Sections 1 to 4 and 9) -/

/-- What an event on line `k` leaves alone, and what its monitor is told (R3, R133): the line is the one given but for
its mismatch timer, which runs on where the level and its being checked are the same on both sides, restarts or clears
on a change, and is clear where the level is not compared; the notices go to the queues; everything else is as before. An
event that takes the timer back from a window it had reached, other than by the fault itself, leaves no fault of this
instant behind it (row 1 of Table 9-1; the mark that says so is log 37).
What level a line drives, and whether it is checked, by engine state and by the phase of the running segment (R1, R2,
Tables 1-2 and 1-3; R140 in the first settle). -/
def Obligations.EventOnOneLine : Prop :=
  (∀ (s : State) (k : LineNo) (o : LineOut),
    SameButLine k s (s.updateLine k o)
    ∧ (s.updateLine k o).ports = (s.postAll (o.seg ++ o.claim)).ports
    ∧ (∀ h, (s.ports.get h).SameButNotices ((s.updateLine k o).ports.get h))
    ∧ (∀ (timer : Option Nat) (reached : Option Nat → Bool),
        timer = (if checkEnable s.map k = true ∧ (o.line.drive (s.ctx k)).checked = true
              ∧ (o.line.drive (s.ctx k)).level ≠ .float then
            if (s.lines.get k).drive (s.ctx k) = o.line.drive (s.ctx k) then o.line.mismatch
            else if padMismatches o.line.pad (o.line.drive (s.ctx k)).level = true then some 0 else none
          else none) →
        (∀ m, reached m = true ↔ ∃ n, m = some n ∧ faultWindow s.map k * 8 ≤ n) →
        (s.updateLine k o).lines.get k = { o.line with
          mismatch := timer
          faultForestalled := o.line.faultForestalled
            || ((s.lines.get k).engine.canFault && reached (s.lines.get k).mismatch
              && !(o.line.engine.canFault && reached timer)
              && o.line.engine != .faulted && o.line.engine != .retired) }))
  ∧ ∀ (ctx : LineCtx) (L : LineState) (steady : Level → Drive),
    steady = (fun level => ⟨level, decide (level ≠ .float)⟩) →
    (L.engine = .idle → L.drive ctx = if ctx.firstSettle then ⟨.float, false⟩ else steady ctx.safe)
    ∧ (L.engine = .guard → L.drive ctx = steady ctx.safe)
    ∧ (L.engine = .starved → ∀ c, L.executing = some c → L.drive ctx = steady
        (match c.restLevel with | .low => .low | .high => .high | .float => .float | .safe => ctx.safe))
    ∧ (L.engine = .faulted ∨ L.engine = .retired ∨ L.engine = .halted → L.drive ctx = ⟨.float, false⟩)
    ∧ (∀ f, L.front = some f →
      (∀ level duration, f.entry.seg.body = .hold level duration → L.drive ctx = steady level)
      ∧ (∀ period active pol count, f.entry.seg.body = .pulse period active pol count →
        (L.progress.phase = .active → L.drive ctx = ⟨match pol with | .activeHigh => .high | .activeLow => .low, true⟩)
        ∧ (L.progress.phase = .inactive →
            L.drive ctx = ⟨match pol with | .activeHigh => .low | .activeLow => .high, true⟩))
      ∧ (∀ source pol durations, f.entry.seg.body = .carrier source pol durations →
        (L.gen.running = true → L.gen.position < L.gen.active →
          L.drive ctx = ⟨match pol with | .activeHigh => .high | .activeLow => .low, false⟩)
        ∧ (L.gen.running = false ∨ L.gen.active ≤ L.gen.position →
          L.drive ctx = ⟨match pol with | .activeHigh => .low | .activeLow => .high, false⟩))
      ∧ (∀ discharge limit, f.entry.seg.body = .sense discharge limit →
        (L.progress.phase = .discharge → L.drive ctx = ⟨.low, true⟩)
        ∧ (L.progress.phase = .release → L.drive ctx = ⟨.float, false⟩)))

/-- R13: the end of a guard with an empty list, and with a TAKING head whose queue is empty or whose oldest segment is
neither joined nor a continuous HOLD with a follower. -/
def Obligations.GuardEndTakesTheLine : Prop :=
  ∀ (k : LineNo) (s : State), (s.lines.get k).engine = .guard →
    ((s.lines.get k).claims = [] →
      exec (.guardEnd k) s =
        .next (s.updateLine k ⟨{ s.lines.get k with engine := .idle, guardRemaining := 0, claims := [] }, [], []⟩))
    ∧ (∀ c cs, (s.lines.get k).claims = c :: cs → c.state = .taking → (∀ d ∈ cs, d.state = .waiting) →
      (c.queue = [] →
        exec (.guardEnd k) s =
          .next (s.updateLine k ⟨{ s.lines.get k with
            engine := .starved, guardRemaining := 0, lastEnded := none
            claims := { c with state := .holding, yieldRun := 0 } :: cs }, [],
            [⟨.host c.host, .claimGranted k⟩]⟩))
      ∧ (∀ e rest, c.queue = e :: rest → e.seg.join = false → (e.seg.isContinuousHold = false ∨ rest = []) →
        exec (.guardEnd k) s =
          .next (s.updateLine k ⟨{ s.lines.get k with
            engine := .running, guardRemaining := 0, lastEnded := none
            progress := ⟨e.seg.body.firstPhase, 0, 0⟩, startedAtEnd := false
            gen := startGen (s.ctx k) (s.lines.get k).gen e.seg.body, senseCounter := 0
            claims := { c with state := .holding, yieldRun := 0 } :: cs }, [],
            [⟨.host c.host, .claimGranted k⟩]⟩)))

/-- The phases and cycles of a running PULSE of a HOLDING claim (R29, R31, R40): the inactive phase after the active
one, and the next cycle with a staged amendment written into the record. -/
def Obligations.PulseGoesFromCycleToCycle : Prop :=
  ∀ (k : LineNo) (s : State) (c : Claim) (cs : List Claim) (e : Entry) (rest : List Entry)
    (period active count : Word16) (pol : Polarity),
    HoldsAndRuns s k c cs e rest → e.seg.body = .pulse period active pol count →
    ((s.lines.get k).progress.phase = .active → active ≠ period →
      exec (.pulsePhaseEnd k) s =
        .next (s.updateLine k ⟨{ s.lines.get k with
          progress := ⟨.inactive, 0, (s.lines.get k).progress.completed⟩, startedAtEnd := false }, [], []⟩))
    ∧ ((count = 0 → rest = []) → (count ≠ 0 → (s.lines.get k).progress.completed + 1 < count.toNat) →
      ∃ per act, ((s.lines.get k).staged = none → per = period ∧ act = active)
        ∧ (∀ a, (s.lines.get k).staged = some a → per = a.period ∧ act = a.active)
        ∧ exec (.pulseCycleEnd k) s =
          .next (s.updateLine k ⟨{ s.lines.get k with
            staged := none, startedAtEnd := false
            progress := ⟨if act = 0 then .inactive else .active, 0, (s.lines.get k).progress.completed + 1⟩
            claims := { c with
              queue := { e with seg := { e.seg with body := .pulse per act pol count } } :: rest } :: cs }, [], []⟩))

/-- The elements of a running CARRIER of a HOLDING claim (R43, R44, R47): the next element, a mark starting the
generator with the source's setting and a space stopping it. And the parts of a carrier period in a mark, whatever the
state of the claim (R44, R45): from the active part to position active, from the inactive part to position 0. Where the
clock has brought the end of the part at this instant, the passage is all that happens; where the command comes before it,
the clocks left of the part have elapsed in the mark too (the model's choice, log 22), and one that would lie behind the
end of the mark is none. Without a running generator the command changes nothing (the model's choice, log 2). -/
def Obligations.CarrierGoesFromElementToElement : Prop :=
  ∀ (k : LineNo) (s : State),
    (∀ c cs e rest source pol durations i, HoldsAndRuns s k c cs e rest →
      e.seg.body = .carrier source pol durations → (s.lines.get k).progress.phase = .element i →
      i + 1 < durations.length →
      exec (.carrierElementEnd k) s =
        .next (s.updateLine k ⟨{ s.lines.get k with
          progress := ⟨.element (i + 1), 0, (s.lines.get k).progress.completed + 1⟩, startedAtEnd := false
          gen := if (i + 1) % 2 = 0 then
              ⟨0, (carrierSetting s.map source).period, (carrierSetting s.map source).active, true, false⟩
            else { (s.lines.get k).gen with position := 0, running := false, atBoundary := false } }, [], []⟩))
    ∧ (∀ (L : LineState) f source pol durations i, L = s.lines.get k → L.front = some f →
      f.entry.seg.body = .carrier source pol durations → L.progress.phase = .element i → i % 2 = 0 →
      L.gen.running = true →
      ∀ partEnd left, partEnd = (if L.gen.position < L.gen.active then min L.gen.active L.gen.period else L.gen.period) →
      left = (if L.gen.atBoundary then 0 else partEnd - L.gen.position) →
      ((left = 0 ∨ L.progress.elapsed + left ≤ (durations.getD i 0).toNat * f.entry.seg.tap.clocks) →
        exec (.carrierPartChange k) s =
          .next (s.updateLine k ⟨{ L with
            progress := { L.progress with elapsed := L.progress.elapsed + left }
            startedAtEnd := false
            gen := { L.gen with
              position := if partEnd < L.gen.period then partEnd else 0
              atBoundary := false } }, [], []⟩))
      ∧ (0 < left → (durations.getD i 0).toNat * f.entry.seg.tap.clocks < L.progress.elapsed + left →
        exec (.carrierPartChange k) s = .next s))
    ∧ ((s.lines.get k).gen.running = false → exec (.carrierPartChange k) s = .next s)

/-- The natural ends of HOLD, PULSE, CARRIER and SENSE segments of a HOLDING claim (R6, R26, R31, R33, R43, R58, R59,
R60): DONE with its notices, then STARVED where nothing is queued, or the next segment where one is. That a release that
finds the pad HIGH is a change of level all the same, so that a compared LOW that follows starts its mismatch timer from
0, is the model's reading of R57 and R133 (log 14); that the limit reached with the pad HIGH gives COUNT with the limit
is another (log 26). -/
def Obligations.NaturalEndGoesOn : Prop :=
  ∀ (k : LineNo) (s : State) (c : Claim) (cs : List Claim) (e : Entry) (rest : List Entry),
    HoldsAndRuns s k c cs e rest →
    ∀ (next : LineState → LineState),
    (rest = [] → next = fun L => starvedAfterDone L c cs) →
    (∀ e2 rest2, rest = e2 :: rest2 →
      (e2.seg.isContinuousHold = false ∨ rest2 = []) ∧ next = fun L => nextAfterDone (s.ctx k) L c cs e2 rest2) →
    (∀ level duration, e.seg.body = .hold level duration → duration ≠ 0 →
      exec (.holdEnd k) s =
        .next (s.updateLine k ⟨next (s.lines.get k), lostPosts k c (s.lines.get k) ++ donePosts k c e, []⟩))
    ∧ (∀ period active pol count, e.seg.body = .pulse period active pol count →
      ((count ≠ 0 ∧ count.toNat ≤ (s.lines.get k).progress.completed + 1) ∨ (count = 0 ∧ rest ≠ [])) →
      exec (.pulseCycleEnd k) s =
        .next (s.updateLine k ⟨next (s.lines.get k), lostPosts k c (s.lines.get k) ++ donePosts k c e, []⟩))
    ∧ (∀ source pol durations i, e.seg.body = .carrier source pol durations →
      (s.lines.get k).progress.phase = .element i → durations.length ≤ i + 1 →
      exec (.carrierElementEnd k) s =
        .next (s.updateLine k ⟨next (s.lines.get k), lostPosts k c (s.lines.get k) ++ donePosts k c e, []⟩))
    ∧ (∀ discharge limit, e.seg.body = .sense discharge limit →
      ((s.lines.get k).progress.phase = .discharge →
        ((s.lines.get k).pad = .high →
          exec (.senseRelease k) s =
            .next (s.updateLine k ⟨{ next (s.lines.get k) with
                mismatch :=
                  if checkEnable s.map k = true ∧ ((next (s.lines.get k)).drive (s.ctx k)).checked = true
                      ∧ ((next (s.lines.get k)).drive (s.ctx k)).level = .low then some 0
                  else none }, lostPosts k c (s.lines.get k) ++
              [⟨.host c.host, .senseResult k e.seg.label .count 0⟩], []⟩))
        ∧ ((s.lines.get k).pad ≠ .high →
          exec (.senseRelease k) s =
            .next (s.updateLine k ⟨{ s.lines.get k with
              progress := ⟨.release, 0, (s.lines.get k).progress.completed⟩, senseCounter := 0
              startedAtEnd := false }, [], []⟩)))
      ∧ ((s.lines.get k).progress.phase = .release →
        exec (.sensePadHigh k) s =
          .next (s.updateLine k ⟨next { s.lines.get k with pad := .high }, lostPosts k c (s.lines.get k) ++
            [⟨.host c.host, .senseResult k e.seg.label .count (s.lines.get k).senseCounter⟩], []⟩)
        ∧ ((s.lines.get k).pad ≠ .high →
          exec (.senseLimitReached k) s =
            .next (s.updateLine k ⟨next (s.lines.get k), lostPosts k c (s.lines.get k) ++
              [⟨.host c.host, .senseResult k e.seg.label .timeout 0⟩], []⟩))
        ∧ ((s.lines.get k).pad = .high →
          exec (.senseLimitReached k) s =
            .next (s.updateLine k ⟨next (s.lines.get k), lostPosts k c (s.lines.get k) ++
              [⟨.host c.host, .senseResult k e.seg.label .count limit.toNat⟩], []⟩))))

/-- R76: a YIELDING claim behind a taker of cut mode CYCLE is cut at the end of a cycle of its PULSE that is not its
last: CUT_KEPT under RESTART with join clear, CUT_DROPPED otherwise; it becomes WAITING with PREEMPTED, and the line
enters GUARD for its guard time, where that is above 0. R74: under cut mode SEGMENT such a cycle end does not stop the
claim, and a natural end does not while the yield run is above 0 and the next segment has join set; any other natural end
does. R78: a displaced LEAVING claim stops there too, STOPPED or DONE, and is removed DISPLACED_LEAVING. R79: an ENDING
claim stops at the first cycle end whatever the cut mode, STOPPED or DONE, and is removed for its cause. R80: a LEAVING
claim that is not displaced runs its queue out, a continuous PULSE to its next cycle end, and is removed DRAINED. -/
def Obligations.YieldAtTheCyclePoint : Prop :=
  (∀ (k : LineNo) (s : State) (taker c : Claim) (cs : List Claim) (e : Entry) (rest : List Entry)
    (period active count : Word16) (pol : Polarity),
    (s.lines.get k).engine = .running → (s.lines.get k).claims = taker :: c :: cs → taker.state = .taking →
    taker.cutMode = .cycle → c.state = .yielding → c.queue = e :: rest → taker.host ≠ c.host →
    (∀ d ∈ cs, d.host ≠ c.host ∧ d.state = .waiting) → e.seg.body = .pulse period active pol count →
    (count = 0 → rest = []) → (count ≠ 0 → (s.lines.get k).progress.completed + 1 < count.toNat) →
    0 < guardUnits s.map k →
    ∃ kept : Bool, kept = (!e.seg.join && decide (e.seg.policy = .restart))
      ∧ exec (.pulseCycleEnd k) s =
        .next (s.updateLine k ⟨{ (s.lines.get k).clearRun with
            engine := .guard, guardRemaining := guardUnits s.map k * 128, lastEnded := none
            claims := taker :: { c with
              state := .waiting, yieldRun := 0
              queue := if kept then { e with kept := true } :: rest else rest } :: cs },
          lostPosts k c (s.lines.get k) ++
            (if kept then [] else [⟨.host c.host, .segmentEnded k e.seg.label .cutDropped⟩]),
          [⟨.host c.host, .preempted k taker.host⟩]⟩))
  ∧ (∀ (k : LineNo) (s : State) (taker c : Claim) (cs : List Claim) (e : Entry) (rest : List Entry) (i : Instr),
    RunsBehindTaker s k taker c cs e rest → 0 < guardUnits s.map k →
    (∀ period active pol count, taker.cutMode = .segment → (c.state = .yielding ∨ c.state = .leaving true) →
      e.seg.body = .pulse period active pol count → (s.lines.get k).progress.completed + 1 < count.toNat →
      (s.lines.get k).staged = none →
      exec (.pulseCycleEnd k) s =
        .next (s.updateLine k ⟨{ s.lines.get k with
          startedAtEnd := false
          progress := ⟨if active = 0 then .inactive else .active, 0, (s.lines.get k).progress.completed + 1⟩ },
          [], []⟩))
    ∧ (∀ n e2 rest2, EndsNaturally k (s.lines.get k) e i → taker.cutMode = .segment →
      (c.state = .yielding ∨ c.state = .leaving true) → c.yieldRun = n + 1 → rest = e2 :: rest2 → e2.seg.join = true →
      e2.seg.isContinuousHold = false →
      exec i s =
        .next (s.updateLine k
          ⟨{ nextAfterDone (s.ctx k) (s.lines.get k) c cs e2 rest2 with
              claims := taker :: { c with queue := rest, yieldRun := n } :: cs },
            lostPosts k c (s.lines.get k) ++ donePosts k c e, []⟩))
    ∧ (EndsNaturally k (s.lines.get k) e i →
      (taker.cutMode = .cycle ∨ c.yieldRun = 0 ∨ (∀ e2 rest2, rest = e2 :: rest2 → e2.seg.join = false)) →
      (c.state = .yielding →
        exec i s =
          .next (s.updateLine k
            ⟨guardedWith (guardUnits s.map k) (s.lines.get k)
                (taker :: { c with state := .waiting, yieldRun := 0, queue := rest } :: cs),
              lostPosts k c (s.lines.get k) ++ donePosts k c e, [⟨.host c.host, .preempted k taker.host⟩]⟩))
      ∧ (c.state = .leaving true →
        exec i s =
          .next (s.updateLine k
            ⟨guardedWith (guardUnits s.map k) (s.lines.get k) (taker :: cs),
              lostPosts k c (s.lines.get k) ++ donePosts k c e, [⟨.host c.host, .claimEnded k .displacedLeaving⟩]⟩)))
    ∧ (EndsACycle k (s.lines.get k) e i → taker.cutMode = .cycle → c.state = .leaving true →
      exec i s =
        .next (s.updateLine k
          ⟨guardedWith (guardUnits s.map k) (s.lines.get k) (taker :: cs),
            brokenOffPosts k (s.lines.get k) .stopped, [⟨.host c.host, .claimEnded k .displacedLeaving⟩]⟩))
    ∧ (∀ (cause : EndingCause) (posts : List Post), c.state = .ending cause →
      posts = (match cause with
        | .released => [⟨.host c.host, .claimEnded k .released⟩]
        | .lease => [⟨.host c.host, .claimEnded k .lease⟩]
        | .departed => []) →
      (EndsACycle k (s.lines.get k) e i →
        exec i s = .next (s.updateLine k ⟨guardedWith (guardUnits s.map k) (s.lines.get k) (taker :: cs),
          brokenOffPosts k (s.lines.get k) .stopped, posts⟩))
      ∧ (EndsNaturally k (s.lines.get k) e i →
        exec i s = .next (s.updateLine k ⟨guardedWith (guardUnits s.map k) (s.lines.get k) (taker :: cs),
          lostPosts k c (s.lines.get k) ++ donePosts k c e, posts⟩))))
  ∧ ∀ (k : LineNo) (s : State) (c : Claim) (e : Entry) (rest : List Entry) (i : Instr),
    (s.lines.get k).engine = .running → (s.lines.get k).claims = [c] → c.queue = e :: rest → 0 < guardUnits s.map k →
    (∀ (cause : EndingCause) (posts : List Post), c.state = .ending cause →
      posts = (match cause with
        | .released => [⟨.host c.host, .claimEnded k .released⟩]
        | .lease => [⟨.host c.host, .claimEnded k .lease⟩]
        | .departed => []) →
      (EndsACycle k (s.lines.get k) e i →
        exec i s = .next (s.updateLine k ⟨guardedWith (guardUnits s.map k) (s.lines.get k) [],
          brokenOffPosts k (s.lines.get k) .stopped, posts⟩))
      ∧ (EndsNaturally k (s.lines.get k) e i →
        exec i s = .next (s.updateLine k ⟨guardedWith (guardUnits s.map k) (s.lines.get k) [],
          lostPosts k c (s.lines.get k) ++ donePosts k c e, posts⟩)))
    ∧ (c.state = .leaving false →
      (EndsNaturally k (s.lines.get k) e i
        ∨ ∃ period active pol, e.seg.body = .pulse period active pol 0 ∧ i = .pulseCycleEnd k) →
      (rest = [] →
        exec i s = .next (s.updateLine k ⟨guardedWith (guardUnits s.map k) (s.lines.get k) [],
          lostPosts k c (s.lines.get k) ++ donePosts k c e, [⟨.host c.host, .claimEnded k .drained⟩]⟩))
      ∧ (∀ e2 rest2, rest = e2 :: rest2 → e2.seg.isContinuousHold = false →
        exec i s = .next (s.updateLine k ⟨nextAfterDone (s.ctx k) (s.lines.get k) c [] e2 rest2,
          lostPosts k c (s.lines.get k) ++ donePosts k c e, []⟩)))

/-- R132, R133: a pad reading while the level is compared starts the timer from 0, leaves it running, or clears it;
while the level is not compared it is clear. A matching reading leaves a compared line with its timer clear; that
PAD_MATCHES puts the pad at a driven LOW or HIGH, and leaves it as it reads where the level is FLOAT, is the model's
choice (log 6). A reading that clears a timer that had reached its window leaves no fault of this instant behind it (the
mark that says so is log 37). -/
def Obligations.PadReadingDrivesTheTimer : Prop :=
  ∀ (k : LineNo) (s : State) (d : Drive) (due : Bool), d = (s.lines.get k).drive (s.ctx k) →
    (due = true ↔ (s.lines.get k).engine.canFault = true
      ∧ ∃ n, (s.lines.get k).mismatch = some n ∧ faultWindow s.map k * 8 ≤ n) →
    (∀ reads, exec (.padMismatchBegins k reads) s =
      .next { s with lines := s.lines.set k { s.lines.get k with
        pad := reads
        mismatch :=
          if checkEnable s.map k = true ∧ d.checked = true
              ∧ ((d.level = .low ∧ reads ≠ .low) ∨ (d.level = .high ∧ reads ≠ .high)) then
            some ((s.lines.get k).mismatch.getD 0)
          else none
        faultForestalled := (s.lines.get k).faultForestalled
          || (due && !decide (checkEnable s.map k = true ∧ d.checked = true
              ∧ ((d.level = .low ∧ reads ≠ .low) ∨ (d.level = .high ∧ reads ≠ .high)))) } })
    ∧ (∃ t, exec (.padMatches k) s = .next t
        ∧ t = { s with lines := s.lines.set k { s.lines.get k with
            mismatch := none
            faultForestalled := (s.lines.get k).faultForestalled || due
            pad := match d.level with | .low => .low | .high => .high | .float => (s.lines.get k).pad } })

/-- R134 to R136: a fault on a line whose timer runs, or ran when the entry to SETUP at this instant cleared it (row 5 of
Table 9-1, log 33): uncounted in SETUP without notices; counted in RUN to FAULTED, a HOLDING claim kept and its segment
ended FAULT; the fourth retires the line and ends every claim. Behind an event of its instant that has taken the timer
back from its window, a change of the driven level among them, there is no fault (row 1 of Table 9-1; the mark that says so
is log 37); and none where no timer runs (the model's choice, log 2). -/
def Obligations.ReadbackFaultIsCounted : Prop :=
  ∀ (k : LineNo) (s : State),
    (((s.lines.get k).mismatch = none ∨ (s.lines.get k).faultForestalled = true) → (s.lines.get k).mismatchAtEntry = none →
      exec (.readbackFault k) s = .next s)
    ∧ ((((s.lines.get k).mismatch ≠ none ∧ (s.lines.get k).faultForestalled = false)
        ∨ (s.lines.get k).mismatchAtEntry ≠ none) →
    (s.device = .setup → (s.lines.get k).engine = .idle → (s.lines.get k).claims = [] →
      exec (.readbackFault k) s =
        .next (s.updateLine k ⟨{ (s.lines.get k).clearRun with
            engine := .faulted, guardRemaining := 0, mismatchAtEntry := none }, [], []⟩))
    ∧ (s.device = .run → ∀ c cs e rest, HoldsAndRuns s k c cs e rest →
      (∀ d l, e.seg.body ≠ .sense d l) →
      ((s.lines.get k).faultCount < 3 →
        exec (.readbackFault k) s =
          .next (s.updateLine k ⟨{ (s.lines.get k).clearRun with
              faultCount := (s.lines.get k).faultCount + 1, engine := .faulted, guardRemaining := 0
              mismatchAtEntry := none, lastEnded := some ⟨.fault, false⟩, claims := { c with queue := rest } :: cs },
            lostPosts k c (s.lines.get k) ++ [⟨.host c.host, .segmentEnded k e.seg.label .fault⟩],
            [⟨.permittedOn k, .lineFault k ((s.lines.get k).faultCount + 1)⟩]⟩))
      ∧ ((s.lines.get k).faultCount = 3 → (∀ d ∈ cs, d.state = .waiting) →
        exec (.readbackFault k) s =
          .next (s.updateLine k ⟨{ (s.lines.get k).clearRun with
              faultCount := 4, engine := .retired, guardRemaining := 0, mismatchAtEntry := none, lastEnded := none
              claims := [] },
            lostPosts k c (s.lines.get k) ++ [⟨.host c.host, .segmentEnded k e.seg.label .fault⟩],
            (c :: cs).map (fun d => ⟨.host d.host, .claimEnded k .retired⟩) ++
              [⟨.permittedOn k, .lineFault k 4⟩, ⟨.permittedOn k, .lineRetired k⟩]⟩))))

/-- R137 and R138: the checks of CLEAR_FAULT, and a FAULTED line with no executing claim under supply LOW and under
supply OK with a guard. `FAULT_CLEARED` is the only notice. -/
def Obligations.ClearFaultReturnsTheLine : Prop :=
  ∀ (p : HostNo) (tag line : Byte) (s : State),
    ((s.ports.get p).status = .open ∨ (s.ports.get p).status = .ready ∨ (s.ports.get p).status = .attached) →
    (8 ≤ line.toNat → exec (.clearFault p tag line) s = .next (s.answer p tag ⟨.invalid, []⟩))
    ∧ (∀ k : LineNo, k.val = line.toNat →
      (s.device = .run → permitted s.map p k = false →
        exec (.clearFault p tag line) s = .next (s.answer p tag ⟨.notPermitted, []⟩))
      ∧ ((s.device = .setup ∨ permitted s.map p k = true) →
        ((s.lines.get k).engine ≠ .faulted →
          exec (.clearFault p tag line) s = .next (s.answer p tag ⟨.notFaulted, []⟩))
        ∧ ((s.lines.get k).engine = .faulted →
          (s.supply = .low →
            ∃ t : State, exec (.clearFault p tag line) s = .next (t.answer p tag ⟨.ok, []⟩)
              ∧ t.ports = (s.post ⟨.permittedOn k, .faultCleared k p⟩).ports
              ∧ t.lines.get k = { s.lines.get k with engine := .halted, mismatch := none }
              ∧ (∀ j, j ≠ k → t.lines.get j = s.lines.get j))
          ∧ (s.supply = .ok → 0 < guardUnits s.map k →
            ∃ t : State, exec (.clearFault p tag line) s = .next (t.answer p tag ⟨.ok, []⟩)
              ∧ t.ports = (s.post ⟨.permittedOn k, .faultCleared k p⟩).ports
              ∧ (t.lines.get k).engine = .guard ∧ (t.lines.get k).guardRemaining = guardUnits s.map k * 128
              ∧ (t.lines.get k).lastEnded = none
              ∧ (t.lines.get k).faultCount = (s.lines.get k).faultCount
              ∧ (t.lines.get k).claims.map Claim.host = (s.lines.get k).claims.map Claim.host
              ∧ (∀ j, j ≠ k → t.lines.get j = s.lines.get j)))))

/-! ### The supply watch (R139 to R142) -/

/-- R141, R15: entry to LOW from OK: every engine not FAULTED or RETIRED is HALTED at FLOAT, those two stay; the claims
of a line without an executing claim stay as they are, and a HOLDING head keeps its claim and what is queued behind its
running segment, which ends SUPPLY with its notices; SUPPLY_LOW is posted to every port, its place among the notices of
the lines open (log 3). R139: in LOW the settle timer starts from 0 and is cleared; that SETTLE_TIMER_START restarts a
timer that runs and that a further fall clears it is the model's reading (log 24); in OK neither event of the timer
changes anything. -/
def Obligations.SupplyLowHaltsTheLines : Prop :=
  ∀ s : State,
    (s.supply = .low → exec .supplyFallsLow s = .next { s with settle := none })
    ∧ (s.supply = .ok → ListLaw s →
      ∃ t, exec .supplyFallsLow s = .next t ∧ t.supply = .low ∧ t.settle = none
        ∧ t.device = s.device ∧ t.map = s.map ∧ t.firstSettle = s.firstSettle
        ∧ (∀ k, (t.lines.get k).engine =
              (if (s.lines.get k).engine = .faulted ∨ (s.lines.get k).engine = .retired then (s.lines.get k).engine
              else .halted)
            ∧ (t.lines.get k).faultCount = (s.lines.get k).faultCount
            ∧ (t.lines.get k).arrivals = (s.lines.get k).arrivals
            ∧ ((t.lines.get k).drive (t.ctx k)).level = .float
            ∧ ((s.lines.get k).executing = none → (t.lines.get k).claims = (s.lines.get k).claims)
            ∧ (∀ c cs, (s.lines.get k).claims = c :: cs → c.state = .holding →
                (s.lines.get k).engine ≠ .faulted → (t.lines.get k).claims = { c with
                  queue := if (s.lines.get k).engine = .running then c.queue.tail else c.queue } :: cs))
        ∧ (∃ (posts : List Post) (of : LineNo → List Post),
            posts.Perm (((List.finRange 8).map of).flatten ++ [⟨.all, .supplyLow⟩]) ∧ t.ports = (s.postAll posts).ports
            ∧ ∀ k, ((s.lines.get k).engine = .faulted ∨ (s.lines.get k).engine = .retired
                  ∨ (s.lines.get k).executing = none → of k = [])
              ∧ (∀ c cs, (s.lines.get k).claims = c :: cs → c.state = .holding → (s.lines.get k).engine ≠ .faulted →
                  of k = brokenOffPosts k (s.lines.get k) .supply))
        ∧ (∀ h, (t.ports.get h).status = (s.ports.get h).status ∧ (t.ports.get h).reply = (s.ports.get h).reply
            ∧ (t.ports.get h).preparing = (s.ports.get h).preparing))
    ∧ (s.supply = .low → exec .settleTimerStart s = .next { s with settle := some 0 }
      ∧ exec .settleTimerCleared s = .next { s with settle := none })
    ∧ (s.supply = .ok → exec .settleTimerStart s = .next s ∧ exec .settleTimerCleared s = .next s)

/-- R142: the restore: the watch is OK with its timer clear; a HALTED line with a guard enters GUARD for its guard time
with its claims kept; one without a guard is IDLE where its list is empty, or is taken at once for its head (R13), a
HOLDING head without a notice and a TAKING one with CLAIM_GRANTED, here where its queue is empty or its oldest segment
neither is joined nor is a continuous HOLD with a follower; every other line is as it was, but for a mismatch timer that
runs where nothing is compared, which no run reaches, and the mark of its end there (log 37); SUPPLY_RESTORED is posted to every port, its place among the notices
of the lines open (log 18). -/
def Obligations.SupplyRestoreRunsTheGuards : Prop :=
  ∀ s : State, s.supply = .low → s.firstSettle = false → s.settle ≠ none → ListLaw s →
    ∃ t, exec .supplyRestore s = .next t ∧ t.supply = .ok ∧ t.settle = none ∧ t.device = s.device ∧ t.map = s.map
      ∧ (∀ k, ((s.lines.get k).engine = .halted → 0 < guardUnits s.map k →
            (t.lines.get k).engine = .guard ∧ (t.lines.get k).guardRemaining = guardUnits s.map k * 128
            ∧ (t.lines.get k).lastEnded = none ∧ (t.lines.get k).claims = (s.lines.get k).claims)
          ∧ ((s.lines.get k).engine = .halted → guardUnits s.map k = 0 → (s.lines.get k).claims = [] →
            (t.lines.get k).engine = .idle)
          ∧ (∀ c cs, (s.lines.get k).engine = .halted → guardUnits s.map k = 0 → (s.lines.get k).claims = c :: cs →
            (c.state = .taking ∨ c.state = .holding) → (∀ d ∈ cs, d.state = .waiting) →
            (c.queue = [] → (t.lines.get k).engine = .starved
              ∧ (t.lines.get k).claims = { c with state := .holding, yieldRun := 0 } :: cs)
            ∧ (∀ e rest, c.queue = e :: rest → e.seg.join = false → (e.seg.isContinuousHold = false ∨ rest = []) →
              (t.lines.get k).engine = .running ∧ (t.lines.get k).progress = ⟨e.seg.body.firstPhase, 0, 0⟩
              ∧ (t.lines.get k).lastEnded = none
              ∧ (t.lines.get k).claims = { c with state := .holding, yieldRun := 0 } :: cs))
          ∧ ((s.lines.get k).engine ≠ .halted → (t.lines.get k).engine = (s.lines.get k).engine
            ∧ (t.lines.get k).claims = (s.lines.get k).claims
            ∧ t.lines.get k = { s.lines.get k with
                mismatch :=
                  if checkEnable s.map k = true ∧ ((s.lines.get k).drive (s.ctx k)).checked = true
                      ∧ ((s.lines.get k).drive (s.ctx k)).level ≠ .float then (s.lines.get k).mismatch
                  else none
                faultForestalled := (t.lines.get k).faultForestalled }
            ∧ ((t.lines.get k).mismatch = (s.lines.get k).mismatch →
              (t.lines.get k).faultForestalled = (s.lines.get k).faultForestalled)))
      ∧ (∃ (posts : List Post) (of : LineNo → List Post),
          posts.Perm (((List.finRange 8).map of).flatten ++ [⟨.all, .supplyRestored⟩])
          ∧ t.ports = (s.postAll posts).ports
          ∧ ∀ k, ((s.lines.get k).engine ≠ .halted ∨ 0 < guardUnits s.map k ∨ (s.lines.get k).claims = [] → of k = [])
            ∧ (∀ c cs, (s.lines.get k).engine = .halted → guardUnits s.map k = 0 → (s.lines.get k).claims = c :: cs →
              (c.queue = [] ∨ ∃ e rest, c.queue = e :: rest ∧ e.seg.join = false
                ∧ (e.seg.isContinuousHold = false ∨ rest = [])) →
              (c.state = .taking → of k = [⟨.host c.host, .claimGranted k⟩]) ∧ (c.state = .holding → of k = [])))

/-- R140: the end of the first settle: OK, no notice, every IDLE line drives its safe level, and the barrier is
evaluated where the device is in SETUP. -/
def Obligations.FirstSettleEndDrivesSafeLevels : Prop :=
  ∀ s : State, s.supply = .low → s.firstSettle = true → s.settle ≠ none → s.device = .setup →
    ∃ t, exec .firstSettleEnd s = .next t ∧ t.supply = .ok ∧ t.settle = none ∧ t.firstSettle = false ∧ t.map = s.map
      ∧ (∀ k, (s.lines.get k).engine = .idle →
          (t.lines.get k).engine = .idle
          ∧ (t.lines.get k).drive (t.ctx k) = ⟨safeLevel s.map k, decide (safeLevel s.map k ≠ .float)⟩)
      ∧ (barrierComplete { s with firstSettle := false } = false → t.device = .setup ∧ t.ports = s.ports)
      ∧ (barrierComplete { s with firstSettle := false } = true → t.device = .run)

/-! ### Laws every step keeps -/

/-- The access map keeps its canonical form and its fields their ranges (R144). -/
def Obligations.EveryStepKeepsTheMapLaw : Prop :=
  ∀ s t : State, step s = .next t → MapLaw s → MapLaw t

/-- Every notice queue keeps its law (R118, R121, R124). -/
def Obligations.EveryStepKeepsTheNoticeLaw : Prop :=
  ∀ s t : State, step s = .next t → NoticeLaw s → NoticeLaw t

/-- The device and port states stay in the combinations the barrier allows (R149, R152, R157). -/
def Obligations.EveryStepKeepsTheBarrierLaw : Prop :=
  ∀ s t : State, step s = .next t → BarrierLaw s → BarrierLaw t

/-- A line is RETIRED exactly when its fault count is 4, and no count exceeds 4 (R135). -/
def Obligations.EveryStepKeepsTheFaultLaw : Prop :=
  ∀ s t : State, step s = .next t → FaultLaw s → FaultLaw t

/-- Every claim list and its engine stay in the condition of R4, R69 and R70. -/
def Obligations.EveryStepKeepsTheListLaw : Prop :=
  ∀ s t : State, step s = .next t → ListLaw s → ListLaw t

/-- No host's entries exceed its quota, and the store is empty in SETUP (R105, R117); the barrier and list laws are
premises, and are kept by statements of their own. -/
def Obligations.EveryStepKeepsTheStoreLaw : Prop :=
  ∀ s t : State, step s = .next t → BarrierLaw s → ListLaw s → StoreLaw s → StoreLaw t

/-- The state after reset has every law, drives FLOAT on every line and has ATTN low on every port. -/
def Obligations.ResetHasEveryLaw : Prop :=
  MapLaw State.reset ∧ NoticeLaw State.reset ∧ BarrierLaw State.reset ∧ FaultLaw State.reset ∧ ListLaw State.reset
    ∧ StoreLaw State.reset
    ∧ (∀ k, (State.reset.lines.get k).drive (State.reset.ctx k) = ⟨.float, false⟩)
    ∧ (∀ h, (State.reset.ports.get h).attn = false ∧ (State.reset.ports.get h).reply = [0x10, 0x00, 0x00, 0xA2])
end

