-- ==== Sys2Proof/Laws/State.lean ====
section
/-! SUPPORT. What each update of the state leaves in each field: the collections of lines and ports, a port replaced,
a reply fixed, notices posted, an event on a line or on every line. All are for rewriting from left to right. -/

namespace Sys2Proof.Machine

/-! ### Collections -/

@[simp] theorem PerLine.get_ofFn {α : Type} (f : LineNo → α) (k : LineNo) : (PerLine.ofFn f).get k = f k := by
  fin_cases k <;> rfl

@[simp] theorem PerPort.get_ofFn {α : Type} (f : HostNo → α) (p : HostNo) : (PerPort.ofFn f).get p = f p := by
  fin_cases p <;> rfl

theorem PerLine.get_set {α : Type} (v : PerLine α) (k j : LineNo) (x : α) :
    (v.set k x).get j = if j = k then x else v.get j := by simp [PerLine.set]

@[simp] theorem PerLine.get_set_self {α : Type} (v : PerLine α) (k : LineNo) (x : α) : (v.set k x).get k = x := by
  simp [PerLine.set]

theorem PerLine.get_set_ne {α : Type} (v : PerLine α) {k j : LineNo} (x : α) (h : j ≠ k) :
    (v.set k x).get j = v.get j := by simp [PerLine.set, h]

theorem PerPort.get_set {α : Type} (v : PerPort α) (p q : HostNo) (x : α) :
    (v.set p x).get q = if q = p then x else v.get q := by simp [PerPort.set]

@[simp] theorem PerPort.get_set_self {α : Type} (v : PerPort α) (p : HostNo) (x : α) : (v.set p x).get p = x := by
  simp [PerPort.set]

theorem PerPort.get_set_ne {α : Type} (v : PerPort α) {p q : HostNo} (x : α) (h : q ≠ p) :
    (v.set p x).get q = v.get q := by simp [PerPort.set, h]

theorem PerLine.ext_get {α : Type} {v w : PerLine α} (h : ∀ k, v.get k = w.get k) : v = w := by
  cases v; cases w
  have h0 := h 0; have h1 := h 1; have h2 := h 2; have h3 := h 3
  have h4 := h 4; have h5 := h 5; have h6 := h 6; have h7 := h 7
  simp only [PerLine.get] at h0 h1 h2 h3 h4 h5 h6 h7
  simp only [h0, h1, h2, h3, h4, h5, h6, h7]

theorem PerPort.ext_get {α : Type} {v w : PerPort α} (h : ∀ p, v.get p = w.get p) : v = w := by
  cases v; cases w
  have h0 := h 0; have h1 := h 1; have h2 := h 2; have h3 := h 3
  simp only [PerPort.get] at h0 h1 h2 h3
  simp only [h0, h1, h2, h3]

@[simp] theorem PerLine.set_get {α : Type} (v : PerLine α) (k : LineNo) : v.set k (v.get k) = v :=
  PerLine.ext_get fun j => by rw [PerLine.get_set]; split <;> simp_all

@[simp] theorem PerPort.set_get {α : Type} (v : PerPort α) (p : HostNo) : v.set p (v.get p) = v :=
  PerPort.ext_get fun q => by rw [PerPort.get_set]; split <;> simp_all

theorem PerLine.set_set {α : Type} (v : PerLine α) (k : LineNo) (x y : α) : (v.set k x).set k y = v.set k y :=
  PerLine.ext_get fun j => by simp only [PerLine.get_set]; split <;> rfl

theorem PerPort.set_set {α : Type} (v : PerPort α) (p : HostNo) (x y : α) : (v.set p x).set p y = v.set p y :=
  PerPort.ext_get fun q => by simp only [PerPort.get_set]; split <;> rfl

theorem PerLine.toList_eq {α : Type} (v : PerLine α) : v.toList = (List.finRange 8).map v.get := rfl

theorem PerPort.toList_eq {α : Type} (v : PerPort α) : v.toList = (List.finRange 4).map v.get := rfl

theorem PerLine.mem_toList {α : Type} {v : PerLine α} {x : α} : x ∈ v.toList ↔ ∃ k, v.get k = x := by
  simp [PerLine.toList_eq]

theorem PerPort.mem_toList {α : Type} {v : PerPort α} {x : α} : x ∈ v.toList ↔ ∃ p, v.get p = x := by
  simp [PerPort.toList_eq]

/-! ### A port replaced -/

section setPort
variable (s : State) (p : HostNo) (P : Port)

@[simp] theorem State.setPort_device : (s.setPort p P).device = s.device := rfl
@[simp] theorem State.setPort_supply : (s.setPort p P).supply = s.supply := rfl
@[simp] theorem State.setPort_firstSettle : (s.setPort p P).firstSettle = s.firstSettle := rfl
@[simp] theorem State.setPort_settle : (s.setPort p P).settle = s.settle := rfl
@[simp] theorem State.setPort_map : (s.setPort p P).map = s.map := rfl
@[simp] theorem State.setPort_lines : (s.setPort p P).lines = s.lines := rfl
@[simp] theorem State.setPort_orderCount : (s.setPort p P).orderCount = s.orderCount := rfl
@[simp] theorem State.setPort_pending : (s.setPort p P).pending = s.pending := rfl
@[simp] theorem State.setPort_ports_self : (s.setPort p P).ports.get p = P := by simp [State.setPort]
theorem State.setPort_ports (q : HostNo) : (s.setPort p P).ports.get q = if q = p then P else s.ports.get q := by
  simp [State.setPort, PerPort.get_set]
theorem State.setPort_ports_ne {q : HostNo} (h : q ≠ p) : (s.setPort p P).ports.get q = s.ports.get q := by
  simp [State.setPort_ports, h]
@[simp] theorem State.setPort_ctx (k : LineNo) : (s.setPort p P).ctx k = s.ctx k := rfl
@[simp] theorem State.setPort_self : s.setPort p (s.ports.get p) = s := by simp [State.setPort]
@[simp] theorem State.setPort_setPort (Q : Port) : (s.setPort p P).setPort p Q = s.setPort p Q := by
  simp [State.setPort, PerPort.set_set]
@[simp] theorem State.setPort_inUse (h : HostNo) : (s.setPort p P).inUse h = s.inUse h := rfl

end setPort

/-! ### A reply fixed (R164, R168) -/

section answer
variable (s : State) (p : HostNo) (tag : Byte) (r : Reply)

@[simp] theorem State.answer_device : (s.answer p tag r).device = s.device := rfl
@[simp] theorem State.answer_supply : (s.answer p tag r).supply = s.supply := rfl
@[simp] theorem State.answer_firstSettle : (s.answer p tag r).firstSettle = s.firstSettle := rfl
@[simp] theorem State.answer_settle : (s.answer p tag r).settle = s.settle := rfl
@[simp] theorem State.answer_map : (s.answer p tag r).map = s.map := rfl
@[simp] theorem State.answer_lines : (s.answer p tag r).lines = s.lines := rfl
@[simp] theorem State.answer_orderCount : (s.answer p tag r).orderCount = s.orderCount := rfl
@[simp] theorem State.answer_pending : (s.answer p tag r).pending = s.pending := rfl
@[simp] theorem State.answer_ctx (k : LineNo) : (s.answer p tag r).ctx k = s.ctx k := rfl
theorem State.answer_ports (q : HostNo) : (s.answer p tag r).ports.get q =
    if q = p then (s.ports.get p).prepare (r.frame tag) else s.ports.get q := by
  simp [State.answer, State.setPort_ports]
@[simp] theorem State.answer_status (q : HostNo) :
    ((s.answer p tag r).ports.get q).status = (s.ports.get q).status := by
  rw [State.answer_ports]; split <;> simp_all [Port.prepare]
@[simp] theorem State.answer_vote (q : HostNo) : ((s.answer p tag r).ports.get q).vote = (s.ports.get q).vote := by
  rw [State.answer_ports]; split <;> simp_all [Port.prepare]
@[simp] theorem State.answer_notices (q : HostNo) :
    ((s.answer p tag r).ports.get q).notices = (s.ports.get q).notices := by
  rw [State.answer_ports]; split <;> simp_all [Port.prepare]
@[simp] theorem State.answer_nextSeq (q : HostNo) :
    ((s.answer p tag r).ports.get q).nextSeq = (s.ports.get q).nextSeq := by
  rw [State.answer_ports]; split <;> simp_all [Port.prepare]
@[simp] theorem State.answer_inUse (h : HostNo) : (s.answer p tag r).inUse h = s.inUse h := rfl

end answer

/-! ### Notices posted (R120 to R122) -/

/-- A posting changes nothing of a port but its queue and the next sequence number. -/
theorem Port.post_sameButNotices (P : Port) (b : NoticeBody) : P.SameButNotices (P.post b) := by
  simp only [Port.SameButNotices, Port.post, Port.enqueue, Port.append]
  split
  · split
    · rfl
    · split <;> rfl
  · rfl

theorem Port.SameButNotices.refl (P : Port) : P.SameButNotices P := rfl

theorem Port.SameButNotices.trans {P Q R : Port} (h1 : P.SameButNotices Q) (h2 : Q.SameButNotices R) :
    P.SameButNotices R := by
  simp only [Port.SameButNotices] at *
  rw [h2, h1]

theorem Port.SameButNotices.status {P Q : Port} (h : P.SameButNotices Q) : Q.status = P.status := by rw [h]
theorem Port.SameButNotices.vote {P Q : Port} (h : P.SameButNotices Q) : Q.vote = P.vote := by rw [h]

section post
variable (s : State) (n : Post) (ns : List Post)

@[simp] theorem State.post_device : (s.post n).device = s.device := rfl
@[simp] theorem State.post_supply : (s.post n).supply = s.supply := rfl
@[simp] theorem State.post_firstSettle : (s.post n).firstSettle = s.firstSettle := rfl
@[simp] theorem State.post_settle : (s.post n).settle = s.settle := rfl
@[simp] theorem State.post_map : (s.post n).map = s.map := rfl
@[simp] theorem State.post_lines : (s.post n).lines = s.lines := rfl
@[simp] theorem State.post_orderCount : (s.post n).orderCount = s.orderCount := rfl
@[simp] theorem State.post_pending : (s.post n).pending = s.pending := rfl
theorem State.post_ports (h : HostNo) : (s.post n).ports.get h =
    if n.dest.includes s h = true then (s.ports.get h).post n.body else s.ports.get h := by simp [State.post]

theorem State.post_ports_same (h : HostNo) : (s.ports.get h).SameButNotices ((s.post n).ports.get h) := by
  rw [State.post_ports]; split
  · exact Port.post_sameButNotices _ _
  · exact .refl _

theorem State.postAll_cons : s.postAll (n :: ns) = (s.post n).postAll ns := rfl
@[simp] theorem State.postAll_nil : s.postAll [] = s := rfl
theorem State.postAll_append (ms : List Post) : s.postAll (ns ++ ms) = (s.postAll ns).postAll ms := by
  simp [State.postAll]

/-- Whatever a single posting keeps, a run of them keeps. -/
theorem State.postAll_induct {motive : State → Prop} (h : ∀ s n, motive s → motive (s.post n)) :
    ∀ (ns : List Post) (s : State), motive s → motive (s.postAll ns)
  | [], _, hs => hs
  | n :: ns, s, hs => State.postAll_induct h ns (s.post n) (h s n hs)

/-- A run of postings is the state with other ports; each port differs in its notices only. -/
theorem State.postAll_eq : ∀ (ns : List Post) (s : State), s.postAll ns = { s with ports := (s.postAll ns).ports }
  | [], _ => rfl
  | n :: ns, s => by rw [State.postAll_cons, State.postAll_eq ns (s.post n)]; rfl

theorem State.postAll_ports_same : ∀ (ns : List Post) (s : State) (h : HostNo),
    (s.ports.get h).SameButNotices ((s.postAll ns).ports.get h)
  | [], _, _ => .refl _
  | n :: ns, s, h => by
    rw [State.postAll_cons]
    exact (State.post_ports_same s n h).trans (State.postAll_ports_same ns (s.post n) h)

@[simp] theorem State.postAll_device : (s.postAll ns).device = s.device := by rw [State.postAll_eq]
@[simp] theorem State.postAll_supply : (s.postAll ns).supply = s.supply := by rw [State.postAll_eq]
@[simp] theorem State.postAll_firstSettle : (s.postAll ns).firstSettle = s.firstSettle := by rw [State.postAll_eq]
@[simp] theorem State.postAll_settle : (s.postAll ns).settle = s.settle := by rw [State.postAll_eq]
@[simp] theorem State.postAll_map : (s.postAll ns).map = s.map := by rw [State.postAll_eq]
@[simp] theorem State.postAll_lines : (s.postAll ns).lines = s.lines := by rw [State.postAll_eq]
@[simp] theorem State.postAll_orderCount : (s.postAll ns).orderCount = s.orderCount := by rw [State.postAll_eq]
@[simp] theorem State.postAll_pending : (s.postAll ns).pending = s.pending := by rw [State.postAll_eq]

/-- What a posting does to the ports depends on the ports, the device state and the map alone. -/
theorem State.post_ports_congr {s t : State} (hp : s.ports = t.ports) (hd : s.device = t.device) (hm : s.map = t.map)
    (n : Post) : (s.post n).ports = (t.post n).ports := by
  have hi : ∀ h, n.dest.includes s h = n.dest.includes t h := fun h => by
    cases n.dest <;> simp only [Recipients.includes, hp, hd, hm]
  simp only [State.post, hp, hi]

theorem State.postAll_ports_congr : ∀ (ns : List Post) {s t : State}, s.ports = t.ports → s.device = t.device →
    s.map = t.map → (s.postAll ns).ports = (t.postAll ns).ports
  | [], _, _, hp, _, _ => hp
  | n :: ns, _, _, hp, hd, hm => State.postAll_ports_congr ns (State.post_ports_congr hp hd hm n) hd hm

variable (runs : List (List Post))

@[simp] theorem State.postMerged_device : (s.postMerged runs).device = s.device := by simp [State.postMerged]
@[simp] theorem State.postMerged_supply : (s.postMerged runs).supply = s.supply := by simp [State.postMerged]
@[simp] theorem State.postMerged_firstSettle : (s.postMerged runs).firstSettle = s.firstSettle := by
  simp [State.postMerged]
@[simp] theorem State.postMerged_settle : (s.postMerged runs).settle = s.settle := by simp [State.postMerged]
@[simp] theorem State.postMerged_map : (s.postMerged runs).map = s.map := by simp [State.postMerged]
@[simp] theorem State.postMerged_lines : (s.postMerged runs).lines = s.lines := by simp [State.postMerged]
@[simp] theorem State.postMerged_orderCount : (s.postMerged runs).orderCount = s.orderCount + 1 := rfl
@[simp] theorem State.postMerged_pending : (s.postMerged runs).pending = s.pending := by simp [State.postMerged]

theorem State.postMerged_ports_same (h : HostNo) : (s.ports.get h).SameButNotices ((s.postMerged runs).ports.get h) := by
  simpa [State.postMerged] using State.postAll_ports_same _ s h

end post

/-! ### An event on one line (R3, R8) -/

section updateLine
variable (s : State) (k : LineNo) (o : LineOut)

@[simp] theorem State.updateLine_device : (s.updateLine k o).device = s.device := by simp [State.updateLine]
@[simp] theorem State.updateLine_supply : (s.updateLine k o).supply = s.supply := by simp [State.updateLine]
@[simp] theorem State.updateLine_firstSettle : (s.updateLine k o).firstSettle = s.firstSettle := by
  simp [State.updateLine]
@[simp] theorem State.updateLine_settle : (s.updateLine k o).settle = s.settle := by simp [State.updateLine]
@[simp] theorem State.updateLine_map : (s.updateLine k o).map = s.map := by simp [State.updateLine]
@[simp] theorem State.updateLine_orderCount : (s.updateLine k o).orderCount = s.orderCount := by
  simp [State.updateLine]
@[simp] theorem State.updateLine_pending : (s.updateLine k o).pending = s.pending := by simp [State.updateLine]
theorem State.updateLine_lines : (s.updateLine k o).lines =
    s.lines.set k (remonitor (s.ctx k) (s.lines.get k) (s.ctx k) o.line) := by simp [State.updateLine]
theorem State.updateLine_ports_same (h : HostNo) : (s.ports.get h).SameButNotices ((s.updateLine k o).ports.get h) := by
  simpa [State.updateLine] using State.postAll_ports_same _ _ h

/-- A timer has reached a window where it runs and has counted 8 reference clocks for each microsecond of it (R133). -/
theorem timerReached_iff {window : Nat} {timer : Option Nat} :
    timerReached window timer = true ↔ ∃ n, timer = some n ∧ window * 8 ≤ n := by
  cases timer with
  | none => simp [timerReached]
  | some t =>
    constructor
    · exact fun h => ⟨t, rfl, of_decide_eq_true h⟩
    · rintro ⟨n, hn, h⟩
      cases hn
      exact decide_eq_true h

@[simp] theorem remonitor_claims (c0 c1 : LineCtx) (L0 L1 : LineState) :
    (remonitor c0 L0 c1 L1).claims = L1.claims := rfl
@[simp] theorem remonitor_engine (c0 c1 : LineCtx) (L0 L1 : LineState) :
    (remonitor c0 L0 c1 L1).engine = L1.engine := rfl
@[simp] theorem remonitor_arrivals (c0 c1 : LineCtx) (L0 L1 : LineState) :
    (remonitor c0 L0 c1 L1).arrivals = L1.arrivals := rfl
@[simp] theorem remonitor_pad (c0 c1 : LineCtx) (L0 L1 : LineState) : (remonitor c0 L0 c1 L1).pad = L1.pad := rfl
@[simp] theorem remonitor_faultCount (c0 c1 : LineCtx) (L0 L1 : LineState) :
    (remonitor c0 L0 c1 L1).faultCount = L1.faultCount := rfl
@[simp] theorem remonitor_mismatch (c0 c1 : LineCtx) (L0 L1 : LineState) :
    (remonitor c0 L0 c1 L1).mismatch = timerAfter c0 L0 c1 L1 := rfl

/-- What the monitor is told changes nothing of a line but its mismatch timer and whether a fault can still follow. -/
theorem remonitor_eq (c0 c1 : LineCtx) (L0 L1 : LineState) :
    remonitor c0 L0 c1 L1 = { L1 with
      mismatch := timerAfter c0 L0 c1 L1, faultForestalled := (remonitor c0 L0 c1 L1).faultForestalled } := rfl

/-- A mark of this instant stays whatever the event. -/
theorem LineState.forestall_stays {w0 w1 : Nat} {L0 L1 : LineState} (h : L1.faultForestalled = true) :
    (LineState.forestall w0 L0 w1 L1).faultForestalled = true := by simp [LineState.forestall, h]

/-- An event marks nothing where no fault was due before it. -/
theorem LineState.forestall_of_not_due {w0 w1 : Nat} {L0 L1 : LineState} (h : faultDue w0 L0 = false) :
    LineState.forestall w0 L0 w1 L1 = L1 := by simp [LineState.forestall, h]

/-- An event that takes the timer back from its window, other than by the fault, marks the line: no fault of this instant
follows. -/
theorem LineState.forestall_marks {w0 w1 : Nat} {L0 L1 : LineState} (h : faultDue w0 L0 = true)
    (h1 : faultDue w1 L1 = false) (hf : L1.engine ≠ .faulted) (hr : L1.engine ≠ .retired) :
    (LineState.forestall w0 L0 w1 L1).faultForestalled = true := by simp [LineState.forestall, h, h1, hf, hr]

end updateLine

/-! ### An event on every line -/

section updateLines
variable (s : State) (f : LineNo → LineOut) (extra : List (List Post))

@[simp] theorem State.updateLines_device : (s.updateLines f extra).device = s.device := by simp [State.updateLines]
@[simp] theorem State.updateLines_supply : (s.updateLines f extra).supply = s.supply := by simp [State.updateLines]
@[simp] theorem State.updateLines_firstSettle : (s.updateLines f extra).firstSettle = s.firstSettle := by
  simp [State.updateLines]
@[simp] theorem State.updateLines_settle : (s.updateLines f extra).settle = s.settle := by simp [State.updateLines]
@[simp] theorem State.updateLines_map : (s.updateLines f extra).map = s.map := by simp [State.updateLines]
@[simp] theorem State.updateLines_pending : (s.updateLines f extra).pending = s.pending := by
  simp [State.updateLines]
@[simp] theorem State.updateLines_lines (k : LineNo) : (s.updateLines f extra).lines.get k =
    remonitor (s.ctx k) (s.lines.get k) (s.ctx k) (f k).line := by simp [State.updateLines]
theorem State.updateLines_ports_same (h : HostNo) :
    (s.ports.get h).SameButNotices ((s.updateLines f extra).ports.get h) := by
  simpa [State.updateLines] using State.postMerged_ports_same _ _ h

end updateLines

/-! ### A lease restarted (R95, R96), and one reference clock -/

section restartLease
variable (c : Claim)

@[simp] theorem Claim.restartLease_host : c.restartLease.host = c.host := rfl
@[simp] theorem Claim.restartLease_priority : c.restartLease.priority = c.priority := rfl
@[simp] theorem Claim.restartLease_state : c.restartLease.state = c.state := rfl
@[simp] theorem Claim.restartLease_queue : c.restartLease.queue = c.queue := rfl
@[simp] theorem Claim.restartLease_leaseValue : c.restartLease.leaseValue = c.leaseValue := rfl
@[simp] theorem Claim.restartLease_leaseElapsed : c.restartLease.leaseElapsed = 0 := rfl
@[simp] theorem Claim.restartLease_forestalled : c.restartLease.forestalled = (c.forestalled || c.leaseOver) := rfl

end restartLease

section elapse
variable (s : State)

@[simp] theorem State.elapse_device : s.elapse.device = s.device := rfl
@[simp] theorem State.elapse_supply : s.elapse.supply = s.supply := rfl
@[simp] theorem State.elapse_firstSettle : s.elapse.firstSettle = s.firstSettle := rfl
@[simp] theorem State.elapse_map : s.elapse.map = s.map := rfl
@[simp] theorem State.elapse_orderCount : s.elapse.orderCount = s.orderCount := rfl
@[simp] theorem State.elapse_pending : s.elapse.pending = s.pending := rfl
@[simp] theorem State.elapse_lines (k : LineNo) : s.elapse.lines.get k = (s.lines.get k).elapse (s.ctx k) := by
  simp [State.elapse]
@[simp] theorem State.elapse_ports (h : HostNo) : s.elapse.ports.get h = (s.ports.get h).elapse := by
  simp [State.elapse]

end elapse

/-! ### A fault carried from an entry to SETUP through a write (R133, Table 9-1) -/

section carryEntryFault
variable (c0 c1 : LineCtx) (L : LineState)

@[simp] theorem LineState.carryEntryFault_engine : (L.carryEntryFault c0 c1).engine = L.engine := rfl
@[simp] theorem LineState.carryEntryFault_claims : (L.carryEntryFault c0 c1).claims = L.claims := rfl
@[simp] theorem LineState.carryEntryFault_arrivals : (L.carryEntryFault c0 c1).arrivals = L.arrivals := rfl
@[simp] theorem LineState.carryEntryFault_faultCount : (L.carryEntryFault c0 c1).faultCount = L.faultCount := rfl
@[simp] theorem LineState.carryEntryFault_mismatch : (L.carryEntryFault c0 c1).mismatch = L.mismatch := rfl
@[simp] theorem LineState.carryEntryFault_pad : (L.carryEntryFault c0 c1).pad = L.pad := rfl

/-- A write brings no carried fault about that was not carried before. -/
theorem LineState.carryEntryFault_mismatchAtEntry :
    (L.carryEntryFault c0 c1).mismatchAtEntry = none
      ∨ (L.carryEntryFault c0 c1).mismatchAtEntry = L.mismatchAtEntry := by
  simp only [LineState.carryEntryFault]; split
  · exact Or.inr rfl
  · exact Or.inl rfl

end carryEntryFault

/-- An entry to SETUP carries a fault only where the timer had reached the window in force at it: whatever window of at
least 1 µs is read later, a fault due behind the entry was due at it. -/
theorem setupLine_carries_reached {ctx : LineCtx} {L : LineState} {window n : Nat} (hw : 1 ≤ window)
    (hn : (setupLine ctx L).line.mismatchAtEntry = some n) (hd : window * Config.clocksPerUs ≤ n) :
    L.mismatch = some n ∧ ctx.window * Config.clocksPerUs ≤ n := by
  have hn' : (if L.faultForestalled then none
      else L.mismatch.map fun t => if timerReached ctx.window (some t) then t else 0) = some n := hn
  split at hn'
  · simp at hn'
  · cases hm : L.mismatch with
    | none => simp [hm] at hn'
    | some t =>
      simp only [hm, Option.map_some, Option.some.injEq] at hn'
      by_cases hc : ctx.window * Config.clocksPerUs ≤ t
      · rw [if_pos (by simpa [timerReached] using hc)] at hn'; subst hn'; exact ⟨rfl, hc⟩
      · rw [if_neg (by simpa [timerReached] using hc)] at hn'
        simp only [Config.clocksPerUs] at hd
        omega

/-! ### A select with a reply in preparation (R163, R168) -/

section replyBecomesReady
variable (P : Port)

theorem Port.replyBecomesReady_of_preparing {P : Port} {frame : List Byte} (h : P.preparing = some frame) :
    P.replyBecomesReady = { P with reply := frame, replyReady := true, preparing := none, preparingClocks := 0 } := by
  simp [Port.replyBecomesReady, h]

theorem Port.replyBecomesReady_of_none {P : Port} (h : P.preparing = none) : P.replyBecomesReady = P := by
  simp [Port.replyBecomesReady, h]

theorem Port.replyAtLatest_of_waited {P : Port} (h : Config.replyClocks ≤ P.preparingClocks) :
    P.replyAtLatest = P.replyBecomesReady := by simp [Port.replyAtLatest, h]

theorem Port.replyAtLatest_of_early {P : Port} (h : P.preparingClocks < Config.replyClocks) :
    P.replyAtLatest = P := by simp [Port.replyAtLatest, Nat.not_le.mpr h]

@[simp] theorem Port.replyBecomesReady_status : P.replyBecomesReady.status = P.status := by
  unfold Port.replyBecomesReady; split <;> rfl
@[simp] theorem Port.replyBecomesReady_vote : P.replyBecomesReady.vote = P.vote := by
  unfold Port.replyBecomesReady; split <;> rfl
@[simp] theorem Port.replyBecomesReady_notices : P.replyBecomesReady.notices = P.notices := by
  unfold Port.replyBecomesReady; split <;> rfl
@[simp] theorem Port.replyBecomesReady_nextSeq : P.replyBecomesReady.nextSeq = P.nextSeq := by
  unfold Port.replyBecomesReady; split <;> rfl
@[simp] theorem Port.replyAtLatest_status : P.replyAtLatest.status = P.status := by
  unfold Port.replyAtLatest; split <;> simp
@[simp] theorem Port.replyAtLatest_vote : P.replyAtLatest.vote = P.vote := by
  unfold Port.replyAtLatest; split <;> simp
@[simp] theorem Port.replyAtLatest_notices : P.replyAtLatest.notices = P.notices := by
  unfold Port.replyAtLatest; split <;> simp
@[simp] theorem Port.replyAtLatest_nextSeq : P.replyAtLatest.nextSeq = P.nextSeq := by
  unfold Port.replyAtLatest; split <;> simp
@[simp] theorem Port.select_status : P.select.status = P.status := by unfold Port.select; split <;> simp
@[simp] theorem Port.select_vote : P.select.vote = P.vote := by unfold Port.select; split <;> simp
@[simp] theorem Port.select_notices : P.select.notices = P.notices := by unfold Port.select; split <;> simp
@[simp] theorem Port.select_nextSeq : P.select.nextSeq = P.nextSeq := by unfold Port.select; split <;> simp

end replyBecomesReady

/-! ### What a port drives (R162) -/

theorem Port.outByte_of_transaction {n : Nat} {P : Port} {f : List Byte} (hs : P.status ≠ .absent)
    (hn : P.selnLow = true) (hf : P.outFrame = some f) (i : Nat) : P.outByte n i = some (f.getD i 0x00) := by
  simp [Port.outByte, hs, hn, hf]

theorem Port.outByte_of_idle {n : Nat} {P : Port} (h : P.status = .absent ∨ P.selnLow = false) (i : Nat) :
    P.outByte n i = none := by simp [Port.outByte, h]

end Sys2Proof.Machine
end

