-- ==== Sys2Proof/Laws/Claims.lean ====
section
/-! SUPPORT. What the operations on a claim list keep: the hosts and priorities of the claims that stay, the entries in
use, the states R70 allows, and which claim executes. -/

namespace Sys2Proof.Machine

/-! ### Claims that stay -/

/-- `d` is the claim `c` later: same host and priority, no more entries. -/
def Claim.Within (d c : Claim) : Prop :=
  d.host = c.host ∧ d.priority = c.priority ∧ d.queue.length ≤ c.queue.length

theorem Claim.Within.refl (c : Claim) : c.Within c := ⟨rfl, rfl, le_refl _⟩

theorem Claim.Within.trans {a b c : Claim} (h1 : a.Within b) (h2 : b.Within c) : a.Within c :=
  ⟨h1.1.trans h2.1, h1.2.1.trans h2.2.1, le_trans h1.2.2 h2.2.2⟩

/-- The claims of `ds` are claims of `cs` later, in the same order; the others have left. -/
abbrev ClaimsWithin (ds cs : List Claim) : Prop := List.SublistForall₂ Claim.Within ds cs

theorem ClaimsWithin.refl : ∀ cs : List Claim, ClaimsWithin cs cs
  | [] => .nil
  | c :: cs => .cons (Claim.Within.refl c) (ClaimsWithin.refl cs)

theorem ClaimsWithin.nil_left (cs : List Claim) : ClaimsWithin [] cs := .nil

theorem ClaimsWithin.trans {as bs cs : List Claim} (h1 : ClaimsWithin as bs) (h2 : ClaimsWithin bs cs) :
    ClaimsWithin as cs := by
  induction h2 generalizing as with
  | nil => cases h1; exact .nil
  | cons hr _ ih =>
    cases h1 with
    | nil => exact .nil
    | cons hq h => exact .cons (hq.trans hr) (ih h)
    | cons_right h => exact .cons_right (ih h)
  | cons_right _ ih => exact .cons_right (ih h1)

/-- A list changed claim by claim. -/
theorem ClaimsWithin.map {f : Claim → Claim} : ∀ {cs : List Claim}, (∀ c ∈ cs, (f c).Within c) →
    ClaimsWithin (cs.map f) cs
  | [], _ => .nil
  | c :: _, h => .cons (h c (by simp)) (ClaimsWithin.map fun d hd => h d (by simp [hd]))

theorem ClaimsWithin.filter (p : Claim → Bool) : ∀ cs : List Claim, ClaimsWithin (cs.filter p) cs
  | [] => .nil
  | c :: cs => by
    rw [List.filter_cons]; split
    · exact .cons (.refl c) (ClaimsWithin.filter p cs)
    · exact .cons_right (ClaimsWithin.filter p cs)

theorem ClaimsWithin.tail (c : Claim) (cs : List Claim) : ClaimsWithin cs (c :: cs) := .cons_right (ClaimsWithin.refl cs)

/-- Every claim that stays has its origin. -/
theorem ClaimsWithin.origin {ds cs : List Claim} (h : ClaimsWithin ds cs) : ∀ d ∈ ds, ∃ c ∈ cs, d.Within c := by
  induction h with
  | nil => simp
  | cons hr _ ih =>
    intro d hd
    rcases List.mem_cons.mp hd with rfl | hd
    · exact ⟨_, by simp, hr⟩
    · obtain ⟨c, hc, hw⟩ := ih d hd; exact ⟨c, by simp [hc], hw⟩
  | cons_right _ ih =>
    intro d hd
    obtain ⟨c, hc, hw⟩ := ih d hd; exact ⟨c, by simp [hc], hw⟩

theorem ClaimsWithin.hosts {ds cs : List Claim} (h : ClaimsWithin ds cs) :
    (ds.map Claim.host).Sublist (cs.map Claim.host) := by
  induction h with
  | nil => simp
  | cons hr _ ih => simp only [List.map_cons, hr.1]; exact ih.cons_cons _
  | cons_right _ ih => simp only [List.map_cons]; exact ih.cons _

theorem ClaimsWithin.nodup {ds cs : List Claim} (h : ClaimsWithin ds cs) (hn : (cs.map Claim.host).Nodup) :
    (ds.map Claim.host).Nodup := hn.sublist h.hosts

theorem ClaimsWithin.priorities {ds cs : List Claim} (h : ClaimsWithin ds cs) :
    cs.Pairwise (fun a b => b.priority ≤ a.priority) → ds.Pairwise (fun a b => b.priority ≤ a.priority) := by
  induction h with
  | nil => simp
  | cons hr hs ih =>
    intro hp
    rw [List.pairwise_cons] at hp ⊢
    refine ⟨fun d hd => ?_, ih hp.2⟩
    obtain ⟨c, hc, hw⟩ := ClaimsWithin.origin hs d hd
    have := hp.1 c hc
    have h1 := hw.2.1; have h2 := hr.2.1
    omega
  | cons_right _ ih => intro hp; exact ih (List.pairwise_cons.mp hp).2

/-- The entries of a host in a claim list. -/
def entriesOf (h : HostNo) (cs : List Claim) : Nat := ((cs.filter fun c => c.host == h).map fun c => c.queue.length).sum

theorem LineState.inUse_eq (L : LineState) (h : HostNo) : L.inUse h = entriesOf h L.claims := rfl

theorem entriesOf_cons (h : HostNo) (c : Claim) (cs : List Claim) :
    entriesOf h (c :: cs) = (if c.host = h then c.queue.length else 0) + entriesOf h cs := by
  simp only [entriesOf, List.filter_cons, beq_iff_eq]
  split <;> simp

theorem ClaimsWithin.entries {ds cs : List Claim} (hw : ClaimsWithin ds cs) (h : HostNo) :
    entriesOf h ds ≤ entriesOf h cs := by
  induction hw with
  | nil => simp [entriesOf]
  | cons hr _ ih =>
    rw [entriesOf_cons, entriesOf_cons, hr.1]
    have := hr.2.2
    split <;> omega
  | cons_right _ ih => rw [entriesOf_cons]; omega

/-! ### Changes of a list -/

theorem behindHead_within (c : Claim) : (behindHead c).Within c := by
  unfold behindHead; split <;> exact ⟨rfl, rfl, le_refl _⟩

theorem asHead_within (c : Claim) : (asHead c).Within c := by
  unfold asHead; split <;> exact ⟨rfl, rfl, le_refl _⟩

theorem settle_within : ∀ cs : List Claim, ClaimsWithin (settle cs) cs
  | [] => .nil
  | c :: _ => .cons (asHead_within c) (ClaimsWithin.map fun d _ => behindHead_within d)

theorem removeHost_within (h : HostNo) (cs : List Claim) : ClaimsWithin (removeHost h cs) cs := ClaimsWithin.filter _ cs

theorem mapHost_within {h : HostNo} {f : Claim → Claim} {cs : List Claim}
    (hf : ∀ c ∈ cs, c.host = h → (f c).Within c) : ClaimsWithin (mapHost h f cs) cs :=
  ClaimsWithin.map fun c hc => by
    by_cases hh : c.host = h
    · rw [if_pos hh]; exact hf c hc hh
    · rw [if_neg hh]; exact .refl c

/-! ### Executing claims -/

/-- No claim of a list executes. -/
def NoneExecutes (cs : List Claim) : Prop := ∀ c ∈ cs, c.state.isExecuting = false

/-- The executing claim of a list is of host `h`, if there is one. -/
def OnlyExecutes (h : HostNo) (cs : List Claim) : Prop := ∀ c ∈ cs, c.state.isExecuting = true → c.host = h

@[simp] theorem behindHead_isExecuting (c : Claim) : (behindHead c).state.isExecuting = c.state.isExecuting := by
  unfold behindHead; split <;> simp_all [ClaimState.isExecuting]

@[simp] theorem asHead_isExecuting (c : Claim) : (asHead c).state.isExecuting = c.state.isExecuting := by
  unfold asHead; split <;> simp_all [ClaimState.isExecuting]

theorem asHead_headLike (c : Claim) : (asHead c).state.headLike = true := by
  unfold asHead; split <;> simp_all [ClaimState.headLike]

theorem behindHead_behindLike (c : Claim) : (behindHead c).state.behindLike = true := by
  unfold behindHead; split <;> simp_all [ClaimState.behindLike]

theorem behindHead_of_behindLike {c : Claim} (h : c.state.behindLike = true) : behindHead c = c := by
  unfold behindHead; split <;> simp_all [ClaimState.behindLike]

theorem asHead_of_headLike {c : Claim} (h : c.state.headLike = true) : asHead c = c := by
  unfold asHead; split <;> simp_all [ClaimState.headLike]

/-- A list in the states R70 allows is not changed by settling it. -/
theorem settle_of_claimsLaw : ∀ {cs : List Claim}, ClaimsLaw cs → settle cs = cs
  | [], _ => rfl
  | c :: cs, h => by
    rw [settle, asHead_of_headLike (h.2.2.1 c (by simp))]
    congr 1
    conv_rhs => rw [← List.map_id cs]
    exact List.map_congr_left fun d hd => behindHead_of_behindLike (h.2.2.2.1 d (by simpa using hd))

theorem NoneExecutes.length {cs : List Claim} (h : NoneExecutes cs) :
    (cs.filter fun c => c.state.isExecuting).length ≤ 1 := by
  rw [List.filter_eq_nil_iff.mpr (fun c hc => by simp [h c hc])]; simp

theorem NoneExecutes.settle : ∀ {cs : List Claim}, NoneExecutes cs → NoneExecutes (settle cs)
  | [], _ => by intro c hc; simp [Machine.settle] at hc
  | d :: ds, h => by
    intro c hc
    rw [Machine.settle, List.mem_cons] at hc
    rcases hc with rfl | hc
    · rw [asHead_isExecuting]; exact h d (by simp)
    · obtain ⟨x, hx, rfl⟩ := List.mem_map.mp hc
      rw [behindHead_isExecuting]; exact h x (by simp [hx])

theorem NoneExecutes.executing {L : LineState} (h : NoneExecutes L.claims) : L.executing = none := by
  rw [LineState.executing, List.find?_eq_none]; intro c hc; simp [h c hc]

/-- Settling keeps the number of executing claims. -/
theorem settle_executing_length : ∀ cs : List Claim,
    ((settle cs).filter fun c => c.state.isExecuting).length = (cs.filter fun c => c.state.isExecuting).length
  | [] => rfl
  | c :: cs => by
    have h : ((cs.map behindHead).filter fun c => c.state.isExecuting).length
        = (cs.filter fun c => c.state.isExecuting).length := by
      rw [List.filter_map, List.length_map]; congr 1
      exact List.filter_congr fun d _ => by simp
    rw [settle, List.filter_cons, List.filter_cons, asHead_isExecuting]
    split
    · simp [h]
    · exact h

/-- A settled list keeps the law: one claim of each host, priorities never rising, at most one executing. -/
theorem settle_claimsLaw {cs : List Claim} (hn : (cs.map Claim.host).Nodup)
    (hp : cs.Pairwise (fun a b => b.priority ≤ a.priority))
    (he : (cs.filter fun c => c.state.isExecuting).length ≤ 1) : ClaimsLaw (settle cs) := by
  refine ⟨(settle_within cs).nodup hn, (settle_within cs).priorities hp, ?_, ?_, by rwa [settle_executing_length]⟩
  · cases cs with
    | nil => simp [settle]
    | cons c cs => simp [settle, asHead_headLike]
  · cases cs with
    | nil => simp [settle]
    | cons c cs =>
      intro d hd
      obtain ⟨x, _, rfl⟩ := List.mem_map.mp (by simpa [settle] using hd)
      exact behindHead_behindLike x

theorem claimsLaw_nil : ClaimsLaw [] := by simp [ClaimsLaw]

/-- At most one executing claim, said of two members. -/
theorem executing_unique {cs : List Claim}
    (he : (cs.filter fun c => c.state.isExecuting).length ≤ 1) {c : Claim} (hc : c ∈ cs)
    (hx : c.state.isExecuting = true) : ∀ d ∈ cs, d.state.isExecuting = true → d = c := by
  intro d hd hdx
  have h1 : c ∈ cs.filter fun c => c.state.isExecuting := by simp [hc, hx]
  have h2 : d ∈ cs.filter fun c => c.state.isExecuting := by simp [hd, hdx]
  match hf : cs.filter fun c => c.state.isExecuting with
  | [] => rw [hf] at h1; simp at h1
  | [x] => rw [hf] at h1 h2; simp at h1 h2; rw [h1, h2]
  | x :: y :: zs => rw [hf] at he; simp at he

/-- A member is found by its host. -/
theorem eq_of_host {cs : List Claim} (hn : (cs.map Claim.host).Nodup) {c d : Claim} (hc : c ∈ cs) (hd : d ∈ cs)
    (h : d.host = c.host) : d = c := List.inj_on_of_nodup_map hn hd hc h

theorem LineState.mem_of_executing {L : LineState} {c : Claim} (h : L.executing = some c) :
    c ∈ L.claims ∧ c.state.isExecuting = true := by
  refine ⟨List.mem_of_find?_eq_some h, ?_⟩
  have := List.find?_some h
  simpa using this

/-- The executing claim of a list with at most one is whichever member executes. -/
theorem LineState.executing_of_mem {L : LineState}
    (he : (L.claims.filter fun c => c.state.isExecuting).length ≤ 1) {c : Claim} (hc : c ∈ L.claims)
    (hx : c.state.isExecuting = true) : L.executing = some c := by
  cases h : L.executing with
  | none => rw [LineState.executing, List.find?_eq_none] at h; exact absurd hx (by simpa using h c hc)
  | some d =>
    have hd := LineState.mem_of_executing h
    rw [executing_unique he hc hx d hd.1 hd.2]

/-- The claim of a host where one of its claims is in the list. -/
theorem LineState.claimOf_of_mem {L : LineState} (hn : (L.claims.map Claim.host).Nodup) {c : Claim}
    (hc : c ∈ L.claims) : L.claimOf c.host = some c := by
  cases h : L.claimOf c.host with
  | none => rw [LineState.claimOf, List.find?_eq_none] at h; have := h c hc; simp at this
  | some d =>
    have hm := List.mem_of_find?_eq_some h
    have hh := List.find?_some h
    rw [eq_of_host hn hc hm (by simpa using hh)]

theorem LineState.claimOf_mem {L : LineState} {h : HostNo} {c : Claim} (hc : L.claimOf h = some c) :
    c ∈ L.claims ∧ c.host = h :=
  ⟨List.mem_of_find?_eq_some hc, by have := List.find?_some hc; simpa using this⟩

theorem LineState.claimOf_eq_none {L : LineState} {h : HostNo} : L.claimOf h = none ↔ ∀ c ∈ L.claims, c.host ≠ h := by
  simp [LineState.claimOf, List.find?_eq_none]

end Sys2Proof.Machine
end

