-- ==== Sys2Proof/Laws/Clock.lean ====
section
/-! SUPPORT. The orders left open are permutations; what is due, and of which kind; what a step on an empty queue does,
stated once for every law it keeps. -/

namespace Sys2Proof.Machine

/-! ### Orders left open (log 3) -/

theorem mergeHead_perm {α : Type} (n : Nat) (x : α) (k : List α → Nat → List α) {xs : List α}
    (hk : ∀ l i, (k l i).Perm (xs ++ l)) : ∀ (l : List α) (i : Nat), (mergeHead n x k l i).Perm (x :: xs ++ l)
  | [], i => by rw [mergeHead]; exact (hk [] i).cons x
  | y :: ys, i => by
    rw [mergeHead]
    split
    · exact (hk _ _).cons x
    · exact ((mergeHead_perm n x k hk ys (i + 1)).cons y).trans List.perm_middle.symm

theorem merge_perm {α : Type} (n : Nat) : ∀ (xs ys : List α) (i : Nat), (merge n xs ys i).Perm (xs ++ ys)
  | [], ys, _ => .refl _
  | x :: xs, ys, i => by rw [merge]; exact mergeHead_perm n x _ (merge_perm n xs) ys i

/-- A merge of several runs is an order of all their elements. -/
theorem mergeAll_perm {α : Type} (n : Nat) : ∀ (runs : List (List α)) (i : Nat), (mergeAll n i runs).Perm runs.flatten
  | [], _ => .refl _
  | run :: runs, i => by
    rw [mergeAll, List.flatten_cons]
    exact (merge_perm n run _ _).trans ((mergeAll_perm n runs (i + 1)).append_left run)

/-- What is posted at one instant is posted in some order of the whole. -/
theorem State.postMerged_ports_perm (s : State) (runs : List (List Post)) :
    ∃ posts : List Post, posts.Perm runs.flatten ∧ (s.postMerged runs).ports = (s.postAll posts).ports :=
  ⟨_, mergeAll_perm s.orderCount runs 0, rfl⟩

/-! ### What is due -/

theorem mem_dueEvents {s : State} {i : Instr} :
    i ∈ dueEvents s ↔ (∃ k, i ∈ lineDue s k) ∨ i ∈ supplyDue s ∨ ∃ p, i ∈ portDue s p := by
  simp only [dueEvents, List.mem_flatten, List.mem_append, PerLine.mem_toList, PerPort.mem_toList, PerLine.get_ofFn,
    PerPort.get_ofFn, List.mem_singleton]
  constructor
  · rintro ⟨_, (⟨k, rfl⟩ | rfl) | ⟨p, rfl⟩, h⟩
    · exact .inl ⟨k, h⟩
    · exact .inr (.inl h)
    · exact .inr (.inr ⟨p, h⟩)
  · rintro (⟨k, h⟩ | h | ⟨p, h⟩)
    · exact ⟨_, .inl (.inl ⟨k, rfl⟩), h⟩
    · exact ⟨_, .inl (.inr rfl), h⟩
    · exact ⟨_, .inr ⟨p, rfl⟩, h⟩

theorem mem_supplyDue {s : State} {i : Instr} (h : i ∈ supplyDue s) : i = .firstSettleEnd ∨ i = .supplyRestore := by
  unfold supplyDue at h
  split at h
  · simp at h
  · split at h
    · rw [List.mem_singleton] at h
      split at h
      · exact .inl h
      · exact .inr h
    · simp at h

theorem mem_portDue {s : State} {p : HostNo} {i : Instr} (h : i ∈ portDue s p) : i = .replyReady p := by
  simp only [portDue] at h
  split at h
  · exact List.mem_singleton.mp h
  · simp at h

/-- The events that end a phase or element. -/
theorem LineState.boundary_kind {L : LineState} {k : LineNo} {i : Instr} {n : Nat} (h : L.boundary k = some (i, n)) :
    i ∈ [.holdEnd k, .pulsePhaseEnd k, .pulseCycleEnd k, .carrierElementEnd k, .senseRelease k, .senseLimitReached k] := by
  unfold LineState.boundary at h
  split at h
  · simp at h
  · split at h <;> (try split at h) <;> simp_all

/-- What is due on a line is a timed event of that line. -/
theorem mem_lineDue {s : State} {k : LineNo} {i : Instr} (h : i ∈ lineDue s k) :
    i ∈ [.holdEnd k, .pulsePhaseEnd k, .pulseCycleEnd k, .carrierElementEnd k, .senseRelease k, .senseLimitReached k]
      ∨ i = .carrierPartChange k ∨ i = .sensePadHigh k ∨ i = .guardEnd k ∨ i = .readbackFault k ∨ ∃ h, i = .leaseExpiry k h := by
  simp only [lineDue, List.mem_append] at h
  rcases h with ((((h | h) | h) | h) | h) | h
  · split at h
    · rename_i hb
      split at h
      · rw [List.mem_singleton.mp h]; exact .inl (LineState.boundary_kind hb)
      · simp at h
    · simp at h
  · split at h
    · exact .inr (.inl (List.mem_singleton.mp h))
    · simp at h
  · split at h
    · exact .inr (.inr (.inl (List.mem_singleton.mp h)))
    · simp at h
  · split at h
    · exact .inr (.inr (.inr (.inl (List.mem_singleton.mp h))))
    · simp at h
  · split at h
    · exact .inr (.inr (.inr (.inr (.inl (List.mem_singleton.mp h)))))
    · simp at h
  · obtain ⟨c, _, rfl⟩ := List.mem_map.mp h
    exact .inr (.inr (.inr (.inr (.inr ⟨c.host, rfl⟩))))

/-! ### The carrier generator (R44) -/

theorem CarrierGen.partEnd_le (gen : CarrierGen) : gen.partEnd ≤ gen.period := by
  unfold CarrierGen.partEnd; split <;> omega

theorem CarrierGen.position_lt_partEnd {gen : CarrierGen} (h : gen.position < gen.period) :
    gen.position < gen.partEnd := by unfold CarrierGen.partEnd; split <;> omega

/-- One reference clock advances the generator by one position modulo the period, and what it ends is a part. -/
theorem CarrierGen.elapse_spec {gen : CarrierGen} (hr : gen.running = true) (hb : gen.atBoundary = false)
    (hp : gen.position < gen.period) :
    (gen.elapse.atBoundary = false ∧ gen.elapse.position = gen.position + 1 ∧ gen.elapse.position < gen.partEnd)
      ∨ (gen.elapse.atBoundary = true ∧ gen.elapse.position = gen.position ∧ gen.position + 1 = gen.partEnd
        ∧ gen.elapse.nextPart.position = (gen.position + 1) % gen.period) := by
  have h1 := position_lt_partEnd hp
  have h2 := gen.partEnd_le
  by_cases hc : gen.partEnd ≤ gen.position + 1
  · have he : gen.elapse = { gen with atBoundary := true } := by simp [CarrierGen.elapse, hr, hc]
    have hn : gen.elapse.nextPart.position = if gen.partEnd < gen.period then gen.partEnd else 0 := by rw [he]; rfl
    refine .inr ⟨by rw [he], by rw [he], by omega, ?_⟩
    rw [hn]
    by_cases hd : gen.partEnd < gen.period
    · rw [if_pos hd, Nat.mod_eq_of_lt (by omega)]; omega
    · rw [if_neg hd, show gen.position + 1 = gen.period by omega, Nat.mod_self]
  · have he : gen.elapse = { gen with position := gen.position + 1 } := by simp [CarrierGen.elapse, hr, hc]
    exact .inl ⟨by rw [he]; exact hb, by rw [he], by rw [he]; show gen.position + 1 < gen.partEnd; omega⟩

/-- A passage sent before the clock has brought it moves the position by the clocks that it adds to the mark's count. -/
theorem CarrierGen.nextPart_position {gen : CarrierGen} (hb : gen.atBoundary = false) (hp : gen.position < gen.period) :
    gen.nextPart.position = (gen.position + gen.partLeft) % gen.period := by
  have h1 := position_lt_partEnd hp
  have h2 := gen.partEnd_le
  have hl : gen.position + gen.partLeft = gen.partEnd := by simp only [CarrierGen.partLeft, hb]; simp; omega
  rw [hl]
  show (if gen.partEnd < gen.period then gen.partEnd else 0) = _
  by_cases hd : gen.partEnd < gen.period
  · rw [if_pos hd, Nat.mod_eq_of_lt hd]
  · rw [if_neg hd, show gen.partEnd = gen.period by omega, Nat.mod_self]

/-! ### The events taken -/

/-- A due event is taken as its command runs. -/
theorem exec_of_due {s t : State} {i : Instr} (h : i ∈ dueEvents s) : exec i t = .next (takeTimed i t) := by
  rcases mem_dueEvents.mp h with ⟨k, h⟩ | h | ⟨p, h⟩
  · rcases mem_lineDue h with h | rfl | rfl | rfl | rfl | ⟨g, rfl⟩
    · simp only [List.mem_cons, List.not_mem_nil, or_false] at h
      rcases h with rfl | rfl | rfl | rfl | rfl | rfl <;> rfl
    all_goals rfl
  · rcases mem_supplyDue h with rfl | rfl <;> rfl
  · rw [mem_portDue h]; rfl

/-- The count of occasions decides nothing about what is due. -/
@[simp] theorem dueEvents_orderCount (s : State) (n : Nat) : dueEvents { s with orderCount := n } = dueEvents s := rfl

/-- Whatever every due event keeps, a run of them keeps. -/
theorem takeAll_induct {motive : State → Prop} (h : ∀ s i, i ∈ dueEvents s → motive s → motive (takeTimed i s)) :
    ∀ (is : List Instr) (s : State), motive s → motive (takeAll is s)
  | [], _, hs => hs
  | i :: is, s, hs => by
    rw [takeAll]
    refine takeAll_induct h is _ ?_
    split
    · rename_i hi; exact h s i hi hs
    · exact hs

/-! ### A step on an empty queue -/

theorem step_of_empty {s : State} (h : s.pending = []) : step s = .next (tick s) := by simp only [step, h]

theorem tick_of_nothing_due {s : State} (h : dueEvents s = []) : tick s = s.elapse := by simp only [tick, h]

theorem tick_of_due {s : State} (h : dueEvents s ≠ []) : tick s =
    takeAll (mergeAll s.orderCount 0 ((dueEvents s).map fun i => [i])) { s with orderCount := s.orderCount + 1 } := by
  unfold tick
  split
  · exact absurd ‹_› h
  · rename_i he; rw [he]

/-- What a clock, a new count of occasions and every due event keep, a step on an empty queue keeps. -/
theorem tick_keeps {motive : State → Prop} (he : ∀ s, motive s → motive s.elapse)
    (hc : ∀ s n, motive s → motive { s with orderCount := n })
    (ht : ∀ s i, i ∈ dueEvents s → motive s → motive (takeTimed i s)) {s : State} (h : motive s) : motive (tick s) := by
  by_cases hd : dueEvents s = []
  · rw [tick_of_nothing_due hd]; exact he s h
  · rw [tick_of_due hd]; exact takeAll_induct ht _ _ (hc s _ h)

end Sys2Proof.Machine
end

