-- ==== Sys2Proof/Laws/Engine.lean ====
section
/-! SUPPORT. What each operation of the line engine does to a line, said once: the counters it keeps, the engine states
it can leave the line in, and that the claim list keeps its law and gains no entry. -/

namespace Sys2Proof.Machine

/-! ### What an operation keeps -/

/-- The counters and the pad of the line are as before. -/
def LineState.Kept (L M : LineState) : Prop :=
  M.arrivals = L.arrivals ∧ M.faultCount = L.faultCount ∧ M.pad = L.pad

theorem LineState.Kept.refl (L : LineState) : L.Kept L := ⟨rfl, rfl, rfl⟩

theorem LineState.Kept.trans {L M N : LineState} (h1 : L.Kept M) (h2 : M.Kept N) : L.Kept N :=
  ⟨h2.1.trans h1.1, h2.2.1.trans h1.2.1, h2.2.2.trans h1.2.2⟩

/-- A line in normal running stays in it; a FAULTED, RETIRED or HALTED one stays as it is. -/
def LineState.EngineStays (L M : LineState) : Prop :=
  (L.engine.canFault = true → M.engine.canFault = true) ∧ (L.engine.canFault = false → M.engine = L.engine)

theorem LineState.EngineStays.of_eq {L M : LineState} (h : M.engine = L.engine) : L.EngineStays M :=
  ⟨fun hl => by rw [h]; exact hl, fun _ => h⟩

theorem LineState.EngineStays.of_canFault {L M : LineState} (h : M.engine.canFault = true)
    (hl : L.engine.canFault = true) : L.EngineStays M := ⟨fun _ => h, fun hf => by rw [hl] at hf; simp at hf⟩

/-! ### The consideration of a queue -/

/-- The claims whose yield or stop point can be reached: YIELDING, displaced LEAVING, ENDING. -/
def ClaimState.CanStop (st : ClaimState) : Prop := st = .yielding ∨ st = .leaving true ∨ ∃ cause, st = .ending cause

theorem ClaimState.CanStop.of_goesOnAtEnd {cut : CutMode} {c : Claim} {rest : List Entry}
    (h : goesOnAtEnd cut c rest = none) : c.state.CanStop := by
  unfold goesOnAtEnd at h
  split at h <;> simp_all [ClaimState.CanStop]

theorem ClaimState.CanStop.of_stopsAtCyclePoint {cut : CutMode} {c : Claim} {sp : Bool} {rest : List Entry}
    (h : stopsAtCyclePoint cut c sp rest = true) : c.state.CanStop := by
  unfold stopsAtCyclePoint at h
  split at h <;> simp_all [ClaimState.CanStop]

/-- What the consideration of a queue leaves: no more entries than it was given; a front where it starts, none where
it comes out empty; it stops only a claim that can stop. -/
theorem runQueue_spec (k : LineNo) (cut : CutMode) (c : Claim) : ∀ (q : List Entry) (last : Option LastEnded) (run : Nat),
    (runQueue k cut c last run q).queue.length ≤ q.length
      ∧ ((runQueue k cut c last run q).verdict = .starts → (runQueue k cut c last run q).queue ≠ [])
      ∧ ((runQueue k cut c last run q).verdict = .empty → (runQueue k cut c last run q).queue = [])
      ∧ ((runQueue k cut c last run q).verdict = .stops → c.state.CanStop)
  | [], last, run => by simp [runQueue]
  | e :: rest, last, run => by
    unfold runQueue
    split
    · have := runQueue_spec k cut c rest (some ⟨dropOutcome last, false⟩) run
      exact ⟨by simp only [List.length_cons]; omega, this.2⟩
    · split
      · split
        · split
          · rename_i run' _
            have := runQueue_spec k cut c rest (some ⟨.done, false⟩) run'
            exact ⟨by simp only [List.length_cons]; omega, this.2⟩
          · rename_i hg
            exact ⟨by simp, by simp, by simp, fun _ => ClaimState.CanStop.of_goesOnAtEnd (c := { c with yieldRun := run }) hg⟩
        · split
          · rename_i hs
            refine ⟨by simp only [List.length_cons]; split <;> simp, by simp, by simp, fun _ => ?_⟩
            exact ClaimState.CanStop.of_stopsAtCyclePoint (c := { c with yieldRun := run }) hs
          · simp
      · simp

/-! ### Small parts of a line -/

theorem startFront_kept (ctx : LineCtx) (L : LineState) (q : List Entry) (b : Bool) : L.Kept (L.startFront ctx q b) := by
  unfold LineState.startFront; split <;> exact ⟨rfl, rfl, rfl⟩

@[simp] theorem startFront_claims (ctx : LineCtx) (L : LineState) (q : List Entry) (b : Bool) :
    (L.startFront ctx q b).claims = L.claims := by unfold LineState.startFront; split <;> rfl

theorem startFront_engine (ctx : LineCtx) (L : LineState) {q : List Entry} (b : Bool) (h : q ≠ []) :
    (L.startFront ctx q b).engine = .running := by
  cases q with
  | nil => exact absurd rfl h
  | cons e rest => rfl

/-! ### Guard and take -/

theorem takenLine_kept (ctx : LineCtx) (L : LineState) (c : Claim) (cs : List Claim) :
    L.Kept (takenLine ctx L c cs) := by
  unfold takenLine
  dsimp only
  split
  · exact LineState.Kept.trans ⟨rfl, rfl, rfl⟩ (startFront_kept ctx _ _ _)
  · exact ⟨rfl, rfl, rfl⟩

theorem takeLine_kept (ctx : LineCtx) (L : LineState) : ∀ cs : List Claim, L.Kept (takeLine ctx L cs).line
  | [] => ⟨rfl, rfl, rfl⟩
  | c :: cs => by
    rw [takeLine]
    split
    · dsimp only [LineOut.afterSeg, LineOut.afterClaim]
      split
      · exact takeLine_kept ctx L cs
      · exact ⟨rfl, rfl, rfl⟩
    · exact takenLine_kept ctx L c cs

/-- The consideration of a head's queue at the take: as `runQueue_spec`, and only a claim in ENDING stops there. -/
theorem takenRun_spec (ctx : LineCtx) (c : Claim) :
    (takenRun ctx c).queue.length ≤ c.queue.length
      ∧ ((takenRun ctx c).verdict = .starts → (takenRun ctx c).queue ≠ [])
      ∧ ((takenRun ctx c).verdict = .empty → (takenRun ctx c).queue = [])
      ∧ ((takenRun ctx c).verdict = .stops → c.state.isEnding = true) := by
  have hq := runQueue_spec ctx.line c.cutMode (takenClaim c) c.queue none 0
  unfold takenRun
  cases hs : c.state <;>
    simp_all [takenClaim, ClaimState.atTake, ClaimState.CanStop, ClaimState.isEnding]

theorem takenLine_canFault (ctx : LineCtx) (L : LineState) (c : Claim) (cs : List Claim) :
    (takenLine ctx L c cs).engine.canFault = true := by
  unfold takenLine
  dsimp only
  split
  · rename_i h; rw [startFront_engine ctx _ _ ((takenRun_spec ctx c).2.1 h)]; rfl
  · rfl

theorem takeLine_canFault (ctx : LineCtx) (L : LineState) : ∀ cs : List Claim,
    (takeLine ctx L cs).line.engine.canFault = true
  | [] => rfl
  | c :: cs => by
    rw [takeLine]
    split
    · dsimp only [LineOut.afterSeg, LineOut.afterClaim]
      split
      · exact takeLine_canFault ctx L cs
      · rfl
    · exact takenLine_canFault ctx L c cs

theorem guardOrTake_kept (ctx : LineCtx) (L : LineState) (cs : List Claim) : L.Kept (guardOrTake ctx L cs).line := by
  unfold guardOrTake
  dsimp only
  split
  · exact LineState.Kept.trans ⟨rfl, rfl, rfl⟩ (takeLine_kept ctx _ cs)
  · exact ⟨rfl, rfl, rfl⟩

theorem guardOrTake_canFault (ctx : LineCtx) (L : LineState) (cs : List Claim) :
    (guardOrTake ctx L cs).line.engine.canFault = true := by
  unfold guardOrTake
  dsimp only
  split
  · exact takeLine_canFault ctx _ cs
  · rfl

/-! ### Stop, advance and end of segments -/

theorem stopClaim_kept (ctx : LineCtx) (L : LineState) (c : Claim) : L.Kept (stopClaim ctx L c).line := by
  unfold stopClaim
  dsimp only
  split <;> first | exact guardOrTake_kept ctx L _ | exact ⟨rfl, rfl, rfl⟩

theorem stopClaim_stays (ctx : LineCtx) (L : LineState) (c : Claim) : L.EngineStays (stopClaim ctx L c).line := by
  unfold stopClaim
  dsimp only
  split <;> rename_i h
  all_goals first
    | exact .of_canFault (guardOrTake_canFault ctx L _) (by rw [h]; rfl)
    | exact .of_eq rfl

theorem advance_kept (ctx : LineCtx) (L : LineState) (c : Claim) (q : List Entry) (run : Nat) (fresh : Bool) :
    L.Kept (advance ctx L c q run fresh).line := by
  unfold advance
  dsimp only [LineOut.afterSeg]
  split
  · exact LineState.Kept.trans ⟨rfl, rfl, rfl⟩ (startFront_kept ctx _ _ _)
  · split
    · exact ⟨rfl, rfl, rfl⟩
    · exact LineState.Kept.trans ⟨rfl, rfl, rfl⟩ (stopClaim_kept ctx _ c)
  · exact LineState.Kept.trans ⟨rfl, rfl, rfl⟩ (stopClaim_kept ctx _ c)

theorem advance_canFault (ctx : LineCtx) (L : LineState) (c : Claim) (q : List Entry) (run : Nat) (fresh : Bool)
    (h : L.engine.canFault = true) : (advance ctx L c q run fresh).line.engine.canFault = true := by
  unfold advance
  dsimp only [LineOut.afterSeg]
  split
  · rename_i hv
    dsimp only [LineOut.quiet]
    rw [startFront_engine ctx _ _ ((runQueue_spec _ _ _ _ _ _).2.1 hv)]; rfl
  · split
    · rfl
    · exact (stopClaim_stays ctx _ c).1 h
  · exact (stopClaim_stays ctx _ c).1 h

theorem endRunning_kept (L : LineState) (c : Claim) (e : Entry) (rest : List Entry) (outcome : SegOutcome) :
    L.Kept (endRunning L c e rest outcome) := ⟨rfl, rfl, rfl⟩

theorem naturalEnd_kept (ctx : LineCtx) (L : LineState) (c : Claim) (e : Entry) (rest : List Entry) (r : SenseResult)
    (v : Nat) : L.Kept (naturalEnd ctx L c e rest r v).line := by
  unfold naturalEnd
  dsimp only [LineOut.afterSeg]
  split
  · exact LineState.Kept.trans ⟨rfl, rfl, rfl⟩ (advance_kept ctx _ _ _ _ _)
  · exact LineState.Kept.trans ⟨rfl, rfl, rfl⟩ (stopClaim_kept ctx _ _)

theorem naturalEnd_canFault (ctx : LineCtx) (L : LineState) (c : Claim) (e : Entry) (rest : List Entry)
    (r : SenseResult) (v : Nat) (h : L.engine.canFault = true) :
    (naturalEnd ctx L c e rest r v).line.engine.canFault = true := by
  unfold naturalEnd
  dsimp only [LineOut.afterSeg]
  split
  · exact advance_canFault ctx _ _ _ _ _ h
  · exact (stopClaim_stays ctx _ _).1 h

theorem cutAndStop_kept (ctx : LineCtx) (L : LineState) (c : Claim) (e : Entry) (rest : List Entry) :
    L.Kept (cutAndStop ctx L c e rest).line :=
  LineState.Kept.trans ⟨rfl, rfl, rfl⟩ (stopClaim_kept ctx (endRunning L c e rest (cutOutcome c e.seg)) c)

theorem cutAndStop_canFault (ctx : LineCtx) (L : LineState) (c : Claim) (e : Entry) (rest : List Entry)
    (h : L.engine.canFault = true) : (cutAndStop ctx L c e rest).line.engine.canFault = true :=
  (stopClaim_stays ctx (endRunning L c e rest (cutOutcome c e.seg)) c).1 h

theorem flushCut_kept (ctx : LineCtx) (L : LineState) (c : Claim) (e : Entry) (rest : List Entry) :
    L.Kept (flushCut ctx L c e rest).line := by
  unfold flushCut
  dsimp only [LineOut.afterSeg]
  split
  all_goals first
    | exact LineState.Kept.trans ⟨rfl, rfl, rfl⟩ (advance_kept ctx _ _ _ _ _)
    | exact LineState.Kept.trans ⟨rfl, rfl, rfl⟩ (stopClaim_kept ctx _ _)

theorem flushCut_canFault (ctx : LineCtx) (L : LineState) (c : Claim) (e : Entry) (rest : List Entry)
    (h : L.engine.canFault = true) : (flushCut ctx L c e rest).line.engine.canFault = true := by
  unfold flushCut
  dsimp only [LineOut.afterSeg]
  split
  all_goals first
    | exact advance_canFault ctx _ _ _ _ _ h
    | exact (stopClaim_stays ctx _ _).1 h

/-! ### Points that stand at an instant, and changes of the list -/

theorem checkNow_kept (ctx : LineCtx) (L : LineState) : L.Kept (checkNow ctx L).line := by
  unfold checkNow
  repeat' split
  all_goals first
    | exact .refl L
    | exact stopClaim_kept ctx L _
    | exact naturalEnd_kept ctx L _ _ _ _ _
    | exact cutAndStop_kept ctx L _ _ _

theorem checkNow_stays (ctx : LineCtx) (L : LineState) : L.EngineStays (checkNow ctx L).line := by
  unfold checkNow
  repeat' split
  all_goals first
    | exact .of_eq rfl
    | exact stopClaim_stays ctx L _
    | exact .of_canFault (naturalEnd_canFault ctx L _ _ _ _ _ (by simp_all [EngineState.canFault]))
        (by simp_all [EngineState.canFault])
    | exact .of_canFault (cutAndStop_canFault ctx L _ _ _ (by simp_all [EngineState.canFault]))
        (by simp_all [EngineState.canFault])

theorem withClaims_kept (ctx : LineCtx) (L : LineState) (cs : List Claim) : L.Kept (withClaims ctx L cs).line :=
  LineState.Kept.trans ⟨rfl, rfl, rfl⟩ (checkNow_kept ctx _)

theorem withClaims_stays (ctx : LineCtx) (L : LineState) (cs : List Claim) :
    L.EngineStays (withClaims ctx L cs).line := checkNow_stays ctx { L with claims := settle cs }

theorem endClaim_kept (ctx : LineCtx) (L : LineState) (h : HostNo) (cause : EndingCause) :
    L.Kept (endClaim ctx L h cause).line := LineState.Kept.trans ⟨rfl, rfl, rfl⟩ (checkNow_kept ctx _)

theorem endClaim_stays (ctx : LineCtx) (L : LineState) (h : HostNo) (cause : EndingCause) :
    L.EngineStays (endClaim ctx L h cause).line :=
  checkNow_stays ctx { L with claims := mapHost h (Claim.toEnding cause) L.claims }

theorem dropClaim_kept (ctx : LineCtx) (L : LineState) (h : HostNo) : L.Kept (dropClaim ctx L h).line :=
  withClaims_kept ctx L _

theorem dropClaim_stays (ctx : LineCtx) (L : LineState) (h : HostNo) : L.EngineStays (dropClaim ctx L h).line :=
  withClaims_stays ctx L _

theorem drainClaim_kept (ctx : LineCtx) (L : LineState) (h : HostNo) : L.Kept (drainClaim ctx L h).line :=
  LineState.Kept.trans ⟨rfl, rfl, rfl⟩ (checkNow_kept ctx _)

theorem drainClaim_stays (ctx : LineCtx) (L : LineState) (h : HostNo) : L.EngineStays (drainClaim ctx L h).line :=
  checkNow_stays ctx { L with claims := mapHost h (fun c => { c with state := .leaving false }) L.claims }

theorem expireClaim_kept (ctx : LineCtx) (L : LineState) (h : HostNo) : L.Kept (expireClaim ctx L h).line := by
  unfold expireClaim
  repeat' split
  all_goals first
    | exact .refl L
    | exact endClaim_kept ctx L h _
    | exact dropClaim_kept ctx L h

theorem expireClaim_stays (ctx : LineCtx) (L : LineState) (h : HostNo) : L.EngineStays (expireClaim ctx L h).line := by
  unfold expireClaim
  repeat' split
  all_goals first
    | exact .of_eq rfl
    | exact endClaim_stays ctx L h _
    | exact dropClaim_stays ctx L h

theorem departClaim_kept (ctx : LineCtx) (L : LineState) (h : HostNo) : L.Kept (departClaim ctx L h).line := by
  unfold departClaim
  repeat' split
  all_goals first
    | exact .refl L
    | exact (endClaim_kept ctx L h _).trans ⟨rfl, rfl, rfl⟩
    | exact (dropClaim_kept ctx L h).trans ⟨rfl, rfl, rfl⟩

theorem departClaim_stays (ctx : LineCtx) (L : LineState) (h : HostNo) : L.EngineStays (departClaim ctx L h).line := by
  unfold departClaim
  repeat' split
  all_goals first
    | exact .of_eq rfl
    | exact endClaim_stays ctx L h _
    | exact dropClaim_stays ctx L h

/-! ### Faults and supply -/

theorem enterSafeStop_kept (ctx : LineCtx) (L : LineState) (target : EngineState) (outcome : SegOutcome) :
    L.Kept (enterSafeStop ctx L target outcome).line := by
  unfold enterSafeStop
  repeat' split
  all_goals first
    | exact ⟨rfl, rfl, rfl⟩
    | exact LineState.Kept.trans ⟨rfl, rfl, rfl⟩ (checkNow_kept ctx _)

/-- The line is in the state it was to enter. -/
theorem enterSafeStop_engine (ctx : LineCtx) (L : LineState) (target : EngineState) (outcome : SegOutcome)
    (h : target.canFault = false) : (enterSafeStop ctx L target outcome).line.engine = target := by
  unfold enterSafeStop
  repeat' split
  all_goals first
    | rfl
    | exact (checkNow_stays ctx _).2 h

theorem leaveSafeStop_kept (ctx : LineCtx) (L : LineState) : L.Kept (leaveSafeStop ctx L).line :=
  guardOrTake_kept ctx L _

theorem leaveSafeStop_canFault (ctx : LineCtx) (L : LineState) : (leaveSafeStop ctx L).line.engine.canFault = true :=
  guardOrTake_canFault ctx L _

/-- A fault in SETUP is not counted; one in RUN is, and retires the line at the fourth. -/
theorem faultLine_counts (ctx : LineCtx) (L : LineState) :
    (faultLine ctx L).line.pad = L.pad ∧ (faultLine ctx L).line.arrivals = L.arrivals
      ∧ (ctx.device = .setup → (faultLine ctx L).line.faultCount = L.faultCount ∧ (faultLine ctx L).line.engine = .faulted)
      ∧ (ctx.device = .run → (faultLine ctx L).line.faultCount = L.faultCount + 1
        ∧ (faultLine ctx L).line.engine = if L.faultCount < 3 then .faulted else .retired) := by
  have hk := enterSafeStop_kept ctx { L with faultCount := L.faultCount + 1 } .faulted .fault
  have hk0 := enterSafeStop_kept ctx L .faulted .fault
  have he : ∀ M, (enterSafeStop ctx M .faulted .fault).line.engine = .faulted := fun M =>
    enterSafeStop_engine ctx M _ _ rfl
  unfold faultLine
  cases hd : ctx.device with
  | setup => exact ⟨hk0.2.2, hk0.1, fun _ => ⟨hk0.2.1, he L⟩, by simp⟩
  | run =>
    dsimp only
    by_cases h : L.faultCount < 3
    · rw [if_pos (by omega)]
      exact ⟨hk.2.2, hk.1, by simp, fun _ => ⟨hk.2.1, by rw [if_pos h]; exact he _⟩⟩
    · rw [if_neg (by omega)]
      exact ⟨rfl, rfl, by simp, fun _ => ⟨rfl, by rw [if_neg h]; rfl⟩⟩

/-! ### Work submitted and removed -/

theorem submitTo_kept (ctx : LineCtx) (L : LineState) (h : HostNo) (segs : List Segment) :
    L.Kept (submitTo ctx L h segs).line := by
  have hk : L.Kept (L.appendWork h segs) := ⟨rfl, rfl, rfl⟩
  unfold submitTo
  repeat' split
  all_goals first
    | exact hk
    | exact hk.trans (advance_kept ctx _ _ _ _ _)
    | exact hk.trans (checkNow_kept ctx _)

theorem submitTo_stays (ctx : LineCtx) (L : LineState) (h : HostNo) (segs : List Segment) :
    L.EngineStays (submitTo ctx L h segs).line := by
  unfold submitTo
  split
  · exact .of_eq rfl
  · split
    · split <;> rename_i he
      · exact .of_canFault (advance_canFault ctx (L.appendWork h segs) _ _ _ _ (by
          show L.engine.canFault = true; rw [he]; rfl)) (by rw [he]; rfl)
      · exact checkNow_stays ctx (L.appendWork h segs)
      all_goals exact .of_eq rfl
    · exact .of_eq rfl

theorem flushedLine_kept (L : LineState) (c : Claim) (scope : FlushScope) : L.Kept (flushedLine L c scope) :=
  ⟨rfl, rfl, rfl⟩

theorem flushLine_kept (ctx : LineCtx) (L : LineState) (c : Claim) (scope : FlushScope) (cut : Bool) :
    L.Kept (flushLine ctx L c scope cut).out.line := by
  unfold flushLine
  repeat' split
  all_goals first
    | exact (flushedLine_kept L c scope).trans (flushCut_kept ctx _ _ _ _)
    | exact flushedLine_kept L c scope

theorem flushLine_stays (ctx : LineCtx) (L : LineState) (c : Claim) (scope : FlushScope) (cut : Bool) :
    L.EngineStays (flushLine ctx L c scope cut).out.line := by
  unfold flushLine
  split
  · rename_i hc
    have hr : L.engine.canFault = true := by
      simp only [Bool.and_eq_true, flushCuts, beq_iff_eq] at hc
      rw [hc.2.1.1]; rfl
    split
    · exact .of_canFault (flushCut_canFault ctx (flushedLine L c scope) _ _ _ hr) hr
    · exact .of_eq rfl
  · exact .of_eq rfl

end Sys2Proof.Machine
end

