-- ==== Sys2Proof/Laws/Lists.lean ====
section
/-! SUPPORT. The claim lists through the line engine: each operation leaves the list and the engine in the law of
Safety.lean, and lets claims leave but none gain an entry. -/

namespace Sys2Proof.Machine

/-! ### Lists changed claim by claim -/

/-- A change that keeps host, priority and state of every claim keeps the law of the list. -/
theorem ClaimsLaw.map {f : Claim → Claim}
    (hf : ∀ c, (f c).host = c.host ∧ (f c).priority = c.priority ∧ (f c).state = c.state) {cs : List Claim}
    (h : ClaimsLaw cs) : ClaimsLaw (cs.map f) := by
  obtain ⟨h1, h2, h3, h4, h5⟩ := h
  refine ⟨?_, ?_, ?_, ?_, ?_⟩
  · rw [List.map_map]
    rwa [show Claim.host ∘ f = Claim.host from funext fun c => (hf c).1]
  · rw [List.pairwise_map]
    exact h2.imp fun hab => by rw [(hf _).2.1, (hf _).2.1]; exact hab
  · cases cs with
    | nil => simp
    | cons c cs => simpa [(hf c).2.2] using h3
  · intro d hd
    rw [← List.map_tail] at hd
    obtain ⟨c, hc, rfl⟩ := List.mem_map.mp hd
    rw [(hf c).2.2]; exact h4 c hc
  · rw [List.filter_map, List.length_map]
    rwa [show (fun c : Claim => c.state.isExecuting) ∘ f = fun c => c.state.isExecuting from
      funext fun c => by simp [(hf c).2.2]]

theorem ClaimsLaw.onHost {h : HostNo} {f : Claim → Claim}
    (hf : ∀ c, (f c).host = c.host ∧ (f c).priority = c.priority ∧ (f c).state = c.state) {cs : List Claim}
    (hl : ClaimsLaw cs) : ClaimsLaw (mapHost h f cs) :=
  hl.map (f := fun c => if c.host = h then f c else c) fun c => by split <;> simp [hf c]

/-- The member a host's change makes of a member. -/
theorem mem_mapHost {h : HostNo} {f : Claim → Claim} {cs : List Claim} {c : Claim} (hc : c ∈ cs) (hh : c.host = h) :
    f c ∈ mapHost h f cs := List.mem_map.mpr ⟨c, hc, if_pos hh⟩

/-- A queue replaced by a shorter one lets no claim gain an entry. -/
theorem withQueue_within {L : LineState} (hn : (L.claims.map Claim.host).Nodup) {c : Claim} (hc : c ∈ L.claims)
    {q : List Entry} {run : Nat} (hq : q.length ≤ c.queue.length) :
    ClaimsWithin (L.withQueue c.host q run).claims L.claims :=
  mapHost_within fun d hd hh => ⟨rfl, rfl, by rw [eq_of_host hn hc hd hh]; exact hq⟩

theorem mem_withQueue {L : LineState} {c : Claim} (hc : c ∈ L.claims) {q : List Entry} {run : Nat} :
    { c with queue := q, yieldRun := run } ∈ (L.withQueue c.host q run).claims :=
  mem_mapHost (f := fun d => { d with queue := q, yieldRun := run }) hc rfl

theorem withQueue_claimsLaw {L : LineState} {h : HostNo} {q : List Entry} {run : Nat} (hl : ClaimsLaw L.claims) :
    ClaimsLaw (L.withQueue h q run).claims :=
  ClaimsLaw.onHost (f := fun c => { c with queue := q, yieldRun := run }) (fun _ => ⟨rfl, rfl, rfl⟩) hl

/-- Claims that stay keep the list in order. -/
theorem ClaimsWithin.ordered {ds cs : List Claim} (hw : ClaimsWithin ds cs) (h : ClaimsLaw cs) :
    (ds.map Claim.host).Nodup ∧ ds.Pairwise (fun a b => b.priority ≤ a.priority) :=
  ⟨hw.nodup h.1, hw.priorities h.2.1⟩

/-! ### Guard and take -/

/-- An empty list satisfies the law in every engine state but RUNNING and STARVED. -/
theorem enterIdle_law (L : LineState) : L.enterIdle.ListLaw :=
  ⟨claimsLaw_nil, fun _ => rfl, fun h => by simp [LineState.enterIdle] at h, fun h => by simp [LineState.enterIdle] at h,
    fun h => by simp [LineState.enterIdle] at h⟩

/-- A line that enters GUARD with a list none of whose claims executes, but for a head that is kept. -/
theorem enterGuard_law {ctx : LineCtx} {L : LineState} {cs : List Claim} (hn : (cs.map Claim.host).Nodup)
    (hp : cs.Pairwise (fun a b => b.priority ≤ a.priority)) (ht : NoneExecutes cs.tail)
    (hh : ∀ c ∈ cs.head?, c.state.isEnding = false) : (L.enterGuard ctx cs).ListLaw := by
  have h1 : (cs.filter fun c => c.state.isExecuting).length ≤ 1 := by
    cases cs with
    | nil => simp
    | cons c cs =>
      have : cs.filter (fun c => c.state.isExecuting) = [] :=
        List.filter_eq_nil_iff.mpr fun d hd => by simp [ht d hd]
      rw [List.filter_cons, this]; split <;> simp
  refine ⟨settle_claimsLaw hn hp h1, fun h => ?_, fun h => ?_, fun h => ?_, fun _ c hc => ?_⟩
  · simp [LineState.enterGuard] at h
  · simp [LineState.enterGuard] at h
  · simp [LineState.enterGuard] at h
  · have hm := LineState.mem_of_executing hc
    cases cs with
    | nil => simp [LineState.enterGuard, settle] at hm
    | cons d ds =>
      obtain ⟨hm, hx⟩ := hm
      simp only [LineState.enterGuard, settle, List.mem_cons] at hm
      rcases hm with rfl | hm
      · rw [asHead_isExecuting] at hx
        have := hh d (by simp)
        unfold asHead
        split <;> simp_all [ClaimState.isExecuting, ClaimState.isEnding]
      · obtain ⟨x, hx', rfl⟩ := List.mem_map.mp hm
        rw [behindHead_isExecuting, ht x (by simpa using hx')] at hx
        simp at hx

theorem takenLine_law {ctx : LineCtx} {L : LineState} {c : Claim} {cs : List Claim}
    (hn : ((c :: cs).map Claim.host).Nodup) (hp : (c :: cs).Pairwise (fun a b => b.priority ≤ a.priority))
    (ht : NoneExecutes cs) (he : takeEnds ctx c = none) :
    (takenLine ctx L c cs).ListLaw ∧ ClaimsWithin (takenLine ctx L c cs).claims (c :: cs) := by
  obtain ⟨hq, hs, hem, hst⟩ := takenRun_spec ctx c
  have hend : c.state.isEnding = false := by
    cases hc : c.state <;> simp_all [takeEnds, ClaimState.isEnding]
  -- the head as the take leaves it
  have hx : ({ takenClaim c with queue := (takenRun ctx c).queue } : Claim).state.isExecuting = true := by
    cases hc : c.state <;> simp_all [takenClaim, ClaimState.atTake, ClaimState.isExecuting, ClaimState.isEnding]
  have hclaims : (takenLine ctx L c cs).claims =
      { takenClaim c with queue := (takenRun ctx c).queue } :: cs.map behindHead := by
    unfold takenLine; dsimp only; split
    · rw [startFront_claims]
    · rfl
  have hw : ClaimsWithin ({ takenClaim c with queue := (takenRun ctx c).queue } :: cs.map behindHead) (c :: cs) :=
    .cons ⟨rfl, rfl, hq⟩ (ClaimsWithin.map fun d _ => behindHead_within d)
  have hsettle : ({ takenClaim c with queue := (takenRun ctx c).queue } :: cs.map behindHead) =
      settle ({ takenClaim c with queue := (takenRun ctx c).queue } :: cs) := by
    rw [settle, asHead_of_headLike]
    cases hc : c.state <;> simp_all [takenClaim, ClaimState.atTake, ClaimState.headLike, ClaimState.isEnding]
  have hexec : ∀ M : LineState, M.claims =
      { takenClaim c with queue := (takenRun ctx c).queue } :: cs.map behindHead →
      M.executing = some { takenClaim c with queue := (takenRun ctx c).queue } := by
    intro M hM; rw [LineState.executing, hM, List.find?_cons_of_pos (by exact hx)]
  have hlaw : ClaimsLaw (takenLine ctx L c cs).claims := by
    rw [hclaims, hsettle]
    refine settle_claimsLaw hn ?_ ?_
    · rw [List.pairwise_cons] at hp ⊢; exact hp
    · rw [List.filter_cons, List.filter_eq_nil_iff.mpr (fun d hd => by simp [ht d hd])]
      split <;> simp
  refine ⟨⟨hlaw, ?_⟩, by rw [hclaims]; exact hw⟩
  by_cases hv : (takenRun ctx c).verdict = .starts
  · have heng : (takenLine ctx L c cs).engine = .running := by
      unfold takenLine; dsimp only; rw [if_pos hv, startFront_engine ctx _ _ (hs hv)]
    refine ⟨fun h => ?_, fun _ => ⟨_, hexec _ hclaims, hs hv⟩, fun h => ?_, fun h => ?_⟩ <;> simp [heng] at h
  · have heng : (takenLine ctx L c cs).engine = .starved := by
      unfold takenLine; dsimp only; rw [if_neg hv]; rfl
    have hempty : (takenRun ctx c).queue = [] := by
      cases hvv : (takenRun ctx c).verdict with
      | starts => exact absurd hvv hv
      | empty => exact hem hvv
      | stops => rw [hst hvv] at hend; simp at hend
    have hhold : (takenClaim c).state = .holding := by
      cases hc : c.state <;>
        simp_all [takenClaim, ClaimState.atTake, ClaimState.isEnding, takeEnds]
    refine ⟨fun h => ?_, fun h => ?_, fun _ => ⟨_, hexec _ hclaims, hhold, hempty⟩, fun h => ?_⟩ <;> simp [heng] at h

/-- The take of a line none of whose claims behind the head executes. -/
theorem takeLine_law (ctx : LineCtx) (L : LineState) : ∀ cs : List Claim, (cs.map Claim.host).Nodup →
    cs.Pairwise (fun a b => b.priority ≤ a.priority) → NoneExecutes cs.tail →
    (takeLine ctx L cs).line.ListLaw ∧ ClaimsWithin (takeLine ctx L cs).line.claims cs
  | [], _, _, _ => ⟨enterIdle_law L, .nil⟩
  | c :: cs, hn, hp, ht => by
    have hn' : (cs.map Claim.host).Nodup := (List.nodup_cons.mp hn).2
    have hp' := (List.pairwise_cons.mp hp).2
    have ht' : NoneExecutes cs := ht
    rw [takeLine]
    split
    · dsimp only [LineOut.afterSeg, LineOut.afterClaim]
      split
      · have ih := takeLine_law ctx L cs hn' hp' (fun d hd => ht' d (List.mem_of_mem_tail hd))
        exact ⟨ih.1, .cons_right ih.2⟩
      · refine ⟨enterGuard_law hn' hp' (fun d hd => ht' d (List.mem_of_mem_tail hd)) ?_, .cons_right (settle_within cs)⟩
        intro d hd
        have := ht' d (List.mem_of_mem_head? hd)
        cases hs : d.state <;> simp_all [ClaimState.isExecuting, ClaimState.isEnding]
    · rename_i he; exact takenLine_law hn hp ht he

theorem guardOrTake_law (ctx : LineCtx) (L : LineState) {cs : List Claim} (hn : (cs.map Claim.host).Nodup)
    (hp : cs.Pairwise (fun a b => b.priority ≤ a.priority)) (ht : NoneExecutes cs.tail)
    (hh : ∀ c ∈ cs.head?, c.state.isEnding = false) :
    (guardOrTake ctx L cs).line.ListLaw ∧ ClaimsWithin (guardOrTake ctx L cs).line.claims cs := by
  unfold guardOrTake
  dsimp only
  split
  · exact takeLine_law ctx _ cs hn hp ht
  · exact ⟨enterGuard_law hn hp ht hh, settle_within cs⟩

/-! ### The stop of the executing claim -/

/-- `c` stands for the executing claim of the line: the claim of its host executes in its state, with at least the
entries `q`. -/
structure LineState.Stands (L : LineState) (c : Claim) (q : List Entry) (c0 : Claim) : Prop where
  law : ClaimsLaw L.claims
  mem : c0 ∈ L.claims
  host : c0.host = c.host
  state : c0.state = c.state
  executing : c.state.isExecuting = true
  entries : q.length ≤ c0.queue.length

theorem LineState.Stands.others {L : LineState} {c c0 : Claim} {q : List Entry} (h : L.Stands c q c0) :
    ∀ d ∈ L.claims, d.host ≠ c.host → d.state.isExecuting = false := by
  intro d hd hne
  by_contra hx
  simp only [Bool.not_eq_false] at hx
  have := executing_unique h.law.2.2.2.2 h.mem (by rw [h.state]; exact h.executing) d hd hx
  exact hne (by rw [this]; exact h.host)

theorem resolveStop_within {k : LineNo} {c : Claim} (cs : List Claim) : ClaimsWithin (resolveStop k c cs).1 cs := by
  unfold resolveStop
  split <;> dsimp only
  · exact mapHost_within fun _ _ _ => ⟨rfl, rfl, le_refl _⟩
  · exact removeHost_within _ cs
  · exact removeHost_within _ cs
  · exact removeHost_within _ cs
  all_goals exact .refl cs

/-- After the stop of the executing claim none executes. -/
theorem resolveStop_none {k : LineNo} {c : Claim} {cs : List Claim}
    (ho : ∀ d ∈ cs, d.host ≠ c.host → d.state.isExecuting = false)
    (hs : c.state ≠ .holding) (hx : c.state.isExecuting = true) : NoneExecutes (resolveStop k c cs).1 := by
  have hrem : NoneExecutes (removeHost c.host cs) := by
    intro d hd
    simp only [removeHost, List.mem_filter, bne_iff_ne] at hd
    exact ho d hd.1 hd.2
  unfold resolveStop
  split <;> dsimp only
  · intro d hd
    obtain ⟨x, hx', rfl⟩ := List.mem_map.mp hd
    split
    · rfl
    · rename_i hne; exact ho x hx' hne
  · exact hrem
  · exact hrem
  · exact hrem
  all_goals simp_all [ClaimState.isExecuting]

theorem NoneExecutes.tail {cs : List Claim} (h : NoneExecutes cs) : NoneExecutes cs.tail :=
  fun d hd => h d (List.mem_of_mem_tail hd)

theorem NoneExecutes.head {cs : List Claim} (h : NoneExecutes cs) : ∀ c ∈ cs.head?, c.state.isEnding = false := by
  intro d hd
  have := h d (List.mem_of_mem_head? hd)
  cases hs : d.state <;> simp_all [ClaimState.isExecuting, ClaimState.isEnding]

/-- A stopped list stays with its engine where the line is in GUARD, FAULTED or HALTED. -/
theorem settle_noneExecutes_law {L : LineState} {cs : List Claim} (hn : (cs.map Claim.host).Nodup)
    (hp : cs.Pairwise (fun a b => b.priority ≤ a.priority)) (hx : NoneExecutes cs) (hL : L.claims = settle cs)
    (he : L.engine = .guard ∨ L.engine = .faulted ∨ L.engine = .halted) : L.ListLaw := by
  refine ⟨by rw [hL]; exact settle_claimsLaw hn hp hx.length, fun h => ?_, fun h => ?_, fun h => ?_, fun _ c hc => ?_⟩
  · rcases he with he | he | he <;> simp [he] at h
  · rcases he with he | he | he <;> simp [he] at h
  · rcases he with he | he | he <;> simp [he] at h
  · rw [NoneExecutes.executing (by rw [hL]; exact hx.settle)] at hc; simp at hc

theorem stopClaim_law {ctx : LineCtx} {L : LineState} {c c0 : Claim} {q : List Entry} (h : L.Stands c q c0)
    (hs : c.state ≠ .holding) (he : L.engine ≠ .idle ∧ L.engine ≠ .retired) :
    (stopClaim ctx L c).line.ListLaw ∧ ClaimsWithin (stopClaim ctx L c).line.claims L.claims := by
  have hw := resolveStop_within (k := ctx.line) (c := c) L.claims
  have hno := resolveStop_none (k := ctx.line) h.others hs h.executing
  have ⟨hn, hp⟩ := hw.ordered h.law
  have hgt := guardOrTake_law ctx L hn hp hno.tail hno.head
  have hst := settle_within (resolveStop ctx.line c L.claims).1
  unfold stopClaim
  dsimp only
  split <;> rename_i heng
  · exact ⟨hgt.1, hgt.2.trans hw⟩
  · exact ⟨hgt.1, hgt.2.trans hw⟩
  · exact absurd heng he.1
  · exact ⟨settle_noneExecutes_law hn hp hno rfl (Or.inl heng), hst.trans hw⟩
  · exact ⟨settle_noneExecutes_law hn hp hno rfl (Or.inr (Or.inl heng)), hst.trans hw⟩
  · exact absurd heng he.2
  · exact ⟨settle_noneExecutes_law hn hp hno rfl (Or.inr (Or.inr heng)), hst.trans hw⟩

/-! ### The executing claim goes on -/

/-- The line with a shorter queue of the executing claim still has it standing. -/
theorem LineState.Stands.withQueue {L : LineState} {c c0 : Claim} {q q' : List Entry} {run : Nat}
    (h : L.Stands c q c0) : (L.withQueue c.host q' run).Stands c q' { c0 with queue := q', yieldRun := run } where
  law := withQueue_claimsLaw h.law
  mem := mem_mapHost (f := fun c => { c with queue := q', yieldRun := run }) h.mem h.host
  host := h.host
  state := h.state
  executing := h.executing
  entries := le_refl _

theorem advance_law {ctx : LineCtx} {L : LineState} {c c0 : Claim} {q : List Entry} {run : Nat} {fresh : Bool}
    (h : L.Stands c q c0) (he : L.engine = .running ∨ L.engine = .starved) :
    (advance ctx L c q run fresh).line.ListLaw ∧ ClaimsWithin (advance ctx L c q run fresh).line.claims L.claims := by
  obtain ⟨hq, hs, hem, hst⟩ := runQueue_spec ctx.line (headCut L.claims) c q L.lastEnded run
  generalize hr : runQueue ctx.line (headCut L.claims) c L.lastEnded run q = r at *
  have hle : r.queue.length ≤ c0.queue.length := le_trans hq h.entries
  have hS := h.withQueue (q' := r.queue) (run := r.run)
  have hw : ClaimsWithin (L.withQueue c.host r.queue r.run).claims L.claims := by
    rw [← h.host]; exact withQueue_within h.law.1 h.mem hle
  -- the line with the queue considered, still standing with any record
  have hS' : ({ L.withQueue c.host r.queue r.run with lastEnded := r.last } : LineState).Stands c r.queue
      { c0 with queue := r.queue, yieldRun := r.run } := ⟨hS.law, hS.mem, hS.host, hS.state, hS.executing, hS.entries⟩
  have hne : ({ L.withQueue c.host r.queue r.run with lastEnded := r.last } : LineState).engine ≠ .idle
      ∧ ({ L.withQueue c.host r.queue r.run with lastEnded := r.last } : LineState).engine ≠ .retired := by
    show L.engine ≠ .idle ∧ L.engine ≠ .retired
    rcases he with he | he <;> simp [he]
  have hexec : ∀ M : LineState, M.claims = (L.withQueue c.host r.queue r.run).claims →
      M.executing = some { c0 with queue := r.queue, yieldRun := r.run } := by
    intro M hM
    exact LineState.executing_of_mem (by rw [hM]; exact hS.law.2.2.2.2) (by rw [hM]; exact hS.mem)
      (by show c0.state.isExecuting = true; rw [h.state]; exact h.executing)
  unfold advance
  simp only [hr]
  dsimp only [LineOut.afterSeg]
  split <;> rename_i hv
  · dsimp only [LineOut.quiet]
    refine ⟨⟨by rw [startFront_claims]; exact hS.law, ?_⟩, by rw [startFront_claims]; exact hw⟩
    have heng : (LineState.startFront ctx { L.withQueue c.host r.queue r.run with lastEnded := r.last } r.queue
        (fresh || decide (r.queue.length < q.length))).engine = .running := startFront_engine ctx _ _ (hs hv)
    refine ⟨fun h => ?_, fun _ => ⟨_, hexec _ (by rw [startFront_claims]), hs hv⟩, fun h => ?_, fun h => ?_⟩ <;>
      simp [heng] at h
  · split
    · rename_i hhold
      refine ⟨⟨hS.law, ?_⟩, hw⟩
      refine ⟨fun h => ?_, fun h => ?_, fun _ => ⟨_, hexec _ rfl, h.state.trans hhold, hem hv⟩, fun h => ?_⟩ <;>
        simp [LineOut.quiet, LineState.starve] at h
    · rename_i hnh
      have := stopClaim_law (ctx := ctx) hS' hnh hne
      exact ⟨this.1, this.2.trans hw⟩
  · have hnh : c.state ≠ .holding := by
      rcases hst hv with hc | hc | ⟨_, hc⟩ <;> simp [hc]
    have := stopClaim_law (ctx := ctx) hS' hnh hne
    exact ⟨this.1, this.2.trans hw⟩

/-- The line whose running segment has ended still has its claim standing, with what is left of its queue. -/
theorem LineState.Stands.endRunning {L : LineState} {c c0 : Claim} {e : Entry} {rest : List Entry}
    (h : L.Stands c (e :: rest) c0) (outcome : SegOutcome) :
    (Machine.endRunning L c e rest outcome).Stands c (queueAfterEnd e rest outcome)
        { c0 with queue := queueAfterEnd e rest outcome, yieldRun := c.yieldRun }
      ∧ ClaimsWithin (Machine.endRunning L c e rest outcome).claims L.claims := by
  have hlen : (queueAfterEnd e rest outcome).length ≤ c0.queue.length := by
    have := h.entries
    unfold queueAfterEnd; split <;> simp_all; omega
  have hS := h.withQueue (q' := queueAfterEnd e rest outcome) (run := c.yieldRun)
  refine ⟨⟨hS.law, hS.mem, hS.host, hS.state, hS.executing, hS.entries⟩, ?_⟩
  show ClaimsWithin (L.withQueue c.host (queueAfterEnd e rest outcome) c.yieldRun).claims L.claims
  rw [← h.host]; exact withQueue_within h.law.1 h.mem hlen

theorem naturalEnd_law {ctx : LineCtx} {L : LineState} {c c0 : Claim} {e : Entry} {rest : List Entry}
    {r : SenseResult} {v : Nat} (h : L.Stands c (e :: rest) c0) (he : L.engine = .running) :
    (naturalEnd ctx L c e rest r v).line.ListLaw
      ∧ ClaimsWithin (naturalEnd ctx L c e rest r v).line.claims L.claims := by
  obtain ⟨hS, hw⟩ := h.endRunning .done
  unfold naturalEnd
  dsimp only [LineOut.afterSeg]
  split
  · have := advance_law (ctx := ctx) (run := ‹Nat›) (fresh := true) hS (Or.inl he)
    exact ⟨this.1, this.2.trans hw⟩
  · rename_i hg
    have hnh : c.state ≠ .holding := by
      rcases ClaimState.CanStop.of_goesOnAtEnd hg with hc | hc | ⟨_, hc⟩ <;> simp [hc]
    have := stopClaim_law (ctx := ctx) hS hnh (by rw [show (endRunning L c e rest .done).engine = .running from he]; simp)
    exact ⟨this.1, this.2.trans hw⟩

theorem cutAndStop_law {ctx : LineCtx} {L : LineState} {c c0 : Claim} {e : Entry} {rest : List Entry}
    (h : L.Stands c (e :: rest) c0) (he : L.engine = .running) (hs : c.state.CanStop) :
    (cutAndStop ctx L c e rest).line.ListLaw ∧ ClaimsWithin (cutAndStop ctx L c e rest).line.claims L.claims := by
  obtain ⟨hS, hw⟩ := h.endRunning (cutOutcome c e.seg)
  have hnh : c.state ≠ .holding := by rcases hs with hc | hc | ⟨_, hc⟩ <;> simp [hc]
  have := stopClaim_law (ctx := ctx) hS hnh
    (by rw [show (endRunning L c e rest (cutOutcome c e.seg)).engine = .running from he]; simp)
  exact ⟨this.1, this.2.trans hw⟩

theorem flushCut_law {ctx : LineCtx} {L : LineState} {c c0 : Claim} {e : Entry} {rest : List Entry}
    (h : L.Stands c (e :: rest) c0) (he : L.engine = .running) :
    (flushCut ctx L c e rest).line.ListLaw ∧ ClaimsWithin (flushCut ctx L c e rest).line.claims L.claims := by
  obtain ⟨hS, hw⟩ := h.endRunning .stopped
  have hadv := advance_law (ctx := ctx) (run := c.yieldRun) (fresh := true) hS (Or.inl he)
  have hstop : c.state ≠ .holding → _ := fun hnh => stopClaim_law (ctx := ctx) hS hnh
    (by rw [show (endRunning L c e rest .stopped).engine = .running from he]; simp)
  unfold flushCut
  dsimp only [LineOut.afterSeg]
  split <;> rename_i hst
  all_goals first
    | exact ⟨hadv.1, hadv.2.trans hw⟩
    | exact ⟨(hstop (by simp [hst])).1, (hstop (by simp [hst])).2.trans hw⟩

/-! ### Points that stand at an instant, and changes of the list -/

/-- What a line needs before its points are looked at: the law of its list, and an executing claim where the engine
calls for one, with an entry where it runs. -/
def LineState.CheckLaw (L : LineState) : Prop :=
  ClaimsLaw L.claims
    ∧ (L.engine = .idle ∨ L.engine = .retired → L.claims = [])
    ∧ (L.engine = .running → ∃ c, L.executing = some c ∧ c.queue ≠ [])
    ∧ (L.engine = .starved → ∃ c, L.executing = some c ∧ (c.state = .holding → c.queue = []))

theorem LineState.ListLaw.check {L : LineState} (h : L.ListLaw) : L.CheckLaw :=
  ⟨h.1, h.2.1, h.2.2.1, fun he => (h.2.2.2.1 he).imp fun _ hc => ⟨hc.1, fun _ => hc.2.2⟩⟩

/-- The executing claim of a line stands for itself. -/
theorem LineState.Stands.of_executing {L : LineState} (hl : ClaimsLaw L.claims) {c : Claim}
    (hc : L.executing = some c) : L.Stands c c.queue c :=
  ⟨hl, (LineState.mem_of_executing hc).1, rfl, rfl, (LineState.mem_of_executing hc).2, le_refl _⟩

theorem checkNow_law {ctx : LineCtx} {L : LineState} (h : L.CheckLaw) :
    (checkNow ctx L).line.ListLaw ∧ ClaimsWithin (checkNow ctx L).line.claims L.claims := by
  obtain ⟨hl, hi, hr, hs⟩ := h
  have hquiet : L.EngineLaw → (LineOut.quiet L).line.ListLaw ∧ ClaimsWithin (LineOut.quiet L).line.claims L.claims :=
    fun he => ⟨⟨hl, he⟩, .refl _⟩
  unfold checkNow
  split
  · rename_i hx
    refine hquiet ⟨hi, fun he => ?_, fun he => ?_, fun _ c hc => ?_⟩
    · obtain ⟨c, hc, _⟩ := hr he; rw [hx] at hc; simp at hc
    · obtain ⟨c, hc, _⟩ := hs he; rw [hx] at hc; simp at hc
    · rw [hx] at hc; simp at hc
  · rename_i c hx
    have hS := LineState.Stands.of_executing hl hx
    -- an engine in which the executing claim is kept
    have hkept : (L.engine = .guard ∨ L.engine = .faulted ∨ L.engine = .halted) →
        (c.state = .holding ∨ c.state = .leaving false) → L.EngineLaw := by
      intro he hc
      refine ⟨hi, fun h => ?_, fun h => ?_, fun _ d hd => ?_⟩
      · rcases he with he | he | he <;> simp [he] at h
      · rcases he with he | he | he <;> simp [he] at h
      · rw [hx] at hd; simp only [Option.some.injEq] at hd; rw [← hd]; exact hc
    have hother : (L.engine = .guard ∨ L.engine = .faulted ∨ L.engine = .halted) →
        (match c.state with
          | .yielding | .leaving true | .ending _ => stopClaim ctx L c
          | .waiting | .taking | .holding | .leaving false => .quiet L).line.ListLaw
        ∧ ClaimsWithin (match c.state with
          | .yielding | .leaving true | .ending _ => stopClaim ctx L c
          | .waiting | .taking | .holding | .leaving false => .quiet L).line.claims L.claims := by
      intro he
      have hne : L.engine ≠ .idle ∧ L.engine ≠ .retired := by rcases he with he | he | he <;> simp [he]
      have hxe := hS.executing
      split <;> rename_i hst
      · exact stopClaim_law hS (by simp [hst]) hne
      · exact stopClaim_law hS (by simp [hst]) hne
      · exact stopClaim_law hS (by simp [hst]) hne
      · simp [hst, ClaimState.isExecuting] at hxe
      · simp [hst, ClaimState.isExecuting] at hxe
      · exact hquiet (hkept he (Or.inl hst))
      · exact hquiet (hkept he (Or.inr hst))
    split <;> rename_i heng
    · have := hi (Or.inl heng); rw [LineState.executing, this] at hx; simp at hx
    · have := hi (Or.inr heng); rw [LineState.executing, this] at hx; simp at hx
    · split
      · rename_i hhold
        refine hquiet ⟨hi, fun h => ?_, fun _ => ?_, fun h => ?_⟩
        · simp [heng] at h
        · obtain ⟨d, hd, hq⟩ := hs heng
          exact ⟨d, hd, by rw [hx] at hd; simp only [Option.some.injEq] at hd; rw [← hd]; exact hhold,
            hq (by rw [hx] at hd; simp only [Option.some.injEq] at hd; rw [← hd]; exact hhold)⟩
        · simp [heng] at h
      · rename_i hnh; exact stopClaim_law hS hnh (by simp [heng])
    · exact hother (Or.inl heng)
    · exact hother (Or.inr (Or.inl heng))
    · exact hother (Or.inr (Or.inr heng))
    · have hrun : L.EngineLaw := by
        refine ⟨hi, hr, fun h => ?_, fun h => ?_⟩ <;> simp [heng] at h
      split
      · exact hquiet hrun
      · rename_i e rest hq
        rw [hq] at hS
        split
        · split
          · exact naturalEnd_law hS heng
          · split
            · rename_i hst
              split
              · exact naturalEnd_law hS heng
              · exact cutAndStop_law hS heng (ClaimState.CanStop.of_stopsAtCyclePoint hst)
            · exact hquiet hrun
        · split
          · rename_i hst
            refine cutAndStop_law hS heng ?_
            cases hcs : c.state <;> simp_all [ClaimState.isEnding, ClaimState.CanStop]
          · exact hquiet hrun
        all_goals exact hquiet hrun

/-- The executing claim after the states of a list are set, seen from before: the engine keeps one with its queue. -/
theorem settle_executing {cs : List Claim} (he : (cs.filter fun c => c.state.isExecuting).length ≤ 1) {c : Claim}
    (hc : c ∈ cs) (hx : c.state.isExecuting = true) : ∃ d ∈ settle cs, d.state.isExecuting = true ∧ d.queue = c.queue := by
  cases cs with
  | nil => simp at hc
  | cons b bs =>
    rcases List.mem_cons.mp hc with rfl | hc
    · exact ⟨asHead c, by simp [settle], by rw [asHead_isExecuting]; exact hx, by unfold asHead; split <;> rfl⟩
    · exact ⟨behindHead c, by simp only [settle, List.mem_cons, List.mem_map]; exact Or.inr ⟨c, hc, rfl⟩,
        by rw [behindHead_isExecuting]; exact hx, by unfold behindHead; split <;> rfl⟩

/-- A claim list replaced by one that keeps the executing claim, at most one claim executing. -/
theorem withClaims_law {ctx : LineCtx} {L : LineState} {cs : List Claim} (h : L.ListLaw)
    (hn : (cs.map Claim.host).Nodup) (hp : cs.Pairwise (fun a b => b.priority ≤ a.priority))
    (he : (cs.filter fun c => c.state.isExecuting).length ≤ 1)
    (hkeep : ∀ c ∈ L.claims, c.state.isExecuting = true → c ∈ cs)
    (hi : L.engine = .idle ∨ L.engine = .retired → cs = []) :
    (withClaims ctx L cs).line.ListLaw ∧ ClaimsWithin (withClaims ctx L cs).line.claims cs := by
  have hlaw := settle_claimsLaw hn hp he
  have hexec : ∀ c, L.executing = some c →
      ∃ d, ({ L with claims := settle cs } : LineState).executing = some d ∧ d.queue = c.queue := by
    intro c hc
    have hm := LineState.mem_of_executing hc
    obtain ⟨d, hd, hdx, hq⟩ := settle_executing he (hkeep c hm.1 hm.2) hm.2
    exact ⟨d, LineState.executing_of_mem hlaw.2.2.2.2 hd hdx, hq⟩
  have hc : ({ L with claims := settle cs } : LineState).CheckLaw := by
    refine ⟨hlaw, fun hx => ?_, fun hx => ?_, fun hx => ?_⟩
    · show settle cs = []
      rw [hi hx]; rfl
    · obtain ⟨c, hc, hq⟩ := h.2.2.1 hx
      obtain ⟨d, hd, hdq⟩ := hexec c hc
      exact ⟨d, hd, by rw [hdq]; exact hq⟩
    · obtain ⟨c, hc, _, hq⟩ := h.2.2.2.1 hx
      obtain ⟨d, hd, hdq⟩ := hexec c hc
      exact ⟨d, hd, fun _ => by rw [hdq]; exact hq⟩
  have := checkNow_law (ctx := ctx) hc
  exact ⟨this.1, this.2.trans (settle_within cs)⟩

/-! ### Claims entering, ending and leaving -/

theorem mem_insertClaim {c d : Claim} : ∀ {cs : List Claim}, d ∈ insertClaim c cs ↔ d = c ∨ d ∈ cs
  | [] => by simp [insertClaim]
  | b :: bs => by
    simp only [insertClaim]
    split
    · simp
    · simp only [List.mem_cons, mem_insertClaim]; tauto

theorem insertClaim_priorities {c : Claim} : ∀ {cs : List Claim}, cs.Pairwise (fun a b => b.priority ≤ a.priority) →
    (insertClaim c cs).Pairwise (fun a b => b.priority ≤ a.priority)
  | [], _ => by simp [insertClaim]
  | b :: bs, h => by
    have ⟨h1, h2⟩ := List.pairwise_cons.mp h
    simp only [insertClaim]
    split
    · rename_i hlt
      refine List.pairwise_cons.mpr ⟨fun d hd => ?_, h⟩
      rcases List.mem_cons.mp hd with rfl | hd
      · omega
      · have := h1 d hd; omega
    · rename_i hlt
      refine List.pairwise_cons.mpr ⟨fun d hd => ?_, insertClaim_priorities h2⟩
      rcases mem_insertClaim.mp hd with rfl | hd
      · omega
      · exact h1 d hd

theorem insertClaim_perm (c : Claim) : ∀ cs : List Claim, (insertClaim c cs).Perm (c :: cs)
  | [] => .refl _
  | b :: bs => by
    simp only [insertClaim]
    split
    · exact .refl _
    · exact ((insertClaim_perm c bs).cons b).trans (.swap c b bs)

theorem entriesOf_perm {h : HostNo} {cs ds : List Claim} (hp : cs.Perm ds) : entriesOf h cs = entriesOf h ds :=
  ((hp.filter _).map _).sum_eq

theorem enlist_law {ctx : LineCtx} {L : LineState} {c : Claim} (h : L.ListLaw) (hnew : ∀ d ∈ L.claims, d.host ≠ c.host)
    (hq : c.queue = []) (hret : L.engine ≠ .retired) :
    (enlist ctx L c).line.ListLaw ∧ ∀ g, entriesOf g (enlist ctx L c).line.claims ≤ entriesOf g L.claims := by
  unfold enlist
  dsimp only
  split
  · rename_i hi
    simp only [Bool.and_eq_true, List.isEmpty_iff, beq_iff_eq] at hi
    refine ⟨⟨?_, ?_⟩, fun g => ?_⟩
    · simp [LineOut.quiet, ClaimsLaw, ClaimState.headLike, ClaimState.isExecuting]
    · refine ⟨fun hx => ?_, fun hx => ?_, fun _ => ⟨{ c with state := .holding }, rfl, rfl, hq⟩, fun hx => ?_⟩ <;>
        simp [LineOut.quiet] at hx
    · rw [show (LineOut.quiet _).line.claims = [{ c with state := .holding }] from rfl, hi.1, entriesOf_cons]
      simp [hq]
  · rename_i hi
    have hperm := insertClaim_perm { c with state := .waiting } L.claims
    have hcount : ((insertClaim { c with state := .waiting } L.claims).filter fun c => c.state.isExecuting).length ≤ 1 := by
      rw [(hperm.filter _).length_eq]
      simpa [ClaimState.isExecuting] using h.1.2.2.2.2
    have hnd : ((insertClaim { c with state := .waiting } L.claims).map Claim.host).Nodup := by
      rw [(hperm.map _).nodup_iff, List.map_cons, List.nodup_cons]
      refine ⟨?_, h.1.1⟩
      intro hm
      obtain ⟨d, hd, hh⟩ := List.mem_map.mp hm
      exact hnew d hd hh
    have hl : ({ L with arrivals := L.arrivals + 1 } : LineState).ListLaw := h
    have := withClaims_law (ctx := ctx) (L := { L with arrivals := L.arrivals + 1 }) hl hnd
      (insertClaim_priorities h.1.2.1) hcount (fun d hd _ => mem_insertClaim.mpr (Or.inr hd)) (by
        intro hx
        rcases hx with hx | hx
        · have hcl : L.claims = [] := h.2.1 (Or.inl hx)
          have hidle : L.engine = .idle := hx
          simp [hcl, hidle] at hi
        · exact absurd hx hret)
    refine ⟨this.1, fun g => ?_⟩
    refine le_trans (this.2.entries g) (le_of_eq ?_)
    rw [entriesOf_perm hperm, entriesOf_cons]
    simp [hq]

/-- The claim of a host changed to another executing state. -/
theorem ClaimsLaw.changeExecuting {cs : List Claim} {c : Claim} {f : Claim → Claim} (hl : ClaimsLaw cs) (hc : c ∈ cs)
    (hx : c.state.isExecuting = true)
    (hf : ∀ d, (f d).host = d.host ∧ (f d).priority = d.priority ∧ (f d).state.isExecuting = true)
    (hhead : (f c).state.headLike = true) (htail : (f c).state.behindLike = true ∨ cs.head? = some c) :
    ClaimsLaw (mapHost c.host f cs) := by
  obtain ⟨h1, h2, h3, h4, h5⟩ := hl
  have hsame : ∀ d ∈ cs, d.host = c.host → d = c := fun d hd hh => eq_of_host h1 hc hd hh
  refine ⟨?_, ?_, ?_, ?_, ?_⟩
  · rw [mapHost, List.map_map]
    rwa [show Claim.host ∘ (fun d => if d.host = c.host then f d else d) = Claim.host from
      funext fun d => by simp only [Function.comp]; split <;> simp [hf d]]
  · rw [mapHost, List.pairwise_map]
    refine h2.imp fun {a b} hab => ?_
    have ha := (hf a).2.1; have hb := (hf b).2.1
    split <;> split <;> omega
  · intro d hd
    cases cs with
    | nil => simp [mapHost] at hd
    | cons b bs =>
      simp only [mapHost, List.map_cons, List.head?_cons, Option.mem_def, Option.some.injEq] at hd
      split at hd
      · rename_i hb; rw [← hd, hsame b (by simp) hb]; exact hhead
      · rw [← hd]; exact h3 b (by simp)
  · intro d hd
    rw [mapHost, ← List.map_tail] at hd
    obtain ⟨b, hb, rfl⟩ := List.mem_map.mp hd
    split
    · rename_i hh
      rw [hsame b (List.mem_of_mem_tail hb) hh]
      rcases htail with ht | ht
      · exact ht
      · exfalso
        cases cs with
        | nil => simp at ht
        | cons a as =>
          simp only [List.head?_cons, Option.some.injEq] at ht
          simp only [List.tail_cons] at hb
          rw [List.map_cons, List.nodup_cons] at h1
          exact h1.1 (List.mem_map.mpr ⟨b, hb, by rw [hh, ht]⟩)
    · exact h4 b hb
  · rw [mapHost, List.filter_map, List.length_map]
    refine le_trans (le_of_eq ?_) h5
    congr 1
    refine List.filter_congr fun d hd => ?_
    simp only [Function.comp]
    split
    · rename_i hh; rw [(hf d).2.2, hsame d hd hh, hx]
    · rfl

/-- A line whose executing claim of host `h` changes to an executing state that is not HOLDING, with its queue kept. -/
theorem checkLaw_of_change {L : LineState} {c : Claim} {f : Claim → Claim} (h : L.ListLaw) (hc : c ∈ L.claims)
    (hx : c.state.isExecuting = true)
    (hf : ∀ d, (f d).host = d.host ∧ (f d).priority = d.priority ∧ (f d).state.isExecuting = true)
    (hq : (f c).queue = c.queue) (hnh : (f c).state ≠ .holding)
    (hhead : (f c).state.headLike = true) (htail : (f c).state.behindLike = true ∨ L.claims.head? = some c) :
    ({ L with claims := mapHost c.host f L.claims } : LineState).CheckLaw := by
  have hlaw := h.1.changeExecuting hc hx hf hhead htail
  have hex : ({ L with claims := mapHost c.host f L.claims } : LineState).executing = some (f c) :=
    LineState.executing_of_mem hlaw.2.2.2.2 (mem_mapHost hc rfl) (hf c).2.2
  have hold := LineState.executing_of_mem h.1.2.2.2.2 hc hx
  refine ⟨hlaw, fun he => ?_, fun he => ⟨f c, hex, ?_⟩, fun he => ⟨f c, hex, fun hh => absurd hh hnh⟩⟩
  · have := h.2.1 he; rw [this] at hc; simp at hc
  · obtain ⟨d, hd, hdq⟩ := h.2.2.1 he
    rw [hold] at hd; simp only [Option.some.injEq] at hd
    rw [hq, hd]; exact hdq

theorem endClaim_law {ctx : LineCtx} {L : LineState} {c : Claim} {cause : EndingCause} (h : L.ListLaw)
    (hc : c ∈ L.claims) (hx : c.state.isExecuting = true) :
    (endClaim ctx L c.host cause).line.ListLaw
      ∧ ClaimsWithin (endClaim ctx L c.host cause).line.claims L.claims := by
  have hcl := checkLaw_of_change (f := Claim.toEnding cause) h hc hx (fun _ => ⟨rfl, rfl, rfl⟩) rfl
    (by simp [Claim.toEnding]) rfl (Or.inl rfl)
  have := checkNow_law (ctx := ctx) hcl
  exact ⟨this.1, this.2.trans (mapHost_within fun _ _ _ => ⟨rfl, rfl, le_refl _⟩)⟩

theorem drainClaim_law {ctx : LineCtx} {L : LineState} {c : Claim} (h : L.ListLaw)
    (hc : c ∈ L.claims) (hs : c.state = .holding) :
    (drainClaim ctx L c.host).line.ListLaw ∧ ClaimsWithin (drainClaim ctx L c.host).line.claims L.claims := by
  have hhead : L.claims.head? = some c := by
    cases hcl : L.claims with
    | nil => rw [hcl] at hc; simp at hc
    | cons b bs =>
      rw [hcl] at hc
      rcases List.mem_cons.mp hc with rfl | hc
      · rfl
      · have := h.1.2.2.2.1 c (by rw [hcl]; exact hc)
        rw [hs] at this; simp [ClaimState.behindLike] at this
  have hcl := checkLaw_of_change (f := fun c => { c with state := .leaving false }) h hc (by rw [hs]; rfl)
    (fun _ => ⟨rfl, rfl, rfl⟩) rfl (by simp) rfl (Or.inr hhead)
  have := checkNow_law (ctx := ctx) hcl
  exact ⟨this.1, this.2.trans (mapHost_within fun _ _ _ => ⟨rfl, rfl, le_refl _⟩)⟩

theorem dropClaim_law {ctx : LineCtx} {L : LineState} {h : HostNo} (hl : L.ListLaw)
    (hx : ∀ c ∈ L.claims, c.host = h → c.state.isExecuting = false) :
    (dropClaim ctx L h).line.ListLaw ∧ ClaimsWithin (dropClaim ctx L h).line.claims (removeHost h L.claims) := by
  have hw := removeHost_within h L.claims
  have ⟨hn, hp⟩ := hw.ordered hl.1
  refine withClaims_law hl hn hp ?_ ?_ ?_
  · refine le_trans (List.Sublist.length_le ?_) hl.1.2.2.2.2
    exact (List.filter_sublist (p := fun c : Claim => c.host != h)).filter _
  · intro c hc hcx
    simp only [removeHost, List.mem_filter, bne_iff_ne]
    exact ⟨hc, fun hh => by rw [hx c hc hh] at hcx; simp at hcx⟩
  · intro he; rw [removeHost, hl.2.1 he]; rfl

theorem expireClaim_law {ctx : LineCtx} {L : LineState} {h : HostNo} (hl : L.ListLaw) :
    (expireClaim ctx L h).line.ListLaw ∧ ClaimsWithin (expireClaim ctx L h).line.claims L.claims := by
  unfold expireClaim
  split
  · exact ⟨hl, .refl _⟩
  · rename_i c hc
    obtain ⟨hm, rfl⟩ := LineState.claimOf_mem hc
    have hdrop : c.state.isExecuting = false → (dropClaim ctx L c.host).line.ListLaw
        ∧ ClaimsWithin (dropClaim ctx L c.host).line.claims L.claims := by
      intro hx
      have := dropClaim_law (ctx := ctx) (h := c.host) hl fun d hd hh => by rw [eq_of_host hl.1.1 hm hd hh]; exact hx
      exact ⟨this.1, this.2.trans (removeHost_within _ _)⟩
    split <;> rename_i hst
    · exact endClaim_law hl hm (by rw [hst]; rfl)
    · exact endClaim_law hl hm (by rw [hst]; rfl)
    · exact endClaim_law hl hm (by rw [hst]; rfl)
    · exact hdrop (by rw [hst]; rfl)
    · exact hdrop (by rw [hst]; rfl)
    · exact ⟨hl, .refl _⟩

theorem releaseClaim_law {ctx : LineCtx} {L : LineState} {c : Claim} {option : ReleaseOption} (hl : L.ListLaw)
    (hm : c ∈ L.claims) :
    (releaseClaim ctx L c option).line.ListLaw
      ∧ ClaimsWithin (releaseClaim ctx L c option).line.claims L.claims := by
  have hdrop : c.state.isExecuting = false → (dropClaim ctx L c.host).line.ListLaw
      ∧ ClaimsWithin (dropClaim ctx L c.host).line.claims L.claims := by
    intro hx
    have := dropClaim_law (ctx := ctx) (h := c.host) hl fun d hd hh => by rw [eq_of_host hl.1.1 hm hd hh]; exact hx
    exact ⟨this.1, this.2.trans (removeHost_within _ _)⟩
  unfold releaseClaim
  split <;> rename_i hst
  · exact hdrop (by rw [hst]; rfl)
  · exact hdrop (by rw [hst]; rfl)
  · exact ⟨hl, .refl _⟩
  · exact ⟨hl, .refl _⟩
  · exact drainClaim_law hl hm hst
  · exact endClaim_law hl hm (by rw [hst]; rfl)
  · exact endClaim_law hl hm (by rw [hst]; rfl)
  · exact endClaim_law hl hm (by rw [hst]; rfl)

/-- A host's queue shortened, but not emptied while the line runs: the law is kept. -/
theorem trimQueue_law {L : LineState} {h : HostNo} {n : Nat} (hl : L.ListLaw) (hn : L.engine = .running → 1 ≤ n) :
    ({ L with claims := mapHost h (fun d => { d with queue := d.queue.take n }) L.claims } : LineState).ListLaw
      ∧ ClaimsWithin (mapHost h (fun d => { d with queue := d.queue.take n }) L.claims) L.claims := by
  have hw : ClaimsWithin (mapHost h (fun d => { d with queue := d.queue.take n }) L.claims) L.claims :=
    mapHost_within fun d _ _ => ⟨rfl, rfl, by simp⟩
  have hlaw : ClaimsLaw (mapHost h (fun d => { d with queue := d.queue.take n }) L.claims) :=
    ClaimsLaw.onHost (f := fun d => { d with queue := d.queue.take n }) (fun _ => ⟨rfl, rfl, rfl⟩) hl.1
  have hexec : ∀ c, L.executing = some c →
      ({ L with claims := mapHost h (fun d => { d with queue := d.queue.take n }) L.claims } : LineState).executing
        = some (if c.host = h then { c with queue := c.queue.take n } else c) := by
    intro c hc
    have hm := LineState.mem_of_executing hc
    refine LineState.executing_of_mem hlaw.2.2.2.2 (List.mem_map.mpr ⟨c, hm.1, rfl⟩) ?_
    split <;> exact hm.2
  have hback : ∀ d, ({ L with claims := mapHost h (fun d => { d with queue := d.queue.take n }) L.claims }
      : LineState).executing = some d → ∃ c, L.executing = some c ∧ d.state = c.state := by
    intro d hd
    have hm := LineState.mem_of_executing hd
    obtain ⟨c, hc, hcd⟩ := List.mem_map.mp hm.1
    have hst : d.state = c.state := by rw [← hcd]; split <;> rfl
    exact ⟨c, LineState.executing_of_mem hl.1.2.2.2.2 hc (by rw [← hst]; exact hm.2), hst⟩
  refine ⟨⟨hlaw, fun he => ?_, fun he => ?_, fun he => ?_, fun he d hd => ?_⟩, hw⟩
  · show mapHost h _ L.claims = []
    rw [hl.2.1 he]; rfl
  · obtain ⟨c, hc, hq⟩ := hl.2.2.1 he
    refine ⟨_, hexec c hc, ?_⟩
    have := hn he
    split
    · cases hcq : c.queue with
      | nil => exact absurd hcq hq
      | cons e es => simp only [ne_eq, List.take_eq_nil_iff]; simp; omega
    · exact hq
  · obtain ⟨c, hc, hs, hq⟩ := hl.2.2.2.1 he
    refine ⟨_, hexec c hc, ?_, ?_⟩
    · split <;> exact hs
    · split
      · show c.queue.take n = []; rw [hq]; simp
      · exact hq
  · obtain ⟨c, hc, hst⟩ := hback d hd
    rw [hst]; exact hl.2.2.2.2 he c hc

theorem departClaim_law {ctx : LineCtx} {L : LineState} {h : HostNo} (hl : L.ListLaw) :
    (departClaim ctx L h).line.ListLaw ∧ ClaimsWithin (departClaim ctx L h).line.claims L.claims := by
  have htrim : ∀ M : LineState, M.ListLaw ∧ ClaimsWithin M.claims L.claims → _ := fun M hM =>
    trimQueue_law (h := h) (n := if M.engine = .running then 1 else 0) hM.1 (fun he => by rw [if_pos he])
  unfold departClaim
  split
  · exact ⟨hl, .refl _⟩
  · rename_i c hc
    obtain ⟨hm, rfl⟩ := LineState.claimOf_mem hc
    have hdrop : c.state.isExecuting = false → (dropClaim ctx L c.host).line.ListLaw
        ∧ ClaimsWithin (dropClaim ctx L c.host).line.claims L.claims := by
      intro hx
      have := dropClaim_law (ctx := ctx) (h := c.host) hl fun d hd hh => by rw [eq_of_host hl.1.1 hm hd hh]; exact hx
      exact ⟨this.1, this.2.trans (removeHost_within _ _)⟩
    dsimp only
    split <;> rename_i hst
    · have := endClaim_law (ctx := ctx) (cause := .departed) hl hm (by rw [hst]; rfl)
      exact ⟨(htrim _ this).1, (htrim _ this).2.trans this.2⟩
    · have := endClaim_law (ctx := ctx) (cause := .departed) hl hm (by rw [hst]; rfl)
      exact ⟨(htrim _ this).1, (htrim _ this).2.trans this.2⟩
    · have := endClaim_law (ctx := ctx) (cause := .departed) hl hm (by rw [hst]; rfl)
      exact ⟨(htrim _ this).1, (htrim _ this).2.trans this.2⟩
    · have := hdrop (by rw [hst]; rfl)
      exact ⟨(htrim _ this).1, (htrim _ this).2.trans this.2⟩
    · have := hdrop (by rw [hst]; rfl)
      exact ⟨(htrim _ this).1, (htrim _ this).2.trans this.2⟩
    · exact htrim L ⟨hl, .refl _⟩

/-! ### Faults, supply and SETUP -/

theorem enterSafeStop_law {ctx : LineCtx} {L : LineState} {target : EngineState} {outcome : SegOutcome}
    (hl : L.ListLaw) (ht : target = .faulted ∨ target = .halted) :
    (enterSafeStop ctx L target outcome).line.ListLaw
      ∧ ClaimsWithin (enterSafeStop ctx L target outcome).line.claims L.claims := by
  -- a list in its law, with the engine in the target, is ready to be looked at
  have hcheck : ∀ M : LineState, ClaimsLaw M.claims → M.engine = target → M.CheckLaw := by
    intro M hM he
    refine ⟨hM, fun h => ?_, fun h => ?_, fun h => ?_⟩ <;> rcases ht with ht | ht <;> simp [he, ht] at h
  unfold enterSafeStop
  split
  · rename_i hx
    refine ⟨⟨hl.1, fun h => ?_, fun h => ?_, fun h => ?_, fun _ c hc => ?_⟩, .refl _⟩
    · rcases ht with ht | ht <;> simp [LineOut.quiet, ht] at h
    · rcases ht with ht | ht <;> simp [LineOut.quiet, ht] at h
    · rcases ht with ht | ht <;> simp [LineOut.quiet, ht] at h
    · have : L.executing = some c := hc
      rw [hx] at this; simp at this
  · rename_i c hx
    split
    · rename_i e rest heng hq
      have hS := LineState.Stands.of_executing hl.1 hx
      rw [hq] at hS
      obtain ⟨hE, hw⟩ := hS.endRunning outcome
      have := checkNow_law (ctx := ctx)
        (hcheck { endRunning L c e rest outcome with engine := target, guardRemaining := 0 } hE.law rfl)
      exact ⟨this.1, this.2.trans hw⟩
    · exact checkNow_law (ctx := ctx) (hcheck { L.clearRun with engine := target, guardRemaining := 0 } hl.1 rfl)

/-- A line with no claims satisfies the law in every state but RUNNING and STARVED. -/
theorem listLaw_nil {L : LineState} (hc : L.claims = []) (he : L.engine ≠ .running ∧ L.engine ≠ .starved) :
    L.ListLaw := by
  refine ⟨by rw [hc]; exact claimsLaw_nil, fun _ => hc, fun h => absurd h he.1, fun h => absurd h he.2, fun _ c hx => ?_⟩
  rw [LineState.executing, hc] at hx; simp at hx

theorem retireLine_law (ctx : LineCtx) (L : LineState) :
    (retireLine ctx L).line.ListLaw ∧ (retireLine ctx L).line.claims = [] :=
  ⟨listLaw_nil rfl ⟨by simp [retireLine], by simp [retireLine]⟩, rfl⟩

theorem setupLine_law (ctx : LineCtx) (L : LineState) :
    (setupLine ctx L).line.ListLaw ∧ (setupLine ctx L).line.claims = [] := by
  refine ⟨listLaw_nil rfl ⟨?_, ?_⟩, rfl⟩ <;> (unfold setupLine; dsimp only; split <;> (try split) <;> simp)

theorem leaveSafeStop_law {ctx : LineCtx} {L : LineState} (hl : L.ListLaw)
    (he : L.engine = .faulted ∨ L.engine = .halted) :
    (leaveSafeStop ctx L).line.ListLaw ∧ ClaimsWithin (leaveSafeStop ctx L).line.claims L.claims := by
  have hx := hl.2.2.2.2 (Or.inr he)
  have hkept : ∀ c ∈ L.claims, c.state.isExecuting = true → c.state = .holding ∨ c.state = .leaving false :=
    fun c hc hcx => hx c (LineState.executing_of_mem hl.1.2.2.2.2 hc hcx)
  refine guardOrTake_law ctx L hl.1.1 hl.1.2.1 ?_ ?_
  · intro d hd
    by_contra hdx
    simp only [Bool.not_eq_false] at hdx
    have := hl.1.2.2.2.1 d hd
    rcases hkept d (List.mem_of_mem_tail hd) hdx with h | h <;> simp [h, ClaimState.behindLike] at this
  · intro c hc
    cases hs : c.state <;> simp only [ClaimState.isEnding]
    have := hkept c (List.mem_of_mem_head? hc) (by rw [hs]; rfl)
    simp [hs] at this

theorem guardEnd_law {ctx : LineCtx} {L : LineState} (hl : L.ListLaw) (he : L.engine = .guard) :
    (takeLine ctx { L with guardRemaining := 0 } L.claims).line.ListLaw
      ∧ ClaimsWithin (takeLine ctx { L with guardRemaining := 0 } L.claims).line.claims L.claims := by
  refine takeLine_law ctx _ L.claims hl.1.1 hl.1.2.1 ?_
  intro d hd
  by_contra hdx
  simp only [Bool.not_eq_false] at hdx
  have := hl.1.2.2.2.1 d hd
  have hex := LineState.executing_of_mem hl.1.2.2.2.2 (List.mem_of_mem_tail hd) hdx
  rcases hl.2.2.2.2 (Or.inl he) d hex with h | h <;> simp [h, ClaimState.behindLike] at this

theorem faultLine_law {ctx : LineCtx} {L : LineState} (hl : L.ListLaw) :
    (faultLine ctx L).line.ListLaw ∧ ClaimsWithin (faultLine ctx L).line.claims L.claims := by
  unfold faultLine
  split
  · exact enterSafeStop_law hl (Or.inl rfl)
  · dsimp only
    split
    · exact enterSafeStop_law (L := { L with faultCount := L.faultCount + 1 }) hl (Or.inl rfl)
    · have := retireLine_law ctx { L with faultCount := L.faultCount + 1 }
      exact ⟨this.1, by rw [this.2]; exact .nil⟩

/-! ### Work submitted and removed -/

theorem appendWork_law {L : LineState} {h : HostNo} {segs : List Segment} (hl : L.ListLaw) :
    ClaimsLaw (L.appendWork h segs).claims
      ∧ (∀ c, (L.appendWork h segs).executing = some c → ∃ c0, L.executing = some c0 ∧ c.state = c0.state
          ∧ c.host = c0.host ∧ c.queue = if c0.host = h then c0.queue ++ segs.map (⟨·, false⟩) else c0.queue)
      ∧ (∀ c0, L.executing = some c0 → ∃ c, (L.appendWork h segs).executing = some c) := by
  have hlaw : ClaimsLaw (L.appendWork h segs).claims :=
    ClaimsLaw.onHost (f := fun c => { c.restartLease with queue := c.queue ++ segs.map (⟨·, false⟩) })
      (fun _ => ⟨rfl, rfl, rfl⟩) hl.1
  refine ⟨hlaw, fun c hc => ?_, fun c0 hc0 => ?_⟩
  · have hm := LineState.mem_of_executing hc
    obtain ⟨c0, hc0, hcd⟩ := List.mem_map.mp hm.1
    have hst : c.state = c0.state := by rw [← hcd]; split <;> rfl
    refine ⟨c0, LineState.executing_of_mem hl.1.2.2.2.2 hc0 (by rw [← hst]; exact hm.2), hst, ?_, ?_⟩
    · rw [← hcd]; split <;> rfl
    · rw [← hcd]; split <;> rfl
  · have hm := LineState.mem_of_executing hc0
    exact ⟨_, LineState.executing_of_mem hlaw.2.2.2.2 (List.mem_map.mpr ⟨c0, hm.1, rfl⟩) (by split <;> exact hm.2)⟩

/-- Work for a claim that is not the executing one of a STARVED line: the law is kept. -/
theorem appendWork_engineLaw {L : LineState} {h : HostNo} {segs : List Segment} (hl : L.ListLaw)
    (hs : L.engine = .starved → ∀ c, L.executing = some c → c.host ≠ h) : (L.appendWork h segs).ListLaw := by
  obtain ⟨hlaw, hback, hfwd⟩ := appendWork_law (h := h) (segs := segs) hl
  refine ⟨hlaw, fun he => ?_, fun he => ?_, fun he => ?_, fun he c hc => ?_⟩
  · show mapHost h _ L.claims = []
    rw [hl.2.1 he]; rfl
  · obtain ⟨c0, hc0, hq⟩ := hl.2.2.1 he
    obtain ⟨c, hc⟩ := hfwd c0 hc0
    obtain ⟨c1, hc1, _, _, hcq⟩ := hback c hc
    rw [hc0] at hc1; simp only [Option.some.injEq] at hc1; subst hc1
    refine ⟨c, hc, ?_⟩
    rw [hcq]; split
    · simp [hq]
    · exact hq
  · obtain ⟨c0, hc0, hst, hq⟩ := hl.2.2.2.1 he
    obtain ⟨c, hc⟩ := hfwd c0 hc0
    obtain ⟨c1, hc1, hst1, _, hcq⟩ := hback c hc
    rw [hc0] at hc1; simp only [Option.some.injEq] at hc1; subst hc1
    exact ⟨c, hc, hst1.trans hst, by rw [hcq, if_neg (hs he c0 hc0)]; exact hq⟩
  · obtain ⟨c0, hc0, hst, _, _⟩ := hback c hc
    rw [hst]; exact hl.2.2.2.2 he c0 hc0

theorem submitTo_law {ctx : LineCtx} {L : LineState} {h : HostNo} {segs : List Segment} (hl : L.ListLaw) :
    (submitTo ctx L h segs).line.ListLaw
      ∧ ClaimsWithin (submitTo ctx L h segs).line.claims (L.appendWork h segs).claims := by
  obtain ⟨hlaw, hback, hfwd⟩ := appendWork_law (h := h) (segs := segs) hl
  unfold submitTo
  split
  · rename_i hx
    refine ⟨appendWork_engineLaw hl fun he => ?_, .refl _⟩
    obtain ⟨c0, hc0, _⟩ := hl.2.2.2.1 he
    obtain ⟨c, hc⟩ := hfwd c0 hc0
    rw [hx] at hc; simp at hc
  · rename_i c hx
    obtain ⟨c0, hc0, hst, hho, hq⟩ := hback c hx
    split
    · split <;> rename_i heng
      · exact advance_law (LineState.Stands.of_executing hlaw hx) (Or.inr heng)
      · exact checkNow_law (appendWork_engineLaw hl fun he => by rw [heng] at he; simp at he).check
      all_goals exact ⟨appendWork_engineLaw hl fun he => by rw [heng] at he; simp at he, .refl _⟩
    · rename_i hne
      refine ⟨appendWork_engineLaw hl fun _ d hd => ?_, .refl _⟩
      rw [hc0] at hd; simp only [Option.some.injEq] at hd
      rw [← hd, ← hho]; exact hne

theorem flushedQueue_length (L : LineState) (c : Claim) (scope : FlushScope) :
    (flushedQueue L c scope).length ≤ c.queue.length := by
  unfold flushedQueue
  rw [List.length_append]
  have := List.length_filter_le (fun e => !scope.covers e) (c.queue.drop (runningEntries L c))
  have h2 : (c.queue.take (runningEntries L c)).length + (c.queue.drop (runningEntries L c)).length = c.queue.length := by
    rw [← List.length_append, List.take_append_drop]
  omega

theorem flushedLine_law {L : LineState} {c : Claim} {scope : FlushScope} (hl : L.ListLaw) (hc : c ∈ L.claims) :
    (flushedLine L c scope).ListLaw ∧ ClaimsWithin (flushedLine L c scope).claims L.claims := by
  have hlaw : ClaimsLaw (flushedLine L c scope).claims := withQueue_claimsLaw hl.1
  have hw : ClaimsWithin (flushedLine L c scope).claims L.claims :=
    withQueue_within hl.1.1 hc (flushedQueue_length L c scope)
  have hexec : ∀ d, L.executing = some d → (flushedLine L c scope).executing = some (if d.host = c.host then
      { d with queue := flushedQueue L c scope, yieldRun := flushedYieldRun L c scope } else d) := by
    intro d hd
    have hm := LineState.mem_of_executing hd
    refine LineState.executing_of_mem hlaw.2.2.2.2 (List.mem_map.mpr ⟨d, hm.1, rfl⟩) ?_
    split <;> exact hm.2
  refine ⟨⟨hlaw, fun he => ?_, fun he => ?_, fun he => ?_, fun he d hd => ?_⟩, hw⟩
  · have := hl.2.1 he; rw [this] at hc; simp at hc
  · obtain ⟨d, hd, hq⟩ := hl.2.2.1 he
    refine ⟨_, hexec d hd, ?_⟩
    split
    · rename_i hh
      have hm := LineState.mem_of_executing hd
      have hdc : d = c := eq_of_host hl.1.1 hc hm.1 hh
      subst hdc
      show flushedQueue L d scope ≠ []
      unfold flushedQueue
      have hr : runningEntries L d = 1 := by
        rw [runningEntries, if_pos ⟨he, hm.2⟩]
      rw [hr]
      cases hq' : d.queue with
      | nil => exact absurd hq' hq
      | cons e es => simp
    · exact hq
  · obtain ⟨d, hd, hst, hq⟩ := hl.2.2.2.1 he
    refine ⟨_, hexec d hd, by split <;> exact hst, ?_⟩
    split
    · rename_i hh
      have hm := LineState.mem_of_executing hd
      have hdc : d = c := eq_of_host hl.1.1 hc hm.1 hh
      subst hdc
      have := flushedQueue_length L d scope
      rw [hq] at this
      exact List.length_eq_zero_iff.mp (by simpa using this)
    · exact hq
  · have hm := LineState.mem_of_executing hd
    obtain ⟨d0, hd0, hcd⟩ := List.mem_map.mp hm.1
    have hst : d.state = d0.state := by rw [← hcd]; split <;> rfl
    rw [hst]
    exact hl.2.2.2.2 he d0 (LineState.executing_of_mem hl.1.2.2.2.2 hd0 (by rw [← hst]; exact hm.2))

theorem flushLine_law {ctx : LineCtx} {L : LineState} {c : Claim} {scope : FlushScope} {cut : Bool} (hl : L.ListLaw)
    (hc : c ∈ L.claims) :
    (flushLine ctx L c scope cut).out.line.ListLaw
      ∧ ClaimsWithin (flushLine ctx L c scope cut).out.line.claims L.claims := by
  have hf := flushedLine_law (scope := scope) hl hc
  unfold flushLine
  split
  · rename_i hcut
    simp only [Bool.and_eq_true, flushCuts, beq_iff_eq] at hcut
    split
    · rename_i e rest hq
      have hS : (flushedLine L c scope).Stands { c with queue := e :: rest, yieldRun := flushedYieldRun L c scope }
          (e :: rest) { c with queue := e :: rest, yieldRun := flushedYieldRun L c scope } := by
        refine ⟨hf.1.1, ?_, rfl, rfl, hcut.2.1.2, le_refl _⟩
        rw [← hq]
        exact mem_withQueue hc
      have := flushCut_law (ctx := ctx) hS hcut.2.1.1
      exact ⟨this.1, this.2.trans hf.2⟩
    · exact hf
  · exact hf

end Sys2Proof.Machine
end

