-- ==== Sys2Proof/Laws/Events.lean ====
section
/-! SUPPORT. What each timed event does to its line: it keeps the counters (but the pad of a SENSE that reads HIGH),
leaves FAULTED, RETIRED and HALTED engines alone, keeps the law of the list and lets no claim gain an entry. -/

namespace Sys2Proof.Machine

/-- An event's outcome on a line: the fault count and arrival counter kept, the engine staying, the law kept, no entry
gained. -/
def LineOut.Fair (L : LineState) (o : LineOut) : Prop :=
  o.line.arrivals = L.arrivals ∧ o.line.faultCount = L.faultCount ∧ L.EngineStays o.line
    ∧ (L.ListLaw → o.line.ListLaw ∧ ClaimsWithin o.line.claims L.claims)

theorem LineOut.Fair.of_kept {L : LineState} {o : LineOut} (hk : L.Kept o.line) (he : L.EngineStays o.line)
    (hl : L.ListLaw → o.line.ListLaw ∧ ClaimsWithin o.line.claims L.claims) : o.Fair L := ⟨hk.1, hk.2.1, he, hl⟩

/-- A change of a line that touches neither its engine, its claims nor its counters. -/
theorem LineOut.Fair.of_same {L M : LineState} (h1 : M.engine = L.engine) (h2 : M.claims = L.claims)
    (h3 : M.arrivals = L.arrivals) (h4 : M.faultCount = L.faultCount) : (LineOut.quiet M).Fair L := by
  refine ⟨h3, h4, .of_eq h1, fun hl => ⟨?_, by rw [show (LineOut.quiet M).line = M from rfl, h2]; exact .refl _⟩⟩
  obtain ⟨hc, hi, hr, hs, hg⟩ := hl
  have hx : M.executing = L.executing := by rw [LineState.executing, LineState.executing, h2]
  refine ⟨by rw [show (LineOut.quiet M).line = M from rfl, h2]; exact hc, ?_, ?_, ?_, ?_⟩ <;>
    simp only [LineOut.quiet, h1, h2, hx] <;> assumption

theorem LineState.front_eq {L : LineState} {f : Front} (h : L.front = some f) :
    L.engine = .running ∧ L.executing = some f.claim ∧ f.claim.queue = f.entry :: f.rest := by
  unfold LineState.front at h
  split at h
  · rename_i he hx
    split at h
    · rename_i hq
      simp only [Option.some.injEq] at h
      subst h
      exact ⟨he, hx, hq⟩
    · simp at h
  · simp at h

theorem LineState.front_canFault {L : LineState} {f : Front} (h : L.front = some f) : L.engine.canFault = true := by
  rw [(LineState.front_eq h).1]; rfl

theorem LineState.front_stands {L : LineState} {f : Front} (h : L.front = some f) (hl : L.ListLaw) :
    L.Stands f.claim (f.entry :: f.rest) f.claim := by
  obtain ⟨_, hx, hq⟩ := LineState.front_eq h
  have := LineState.Stands.of_executing hl.1 hx
  rwa [hq] at this

theorem naturalEnd_fair {ctx : LineCtx} {L : LineState} {f : Front} {r : SenseResult} {v : Nat}
    (h : L.front = some f) : (naturalEnd ctx L f.claim f.entry f.rest r v).Fair L :=
  .of_kept (naturalEnd_kept ctx L _ _ _ _ _)
    (.of_canFault (naturalEnd_canFault ctx L _ _ _ _ _ (LineState.front_canFault h)) (LineState.front_canFault h))
    fun hl => naturalEnd_law (LineState.front_stands h hl) (LineState.front_eq h).1

theorem cutAndStop_fair {ctx : LineCtx} {L : LineState} {f : Front} (h : L.front = some f)
    (hs : f.claim.state.CanStop) : (cutAndStop ctx L f.claim f.entry f.rest).Fair L :=
  .of_kept (cutAndStop_kept ctx L _ _ _)
    (.of_canFault (cutAndStop_canFault ctx L _ _ _ (LineState.front_canFault h)) (LineState.front_canFault h))
    fun hl => cutAndStop_law (LineState.front_stands h hl) (LineState.front_eq h).1 hs

theorem leaseExpiryOut_fair {ctx : LineCtx} {L : LineState} {h : HostNo} {o : LineOut}
    (ho : leaseExpiryOut ctx L h = some o) : o.Fair L := by
  unfold leaseExpiryOut at ho
  split at ho
  · simp at ho
  · split at ho
    · simp at ho
    · simp only [Option.some.injEq] at ho
      subst ho
      exact .of_kept (expireClaim_kept ctx L h) (expireClaim_stays ctx L h) fun hl => expireClaim_law hl

theorem guardEndOut_fair {ctx : LineCtx} {L : LineState} {o : LineOut} (ho : guardEndOut ctx L = some o) :
    o.Fair L := by
  unfold guardEndOut at ho
  split at ho
  · rename_i he
    simp only [Option.some.injEq] at ho
    subst ho
    exact .of_kept (LineState.Kept.trans ⟨rfl, rfl, rfl⟩ (takeLine_kept ctx { L with guardRemaining := 0 } _))
      (.of_canFault (takeLine_canFault ctx _ _) (by rw [he]; rfl)) fun hl => guardEnd_law hl he
  · simp at ho

theorem pulsePhaseEndOut_fair {L : LineState} {o : LineOut} (ho : pulsePhaseEndOut L = some o) : o.Fair L := by
  unfold pulsePhaseEndOut at ho
  split at ho
  · simp at ho
  · split at ho
    · split at ho
      · simp only [Option.some.injEq] at ho
        subst ho
        exact .of_same rfl rfl rfl rfl
      · simp at ho
    all_goals simp at ho

/-- The next cycle: the record in the store is replaced, and nothing else of the list. -/
theorem nextCycle_fair {L : LineState} {f : Front} (h : L.front = some f) :
    (LineOut.quiet (nextCycle L f)).Fair L := by
  refine ⟨rfl, rfl, .of_eq rfl, fun hl => ?_⟩
  have hS := LineState.front_stands h hl
  have hx := (LineState.front_eq h).2.1
  have hW := hS.withQueue
    (q' := { f.entry with seg := { f.entry.seg with body := f.entry.seg.body.amended L.staged } } :: f.rest)
    (run := f.claim.yieldRun)
  have hw : ClaimsWithin (nextCycle L f).claims L.claims :=
    withQueue_within hl.1.1 hS.mem (by have := hS.entries; simpa using this)
  refine ⟨⟨hW.law, ?_⟩, hw⟩
  have heng : (nextCycle L f).engine = .running := (LineState.front_eq h).1
  have hex : (nextCycle L f).executing = some { f.claim with
      queue := { f.entry with seg := { f.entry.seg with body := f.entry.seg.body.amended L.staged } } :: f.rest
      yieldRun := f.claim.yieldRun } :=
    LineState.executing_of_mem (L := nextCycle L f) hW.law.2.2.2.2 hW.mem hS.executing
  refine ⟨fun he => ?_, fun _ => ⟨_, hex, by simp⟩, fun he => ?_, fun he => ?_⟩ <;>
    simp [LineOut.quiet, heng] at he

theorem pulseCycleEndOut_fair {ctx : LineCtx} {L : LineState} {o : LineOut} (ho : pulseCycleEndOut ctx L = some o) :
    o.Fair L := by
  unfold pulseCycleEndOut at ho
  split at ho
  · simp at ho
  · rename_i f hf
    split at ho
    · split at ho
      · simp only [Option.some.injEq] at ho; subst ho; exact naturalEnd_fair hf
      · split at ho
        · rename_i hs
          simp only [Option.some.injEq] at ho; subst ho
          exact cutAndStop_fair hf (ClaimState.CanStop.of_stopsAtCyclePoint hs)
        · simp only [Option.some.injEq] at ho; subst ho; exact nextCycle_fair hf
    all_goals simp at ho

theorem carrierElementEndOut_fair {ctx : LineCtx} {L : LineState} {o : LineOut}
    (ho : carrierElementEndOut ctx L = some o) : o.Fair L := by
  unfold carrierElementEndOut at ho
  split at ho
  · simp at ho
  · rename_i f hf
    split at ho
    · split at ho
      · simp only [Option.some.injEq] at ho; subst ho; exact naturalEnd_fair hf
      · split at ho
        · rename_i hs
          simp only [Option.some.injEq] at ho; subst ho
          exact cutAndStop_fair hf (ClaimState.CanStop.of_stopsAtCyclePoint hs)
        · simp only [Option.some.injEq] at ho; subst ho; exact .of_same rfl rfl rfl rfl
    · simp at ho

theorem carrierPartChangeOut_fair {L : LineState} {o : LineOut} (ho : carrierPartChangeOut L = some o) : o.Fair L := by
  unfold carrierPartChangeOut at ho
  split at ho
  · simp at ho
  · split at ho
    · simp only [Option.some.injEq] at ho; subst ho; exact .of_same rfl rfl rfl rfl
    · simp at ho

theorem holdEndOut_fair {ctx : LineCtx} {L : LineState} {o : LineOut} (ho : holdEndOut ctx L = some o) :
    o.Fair L := by
  unfold holdEndOut at ho
  split at ho
  · simp at ho
  · rename_i f hf
    split at ho
    · split at ho
      · simp at ho
      · simp only [Option.some.injEq] at ho; subst ho; exact naturalEnd_fair hf
    all_goals simp at ho

theorem LineState.senseIn_front {L : LineState} {ph : Phase} {f : Front} {limit : Word16}
    (h : L.senseIn ph = some (f, limit)) : L.front = some f := by
  unfold LineState.senseIn at h
  split at h
  · simp at h
  · rename_i g hg
    split at h
    · split at h
      · simp only [Option.some.injEq, Prod.mk.injEq] at h; rw [hg, h.1]
      · simp at h
    all_goals simp at h

theorem remonitor_listLaw {c0 c1 : LineCtx} {L0 L1 : LineState} (h : L1.ListLaw) : (remonitor c0 L0 c1 L1).ListLaw := by
  rw [remonitor_eq]; exact h

/-- The monitor told of a passing level keeps what an event's outcome is. -/
theorem LineOut.Fair.remonitor {c0 c1 : LineCtx} {L L0 : LineState} {o : LineOut} (h : o.Fair L) :
    ({ o with line := Machine.remonitor c0 L0 c1 o.line } : LineOut).Fair L := by
  obtain ⟨ha, hf, he, hl⟩ := h
  refine ⟨by rw [remonitor_arrivals]; exact ha, by rw [remonitor_faultCount]; exact hf, ?_, fun h => ?_⟩
  · simpa only [LineState.EngineStays, remonitor_engine] using he
  · exact ⟨remonitor_listLaw (hl h).1, by rw [remonitor_claims]; exact (hl h).2⟩

theorem senseReleaseOut_fair {ctx : LineCtx} {L : LineState} {o : LineOut} (ho : senseReleaseOut ctx L = some o) :
    o.Fair L := by
  unfold senseReleaseOut at ho
  split at ho
  · simp at ho
  · rename_i f _ hf
    split at ho
    · simp only [Option.some.injEq] at ho; subst ho; exact (naturalEnd_fair (LineState.senseIn_front hf)).remonitor
    · simp only [Option.some.injEq] at ho; subst ho; exact .of_same rfl rfl rfl rfl

theorem sensePadHighOut_fair {ctx : LineCtx} {L : LineState} {o : LineOut} (ho : sensePadHighOut ctx L = some o) :
    o.Fair L := by
  unfold sensePadHighOut at ho
  split at ho
  · simp at ho
  · rename_i f _ hf
    simp only [Option.some.injEq] at ho; subst ho
    have hf' : ({ L with pad := .high } : LineState).front = some f := LineState.senseIn_front hf
    exact naturalEnd_fair (L := { L with pad := .high }) hf'

theorem senseLimitReachedOut_fair {ctx : LineCtx} {L : LineState} {o : LineOut}
    (ho : senseLimitReachedOut ctx L = some o) : o.Fair L := by
  unfold senseLimitReachedOut at ho
  split at ho
  · simp at ho
  · rename_i f _ hf
    split at ho <;>
      (simp only [Option.some.injEq] at ho; subst ho; exact naturalEnd_fair (LineState.senseIn_front hf))

/-- A readback fault acts on a line that can fault, and does what `faultLine` does. -/
theorem readbackFaultOut_eq {ctx : LineCtx} {L : LineState} {o : LineOut} (ho : readbackFaultOut ctx L = some o) :
    L.engine.canFault = true ∧ o = faultLine ctx { L with mismatchAtEntry := none } := by
  unfold readbackFaultOut at ho
  split at ho
  · rename_i h
    simp only [Option.some.injEq] at ho
    exact ⟨h.2, ho.symm⟩
  · simp at ho

/-! ### The passage to the state -/

/-- A line replaced by one in its law. -/
theorem ListLaw.updateLine {s : State} {k : LineNo} {o : LineOut} (h : ListLaw s) (ho : o.line.ListLaw) :
    ListLaw (s.updateLine k o) := by
  intro j
  rw [State.updateLine_lines, PerLine.get_set]
  split
  · exact remonitor_listLaw ho
  · exact h j

theorem ListLaw.applyLine {s : State} {k : LineNo} {o : Option LineOut} (h : ListLaw s)
    (ho : ∀ x, o = some x → x.line.ListLaw) : ListLaw (s.applyLine k o) := by
  cases o with
  | none => exact h
  | some x => exact h.updateLine (ho x rfl)

theorem ListLaw.updateLines {s : State} {f : LineNo → LineOut} {extra : List (List Post)}
    (hf : ∀ k, (f k).line.ListLaw) : ListLaw (s.updateLines f extra) := by
  intro k
  rw [State.updateLines_lines]
  exact remonitor_listLaw (hf k)

theorem ListLaw.of_lines {s t : State} (h : ListLaw s) (hl : t.lines = s.lines) : ListLaw t := by
  intro k; rw [hl]; exact h k

/-- The entries of a host, line by line. -/
theorem State.inUse_eq (s : State) (h : HostNo) :
    s.inUse h = ((List.finRange 8).map fun k => entriesOf h (s.lines.get k).claims).sum := by
  rw [State.inUse, PerLine.toList_eq, List.map_map]; rfl

theorem State.inUse_mono {s t : State} {h : HostNo}
    (hk : ∀ k, entriesOf h (t.lines.get k).claims ≤ entriesOf h (s.lines.get k).claims) : t.inUse h ≤ s.inUse h := by
  rw [State.inUse_eq, State.inUse_eq]
  exact List.sum_le_sum fun k _ => hk k

end Sys2Proof.Machine
end

