-- ==== Sys2Proof/Laws/Memory.lean ====
section
/-! SUPPORT. The access map image: a write is read back and keeps the canonical form, and equal images in canonical
form that read alike are equal data. -/

namespace Sys2Proof.Machine

theorem Memory.read_nil (x : Nat) : Memory.read [] x = mapDefault x := rfl

theorem Memory.read_cons (c : Host.Cell) (m : Memory) (x : Nat) :
    Memory.read (c :: m) x = if c.1 = x then c.2 else Memory.read m x := rfl

/-- A lower bound on the listed offsets may be lowered. -/
theorem Memory.wfFrom_mono {lo lo' : Nat} (h : lo' ≤ lo) : ∀ {m : Memory}, m.wfFrom lo = true → m.wfFrom lo' = true
  | [], _ => rfl
  | c :: m, hm => by
    simp only [Memory.wfFrom, Bool.and_eq_true, decide_eq_true_eq] at hm ⊢
    exact ⟨⟨by omega, hm.1.2⟩, hm.2⟩

/-- Below its listed offsets a canonical image reads as the reset image. -/
theorem Memory.read_of_lt {a : Nat} : ∀ {m : Memory} {lo : Nat}, m.wfFrom lo = true → a < lo → m.read a = mapDefault a
  | [], _, _, _ => rfl
  | c :: m, lo, hm, h => by
    simp only [Memory.wfFrom, Bool.and_eq_true, decide_eq_true_eq] at hm
    rw [Memory.read_cons, if_neg (by omega)]
    exact Memory.read_of_lt hm.2 (by omega)

/-- A write keeps the canonical form. -/
theorem Memory.wfFrom_write {a : Nat} {b : Byte} (ha : a < Config.mapBytes) :
    ∀ {m : Memory} {lo : Nat}, lo ≤ a → m.wfFrom lo = true → (m.write a b).wfFrom lo = true
  | [], lo, hlo, _ => by
    by_cases hb : b = mapDefault a <;> simp [Memory.write, hb, Memory.wfFrom, hlo, ha]
  | c :: m, lo, hlo, hm => by
    simp only [Memory.wfFrom, Bool.and_eq_true, decide_eq_true_eq] at hm
    obtain ⟨⟨h1, h2, h3⟩, h4⟩ := hm
    simp only [Memory.write]
    split
    · rename_i hlt
      split
      · simp only [Memory.wfFrom, Bool.and_eq_true, decide_eq_true_eq]; exact ⟨⟨h1, h2, h3⟩, h4⟩
      · rename_i hb
        simp only [Memory.wfFrom, Bool.and_eq_true, decide_eq_true_eq]
        exact ⟨⟨hlo, ha, hb⟩, ⟨⟨by omega, h2, h3⟩, h4⟩⟩
    · split
      · rename_i heq
        split
        · exact Memory.wfFrom_mono (by omega) h4
        · rename_i hb
          simp only [Memory.wfFrom, Bool.and_eq_true, decide_eq_true_eq]
          exact ⟨⟨hlo, ha, hb⟩, by rw [heq]; exact h4⟩
      · simp only [Memory.wfFrom, Bool.and_eq_true, decide_eq_true_eq]
        exact ⟨⟨h1, h2, h3⟩, Memory.wfFrom_write ha (by omega) h4⟩

theorem Memory.wf_write {m : Memory} {a : Nat} {b : Byte} (ha : a < Config.mapBytes) (hm : m.wf = true) :
    (m.write a b).wf = true := Memory.wfFrom_write ha (Nat.zero_le _) hm

/-- A run of writes within the image keeps the canonical form. -/
theorem Memory.wf_writeAll : ∀ {bs : List Byte} {m : Memory} {a : Nat}, a + bs.length ≤ Config.mapBytes →
    m.wf = true → (m.writeAll a bs).wf = true
  | [], _, _, _, hm => hm
  | b :: bs, m, a, h, hm => by
    simp only [List.length_cons] at h
    rw [Memory.writeAll]
    exact Memory.wf_writeAll (by omega) (Memory.wf_write (by omega) hm)

/-- What is read after a write: the byte written at its offset, the old byte elsewhere. -/
theorem Memory.read_write_from {a x : Nat} {b : Byte} : ∀ {m : Memory} {lo : Nat}, m.wfFrom lo = true →
    (m.write a b).read x = if x = a then b else m.read x
  | [], _, _ => by
    by_cases hb : b = mapDefault a
    · rw [Memory.write, if_pos hb]; split
      · next h => subst h; exact hb.symm
      · rfl
    · rw [Memory.write, if_neg hb, Memory.read_cons, Memory.read_nil]
      by_cases hx : x = a
      · rw [if_pos hx.symm, if_pos hx]
      · rw [if_neg (Ne.symm hx), if_neg hx]
  | c :: m, lo, hm => by
    simp only [Memory.wfFrom, Bool.and_eq_true, decide_eq_true_eq] at hm
    obtain ⟨⟨h1, h2, h3⟩, h4⟩ := hm
    simp only [Memory.write]
    split
    · rename_i hlt
      split
      · rename_i hb
        split
        · rename_i hx
          rw [hx, hb]
          exact Memory.read_of_lt (m := c :: m) (lo := c.1)
            (by simp only [Memory.wfFrom, Bool.and_eq_true, decide_eq_true_eq]; exact ⟨⟨le_refl _, h2, h3⟩, h4⟩) hlt
        · rfl
      · rw [Memory.read_cons (a, b)]
        by_cases hx : x = a
        · rw [if_pos hx.symm, if_pos hx]
        · rw [if_neg (Ne.symm hx), if_neg hx]
    · split
      · rename_i heq
        split
        · rename_i hb
          split
          · rename_i hx
            rw [hx, hb]; exact Memory.read_of_lt h4 (by omega)
          · rename_i hx
            exact (if_neg (fun hc : c.1 = x => hx (hc.symm.trans heq.symm))).symm
        · rw [Memory.read_cons, Memory.read_cons]
          by_cases hx : x = a
          · rw [if_pos hx.symm, if_pos hx]
          · rw [if_neg (Ne.symm hx), if_neg hx, if_neg (fun hc : c.1 = x => hx (hc.symm.trans heq.symm))]
      · rw [Memory.read_cons, Memory.read_cons, Memory.read_write_from h4]
        split <;> split <;> first | rfl | omega

theorem Memory.read_write {m : Memory} (hm : m.wf = true) (a x : Nat) (b : Byte) :
    (m.write a b).read x = if x = a then b else m.read x := Memory.read_write_from hm

/-- What is read after a run of writes within the image. -/
theorem Memory.read_writeAll : ∀ {bs : List Byte} {m : Memory} {a : Nat} (x : Nat), a + bs.length ≤ Config.mapBytes →
    m.wf = true →
    (m.writeAll a bs).read x = if a ≤ x ∧ x < a + bs.length then bs.getD (x - a) 0x00 else m.read x
  | [], _, _, _, _, _ => by rw [if_neg (by simp)]; rfl
  | b :: bs, m, a, x, h, hm => by
    simp only [List.length_cons] at h ⊢
    rw [Memory.writeAll, Memory.read_writeAll x (by omega) (Memory.wf_write (by omega) hm), Memory.read_write hm]
    by_cases hx : x = a
    · subst hx; rw [if_neg (by omega), if_pos rfl, if_pos (by omega)]; simp
    · rw [if_neg hx]
      by_cases hin : a + 1 ≤ x ∧ x < a + 1 + bs.length
      · rw [if_pos hin, if_pos (by omega), show x - a = (x - (a + 1)) + 1 by omega]; simp
      · rw [if_neg hin, if_neg (by omega)]

/-- A range read is the bytes of its offsets in order. -/
theorem Memory.readRange_eq (m : Memory) : ∀ (n a : Nat), m.readRange a n = (List.range n).map fun i => m.read (a + i)
  | 0, _ => rfl
  | n + 1, a => by
    rw [Memory.readRange, Memory.readRange_eq m n (a + 1), List.range_succ_eq_map]
    simp [Function.comp_def, Nat.add_assoc, Nat.add_comm 1]

/-! ### The items of the image (Table 10-1) -/

/-- The items do not overlap: one that starts before another ends before it starts. -/
theorem mapItems_apart : ∀ i ∈ mapItems, ∀ j ∈ mapItems, i.1 < j.1 → i.1 + i.2 ≤ j.1 := by decide +kernel

/-- The three sizes of item, by where the item lies. -/
theorem mapItems_sizes : ∀ i ∈ mapItems,
    (i.1 < 4 ∧ i.2 = 1) ∨ (4 ≤ i.1 ∧ i.1 < 124 ∧ i.2 = 3) ∨ (124 ≤ i.1 ∧ i.1 + i.2 ≤ 132 ∧ i.2 = 4) := by
  decide +kernel

/-- Whether an item is valid depends on its own bytes only. -/
theorem itemValid_congr {m m' : Memory} {i : Nat × Nat} (hi : i ∈ mapItems)
    (h : ∀ x, i.1 ≤ x → x < i.1 + i.2 → m.read x = m'.read x) : itemValid m i.1 = itemValid m' i.1 := by
  rcases mapItems_sizes i hi with ⟨h1, h2⟩ | ⟨h1, h2, h3⟩ | ⟨h1, h2, h3⟩
  · simp [itemValid, h1]
  · have e0 := h i.1 (by omega) (by omega)
    have e1 := h (i.1 + 1) (by omega) (by omega)
    have e2 := h (i.1 + 2) (by omega) (by omega)
    simp only [itemValid, e0, e1, e2]
    have : ¬ i.1 < 4 := by omega
    by_cases h100 : i.1 < 100 <;> simp [this, h100, h2]
  · have e0 := h i.1 (by omega) (by omega)
    have e1 := h (i.1 + 1) (by omega) (by omega)
    have e2 := h (i.1 + 2) (by omega) (by omega)
    have e3 := h (i.1 + 3) (by omega) (by omega)
    simp only [itemValid, e0, e1, e2, e3]

/-- An accepted write keeps the canonical form and the ranges of the fields (R144, R146). -/
theorem mapAfterWrite_law {m m' : Memory} {offset : Nat} {bytes : List Byte} (hm : m.wf = true)
    (hv : mapValid m = true) (h : mapAfterWrite m offset bytes = some m') : m'.wf = true ∧ mapValid m' = true := by
  unfold mapAfterWrite at h
  split at h
  · rename_i hc
    obtain ⟨hlen, hcov, hval⟩ := hc
    simp only [Option.some.injEq] at h
    subst h
    refine ⟨Memory.wf_writeAll hlen hm, ?_⟩
    simp only [coversWholeItems, Bool.and_eq_true, List.any_eq_true, beq_iff_eq] at hcov
    obtain ⟨⟨a, ha, haoff⟩, ⟨b, hb, hbend⟩⟩ := hcov
    simp only [mapValid, List.all_eq_true] at hv ⊢
    simp only [writtenItemsValid, List.all_eq_true, Bool.or_eq_true, Bool.not_eq_true', decide_eq_false_iff_not] at hval
    intro i hi
    rcases hval i hi with hout | hin
    · rw [itemValid_congr (m' := m) hi]
      · exact hv i hi
      · intro x hx1 hx2
        rw [Memory.read_writeAll x hlen hm, if_neg]
        have h1 := mapItems_apart i hi a ha
        omega
    · exact hin
  · simp at h

/-- What is read after an accepted write. -/
theorem mapAfterWrite_read {m m' : Memory} {offset : Nat} {bytes : List Byte} (hm : m.wf = true)
    (h : mapAfterWrite m offset bytes = some m') (x : Nat) :
    m'.read x = if offset ≤ x ∧ x < offset + bytes.length then bytes.getD (x - offset) 0x00 else m.read x := by
  unfold mapAfterWrite at h
  split at h
  · rename_i hc
    simp only [Option.some.injEq] at h
    subst h
    exact Memory.read_writeAll x hc.1 hm
  · simp at h

end Sys2Proof.Machine
end

