-- ==== Sys2Proof/Laws/Notices.lean ====
section
/-! SUPPORT. The notice queues: what a posting and the two steps of a FETCH do to a queue that keeps its law. -/

namespace Sys2Proof.Machine

theorem Port.NoticeLaw.of_same {P Q : Port} (h : P.NoticeLaw) (hn : Q.notices = P.notices)
    (hs : Q.nextSeq = P.nextSeq) : Q.NoticeLaw := by
  unfold Port.NoticeLaw at *
  rw [hn, hs]; exact h

/-- An empty queue keeps the law whatever the next number. -/
theorem Port.noticeLaw_nil {P : Port} (h : P.notices = []) : P.NoticeLaw := by
  unfold Port.NoticeLaw
  rw [h]
  exact ⟨by simp, by simp, by simp, by simp⟩

/-- A notice appended to a queue with room for it: at most 14 notices, or an OVERFLOW as the sixteenth. -/
theorem Port.NoticeLaw.append {P : Port} {b : NoticeBody} (h : P.NoticeLaw)
    (hroom : P.notices.length ≤ 14 ∨ (P.notices.length = 15 ∧ ∃ lost, b = .overflow lost)) :
    (P.append b).NoticeLaw := by
  obtain ⟨h1, h2, h3, h4⟩ := h
  have hlen : (P.notices ++ [(⟨P.nextSeq, b, false⟩ : Notice)]).length = P.notices.length + 1 := by simp
  refine ⟨?_, ?_, ?_, ?_⟩
  · show (P.notices ++ [(⟨P.nextSeq, b, false⟩ : Notice)]).length ≤ 16
    omega
  · intro hx
    have hx' : P.notices.length = 15 := by
      have : (P.notices ++ [(⟨P.nextSeq, b, false⟩ : Notice)]).length = 16 := hx
      omega
    rcases hroom with hr | ⟨_, lost, rfl⟩
    · omega
    · exact ⟨P.nextSeq, lost, false, by simp [Port.append]⟩
  · intro i n hi
    have hi' : (P.notices ++ [(⟨P.nextSeq, b, false⟩ : Notice)])[i]? = some n := hi
    show n.seq = (P.nextSeq + 1) - BitVec.ofNat 8 ((P.notices ++ [(⟨P.nextSeq, b, false⟩ : Notice)]).length - i)
    rw [hlen]
    by_cases hlt : i < P.notices.length
    · rw [List.getElem?_append_left hlt] at hi'
      rw [h3 i n hi', show P.notices.length + 1 - i = (P.notices.length - i) + 1 by omega, BitVec.ofNat_add]
      generalize BitVec.ofNat 8 (P.notices.length - i) = x
      show P.nextSeq - x = P.nextSeq + 1 - (x + 1)
      ring
    · rw [List.getElem?_append_right (by omega)] at hi'
      have hi0 : i = P.notices.length := by
        by_contra hne
        rw [List.getElem?_eq_none (by simp; omega)] at hi'
        simp at hi'
      subst hi0
      simp only [Nat.sub_self, List.getElem?_cons_zero, Option.some.injEq] at hi'
      subst hi'
      simp
  · intro i j m n hij hi hj hd
    have hi' : (P.notices ++ [(⟨P.nextSeq, b, false⟩ : Notice)])[i]? = some m := hi
    have hj' : (P.notices ++ [(⟨P.nextSeq, b, false⟩ : Notice)])[j]? = some n := hj
    by_cases hlt : j < P.notices.length
    · rw [List.getElem?_append_left hlt] at hj'
      rw [List.getElem?_append_left (by omega)] at hi'
      exact h4 i j m n hij hi' hj' hd
    · rw [List.getElem?_append_right (by omega)] at hj'
      have : n = ⟨P.nextSeq, b, false⟩ := by
        rcases Nat.eq_zero_or_pos (j - P.notices.length) with h0 | h0
        · rw [h0] at hj'; simpa using hj'.symm
        · rw [List.getElem?_eq_none (by simp; omega)] at hj'; simp at hj'
      rw [this] at hd; simp at hd

/-- A queue with its newest notice replaced by one of the same number, undelivered, an OVERFLOW where it was the
sixteenth. -/
theorem Port.NoticeLaw.replaceLast {P : Port} {older : List Notice} {x y : Notice} (h : P.NoticeLaw)
    (hq : P.notices = older ++ [x]) (hs : y.seq = x.seq) (hd : y.delivered = true → x.delivered = true)
    (ho : ∃ lost, y.body = .overflow lost) : ({ P with notices := older ++ [y] } : Port).NoticeLaw := by
  obtain ⟨h1, h2, h3, h4⟩ := h
  rw [hq] at h1 h3 h4
  have get : ∀ (i : Nat) (n : Notice), (older ++ [y])[i]? = some n →
      ∃ m, (older ++ [x])[i]? = some m ∧ n.seq = m.seq ∧ (n.delivered = true → m.delivered = true)
        ∧ (i < older.length → n = m) := by
    intro i n hi
    by_cases hlt : i < older.length
    · rw [List.getElem?_append_left hlt] at hi ⊢
      exact ⟨n, hi, rfl, id, fun _ => rfl⟩
    · rw [List.getElem?_append_right (by omega)] at hi ⊢
      rcases Nat.eq_zero_or_pos (i - older.length) with h0 | h0
      · rw [h0] at hi ⊢
        simp only [List.getElem?_cons_zero, Option.some.injEq] at hi ⊢
        subst hi
        exact ⟨x, rfl, hs, hd, fun hc => absurd hc hlt⟩
      · rw [List.getElem?_eq_none (by simp; omega)] at hi; simp at hi
  refine ⟨?_, ?_, ?_, ?_⟩
  · show (older ++ [y]).length ≤ 16
    simpa using h1
  · intro _
    obtain ⟨lost, hb⟩ := ho
    exact ⟨y.seq, lost, y.delivered, by show (older ++ [y]).getLast? = _; rw [List.getLast?_concat, ← hb]⟩
  · intro i n hi
    obtain ⟨m, hm, hseq, _, _⟩ := get i n hi
    have := h3 i m hm
    rw [hseq, this]
    simp
  · intro i j m n hij hi hj hdn
    obtain ⟨n', hn', _, hd', _⟩ := get j n hj
    obtain ⟨m', hm', _, _, he⟩ := get i m hi
    have hlt : i < older.length := by
      by_contra hc
      rw [List.getElem?_eq_none (by simp; omega)] at hn'
      simp at hn'
    rw [he hlt]
    exact h4 i j m' n' hij hm' hn' (hd' hdn)

/-- A posting keeps the law of the queue. -/
theorem Port.NoticeLaw.enqueue {P : Port} (h : P.NoticeLaw) (b : NoticeBody) : (P.enqueue b).NoticeLaw := by
  unfold Port.enqueue
  split
  · exact h.append (Or.inl (by omega))
  · rename_i hlen
    split
    · rename_i seq lost d hlast
      obtain ⟨older, hq⟩ := List.getLast?_eq_some_iff.mp hlast
      rw [hq, List.dropLast_concat]
      refine h.replaceLast hq ?_ ?_ ?_
      · unfold raiseOverflow; split <;> rfl
      · unfold raiseOverflow; split <;> simp
      · unfold raiseOverflow; split <;> exact ⟨_, rfl⟩
    · rename_i hlast
      refine h.append (Or.inr ⟨?_, 1, rfl⟩)
      have h1 := h.1
      by_contra hne
      obtain ⟨seq, lost, d, hl⟩ := h.2.1 (by omega)
      exact hlast seq lost d hl

theorem Port.NoticeLaw.post {P : Port} (h : P.NoticeLaw) (b : NoticeBody) : (P.post b).NoticeLaw := by
  unfold Port.post; split
  · exact h.enqueue b
  · exact h

theorem NoticeLaw.post {s : State} (h : NoticeLaw s) (n : Post) : NoticeLaw (s.post n) := by
  intro p
  rw [State.post_ports]; split
  · exact (h p).post n.body
  · exact h p

theorem NoticeLaw.postAll {s : State} (h : NoticeLaw s) (ns : List Post) : NoticeLaw (s.postAll ns) :=
  State.postAll_induct (motive := NoticeLaw) (fun _ n hs => hs.post n) ns s h

/-- A state with the same queues keeps the law. -/
theorem NoticeLaw.of_ports {s t : State} (h : NoticeLaw s)
    (hp : ∀ p, (t.ports.get p).notices = (s.ports.get p).notices ∧ (t.ports.get p).nextSeq = (s.ports.get p).nextSeq) :
    NoticeLaw t := fun p => (h p).of_same (hp p).1 (hp p).2

theorem NoticeLaw.postMerged {s : State} (h : NoticeLaw s) (runs : List (List Post)) : NoticeLaw (s.postMerged runs) :=
  (h.postAll (mergeAll s.orderCount 0 runs)).of_ports fun _ => ⟨rfl, rfl⟩

theorem NoticeLaw.updateLine {s : State} (h : NoticeLaw s) (k : LineNo) (o : LineOut) : NoticeLaw (s.updateLine k o) :=
  NoticeLaw.postAll (s := { s with lines := s.lines.set k (remonitor (s.ctx k) (s.lines.get k) (s.ctx k) o.line) }) h _

theorem NoticeLaw.updateLines {s : State} (h : NoticeLaw s) (f : LineNo → LineOut) (extra : List (List Post)) :
    NoticeLaw (s.updateLines f extra) :=
  NoticeLaw.postMerged
    (s := { s with lines := .ofFn fun k => remonitor (s.ctx k) (s.lines.get k) (s.ctx k) (f k).line }) h _

/-! ### The two steps of a FETCH (R126, R127) -/

/-- What an acknowledgement leaves is what stood behind the notice that carries the number, which was delivered. -/
theorem acknowledge_spec {ack : Byte} : ∀ {q rest : List Notice}, acknowledge q ack = some rest →
    ∃ pre n, q = pre ++ n :: rest ∧ n.seq = ack ∧ n.delivered = true ∧ ∀ m ∈ pre, m.seq ≠ ack
  | [], _, h => by simp [acknowledge] at h
  | a :: q, rest, h => by
    simp only [acknowledge] at h
    split at h
    · rename_i hs
      split at h
      · rename_i hd
        simp only [Option.some.injEq] at h
        exact ⟨[], a, by rw [h]; rfl, hs, hd, by simp⟩
      · simp at h
    · rename_i hs
      obtain ⟨pre, n, hq, hn, hd, hp⟩ := acknowledge_spec h
      refine ⟨a :: pre, n, by rw [hq]; rfl, hn, hd, ?_⟩
      intro m hm
      rcases List.mem_cons.mp hm with rfl | hm
      · exact hs
      · exact hp m hm

/-- The newest notices of a queue keep its law. -/
theorem Port.NoticeLaw.suffix {P : Port} {pre q : List Notice} (h : P.NoticeLaw) (hq : P.notices = pre ++ q)
    (hpre : pre ≠ []) : ({ P with notices := q } : Port).NoticeLaw := by
  obtain ⟨h1, h2, h3, h4⟩ := h
  rw [hq] at h1 h3 h4
  have hl : 0 < pre.length := List.length_pos_iff.mpr hpre
  rw [List.length_append] at h1
  have get : ∀ (i : Nat) (n : Notice), q[i]? = some n → (pre ++ q)[pre.length + i]? = some n := by
    intro i n hi
    rw [List.getElem?_append_right (by omega), show pre.length + i - pre.length = i by omega]; exact hi
  refine ⟨?_, ?_, ?_, ?_⟩
  · show q.length ≤ 16; omega
  · intro hx
    have : q.length = 16 := hx
    omega
  · intro i n hi
    have := h3 _ n (get i n hi)
    rw [this, List.length_append]
    show _ = P.nextSeq - BitVec.ofNat 8 (q.length - i)
    rw [show pre.length + q.length - (pre.length + i) = q.length - i by omega]
  · intro i j m n hij hi hj hd
    exact h4 _ _ m n (by omega) (get i m hi) (get j n hj) hd

/-- The return step keeps the law. -/
theorem Port.NoticeLaw.markDelivered {P : Port} (h : P.NoticeLaw) (maximum : Nat) :
    ({ P with notices := markDelivered P.notices maximum } : Port).NoticeLaw := by
  obtain ⟨h1, h2, h3, h4⟩ := h
  have hlen : (Machine.markDelivered P.notices maximum).length = P.notices.length := by
    simp [Machine.markDelivered]; omega
  have get : ∀ (i : Nat) (n : Notice), (Machine.markDelivered P.notices maximum)[i]? = some n →
      ∃ m, P.notices[i]? = some m ∧ n.seq = m.seq ∧ n.body = m.body
        ∧ (n.delivered = true ↔ i < maximum ∨ m.delivered = true) := by
    intro i n hi
    unfold Machine.markDelivered at hi
    by_cases hlt : i < min maximum P.notices.length
    · rw [List.getElem?_append_left (by simpa using hlt), List.getElem?_map, List.getElem?_take_of_lt (by omega)] at hi
      obtain ⟨m, hm, rfl⟩ := Option.map_eq_some_iff.mp hi
      exact ⟨m, hm, rfl, rfl, by simp; left; omega⟩
    · rw [List.getElem?_append_right (by simp only [List.length_map, List.length_take]; omega)] at hi
      simp only [List.length_map, List.length_take, List.getElem?_drop] at hi
      by_cases hmax : maximum ≤ P.notices.length
      · rw [show maximum + (i - min maximum P.notices.length) = i by omega] at hi
        exact ⟨n, hi, rfl, rfl, ⟨Or.inr, fun hx => hx.resolve_left (by omega)⟩⟩
      · rw [List.getElem?_eq_none (by omega)] at hi
        simp at hi
  refine ⟨?_, ?_, ?_, ?_⟩
  · show (Machine.markDelivered P.notices maximum).length ≤ 16; omega
  · intro hx
    have hx' : (Machine.markDelivered P.notices maximum).length = 16 := hx
    obtain ⟨seq, lost, d, hl⟩ := h2 (by omega)
    rw [List.getLast?_eq_getElem?] at hl
    have hne : 0 < (Machine.markDelivered P.notices maximum).length := by omega
    obtain ⟨n, hn⟩ : ∃ n, (Machine.markDelivered P.notices maximum)[P.notices.length - 1]? = some n :=
      ⟨_, List.getElem?_eq_getElem (by omega)⟩
    obtain ⟨m, hm, hs, hb, _⟩ := get _ n hn
    rw [hm] at hl
    simp only [Option.some.injEq] at hl
    subst hl
    refine ⟨n.seq, lost, n.delivered, ?_⟩
    show (Machine.markDelivered P.notices maximum).getLast? = _
    rw [List.getLast?_eq_getElem?, hlen, hn]
    cases n; simp only at hb; rw [hb]
  · intro i n hi
    obtain ⟨m, hm, hs, _, _⟩ := get i n hi
    show n.seq = P.nextSeq - BitVec.ofNat 8 ((Machine.markDelivered P.notices maximum).length - i)
    rw [hs, h3 i m hm, hlen]
  · intro i j m n hij hi hj hd
    obtain ⟨m', hm, _, _, hmd⟩ := get i m hi
    obtain ⟨n', hn, _, _, hnd⟩ := get j n hj
    rw [hmd]
    rcases hnd.mp hd with hx | hx
    · exact Or.inl (by omega)
    · exact Or.inr (h4 i j m' n' hij hm hn hx)

end Sys2Proof.Machine
end

