-- ==== Sys2Proof/Laws/Outcomes.lean ====
section
/-! SUPPORT. The commands as state functions, the request rows through `serve`, and a line that runs for the HOLDING head
of its list: what the shared operations come to there. -/

namespace Sys2Proof.Machine

/-! ### Requests -/

/-- A request row is its request served. -/
theorem exec_command (r : Request) (p : HostNo) (tag : Byte) (s : State) :
    exec (r.command p tag) s = .next (serve p tag r.name r.lengthOk (r.act p) s) := by cases r <;> rfl

/-- A request taken in the state of its port, with a body of a length it can have. -/
theorem serve_taken {p : HostNo} {tag : Byte} {name : RequestName} {lengthOk : Bool} {act : State → Acted} {s : State}
    (ht : name.takenIn (s.ports.get p).status = true) (hl : lengthOk = true) :
    serve p tag name lengthOk act s = (act s).state.answer p tag (act s).reply := by
  have hn : (s.ports.get p).status ≠ .absent := by
    intro h; rw [h] at ht; cases name <;> simp [RequestName.takenIn] at ht
  simp [serve, hn, ht, hl]

/-- What an answer keeps and a request's act keeps, serving it keeps. -/
theorem serve_keeps {motive : State → Prop} {p : HostNo} {tag : Byte} {name : RequestName} {lengthOk : Bool}
    {act : State → Acted} {s : State} (ha : ∀ (s : State) (tag : Byte) (r : Reply), motive s → motive (s.answer p tag r))
    (hact : motive s → motive (act s).state) (h : motive s) : motive (serve p tag name lengthOk act s) := by
  unfold serve
  split
  · exact h
  · split
    · exact ha _ _ _ h
    · split
      · exact ha _ _ _ h
      · exact ha _ _ _ (hact h)

theorem lineOfByte_of_lt {line : Byte} {k : LineNo} (hk : k.val = line.toNat) : lineOfByte line = some k := by
  have hlt : line.toNat < 8 := by rw [← hk]; exact k.isLt
  simp only [lineOfByte, hlt, dite_true]
  congr 1
  exact Fin.ext hk.symm

theorem lineOfByte_of_ge {line : Byte} (h : 8 ≤ line.toNat) : lineOfByte line = none := by
  simp [lineOfByte, Nat.not_lt.mpr h]

theorem lineOfByte_eq_some {line : Byte} {k : LineNo} (h : lineOfByte line = some k) : k.val = line.toNat := by
  unfold lineOfByte at h
  split at h
  · simp only [Option.some.injEq] at h; rw [← h]
  · simp at h

/-! ### A host's claim in a list -/

theorem mapHost_of_ne {h : HostNo} {f : Claim → Claim} {cs : List Claim} (hne : ∀ c ∈ cs, c.host ≠ h) :
    mapHost h f cs = cs := by
  conv_rhs => rw [← List.map_id cs]
  exact List.map_congr_left fun c hc => if_neg (hne c hc)

theorem mapHost_head {h : HostNo} {d : Claim} {f : Claim → Claim} {cs : List Claim} (hd : d.host = h)
    (hne : ∀ c ∈ cs, c.host ≠ h) : mapHost h f (d :: cs) = f d :: cs := by
  rw [mapHost, List.map_cons, if_pos hd]
  exact congrArg _ (mapHost_of_ne hne)

theorem mapHost_cons_self {c : Claim} {f : Claim → Claim} {cs : List Claim} (hne : ∀ d ∈ cs, d.host ≠ c.host) :
    mapHost c.host f (c :: cs) = f c :: cs := mapHost_head rfl hne

theorem mapHost_cons_ne {h : HostNo} {c : Claim} {f : Claim → Claim} {cs : List Claim} (hc : c.host ≠ h) :
    mapHost h f (c :: cs) = c :: mapHost h f cs := by
  rw [mapHost, List.map_cons, if_neg hc]; rfl

theorem removeHost_of_ne {h : HostNo} {cs : List Claim} (hne : ∀ c ∈ cs, c.host ≠ h) : removeHost h cs = cs :=
  List.filter_eq_self.mpr fun c hc => by simp [hne c hc]

theorem removeHost_cons_self {c : Claim} {cs : List Claim} (hne : ∀ d ∈ cs, d.host ≠ c.host) :
    removeHost c.host (c :: cs) = cs := by
  rw [removeHost, List.filter_cons]
  simp only [bne_self_eq_false, Bool.false_eq_true, if_false]
  exact removeHost_of_ne hne

theorem removeHost_cons_ne {h : HostNo} {c : Claim} {cs : List Claim} (hc : c.host ≠ h) :
    removeHost h (c :: cs) = c :: removeHost h cs := by
  rw [removeHost, List.filter_cons, if_pos (by simp [hc])]; rfl

/-- Claims that wait behind the head are in place. -/
theorem map_behindHead_of_waiting {cs : List Claim} (h : ∀ d ∈ cs, d.state = .waiting) : cs.map behindHead = cs := by
  conv_rhs => rw [← List.map_id cs]
  exact List.map_congr_left fun d hd => by simp [behindHead, h d hd]

/-! ### A change of every claim that keeps host, priority, state and entries -/

theorem LineState.ListLaw.mapClaims {L M : LineState} {f : Claim → Claim}
    (hf : ∀ c, (f c).host = c.host ∧ (f c).priority = c.priority ∧ (f c).state = c.state ∧ (f c).queue = c.queue)
    (hm : M.claims = L.claims.map f) (he : M.engine = L.engine) (h : L.ListLaw) : M.ListLaw := by
  obtain ⟨hc, hi, hr, hs, hg⟩ := h
  have hlaw : ClaimsLaw M.claims := by
    rw [hm]; exact hc.map fun c => ⟨(hf c).1, (hf c).2.1, (hf c).2.2.1⟩
  have hx : M.executing = L.executing.map f := by
    rw [LineState.executing, LineState.executing, hm, List.find?_map]
    congr 2
    exact funext fun c => by simp [Function.comp, (hf c).2.2.1]
  refine ⟨hlaw, fun h => ?_, fun h => ?_, fun h => ?_, fun h c hcx => ?_⟩
  · rw [hm, hi (by rwa [← he]), List.map_nil]
  · obtain ⟨c, hcx, hq⟩ := hr (by rwa [← he])
    exact ⟨f c, by rw [hx, hcx]; rfl, by rw [(hf c).2.2.2]; exact hq⟩
  · obtain ⟨c, hcx, hst, hq⟩ := hs (by rwa [← he])
    exact ⟨f c, by rw [hx, hcx]; rfl, by rw [(hf c).2.2.1]; exact hst, by rw [(hf c).2.2.2]; exact hq⟩
  · rw [hx] at hcx
    obtain ⟨d, hd, rfl⟩ := Option.map_eq_some_iff.mp hcx
    rw [(hf d).2.2.1]; exact hg (by rwa [← he]) d hd

/-- One reference clock changes no host, priority, state or queue of a claim. -/
theorem Claim.elapse_keeps (c : Claim) : c.elapse.host = c.host ∧ c.elapse.priority = c.priority
    ∧ c.elapse.state = c.state ∧ c.elapse.queue = c.queue := by unfold Claim.elapse; split <;> exact ⟨rfl, rfl, rfl, rfl⟩

theorem LineState.elapse_listLaw {ctx : LineCtx} {L : LineState} (h : L.ListLaw) : (L.elapse ctx).ListLaw :=
  LineState.ListLaw.mapClaims Claim.elapse_keeps rfl rfl h

theorem LineState.renewClaim_listLaw {L : LineState} {h : HostNo} {v : Option Word16} (hl : L.ListLaw) :
    (L.renewClaim h v).ListLaw :=
  LineState.ListLaw.mapClaims (f := fun c => if c.host = h then c.renew v else c)
    (fun c => by split <;> exact ⟨rfl, rfl, rfl, rfl⟩) rfl rfl hl

/-! ### A line that runs for its HOLDING head -/

theorem HoldsAndRuns.executing {s : State} {k : LineNo} {c : Claim} {cs : List Claim} {e : Entry} {rest : List Entry}
    (h : HoldsAndRuns s k c cs e rest) : (s.lines.get k).executing = some c := by
  rw [LineState.executing, h.2.1, List.find?_cons_of_pos]
  rw [h.2.2.1]; rfl

theorem HoldsAndRuns.front {s : State} {k : LineNo} {c : Claim} {cs : List Claim} {e : Entry} {rest : List Entry}
    (h : HoldsAndRuns s k c cs e rest) : (s.lines.get k).front = some ⟨c, e, rest⟩ := by
  unfold LineState.front
  simp only [h.1, h.executing, h.2.2.2.1]

theorem HoldsAndRuns.claimOf {s : State} {k : LineNo} {c : Claim} {cs : List Claim} {e : Entry} {rest : List Entry}
    (h : HoldsAndRuns s k c cs e rest) : (s.lines.get k).claimOf c.host = some c := by
  rw [LineState.claimOf, h.2.1, List.find?_cons_of_pos]
  simp

/-- The end of the running segment of the HOLDING head, as a record. -/
theorem endRunning_head {L : LineState} {c : Claim} {cs : List Claim} {e : Entry} {rest : List Entry}
    (hc : L.claims = c :: cs) (hne : ∀ d ∈ cs, d.host ≠ c.host) (outcome : SegOutcome) :
    endRunning L c e rest outcome = { L.clearRun with
      lastEnded := some ⟨outcome, false⟩, claims := { c with queue := queueAfterEnd e rest outcome } :: cs } := by
  unfold endRunning LineState.withQueue
  have : L.clearRun.claims = c :: cs := hc
  rw [this, mapHost_cons_self hne]

/-- The natural end of the running segment of the HOLDING head with nothing behind it: STARVED. -/
theorem naturalEnd_starves {ctx : LineCtx} {L : LineState} {c : Claim} {cs : List Claim} {e : Entry}
    {r : SenseResult} {v : Nat} (hc : L.claims = c :: cs) (hs : c.state = .holding)
    (hne : ∀ d ∈ cs, d.host ≠ c.host) :
    naturalEnd ctx L c e [] r v = ⟨starvedAfterDone L c cs, endPosts ctx.line L c e .done r v, []⟩ := by
  unfold naturalEnd advance
  rw [endRunning_head hc hne]
  simp only [goesOnAtEnd, hs, runQueue]
  simp [LineOut.afterSeg, LineOut.quiet, LineState.withQueue, queueAfterEnd, starvedAfterDone, LineState.starve,
    LineState.clearRun, CarrierGen.stop, hs]
  exact mapHost_head rfl hne

/-- The natural end of the running segment of the HOLDING head with a segment behind it that starts at that instant. -/
theorem naturalEnd_starts {ctx : LineCtx} {L : LineState} {c : Claim} {cs : List Claim} {e e2 : Entry}
    {rest2 : List Entry} {r : SenseResult} {v : Nat} (hc : L.claims = c :: cs) (hs : c.state = .holding)
    (hne : ∀ d ∈ cs, d.host ≠ c.host) (hh : e2.seg.isContinuousHold = false ∨ rest2 = []) :
    naturalEnd ctx L c e (e2 :: rest2) r v =
      ⟨nextAfterDone ctx L c cs e2 rest2, endPosts ctx.line L c e .done r v, []⟩ := by
  have hrun : ∀ cut k, runQueue k cut c (some ⟨.done, false⟩) c.yieldRun (e2 :: rest2) =
      ⟨.starts, e2 :: rest2, some ⟨.done, false⟩, c.yieldRun, []⟩ := by
    intro cut k
    rw [runQueue]
    rcases hh with hh | hh
    · simp [joinHolds, hh]
    · subst hh
      simp [joinHolds, hs, stopsAtCyclePoint]
  unfold naturalEnd advance
  rw [endRunning_head hc hne]
  simp only [goesOnAtEnd, hs, queueAfterEnd]
  simp [hrun, LineOut.afterSeg, LineOut.quiet, LineState.withQueue, nextAfterDone, LineState.startFront,
    LineState.clearRun, CarrierGen.stop, hs]
  exact mapHost_head rfl hne

end Sys2Proof.Machine
end

