-- ==== Sys2Proof/Tests/Slice0.lean ====
section
/-! SUPPORT. The model's own tests: the ill-formed commands, the byte layouts and test values of the spec, and single
steps from small states. -/

namespace Sys2Proof.Tests

open Sys2Proof.Machine

set_option Elab.async false

/-! ### WellFormed: an ill-formed command for each check -/

theorem test_illFormed_deselect : (Instr.deselect 0 [] 8).wellFormed = false ∧ (Instr.deselect 0 [] 7).wellFormed = true :=
  by decide

theorem test_illFormed_writeMap_empty : (Instr.writeMap 0 0 0 []).wellFormed = false
    ∧ (Instr.writeMap 0 0 0 [0]).wellFormed = true := by decide

theorem test_illFormed_writeMap_long : (Instr.writeMap 0 0 0 (List.replicate 57 0)).wellFormed = false
    ∧ (Instr.writeMap 0 0 0 (List.replicate 56 0)).wellFormed = true := by decide

theorem test_illFormed_submit_empty : (Instr.submit 0 0 0 1 []).wellFormed = false
    ∧ (Instr.submit 0 0 0 1 [0]).wellFormed = true := by decide

theorem test_illFormed_submit_long : (Instr.submit 0 0 0 1 (List.replicate 59 0)).wellFormed = false
    ∧ (Instr.submit 0 0 0 1 (List.replicate 58 0)).wellFormed = true := by decide

/-! ### Checks and frames (R161, R166, R175) -/

theorem test_crc8_digits : crc8 [0x31, 0x32, 0x33, 0x34, 0x35, 0x36, 0x37, 0x38, 0x39] = 0xF4 := by decide +kernel

theorem test_crc16_digits : crc16 [0x31, 0x32, 0x33, 0x34, 0x35, 0x36, 0x37, 0x38, 0x39] = 0x29B1 := by decide +kernel

theorem test_nopFrame : Request.nop.frame 0x00 = [0x01, 0x00, 0x00, 0x6B] := by decide +kernel

theorem test_noneFrame : noneFrame = [0x10, 0x00, 0x00, 0xA2] := by decide +kernel

theorem test_receive_wrongCheck : receive [0x01, 0x00, 0x00, 0x6C] 0 = .checkError := by decide +kernel

theorem test_receive_leftOverBits : receive [0x01, 0x00, 0x00, 0x6B] 3 = .framing := by decide +kernel

/-! ### The reset image of Table 10-3 -/

theorem test_resetMap_cell : Memory.read [] 4 = 0x00 ∧ Memory.read [] 5 = 0x03 ∧ Memory.read [] 6 = 0xE8 := by
  decide +kernel

theorem test_resetMap_line : faultWindow [] 7 = 16 ∧ checkEnable [] 7 = true ∧ safeLevel [] 7 = .float
    ∧ guardUnits [] 7 = 0 := by decide +kernel

theorem test_resetMap_carriers : carrierSetting [] .ca = ⟨211, 70⟩ ∧ carrierSetting [] .cb = ⟨140, 47⟩ := by
  decide +kernel

/-- Writing back the value of the reset image leaves nothing listed. -/
theorem test_map_canonical : (Memory.write (Memory.write [] 0 0x20) 0 0x00) = [] := by decide +kernel

/-! ### Single steps -/

/-- The state after one step, where the block does not stop. -/
def stepped (s : State) : Option State :=
  match step s with
  | .next t => some t
  | .fault _ => none
  | .refused _ => none

theorem test_reset_idles : (stepped State.reset).map (fun t => (t.pending, t.supply, t.settle)) =
    some ([], .low, none) := by decide +kernel

theorem test_presentRise_opensThePort :
    (stepped { State.reset with pending := [.presentRise 2] }).map (fun t => ((t.ports.get 2).status, t.pending)) =
      some (.open, []) := by decide +kernel

theorem test_requestOnAbsentPort :
    stepped { State.reset with pending := [.nop 0 0x05] } = some State.reset := by decide +kernel

/-- The deselect of a transaction that carried a NOP with tag 05h puts its reply in preparation. -/
theorem test_nopThroughTheTransaction :
    (stepped { State.reset with
      ports := State.reset.ports.set 0 { Port.resetWith true false with
        status := .open, selnLow := true, transaction := some .reply }
      pending := [.deselect 0 [0x01, 0x05, 0x00, 0x2A] 0] }).map (fun t => (t.ports.get 0).preparing) =
    some (some [0x00, 0x05, 0x00, crc8 [0x00, 0x05, 0x00]]) := by decide +kernel

/-- A WRITE_MAP of the quota of H2 to 32 lists one cell. -/
theorem test_writeMap_places :
    (stepped { State.reset with
      ports := State.reset.ports.set 0 { Port.resetWith true false with status := .open }
      pending := [.writeMap 0 0x01 0x02 [0x20]] }).map (fun t => t.map.length) = some 1 := by decide +kernel

/-- A guard with one reference clock left ends at the second step: the clock passes, and the end that is due is taken. -/
theorem test_guard_countsOut :
    ((stepped { State.reset with
      lines := State.reset.lines.set 3 { LineState.resetWith .low with engine := .guard, guardRemaining := 1 } }).bind
        stepped).map (fun t => (t.lines.get 3).engine) = some .idle := by decide +kernel

/-- A bit order that goes wrong nowhere: A5h, its bits, and three bits behind it (R162). -/
theorem test_bits : bitsOfByte 0xA5 = [true, false, true, false, false, true, false, true]
    ∧ deselectAfter 1 (bitsOfByte 0xA5 ++ [true, true, false]) = .deselect 1 [0xA5] 3 := by decide +kernel

/-- A line of L0 that runs one HOLD for H0, at the end of its last tick. -/
def holdAtItsEnd : LineState where
  engine := .running
  progress := ⟨.whole, 4 * Tap.t0.clocks, 0⟩
  startedAtEnd := false
  guardRemaining := 0
  staged := none
  lastEnded := none
  gen := .reset
  senseCounter := 0
  mismatch := none
  mismatchAtEntry := none
  faultForestalled := false
  faultCount := 0
  arrivals := 0
  claims := [⟨0, 3, 0, .cycle, 1, 8000, false, .low, .holding, 0, [⟨⟨0x21, .t0, false, true, .restart, .hold .high 4⟩, false⟩]⟩]
  pad := .high

/-- The lease runs out at the end of the HOLD: its point is its natural end, so it ends DONE and the claim goes LEASE
(R7, R79, R88). -/
theorem test_stopAtTheEndOfAHold :
    (leaseExpiryOut (State.reset.ctx 0) holdAtItsEnd 0).map (fun o => (o.seg, o.claim)) =
      some ([⟨.host 0, .segmentDone 0 0x21⟩], [⟨.host 0, .claimEnded 0 .lease⟩]) := by decide +kernel

/-- A renewal at the instant of the expiry forestalls it (R97). -/
theorem test_renewalFirst :
    (leaseExpiryOut (State.reset.ctx 0) (holdAtItsEnd.renewClaim 0 none) 0).isNone = true
      ∧ (holdAtItsEnd.renewClaim 0 none).claims.map Claim.leaseElapsed = [0] := by decide +kernel

/-- The entry to SETUP at the instant a fault is due: the line is IDLE with its count at 0, and the fault, taken behind it,
leaves it FAULTED uncounted (Table 9-1). -/
theorem test_setupThenFault :
    let entered := (setupLine (State.reset.ctx 0) { holdAtItsEnd with mismatch := some 128, faultCount := 3 }).line
    entered.engine = .idle ∧ entered.mismatch = none ∧ faultAtEntryDue 16 entered = true
      ∧ (readbackFaultOut (State.reset.ctx 0) entered).map (fun o => (o.line.engine, o.line.faultCount, o.posts))
        = some (.faulted, 0, []) := by decide +kernel

/-- A fault due at the end of a cycle, the pad between the thresholds: behind the change of level, which restarts the timer,
the fault is none (row 1 of Table 9-1); with the timer one clock below its window, or before the change, it is one. -/
theorem test_faultBehindAChange :
    let pulse : Entry := ⟨⟨0x25, .t0, false, false, .restart, .pulse 4 2 .activeHigh 0⟩, false⟩
    let s (n : Nat) : State := { State.reset with
      device := .run, supply := .ok, firstSettle := false
      lines := State.reset.lines.set 0 { holdAtItsEnd with
        claims := [⟨0, 3, 0, .cycle, 1, 0, false, .low, .holding, 0, [pulse]⟩]
        progress := ⟨.inactive, 2 * Tap.t0.clocks, 0⟩, pad := .between, mismatch := some n } }
    let count (t : State) := ((t.lines.get 0).mismatch, (t.lines.get 0).faultCount)
    count (pulseCycleEnd 0 (s 128)) = (some 0, 0)
      ∧ count (readbackFault 0 (pulseCycleEnd 0 (s 128))) = (some 0, 0)
      ∧ count (readbackFault 0 (pulseCycleEnd 0 (s 127))) = (none, 1)
      ∧ count (pulseCycleEnd 0 (readbackFault 0 (s 128))) = (none, 1) := by decide +kernel

/-- A write behind the entry to SETUP at one instant: where the entry found the timer below the window, a shorter window
makes no fault due; where it found the window reached, the fault is due still, but not with the check enable turned off
(R133, Table 9-1). The line has safe level LOW, check enable on and a window of 16 µs. -/
theorem test_writeBehindTheEntry :
    let entered (n : Nat) : State := { State.reset with
      supply := .ok, firstSettle := false, map := Memory.writeAll [] 100 [0x80, 0x00, 0x10]
      lines := State.reset.lines.set 0
        (setupLine (State.reset.ctx 0) { holdAtItsEnd with mismatch := some n }).line }
    let due (s : State) (item : List Byte) : Bool :=
      decide (Instr.readbackFault 0 ∈ dueEvents (writeMapTo s (s.map.writeAll 100 item)))
    due (entered 127) [0x80, 0x00, 0x01] = false ∧ due (entered 128) [0x80, 0x00, 0x01] = true
      ∧ due (entered 128) [0x00, 0x00, 0x10] = false := by decide +kernel

/-- The end of an active part of 3 clocks in a mark: the clock that ends it makes the passage due; the command at that
instant, and the clock's own step, both pass to position 3 with no time; and the period of 5 begins anew 2 clocks on. -/
theorem test_partsOfACarrierPeriod :
    let carrier : Entry := ⟨⟨0x24, .t1, false, false, .restart, .carrier .ca .activeHigh [9]⟩, false⟩
    let L : LineState := { holdAtItsEnd with
      claims := [⟨0, 3, 0, .cycle, 1, 0, false, .low, .holding, 0, [carrier]⟩]
      progress := ⟨.element 0, 2, 0⟩, gen := ⟨2, 5, 3, true, false⟩ }
    let s : State := { State.reset with device := .run, lines := State.reset.lines.set 0 L }
    let at3 (t : State) := ((t.lines.get 0).gen.position, (t.lines.get 0).gen.atBoundary, (t.lines.get 0).progress.elapsed)
    at3 (tick s) = (2, true, 3) ∧ dueEvents (tick s) = [.carrierPartChange 0]
      ∧ at3 (carrierPartChange 0 (tick s)) = (3, false, 3) ∧ at3 (tick (tick s)) = (3, false, 3)
      ∧ at3 (tick (tick (tick (tick (tick s))))) = (0, false, 5)
      ∧ at3 (carrierPartChange 0 (carrierPartChange 0 s)) = (0, false, 5) := by decide +kernel

/-- A reply in preparation for 160 clocks is what a select gets; one clock earlier it gets NOT_READY (R168). -/
theorem test_selectAfterTheWait :
    let P (n : Nat) : Port := { Port.resetWith true false with
      status := .open, replyReady := false, preparing := some [0x01], preparingClocks := n }
    (P 160).select.transaction = some .reply ∧ (P 160).select.reply = [0x01]
      ∧ (P 159).select.transaction = some .notReady ∧ (P 159).select.preparing = some [0x01] := by decide +kernel

/-- A release that finds the pad HIGH, with a LOW behind it: the timer that the discharge had started begins again from 0
(R57, R66, R133). -/
theorem test_releaseAbandonsTheWindow :
    let sense : Entry := ⟨⟨0x22, .t0, false, false, .restart, .sense 1 1⟩, false⟩
    let low : Entry := ⟨⟨0x23, .t0, false, false, .restart, .hold .low 4⟩, false⟩
    let L : LineState := { holdAtItsEnd with
      claims := [⟨0, 3, 0, .cycle, 1, 0, false, .low, .holding, 0, [sense, low]⟩]
      progress := ⟨.discharge, 2, 0⟩, mismatch := some 40 }
    let s : State := { State.reset with lines := State.reset.lines.set 0 L }
    ((senseRelease 0 s).lines.get 0).mismatch = some 0 := by decide +kernel

end Sys2Proof.Tests
end

