-- ==== Sys2Proof/Tests/Witnesses.lean ====
section
/-! SUPPORT. For every statement with hypotheses, a state and operands that meet them together, clause by clause, at the
ends of the ranges where a clause has a range. -/

namespace Sys2Proof.Tests

open Sys2Proof.Machine

set_option Elab.async false

/-! ### Small states -/

/-- Quotas 32 for H0 and H1; cells of H0 and H1 on L0 and L1 permitted, may cut, of priority 3 and 5; L0 with safe
level LOW, guard 1 unit, window 16 µs and check enable; L1 with a guard of 0. -/
def demoMap : Memory :=
  ((((Memory.writeAll [] 0 [0x20, 0x20]).writeAll 4 [0xC3, 0x03, 0xE8, 0xC3, 0x03, 0xE8]).writeAll 28
    [0xC5, 0x03, 0xE8, 0xC5, 0x03, 0xE8]).writeAll 100 [0x80, 0x01, 0x10])

/-- A port in a state, nothing else of it changed from reset. -/
def portIn (st : PortStatus) : Port := { Port.resetWith true false with status := st }

def demoClaim (h : HostNo) (prio : Nat) (st : ClaimState) (queue : List Entry) : Claim where
  host := h
  priority := prio
  arrival := 0
  cutMode := .cycle
  leaseValue := 1000
  leaseElapsed := 0
  forestalled := false
  restLevel := .safe
  state := st
  yieldRun := 0
  queue := queue

def seg (label : Byte) (join notify : Bool) (body : SegmentBody) : Segment := ⟨label, .t0, join, notify, .restart, body⟩

/-- A queued or running entry. -/
def entry (label : Byte) (join : Bool) (body : SegmentBody) : Entry := ⟨seg label join true body, false⟩

def pulse (count : Word16) : Entry := entry 0x11 false (.pulse 4 2 .activeHigh count)

/-- A line in an engine state with a claim list. -/
def lineIn (e : EngineState) (cs : List Claim) : LineState := { LineState.resetWith .low with engine := e, claims := cs }

/-- The device in RUN with H0 and H1 attached, L0 as given. -/
def runWith (L : LineState) : State :=
  { State.reset with
    device := .run, supply := .ok, firstSettle := false, map := demoMap
    lines := State.reset.lines.set 0 L
    ports := .ofFn fun h => if h.val < 2 then portIn .attached else State.reset.ports.get h }

/-- The device in SETUP after the first settle, H0 in a state and H1 OPEN. -/
def setupWith (st : PortStatus) : State :=
  { State.reset with
    supply := .ok, firstSettle := false, map := demoMap
    ports := ((State.reset.ports.set 0 (portIn st)).set 1 (portIn .open)) }

/-- A line that runs an entry for the HOLDING claim of H0, with claims behind it. -/
def runningLine (queue : List Entry) (behind : List Claim) : LineState :=
  { lineIn .running (demoClaim 0 3 .holding queue :: behind) with
    progress := ⟨(queue.head?.map fun e => e.seg.body.firstPhase).getD .whole, 0, 0⟩ }

/-! ### Requests and replies -/

/-- Nothing due after reset and at the start of a PULSE; one event due at the end of a guard; two due where a HOLD and a
lease end together. -/
theorem wit_clockAdvances : State.reset.pending = [] ∧ dueEvents State.reset = []
    ∧ (runWith (runningLine [pulse 2] [])).pending = [] ∧ dueEvents (runWith (runningLine [pulse 2] [])) = []
    ∧ (runWith (lineIn .guard [])).pending = [] ∧ dueEvents (runWith (lineIn .guard [])) = [.guardEnd 0]
    ∧ dueEvents (runWith { runningLine [entry 0x13 false (.hold .high 4)] [] with
        claims := [{ demoClaim 0 3 .holding [entry 0x13 false (.hold .high 4)] with leaseElapsed := 8000000 }]
        progress := ⟨.whole, 4 * Tap.t0.clocks, 0⟩ }) = [.holdEnd 0, .leaseExpiry 0 0] := by decide +kernel

theorem wit_portStates : (State.reset.ports.get 0).status = .absent
    ∧ ((setupWith .open).ports.get 0).status ≠ .absent
    ∧ RequestName.takenIn .claim ((setupWith .open).ports.get 0).status = false
    ∧ RequestName.takenIn .writeMap ((setupWith .open).ports.get 0).status = true
    ∧ Request.lengthOk (.writeMap 0 []) = false
    ∧ Request.lengthOk (.writeMap 0 (List.replicate 57 0)) = false
    ∧ Request.lengthOk (.writeMap 0 [0]) = true
    ∧ Request.lengthOk (.writeMap 0 (List.replicate 56 0)) = true := by decide +kernel

theorem wit_replies : ((State.answer (setupWith .open) 0 7 ⟨.ok, []⟩).ports.get 0).preparing
      = some [0x00, 0x07, 0x00, crc8 [0x00, 0x07, 0x00]]
    ∧ ((setupWith .open).ports.get 0).preparing = none := by decide +kernel

/-- A present port, for DEVICE_STATUS, LINE_STATUS, FETCH and the map reads, with the line bytes 7 and 8. -/
theorem wit_presentPort : ((setupWith .open).ports.get 0).status ≠ .absent
    ∧ (7 : LineNo).val = (0x07 : Byte).toNat ∧ 8 ≤ (0x08 : Byte).toNat := by decide +kernel

theorem wit_mapReads : ((0x00 : Byte).toNat = 0) ∧ (56 < (0x39 : Byte).toNat)
    ∧ 132 < (0x84 : Byte).toNat + (0x01 : Byte).toNat
    ∧ (1 ≤ (0x38 : Byte).toNat ∧ (0x38 : Byte).toNat ≤ 56 ∧ (0x4C : Byte).toNat + (0x38 : Byte).toNat ≤ 132) := by
  decide +kernel

/-- A port with a reply in preparation for a number of clocks. -/
def preparingFor (n : Nat) : Port := { portIn .open with preparing := some [0x00], preparingClocks := n }

/-- A reply that has been in preparation for 160 clocks, one for 159, and none. -/
theorem wit_select : ((setupWith .open).ports.get 0).selnLow = false
    ∧ ((setupWith .open).ports.get 0).status ≠ .absent ∧ ((setupWith .open).ports.get 0).preparing = none
    ∧ (((setupWith .open).setPort 0 (preparingFor 160)).ports.get 0).preparing = some [0x00]
    ∧ (((setupWith .open).setPort 0 (preparingFor 160)).ports.get 0).selnLow = false
    ∧ (((setupWith .open).setPort 0 (preparingFor 160)).ports.get 0).status ≠ .absent
    ∧ 160 ≤ (((setupWith .open).setPort 0 (preparingFor 160)).ports.get 0).preparingClocks
    ∧ (((setupWith .open).setPort 0 (preparingFor 159)).ports.get 0).selnLow = false
    ∧ (((setupWith .open).setPort 0 (preparingFor 159)).ports.get 0).preparingClocks < 160
    ∧ (State.reset.ports.get 0).status = .absent
    ∧ ([true, false, true, true, false, false, true] : List Bool).length < 8 := by decide +kernel

/-- A port in a transaction begun with the frame given. -/
def inTransaction (f : FrameChoice) : State :=
  (setupWith .open).setPort 0 { portIn .open with selnLow := true, transaction := some f }

theorem wit_deselect : ((inTransaction .reply).ports.get 0).selnLow = true
    ∧ ((inTransaction .reply).ports.get 0).rxBytes = [] ∧ ((inTransaction .reply).ports.get 0).rxBits = 0
    ∧ ((inTransaction .reply).ports.get 0).transaction = some .reply
    ∧ ((inTransaction .notReady).ports.get 0).transaction = some .notReady
    ∧ ([0x01, 0x00, 0x00] : List Byte) ≠ [] ∧ ([0x01, 0x00, 0x00] : List Byte).length < 4
    ∧ 64 < (List.replicate 65 (0x00 : Byte)).length := by decide +kernel

/-- A length byte of 61; a length of 1 with no body byte; a padding byte 01h; a NOP with another check; and the code 05h,
which no request has, with its own check, alone and padded to 64 bytes. -/
theorem wit_deselect_frames : 60 < (0x3D : Byte).toNat
    ∧ ([0x03, 0x00, 0x01, 0x00] : List Byte).length < 4 + (0x01 : Byte).toNat
    ∧ (∃ b ∈ ([0x01, 0x00, 0x00, 0x6B, 0x01] : List Byte).drop (4 + (0x00 : Byte).toNat), b ≠ 0x00)
    ∧ ([0x01, 0x00, 0x00, 0x6C] : List Byte) = 0x01 :: 0x00 :: BitVec.ofNat 8 0 :: [] ++ 0x6C :: List.replicate 0 0x00
    ∧ (0x6C : Byte) ≠ crc8 [0x01, 0x00, 0x00]
    ∧ (∀ n : RequestName, n.code ≠ 0x05)
    ∧ (0x05 :: 0x07 :: BitVec.ofNat 8 0 :: [] ++ crc8 [0x05, 0x07, 0x00] :: List.replicate 60 0x00 : List Byte).length ≤ 64
    := by refine ⟨?_, ?_, ?_, ?_, ?_, fun n => ?_, ?_⟩ <;> (try cases n) <;> decide +kernel

theorem wit_deselectRuns : Request.lengthOk .nop = true ∧ (Request.frame .nop 0x05).length + 60 ≤ 64
    ∧ Request.lengthOk (.writeMap 0x04 (List.replicate 56 0x00)) = true
    ∧ (Request.frame (.writeMap 0x04 (List.replicate 56 0x00)) 0x05).length + 3 ≤ 64
    ∧ ((inTransaction .reply).ports.get 0).selnLow = true
    ∧ ((inTransaction .reply).ports.get 0).transaction = some .reply
    ∧ ((inTransaction .reply).ports.get 0).rxBytes = [] ∧ ((inTransaction .reply).ports.get 0).rxBits = 0 := by
  decide +kernel

/-- Valid segments of the four kinds, at the ends of their ranges. -/
theorem wit_segments : (seg 0x01 true true (.hold .float 0)).valid = true
    ∧ (seg 0x02 true true (.pulse 2 2 .activeLow 0)).valid = true
    ∧ (seg 0x03 true true (.pulse 65535 0 .activeHigh 65535)).valid = true
    ∧ (seg 0x04 true true (.carrier .cb .activeLow [1])).valid = true
    ∧ (seg 0x05 true true (.carrier .ca .activeHigh (List.replicate 12 65535))).valid = true
    ∧ (seg 0x06 false true (.sense 1 65535)).valid = true := by decide +kernel

/-! ### Notices -/

/-- `n` numbered notices, the first `d` delivered. -/
def queueOf (n d : Nat) : List Notice :=
  (List.range n).map fun i => ⟨BitVec.ofNat 8 i, .setupEntered, decide (i < d)⟩

theorem wit_posting : (portIn .pending).status = .pending ∧ (portIn .absent).status = .absent
    ∧ (portIn .open).status ≠ .absent ∧ (portIn .open).status ≠ .pending
    ∧ (queueOf 14 3).length ≤ 14 ∧ 15 ≤ (queueOf 15 3).length
    ∧ (queueOf 15 3).getLast? = some ⟨14, .setupEntered, false⟩
    ∧ queueOf 15 3 ++ [⟨15, .overflow 65535, true⟩] = queueOf 15 3 ++ [⟨15, .overflow 65535, true⟩]
    ∧ 15 ≤ (queueOf 15 3 ++ [(⟨15, .overflow 65535, true⟩ : Notice)]).length := by decide +kernel

/-- A delivered notice, an undelivered one and a missing number, behind notices of other numbers. -/
theorem wit_fetch : ((setupWith .open).ports.get 0).status ≠ .absent
    ∧ 1 ≤ (0x01 : Byte).toNat ∧ (0x04 : Byte).toNat ≤ 4 ∧ (0x00 : Byte).toNat = 0 ∧ 4 < (0x05 : Byte).toNat
    ∧ queueOf 3 2 = [⟨0, .setupEntered, true⟩] ++ ⟨1, .setupEntered, true⟩ :: [⟨2, .setupEntered, false⟩]
    ∧ (∀ m ∈ ([⟨0, .setupEntered, true⟩] : List Notice), m.seq ≠ 1)
    ∧ queueOf 3 2 = [⟨0, .setupEntered, true⟩, ⟨1, .setupEntered, true⟩] ++ ⟨2, .setupEntered, false⟩ :: []
    ∧ (∀ m ∈ queueOf 3 2, m.seq ≠ 3) := by decide +kernel

/-- A queue of three notices, the first two delivered, that keeps the law, and an acknowledgement that removes both. -/
theorem wit_attn : (portIn .open).status.receives = true ∧ (portIn .open).notices.length ≤ 14
    ∧ acknowledge (queueOf 3 2) 1 = some [⟨2, .setupEntered, false⟩] := by decide +kernel

theorem wit_attn_law : ({ portIn .open with notices := queueOf 3 2, nextSeq := 3 } : Port).NoticeLaw := by
  have h0 : (portIn .open).NoticeLaw := Port.noticeLaw_nil rfl
  have h3 := ((h0.append (b := .setupEntered) (Or.inl (by decide))).append (b := .setupEntered)
    (Or.inl (by decide))).append (b := .setupEntered) (Or.inl (by decide))
  exact h3.markDelivered 2

/-! ### The map and the barrier -/

/-- Every field of a listed image is valid and the image is in its form. -/
theorem wit_mapLaw : (setupWith .open).map.wf = true ∧ mapValid (setupWith .open).map = true := by decide +kernel

/-- One offending write for each check: past the end, off an item, ending inside one, and a value outside its range;
and the first and last writes that pass. -/
theorem wit_writeMapChecks : ((setupWith .open).ports.get 0).status = .open
    ∧ ((setupWith .ready).ports.get 0).status = .ready
    ∧ 132 < (0x84 : Byte).toNat + ([0x00] : List Byte).length
    ∧ (∀ i ∈ mapItems, i.1 ≠ (0x05 : Byte).toNat)
    ∧ (∀ i ∈ mapItems, i.1 + i.2 ≠ (0x04 : Byte).toNat + ([0x80] : List Byte).length)
    ∧ (∃ i ∈ mapItems, (0x04 : Byte).toNat ≤ i.1 ∧ i.1 < (0x04 : Byte).toNat + ([0x08, 0, 1] : List Byte).length
        ∧ itemValid ((setupWith .open).map.writeAll 0x04 [0x08, 0, 1]) i.1 = false) := by decide +kernel

theorem wit_writeMap : ((setupWith .ready).ports.get 0).status = .ready ∧ ((setupWith .ready).ports.get 1).status = .open
    ∧ (0x00 : Byte).toNat + ([0x60] : List Byte).length ≤ 132
    ∧ (∃ i ∈ mapItems, i.1 = (0x00 : Byte).toNat) ∧ (∃ i ∈ mapItems, i.1 + i.2 = (0x00 : Byte).toNat + 1)
    ∧ (∀ i ∈ mapItems, (0x00 : Byte).toNat ≤ i.1 → i.1 < (0x00 : Byte).toNat + 1 →
        itemValid ((setupWith .ready).map.writeAll 0x00 [0x60]) i.1 = true)
    ∧ (0x80 : Byte).toNat + ([0x0F, 0xFF, 0x0F, 0xFE] : List Byte).length ≤ 132
    ∧ (∃ i ∈ mapItems, i.1 = (0x80 : Byte).toNat) ∧ (∃ i ∈ mapItems, i.1 + i.2 = (0x80 : Byte).toNat + 4)
    ∧ (∀ i ∈ mapItems, (0x80 : Byte).toNat ≤ i.1 → i.1 < (0x80 : Byte).toNat + 4 →
        itemValid ((setupWith .ready).map.writeAll 0x80 [0x0F, 0xFF, 0x0F, 0xFE]) i.1 = true) := by decide +kernel

/-- A line in SETUP whose mismatch timer stands at a window of 15 µs, and one whose timer stands one below it. -/
theorem wit_writeMapFaults : (∃ n, ({ lineIn .idle [] with mismatch := some 120 } : LineState).mismatch = some n
      ∧ 15 * 8 ≤ n) ∧ (lineIn .idle []).engine.canFault = true
    ∧ ¬ (∃ n, ({ lineIn .idle [] with mismatch := some 119 } : LineState).mismatch = some n ∧ 15 * 8 ≤ n) := by
  refine ⟨⟨120, rfl, by decide⟩, rfl, ?_⟩
  rintro ⟨n, hn, h⟩
  have : n = 119 := by simpa using hn.symm
  omega

theorem wit_barrierLaw_setup : BarrierLaw (setupWith .ready) := by
  refine ⟨fun h => ?_, fun _ => ⟨?_, by decide +kernel⟩, ?_⟩
  · simp [setupWith, State.reset] at h
  · decide +kernel
  · decide +kernel

theorem wit_barrierLaw_run : BarrierLaw (runWith (LineState.resetWith .low)) := by
  refine ⟨fun _ => ⟨⟨0, by decide +kernel⟩, by decide +kernel, rfl⟩, fun h => ?_, ?_⟩
  · simp [runWith] at h
  · decide +kernel

/-- READY with another digest, with quotas above 96 (here 97), and with the map agreed. -/
theorem wit_ready : ((setupWith .open).ports.get 0).status = .open
    ∧ 96 < quotaSum (demoMap.write 2 0x21) ∧ quotaSum (demoMap.write 2 0x20) ≤ 96 := by decide +kernel

/-- A present port in a state that does not take READY, CLAIM or RENEW. -/
theorem wit_wrongState : ((setupWith .ready).ports.get 0).status ≠ .open
    ∧ ((setupWith .ready).ports.get 0).status ≠ .attached ∧ ((setupWith .ready).ports.get 0).status ≠ .absent := by
  decide +kernel

theorem wit_otherDigest (m : Memory) : m.digest + 1 ≠ m.digest := by simp

/-- The barrier complete with H0 and H1 READY, and not complete with H1 OPEN. -/
theorem wit_barrierEnters : barrierComplete ((setupWith .ready).setPort 1 (portIn .ready)) = true
    ∧ barrierComplete (setupWith .ready) = false := by decide +kernel

/-- The device in RUN with H1 attached and H0 in a state, with a vote open or not. -/
def runPort (st : PortStatus) (vote : Bool) : State :=
  (runWith (LineState.resetWith .low)).setPort 0 { portIn st with vote := vote }

theorem wit_attach : ((runPort .pending false).ports.get 0).status = .pending := by decide +kernel

theorem wit_reopen : ((runPort .attached false).ports.get 0).status = .attached
    ∧ ((runPort .attached false).ports.get 0).vote = false ∧ ((runPort .attached true).ports.get 0).vote = true
    ∧ (0x00 : Byte) ≠ 0x01 ∧ (0x00 : Byte) ≠ 0x02 ∧ (0x03 : Byte) ≠ 0x01 ∧ (0x03 : Byte) ≠ 0x02 := by decide +kernel

theorem wit_barrierReturns : returnComplete (runPort .attached true) = false
    ∧ returnComplete ((runPort .attached true).setPort 1 { portIn .attached with vote := true }) = true := by
  decide +kernel

/-- Every list empty: the law of the lists. -/
theorem wit_listLaw_reset : ListLaw State.reset := by
  intro k
  rw [show State.reset.lines.get k = LineState.resetWith .low from PerLine.get_ofFn _ k]
  exact listLaw_nil rfl ⟨by decide, by decide⟩

/-- H0 detaches or departs while H1 remains without a vote, and while H1 has a vote. -/
theorem wit_detach : ListLaw (runPort .attached false) ∧ ((runPort .attached false).ports.get 0).status = .attached
    ∧ (∃ h : HostNo, h ≠ 0 ∧ ((runPort .attached false).ports.get h).status = .attached
        ∧ ((runPort .attached false).ports.get h).vote = false)
    ∧ (∀ h : HostNo, h ≠ 0 →
        (((runPort .attached false).setPort 1 { portIn .attached with vote := true }).ports.get h).status = .attached →
        (((runPort .attached false).setPort 1 { portIn .attached with vote := true }).ports.get h).vote = true) := by
  refine ⟨fun k => ?_, by decide +kernel, by decide +kernel, by decide +kernel⟩
  have : ∀ k, (runPort .attached false).lines.get k = LineState.resetWith .low := by decide +kernel
  rw [this k]
  exact listLaw_nil rfl ⟨by decide, by decide⟩

theorem wit_presence : (State.reset.ports.get 0).status = .absent ∧ State.reset.device = .setup
    ∧ ((runPort .absent false).ports.get 0).status = .absent ∧ (runPort .absent false).device = .run
    ∧ ((runPort .pending false).ports.get 0).status ≠ .absent := by decide +kernel

/-! ### Claims -/

/-- Every check of Table 5-3: a byte outside its values; no permission; the lease 0 and above its limit of 1000; a
RETIRED line; a second claim; TRY behind a claim of equal priority. H0 is permitted on L0 and L1 only. -/
theorem wit_claimChecks : ((runWith (runningLine [pulse 2] [])).ports.get 1).status = .attached
    ∧ 8 ≤ (0x08 : Byte).toNat ∧ 2 ≤ (0x02 : Byte).toNat ∧ 4 ≤ (0x04 : Byte).toNat
    ∧ permitted demoMap 0 2 = false ∧ permitted demoMap 0 0 = true ∧ mayCut demoMap 0 0 = true
    ∧ permitted (demoMap.write 4 0x83) 0 0 = true ∧ mayCut (demoMap.write 4 0x83) 0 0 = false
    ∧ (0 : Word16).toNat = 0 ∧ (leaseLimit demoMap 0 0).toNat < (1001 : Word16).toNat
    ∧ 1 ≤ (1000 : Word16).toNat ∧ (1000 : Word16).toNat ≤ (leaseLimit demoMap 0 0).toNat
    ∧ ((runWith (lineIn .retired [])).lines.get 0).engine = .retired
    ∧ (∃ c ∈ ((runWith (runningLine [pulse 2] [])).lines.get 0).claims, c.host = 0)
    ∧ (∀ c ∈ ((runWith (runningLine [pulse 2] [])).lines.get 0).claims, c.host ≠ 1)
    ∧ (∃ c ∈ ((runWith (lineIn .starved [demoClaim 0 5 .holding []])).lines.get 0).claims.head?,
        cellPriority demoMap 1 0 ≤ c.priority) := by decide +kernel

/-- The list of L0 empty in GUARD, FAULTED and HALTED; and H1 with its priority 5 against a HOLDING head of priority 5 that
is STARVED, FAULTED or runs a PULSE, with WAITING claims of priority 5 and 2 behind it. -/
theorem wit_claimTakingAndWaiting : (lineIn .guard []).claims = [] ∧ (lineIn .faulted []).engine = .faulted
    ∧ (lineIn .halted []).engine = .halted
    ∧ claimRefusal (runWith (lineIn .guard [])) 1 ⟨0, .cycle, true, .safe⟩ 1000 = none
    ∧ claimRefusal (runWith (lineIn .starved [demoClaim 0 5 .holding [], demoClaim 2 5 .waiting [],
        demoClaim 3 2 .waiting []])) 1 ⟨0, .cycle, false, .safe⟩ 1000 = none
    ∧ claimRefusal (runWith (lineIn .faulted [demoClaim 0 5 .holding []])) 1 ⟨0, .cycle, false, .safe⟩ 1 = none
    ∧ cellPriority demoMap 1 0 ≤ (demoClaim 0 5 .holding []).priority
    ∧ HoldsAndRuns (runWith { runningLine [pulse 2] [] with claims := [demoClaim 0 5 .holding [pulse 2]] }) 0
        (demoClaim 0 5 .holding [pulse 2]) [] (pulse 2) [] := by unfold HoldsAndRuns; decide +kernel

/-- H1 claims L0 while it is IDLE, and while H0 holds it at a lower priority and runs a PULSE. -/
theorem wit_claimAdmitted : claimFields 0x00 0x00 0x00 0x03 = some ⟨0, .cycle, false, .safe⟩
    ∧ claimRefusal (runWith (lineIn .idle [])) 1 ⟨0, .cycle, false, .safe⟩ 1000 = none
    ∧ ((runWith (lineIn .idle [])).lines.get 0).engine = .idle
    ∧ ((runWith (lineIn .idle [])).lines.get 0).claims = []
    ∧ claimRefusal (runWith (runningLine [pulse 2] [])) 1 ⟨0, .cycle, false, .safe⟩ 1 = none
    ∧ 3 < cellPriority demoMap 1 0 := by decide +kernel

/-- The line of the statements about a running PULSE: H0 HOLDING, H1 WAITING behind it. -/
theorem wit_holdsAndRuns : HoldsAndRuns (runWith (runningLine [pulse 2] [demoClaim 1 3 .waiting []])) 0
    (demoClaim 0 3 .holding [pulse 2]) [demoClaim 1 3 .waiting []] (pulse 2) []
    ∧ (∀ d ∈ [demoClaim 1 3 .waiting []], d.state = .waiting) ∧ (∃ d ∈ [demoClaim 1 3 .waiting []], d.host = 1) := by
  unfold HoldsAndRuns; decide +kernel

/-- A list in order of priority, with a claim that goes between. -/
theorem wit_insertion : [demoClaim 0 5 .holding [], demoClaim 1 3 .waiting []].Pairwise
    (fun a b => b.priority ≤ a.priority) := by decide +kernel

theorem wit_release : ((runWith (lineIn .starved [demoClaim 0 3 .holding []])).lines.get 0).engine = .starved
    ∧ ((runWith (lineIn .starved [demoClaim 0 3 .holding []])).lines.get 0).claims = [demoClaim 0 3 .holding []]
    ∧ 0 < guardUnits demoMap 0 ∧ (0 : LineNo).val = (0x00 : Byte).toNat
    ∧ ((runWith (lineIn .starved [demoClaim 0 3 .holding []])).ports.get 0).status = .attached := by decide +kernel

/-- A line that runs a PULSE for a claim of H0 in a state, behind the TAKING head of H1 with a cut mode, H2 behind. -/
def takenFrom (cut : CutMode) (st : ClaimState) (queue : List Entry) (run : Nat) : LineState :=
  { runningLine queue [] with
    claims := [{ demoClaim 1 5 .taking [] with cutMode := cut }, { demoClaim 0 3 st queue with yieldRun := run },
      demoClaim 2 1 .waiting []] }

/-- The operands of `RunsBehindTaker` there, at both cut modes and in the states of the claim that runs. -/
theorem wit_runsBehindTaker : ∀ cut ∈ [CutMode.cycle, CutMode.segment],
    ∀ st ∈ [ClaimState.yielding, .leaving true, .ending .released, .ending .lease, .ending .departed],
      RunsBehindTaker (runWith (takenFrom cut st [pulse 2, entry 0x19 true (.hold .high 5)] 1)) 0
        { demoClaim 1 5 .taking [] with cutMode := cut }
        { demoClaim 0 3 st [pulse 2, entry 0x19 true (.hold .high 5)] with yieldRun := 1 } [demoClaim 2 1 .waiting []]
        (pulse 2) [entry 0x19 true (.hold .high 5)] := by
  unfold RunsBehindTaker; decide +kernel

/-- RELEASE: bytes outside their values, no claim; a claim behind a TAKING head that does not execute, the head of a
claim that is LEAVING or ENDING alone, and the TAKING head itself. -/
theorem wit_releaseChecks : 8 ≤ (0x08 : Byte).toNat ∧ 2 ≤ (0x02 : Byte).toNat ∧ (0x01 : Byte).toNat < 2
    ∧ (∀ d ∈ ((runWith (lineIn .idle [])).lines.get 0).claims, d.host ≠ 0)
    ∧ (takenFrom .cycle .yielding [pulse 2] 0).claims
        = [demoClaim 1 5 .taking []] ++ demoClaim 0 3 .yielding [pulse 2] :: [demoClaim 2 1 .waiting []]
    ∧ (∀ d ∈ [demoClaim 1 5 .taking []], d.state.isExecuting = false)
    ∧ (∀ d ∈ [demoClaim 1 5 .taking []] ++ [demoClaim 2 1 .waiting []], d.host ≠ (0 : HostNo))
    ∧ (lineIn .running [demoClaim 0 3 (.leaving false) [pulse 2]]).claims
        = [] ++ demoClaim 0 3 (.leaving false) [pulse 2] :: []
    ∧ (demoClaim 0 3 (.ending .released) [pulse 2]).state.isEnding = true
    ∧ (∀ x ∈ [demoClaim 2 1 .waiting []], x.host ≠ (1 : HostNo)) := by decide +kernel

/-- RENEW: a selector outside its values, the value 0, no claim, the value above the limit, and one that passes with
ALL and with one line. -/
theorem wit_renew : 8 ≤ (0x08 : Byte).toNat ∧ (0x08 : Byte) ≠ 0xFF ∧ (0x07 : Byte).toNat < 8
    ∧ (∀ k : LineNo, renewable (runWith (lineIn .idle [])) 0 k = false)
    ∧ renewable (runWith (lineIn .starved [demoClaim 0 3 .holding []])) 0 0 = true
    ∧ (leaseLimit demoMap 0 0).toNat < (1001 : Word16).toNat
    ∧ (1000 : Word16).toNat ≤ (leaseLimit demoMap 0 0).toNat ∧ (1 : Word16) ≠ 0
    ∧ (∀ k : LineNo, k < 0 → renewable (runWith (lineIn .starved [demoClaim 0 3 .holding []])) 0 k = false)
    ∧ (0 : LineNo).val = (0x00 : Byte).toNat := by decide +kernel

/-- A claim that is ENDING, and one whose expiry a renewal has forestalled: its lease does nothing more. The claims of
the other clauses have it not forestalled. -/
theorem wit_leaseEnding :
    (∀ d ∈ ((runWith (lineIn .running [demoClaim 0 3 (.ending .lease) [pulse 2]])).lines.get 0).claims,
      d.host = 0 → d.state.isEnding = true ∨ d.forestalled = true)
    ∧ (∀ d ∈ ((runWith (lineIn .starved [{ demoClaim 0 3 .holding [] with forestalled := true }])).lines.get 0).claims,
      d.host = 0 → d.state.isEnding = true ∨ d.forestalled = true)
    ∧ (demoClaim 0 3 .holding [pulse 2]).forestalled = false
    ∧ (∀ d ∈ [demoClaim 1 3 .waiting []], d.forestalled = false) := by decide +kernel

/-! ### The store -/

/-- The bytes of one segment of a SUBMIT. -/
def pulseBytes : List Byte := (pulse 2).seg.bytes

/-- SUBMIT: a line and a count outside their ranges, a segment that fails, no claim, a LEAVING and an ENDING claim, a
quota exceeded by one, and a full quota reached. -/
theorem wit_submitChecks : 8 ≤ (0x08 : Byte).toNat ∧ (0x00 : Byte).toNat = 0 ∧ 8 < (0x09 : Byte).toNat
    ∧ takeSegments 1 1 [0x09] = .error 1 ∧ takeSegments 1 1 (pulseBytes ++ [0x00]) = .error 0
    ∧ takeSegments 1 1 pulseBytes = .ok [(pulse 2).seg]
    ∧ (∀ c ∈ ((runWith (lineIn .idle [])).lines.get 0).claims, c.host ≠ 0)
    ∧ (lineIn .running [demoClaim 0 3 (.leaving false) [pulse 2]]).claimOf 0
        = some (demoClaim 0 3 (.leaving false) [pulse 2])
    ∧ (lineIn .running [demoClaim 0 3 (.ending .lease) [pulse 2]]).claimOf 0
        = some (demoClaim 0 3 (.ending .lease) [pulse 2])
    ∧ quota (demoMap.write 0 0x01) 0 < (runWith (runningLine [pulse 2] [])).inUse 0 + 1
    ∧ (runWith (runningLine [pulse 2] [])).inUse 0 + 1 ≤ quota (demoMap.write 0 0x02) 0 := by decide +kernel

theorem wit_pulseRanges : (0x05 : Byte).toNat < 6 ∧ (0x07 : Byte).toNat < 8 ∧ (1 : Word16).toNat < 2
    ∧ (2 : Word16).toNat < (3 : Word16).toNat ∧ 2 ≤ (0x02 : Byte).toNat
    ∧ 2 ≤ (2 : Word16).toNat ∧ (2 : Word16).toNat ≤ (2 : Word16).toNat ∧ (0x01 : Byte).toNat < 2
    ∧ ((runWith (lineIn .idle [])).ports.get 0).status = .attached ∧ ([] : List Segment).length < (0x01 : Byte).toNat
    ∧ (0x08 : Byte).toNat ≤ 8 := by decide +kernel

/-- Work for a WAITING claim, and the first of a STARVED holder. -/
theorem wit_submit : 1 ≤ pulseBytes.length ∧ pulseBytes.length ≤ 58 ∧ 1 ≤ (0x01 : Byte).toNat
    ∧ (lineIn .running [demoClaim 0 3 .holding [pulse 0], demoClaim 1 3 .waiting []]).claims
        = [demoClaim 0 3 .holding [pulse 0]] ++ demoClaim 1 3 .waiting [] :: []
    ∧ (∀ d ∈ [demoClaim 0 3 .holding [pulse 0]] ++ [], d.host ≠ (1 : HostNo))
    ∧ (runWith (lineIn .starved [demoClaim 0 3 .holding []])).inUse 0 + 1 ≤ quota demoMap 0
    ∧ (pulse 2).seg.join = false ∧ (pulse 2).seg.isContinuousHold = false := by decide +kernel

/-- Work behind the running segment of a holder, and behind its running continuous HOLD; what is submitted may be a
joined continuous HOLD with nothing behind it. -/
theorem wit_submitRunning : HoldsAndRuns (runWith (runningLine [pulse 0] [])) 0 (demoClaim 0 3 .holding [pulse 0]) []
      (pulse 0) []
    ∧ (pulse 0).seg.isContinuousHold = false
    ∧ HoldsAndRuns (runWith (runningLine [entry 0x13 false (.hold .high 0)] [])) 0
        (demoClaim 0 3 .holding [entry 0x13 false (.hold .high 0)]) [] (entry 0x13 false (.hold .high 0)) []
    ∧ (entry 0x13 false (.hold .high 0)).seg.isContinuousHold = true
    ∧ takeSegments 1 1 (entry 0x14 true (.hold .low 0)).seg.bytes = .ok [(entry 0x14 true (.hold .low 0)).seg]
    ∧ (entry 0x14 true (.hold .low 0)).seg.isContinuousHold = true := by unfold HoldsAndRuns; decide +kernel

/-- A joined segment for a STARVED holder, with no record and with a DONE record whose mark is set. -/
theorem wit_joined : takeSegments 1 1 (entry 0x12 true (.hold .high 4)).seg.bytes = .ok [(entry 0x12 true (.hold .high 4)).seg]
    ∧ 1 ≤ (entry 0x12 true (.hold .high 4)).seg.bytes.length ∧ (entry 0x12 true (.hold .high 4)).seg.bytes.length ≤ 58
    ∧ (lineIn .starved [demoClaim 0 3 .holding []]).lastEnded ≠ some ⟨.done, false⟩
    ∧ ({ lineIn .starved [demoClaim 0 3 .holding []] with lastEnded := some ⟨.done, true⟩ } : LineState).lastEnded
        ≠ some ⟨.done, false⟩ := by decide +kernel

theorem wit_flush : (runWith (runningLine [pulse 2, pulse 3] [])).ports.get 0 = portIn .attached
    ∧ ((runWith (runningLine [pulse 2, pulse 3] [])).lines.get 0).startedAtEnd = false
    ∧ (demoClaim 0 3 .holding [pulse 2, pulse 3]).yieldRun = 0 := by decide +kernel

/-- FLUSH: bytes outside their values, no claim; a WAITING claim; the labels 11h removed from a queue with one of label
13h left, which can start; one that started at this instant; a LEAVING claim alone with nothing left behind. The claims
behind a taker are those of `wit_runsBehindTaker`. -/
theorem wit_flushMore : 8 ≤ (0x08 : Byte).toNat ∧ 3 ≤ (0x03 : Byte).toNat ∧ 2 ≤ (0x02 : Byte).toNat
    ∧ (0x02 : Byte).toNat < 3 ∧ (0x01 : Byte).toNat < 2
    ∧ (∀ d ∈ ((runWith (lineIn .idle [])).lines.get 0).claims, d.host ≠ 0)
    ∧ (lineIn .running [demoClaim 0 3 .holding [pulse 2], demoClaim 1 3 .waiting [pulse 2]]).claims
        = [demoClaim 0 3 .holding [pulse 2]] ++ demoClaim 1 3 .waiting [pulse 2] :: []
    ∧ (∀ d ∈ [demoClaim 0 3 .holding [pulse 2]] ++ [], d.host ≠ (1 : HostNo))
    ∧ ([pulse 2, entry 0x13 false (.hold .high 0), pulse 3].filter fun e => e.seg.label != 0x11)
        = entry 0x13 false (.hold .high 0) :: []
    ∧ (entry 0x13 false (.hold .high 0)).seg.join = false
    ∧ HoldsAndRuns (runWith (runningLine [pulse 2, pulse 2, entry 0x13 false (.hold .high 0), pulse 3] [])) 0
        (demoClaim 0 3 .holding [pulse 2, pulse 2, entry 0x13 false (.hold .high 0), pulse 3]) [] (pulse 2)
        [pulse 2, entry 0x13 false (.hold .high 0), pulse 3]
    ∧ ({ runningLine [pulse 2] [] with startedAtEnd := true } : LineState).startedAtEnd = true
    ∧ (takenFrom .cycle .yielding [pulse 2] 0).startedAtEnd = false
    ∧ (lineIn .running [demoClaim 0 3 (.leaving false) [pulse 2, pulse 3]]).claims
        = [demoClaim 0 3 (.leaving false) [pulse 2, pulse 3]]
    ∧ ([pulse 3].filter fun e => e.seg.label != 0x11) = [] := by unfold HoldsAndRuns; decide +kernel

/-- AMEND: each value outside its range, another holder, no running PULSE, and one that runs. -/
theorem wit_amend : (1 : Word16).toNat < 2 ∧ (2 : Word16).toNat < (3 : Word16).toNat
    ∧ 2 ≤ (2 : Word16).toNat ∧ (2 : Word16).toNat ≤ (2 : Word16).toNat
    ∧ (runningLine [pulse 2] []).executing = some (demoClaim 0 3 .holding [pulse 2])
    ∧ (lineIn .idle []).executing = none
    ∧ (runningLine [entry 0x13 false (.hold .high 0)] []).running = some (seg 0x13 false true (.hold .high 0))
    ∧ (runningLine [pulse 2] []).running = some (pulse 2).seg := by decide +kernel

/-! ### Lines -/

theorem wit_guardEnd : (lineIn .guard []).engine = .guard ∧ (lineIn .guard []).claims = []
    ∧ (lineIn .guard [demoClaim 0 3 .taking []]).claims = [demoClaim 0 3 .taking []]
    ∧ (lineIn .guard [demoClaim 0 3 .taking [entry 0x14 false (.hold .low 0)]]).claims
        = [demoClaim 0 3 .taking [entry 0x14 false (.hold .low 0)]]
    ∧ (seg 0x14 false true (.hold .low 0)).join = false := by decide +kernel

/-- The active phase of a PULSE; a cycle that is not the last, with and without an amendment staged. -/
theorem wit_pulse : (runningLine [pulse 2] []).progress.phase = .active ∧ (2 : Word16) ≠ 4
    ∧ (runningLine [pulse 2] []).progress.completed + 1 < (2 : Word16).toNat
    ∧ (runningLine [pulse 2] []).staged = none
    ∧ ({ runningLine [pulse 2] [] with staged := some ⟨6, 0⟩ } : LineState).staged = some ⟨6, 0⟩ := by decide +kernel

/-- A line whose CARRIER is in its first mark, of 8 ticks, with its generator as given. -/
def inMark (elapsed : Nat) (gen : CarrierGen) : LineState :=
  { runningLine [entry 0x15 false (.carrier .ca .activeHigh [8, 8])] [] with
    progress := ⟨.element 0, elapsed, 0⟩, gen := gen }

/-- A CARRIER in its first element of two; a part that the clock has ended, one that a passage ends at the very end of the
mark, one that the mark cuts short, and a generator that stands. -/
theorem wit_carrier : (runningLine [entry 0x15 false (.carrier .ca .activeHigh [8, 8])] []).progress.phase = .element 0
    ∧ 0 + 1 < ([8, 8] : List Word16).length
    ∧ (inMark 3 ⟨2, 5, 3, true, true⟩).front.isSome = true ∧ (inMark 3 ⟨2, 5, 3, true, true⟩).gen.partLeft = 0
    ∧ (inMark (8 * Tap.t0.clocks - 2) ⟨3, 5, 3, true, false⟩).gen.partLeft = 2
    ∧ (inMark (8 * Tap.t0.clocks - 2) ⟨3, 5, 3, true, false⟩).markLeft = some 2
    ∧ (inMark (8 * Tap.t0.clocks - 1) ⟨3, 5, 3, true, false⟩).markLeft = some 1
    ∧ (runningLine [entry 0x15 false (.carrier .ca .activeHigh [8, 8])] []).gen.running = false := by decide +kernel

/-- The natural ends: a HOLD, the last cycle of a PULSE, a continuous PULSE with a follower, the last element of a
CARRIER, and the two phases of a SENSE. -/
theorem wit_naturalEnd : (5 : Word16) ≠ 0 ∧ (1 : Word16).toNat ≤ (runningLine [pulse 1] []).progress.completed + 1
    ∧ [pulse 1] ≠ [] ∧ (pulse 1).seg.isContinuousHold = false
    ∧ ([8] : List Word16).length ≤ 0 + 1
    ∧ (runningLine [entry 0x16 false (.sense 4 4)] []).progress.phase = .discharge
    ∧ ({ runningLine [entry 0x16 false (.sense 4 4)] [] with progress := ⟨.release, 4, 0⟩ } : LineState).progress.phase
        = .release
    ∧ (runningLine [entry 0x16 false (.sense 4 4)] []).pad ≠ .high := by decide +kernel

/-- H1 takes L0 under cut mode CYCLE while the PULSE of H0 yields. -/
theorem wit_yield : (lineIn .running [demoClaim 1 5 .taking [], demoClaim 0 3 .yielding [pulse 2]]).claims
      = demoClaim 1 5 .taking [] :: demoClaim 0 3 .yielding [pulse 2] :: []
    ∧ (demoClaim 1 5 .taking []).cutMode = .cycle ∧ (demoClaim 1 5 .taking []).host ≠ (demoClaim 0 3 .yielding []).host
    ∧ (lineIn .running []).progress.completed + 1 < (2 : Word16).toNat ∧ 0 < guardUnits demoMap 0 := by decide +kernel

/-- The natural ends and the ends of a cycle or element in `EndsNaturally` and `EndsACycle`, each of its kinds, and a
continuous PULSE. -/
theorem wit_ends : EndsNaturally 0 (runningLine [entry 0x13 false (.hold .high 4)] []) (entry 0x13 false (.hold .high 4))
      (.holdEnd 0)
    ∧ EndsNaturally 0 (runningLine [pulse 1] []) (pulse 1) (.pulseCycleEnd 0)
    ∧ EndsNaturally 0 (runningLine [entry 0x15 false (.carrier .ca .activeHigh [8])] [])
        (entry 0x15 false (.carrier .ca .activeHigh [8])) (.carrierElementEnd 0)
    ∧ EndsACycle 0 (runningLine [pulse 2] []) (pulse 2) (.pulseCycleEnd 0)
    ∧ EndsACycle 0 (runningLine [entry 0x15 false (.carrier .ca .activeHigh [8, 8])] [])
        (entry 0x15 false (.carrier .ca .activeHigh [8, 8])) (.carrierElementEnd 0)
    ∧ (pulse 0).seg.body = .pulse 4 2 .activeHigh 0 :=
  ⟨.inl ⟨_, _, rfl, by decide, rfl⟩, .inr (.inl ⟨_, _, _, _, rfl, by decide, by decide, rfl⟩),
    .inr (.inr ⟨_, _, _, 0, rfl, rfl, by decide, rfl⟩), .inl ⟨_, _, _, _, rfl, by decide, rfl⟩,
    .inr ⟨_, _, _, 0, rfl, rfl, by decide, rfl⟩, rfl⟩

/-- The yield run of one before a joined follower, the claim alone on its list, and a follower that can start. -/
theorem wit_yieldRuns : (takenFrom .segment .yielding [pulse 1, entry 0x19 true (.hold .high 5)] 1).claims.map Claim.yieldRun
      = [0, 0 + 1, 0]
    ∧ (entry 0x19 true (.hold .high 5)).seg.join = true ∧ (entry 0x19 true (.hold .high 5)).seg.isContinuousHold = false
    ∧ (takenFrom .segment .yielding [pulse 2] 0).staged = none
    ∧ (lineIn .running [demoClaim 0 3 (.ending .lease) [pulse 2]]).claims = [demoClaim 0 3 (.ending .lease) [pulse 2]]
    ∧ (lineIn .running [demoClaim 0 3 (.leaving false) [pulse 0, pulse 1]]).claims
        = [demoClaim 0 3 (.leaving false) [pulse 0, pulse 1]] ∧ (pulse 1).seg.isContinuousHold = false := by
  decide +kernel

/-- The levels a line drives: a state for each engine state, with a STARVED and a running line's claim. -/
theorem wit_drive : (lineIn .starved [demoClaim 0 3 .holding []]).executing = some (demoClaim 0 3 .holding [])
    ∧ (runningLine [pulse 2] []).front = some ⟨demoClaim 0 3 .holding [pulse 2], pulse 2, []⟩
    ∧ (runningLine [entry 0x16 false (.sense 4 4)] []).progress.phase = .discharge
    ∧ (runningLine [entry 0x13 false (.hold .high 4)] []).front.isSome = true
    ∧ (runningLine [entry 0x15 false (.carrier .ca .activeHigh [8])] []).front.isSome = true := by decide +kernel

/-- A mismatch that runs, on an IDLE line in SETUP and on a running line in RUN with fault counts 2 and 3. -/
theorem wit_fault : ({ lineIn .idle [] with mismatch := some 0 } : LineState).mismatch ≠ none
    ∧ ({ lineIn .idle [] with mismatch := some 0 } : LineState).faultForestalled = false
    ∧ ({ lineIn .idle [] with mismatchAtEntry := some 128 } : LineState).mismatchAtEntry ≠ none
    ∧ ({ lineIn .idle [] with mismatch := some 0, faultForestalled := true } : LineState).faultForestalled = true
    ∧ (lineIn .idle []).mismatch = none ∧ (lineIn .idle []).mismatchAtEntry = none
    ∧ ({ runningLine [pulse 2] [] with mismatch := some 128, faultCount := 2 } : LineState).faultCount < 3
    ∧ ({ runningLine [pulse 2] [] with mismatch := some 128, faultCount := 3 } : LineState).faultCount = 3
    ∧ (setupWith .open).device = .setup ∧ (runWith (lineIn .idle [])).device = .run := by decide +kernel

/-- CLEAR_FAULT in RUN without permission and with it, on a line that is not FAULTED and on one that is, under each
supply state. -/
theorem wit_clearFault : ((runWith (lineIn .faulted [])).ports.get 0).status = .attached
    ∧ permitted demoMap 0 2 = false ∧ permitted demoMap 0 0 = true
    ∧ ((runWith (lineIn .faulted [])).lines.get 0).engine = .faulted
    ∧ ((runWith (lineIn .idle [])).lines.get 0).engine ≠ .faulted
    ∧ (runWith (lineIn .faulted [])).supply = .ok ∧ 0 < guardUnits demoMap 0
    ∧ ({ runWith (lineIn .faulted []) with supply := .low } : State).supply = .low := by decide +kernel

/-! ### The supply watch -/

theorem wit_supply : State.reset.supply = .low ∧ (runWith (lineIn .idle [])).supply = .ok
    ∧ ({ runWith (lineIn .halted []) with supply := .low, settle := some 80000 } : State).settle ≠ none
    ∧ ({ runWith (lineIn .halted []) with supply := .low, settle := some 80000 } : State).firstSettle = false
    ∧ ({ State.reset with settle := some 80000 } : State).settle ≠ none
    ∧ ({ State.reset with settle := some 80000 } : State).firstSettle = true
    ∧ ({ State.reset with settle := some 80000 } : State).device = .setup
    ∧ barrierComplete ({ State.reset with firstSettle := false } : State) = false
    ∧ barrierComplete ({ State.reset with
        firstSettle := false, ports := State.reset.ports.set 0 (portIn .ready) } : State) = true := by decide +kernel

/-- Lines that a restore takes at once, on L1 with its guard of 0: a HOLDING and a TAKING head with an empty queue, and with
one segment. -/
theorem wit_restoreTakes : guardUnits demoMap 1 = 0 ∧ (lineIn .halted []).claims = []
    ∧ (lineIn .halted [demoClaim 0 3 .holding [], demoClaim 1 2 .waiting []]).claims
        = demoClaim 0 3 .holding [] :: [demoClaim 1 2 .waiting []]
    ∧ (demoClaim 0 3 .taking [pulse 2]).queue = pulse 2 :: [] ∧ (pulse 2).seg.join = false := by decide +kernel

/-- The list law of the states above: one line given, the others as after reset. -/
theorem wit_listLaw_run (L : LineState) (h : L.ListLaw) : ListLaw (runWith L) := by
  intro k
  rw [show (runWith L).lines = State.reset.lines.set 0 L from rfl, PerLine.get_set]
  split
  · exact h
  · exact wit_listLaw_reset k

theorem wit_listLaw_halted : ListLaw (runWith (lineIn .halted [])) :=
  wit_listLaw_run _ (listLaw_nil rfl ⟨by decide, by decide⟩)

theorem wit_listLaw_running : ListLaw (runWith (runningLine [pulse 2] [])) := by
  refine wit_listLaw_run _ ⟨?_, ?_⟩
  · unfold ClaimsLaw; decide +kernel
  · refine ⟨fun h => ?_, fun _ => ⟨demoClaim 0 3 .holding [pulse 2], rfl, by decide⟩, fun h => ?_, fun h => ?_⟩ <;>
      simp [runningLine, lineIn] at h

/-! ### The laws -/

/-- The states after reset, in SETUP with H0 READY and in RUN with a running line all have a next state under a
command, from which the laws are to be kept. -/
theorem wit_steps : (∃ t, step State.reset = .next t)
    ∧ (∃ t, step { setupWith .ready with pending := [.nop 0 0] } = .next t)
    ∧ (∃ t, step { runWith (runningLine [pulse 2] []) with pending := [.pulseCycleEnd 0] } = .next t) :=
  ⟨⟨_, rfl⟩, ⟨_, rfl⟩, ⟨_, rfl⟩⟩

theorem wit_faultLaw : FaultLaw (runWith (runningLine [pulse 2] [])) := by
  refine ⟨by decide +kernel, fun h => ?_⟩
  simp [runWith] at h

theorem wit_storeLaw : StoreLaw (runWith (runningLine [pulse 2] [])) := by
  refine ⟨by decide +kernel, fun _ => by decide +kernel, fun h => ?_⟩
  simp [runWith] at h

theorem wit_noticeLaw_reset : NoticeLaw State.reset := by
  intro h
  exact Port.noticeLaw_nil (by fin_cases h <;> rfl)

end Sys2Proof.Tests
end

section
/-! PROOFS. Requests that change nothing but the reply: one that its port's state refuses, LINE_STATUS (R90), and a
CLAIM that a check of Table 5-3 refuses (R71). -/

namespace Sys2Proof.Machine

/-! ### Requests answered without a change -/

/-- R170: a request its port's state does not take. -/
theorem exec_command_of_wrongState {r : Request} {p : HostNo} {tag : Byte} {s : State}
    (hp : (s.ports.get p).status ≠ .absent) (ht : r.name.takenIn (s.ports.get p).status = false) :
    exec (r.command p tag) s = .next (s.answer p tag (.plain .wrongState)) := by
  rw [exec_command]
  simp [serve, hp, ht]

/-- A request taken whose act leaves the state as it is: the answer is all there is. -/
theorem exec_command_of_unchanged {r : Request} {p : HostNo} {tag : Byte} {s : State} {reply : Reply}
    (ht : r.name.takenIn (s.ports.get p).status = true) (hl : r.lengthOk = true)
    (ha : r.act p s = .unchanged s reply) : exec (r.command p tag) s = .next (s.answer p tag reply) := by
  rw [exec_command, serve_taken ht hl, ha]
  rfl

/-! ### LINE_STATUS (R90) -/

theorem lineByte_of_val_eq {line : Byte} {k : LineNo} (hk : k.val = line.toNat) : lineByte k = line := by
  rw [lineByte, hk, BitVec.ofNat_toNat, BitVec.setWidth_eq]

theorem actLineStatus_of_ge {line : Byte} (h : 8 ≤ line.toNat) (s : State) :
    actLineStatus line s = .unchanged s (.plain .invalid) := by
  simp [actLineStatus, lineOfByte_of_ge h]

theorem actLineStatus_of_lt {line : Byte} {k : LineNo} (hk : k.val = line.toNat) (s : State) :
    actLineStatus line s = .unchanged s ⟨.ok, lineStatusBody k (s.lines.get k)⟩ := by
  simp [actLineStatus, lineOfByte_of_lt hk]

/-- Every port that is present takes a LINE_STATUS (Table 11-2), here with an act that changes nothing. -/
theorem exec_lineStatus_of_unchanged {p : HostNo} {line : Byte} {s : State} {reply : Reply}
    (hp : (s.ports.get p).status ≠ .absent) (ha : actLineStatus line s = .unchanged s reply) (tag : Byte) :
    exec (.lineStatus p tag line) s = .next (s.answer p tag reply) :=
  exec_command_of_unchanged (r := .lineStatus line) (by simpa [Request.name, RequestName.takenIn] using hp) rfl ha

/-- Settles O7: the act of each kind of line byte, and the body of Table 11-10 with its absent fields written out. -/
theorem lineStatusReportsTheLine : Obligations.LineStatusReportsTheLine := by
  intro p tag line s hp
  refine ⟨fun h => exec_lineStatus_of_unchanged hp (actLineStatus_of_ge h s) tag, fun k hk => ?_⟩
  rw [exec_lineStatus_of_unchanged hp (actLineStatus_of_lt hk s) tag, lineStatusBody, lineByte_of_val_eq hk]
  generalize s.lines.get k = L
  -- each of the three parts that can be absent is shown as FFh or 00h, or as its value
  cases L.executing <;> cases L.running <;> cases L.staged <;> rfl

/-! ### The fields of a CLAIM (the first check of Table 5-3) -/

theorem cutModeOfByte_of_ge {b : Byte} (h : 2 ≤ b.toNat) : cutModeOfByte b = none := by
  have h0 : b ≠ 0x00 := by bv_omega
  have h1 : b ≠ 0x01 := by bv_omega
  rw [cutModeOfByte, if_neg h0, if_neg h1]

theorem cutModeOfByte_of_lt {b : Byte} (h : b.toNat < 2) :
    ∃ m, cutModeOfByte b = some m ∧ (m = .cycle ↔ b = 0x00) := by
  obtain rfl | rfl : b = 0x00 ∨ b = 0x01 := by bv_omega
  · exact ⟨.cycle, rfl, by decide⟩
  · exact ⟨.segment, rfl, by decide⟩

theorem tryOfByte_of_ge {b : Byte} (h : 2 ≤ b.toNat) : tryOfByte b = none := by
  have h0 : b ≠ 0x00 := by bv_omega
  have h1 : b ≠ 0x01 := by bv_omega
  rw [tryOfByte, if_neg h0, if_neg h1]

theorem tryOfByte_of_lt {b : Byte} (h : b.toNat < 2) : tryOfByte b = some (decide (b = 0x01)) := by
  obtain rfl | rfl : b = 0x00 ∨ b = 0x01 := by bv_omega
  all_goals rfl

theorem restLevelOfByte_of_ge {b : Byte} (h : 4 ≤ b.toNat) : restLevelOfByte b = none := by
  have h0 : b ≠ 0x00 := by bv_omega
  have h1 : b ≠ 0x01 := by bv_omega
  have h2 : b ≠ 0x02 := by bv_omega
  have h3 : b ≠ 0x03 := by bv_omega
  rw [restLevelOfByte, if_neg h0, if_neg h1, if_neg h2, if_neg h3]

theorem restLevelOfByte_of_lt {b : Byte} (h : b.toNat < 4) : ∃ r, restLevelOfByte b = some r := by
  obtain rfl | rfl | rfl | rfl : b = 0x00 ∨ b = 0x01 ∨ b = 0x02 ∨ b = 0x03 := by bv_omega
  · exact ⟨.low, rfl⟩
  · exact ⟨.high, rfl⟩
  · exact ⟨.float, rfl⟩
  · exact ⟨.safe, rfl⟩

/-- A byte outside its values spoils the whole set of fields. -/
theorem claimFields_of_outside {line cutMode option restLevel : Byte}
    (h : 8 ≤ line.toNat ∨ 2 ≤ cutMode.toNat ∨ 2 ≤ option.toNat ∨ 4 ≤ restLevel.toNat) :
    claimFields line cutMode option restLevel = none := by
  unfold claimFields
  rcases h with h | h | h | h
  · rw [lineOfByte_of_ge h]
  · rw [cutModeOfByte_of_ge h]; split <;> simp_all
  · rw [tryOfByte_of_ge h]; split <;> simp_all
  · rw [restLevelOfByte_of_ge h]; split <;> simp_all

/-- Bytes within their values are read; the later checks ask of them the line, whether the mode is CYCLE and whether the
option is TRY. -/
theorem claimFields_of_inside {line cutMode option restLevel : Byte} {k : LineNo} (hk : k.val = line.toNat)
    (hm : cutMode.toNat < 2) (ho : option.toNat < 2) (hr : restLevel.toNat < 4) :
    ∃ f, claimFields line cutMode option restLevel = some f ∧ f.line = k ∧ (f.cutMode = .cycle ↔ cutMode = 0x00)
      ∧ (f.try_ = true ↔ option = 0x01) := by
  obtain ⟨m, hm, hcycle⟩ := cutModeOfByte_of_lt hm
  obtain ⟨r, hr⟩ := restLevelOfByte_of_lt hr
  refine ⟨⟨k, m, decide (option = 0x01), r⟩, ?_, rfl, hcycle, decide_eq_true_iff⟩
  simp only [claimFields, lineOfByte_of_lt hk, hm, tryOfByte_of_lt ho, hr]

/-! ### The later checks of Table 5-3, in order -/

/-- Table 5-4 answers WAITING where the head has an equal or higher priority. -/
theorem admission_eq_waiting {L : LineState} {priority : Nat} (h : ∃ c ∈ L.claims.head?, priority ≤ c.priority) :
    admission L priority = .waiting := by
  obtain ⟨c, hc, hle⟩ := h
  obtain ⟨cs, hcs⟩ := List.head?_eq_some_iff.mp hc
  simp [admission, hcs, Nat.not_lt.mpr hle]

theorem LineState.claimOf_isSome_iff {L : LineState} {h : HostNo} :
    (L.claimOf h).isSome = true ↔ ∃ c ∈ L.claims, c.host = h := by
  simp [LineState.claimOf, List.find?_isSome]

section claimRefusal
variable {s : State} {p : HostNo} {f : ClaimFields} {lease : Word16}

/-- The may-cut check passes where a CYCLE claim may cut. -/
theorem not_cycle_without_mayCut (hc : f.cutMode = .cycle → mayCut s.map p f.line = true) :
    ¬ (f.cutMode = .cycle ∧ mayCut s.map p f.line = false) := by
  rintro ⟨hcycle, hno⟩
  exact absurd (hc hcycle) (by simp [hno])

theorem claimRefusal_notPermitted
    (h : permitted s.map p f.line = false ∨ (f.cutMode = .cycle ∧ mayCut s.map p f.line = false)) :
    claimRefusal s p f lease = some .notPermitted := by
  rcases h with hperm | hcut
  · simp [claimRefusal, hperm]
  · simp [claimRefusal, hcut]

variable (hp : permitted s.map p f.line = true) (hc : f.cutMode = .cycle → mayCut s.map p f.line = true)
include hp hc

theorem claimRefusal_leaseOutside (h : lease.toNat = 0 ∨ (leaseLimit s.map p f.line).toNat < lease.toNat) :
    claimRefusal s p f lease = some .invalid := by
  have hlease : lease = 0 ∨ (leaseLimit s.map p f.line).toNat < lease.toNat := h.imp_left BitVec.eq_of_toNat_eq
  simp only [claimRefusal, hp, not_cycle_without_mayCut hc, if_pos hlease, if_false, Bool.true_eq_false]

variable (hl : 1 ≤ lease.toNat) (hu : lease.toNat ≤ (leaseLimit s.map p f.line).toNat)
include hl hu

/-- The permission and lease checks passed: what the line and its list decide is left. -/
theorem claimRefusal_of_leaseInside : claimRefusal s p f lease =
    if (s.lines.get f.line).engine = .retired then some .retired
    else if ((s.lines.get f.line).claimOf p).isSome then some .duplicate
    else if f.try_ ∧ admission (s.lines.get f.line) (cellPriority s.map p f.line) = .waiting then some .held
    else none := by
  have hlease : ¬ (lease = 0 ∨ (leaseLimit s.map p f.line).toNat < lease.toNat) := by
    rintro (rfl | h)
    · exact absurd hl (by decide)
    · omega
  simp only [claimRefusal, hp, not_cycle_without_mayCut hc, hlease, if_false, Bool.true_eq_false]

theorem claimRefusal_retired (he : (s.lines.get f.line).engine = .retired) :
    claimRefusal s p f lease = some .retired := by
  rw [claimRefusal_of_leaseInside hp hc hl hu, if_pos he]

variable (he : (s.lines.get f.line).engine ≠ .retired)
include he

theorem claimRefusal_duplicate (hd : ∃ c ∈ (s.lines.get f.line).claims, c.host = p) :
    claimRefusal s p f lease = some .duplicate := by
  rw [claimRefusal_of_leaseInside hp hc hl hu, if_neg he, if_pos (LineState.claimOf_isSome_iff.mpr hd)]

theorem claimRefusal_held (hn : ∀ c ∈ (s.lines.get f.line).claims, c.host ≠ p) (ht : f.try_ = true)
    (hh : ∃ c ∈ (s.lines.get f.line).claims.head?, cellPriority s.map p f.line ≤ c.priority) :
    claimRefusal s p f lease = some .held := by
  have hnone : (s.lines.get f.line).claimOf p = none := LineState.claimOf_eq_none.mpr hn
  rw [claimRefusal_of_leaseInside hp hc hl hu, if_neg he, hnone, if_neg (by simp),
    if_pos ⟨ht, admission_eq_waiting hh⟩]

end claimRefusal

/-! ### CLAIM refused (R71) -/

section claimRefused
variable {p : HostNo} {line cutMode option restLevel : Byte} {lease : Word16} {s : State}
  (hs : (s.ports.get p).status = .attached)
include hs

theorem exec_claim_of_unchanged {reply : Reply}
    (ha : actClaim p line cutMode option restLevel lease s = .unchanged s reply) (tag : Byte) :
    exec (.claim p tag line cutMode option restLevel lease) s = .next (s.answer p tag reply) :=
  exec_command_of_unchanged (r := .claim line cutMode option restLevel lease)
    (by simp [Request.name, RequestName.takenIn, hs]) rfl ha

theorem exec_claim_of_noFields (hf : claimFields line cutMode option restLevel = none) (tag : Byte) :
    exec (.claim p tag line cutMode option restLevel lease) s = .next (s.answer p tag ⟨.invalid, []⟩) :=
  exec_claim_of_unchanged hs (by rw [actClaim, hf]; rfl) tag

/-- The status of the first check that fails is the whole answer. -/
theorem exec_claim_of_refusal {f : ClaimFields} {st : Status} (tag : Byte)
    (hf : claimFields line cutMode option restLevel = some f) (hr : claimRefusal s p f lease = some st) :
    exec (.claim p tag line cutMode option restLevel lease) s = .next (s.answer p tag ⟨st, []⟩) :=
  exec_claim_of_unchanged hs (by simp only [actClaim, hf, hr]; rfl) tag

end claimRefused

/-- Settles O28: each clause is one check of Table 5-3, with the checks before it passed. -/
theorem claimChecks : Obligations.ClaimChecks := by
  intro p tag line cutMode option restLevel lease s
  refine ⟨fun hna hp => ?wrongState, fun hs hout => ?fields, fun hs k hk hm ho hr => ?later⟩
  case wrongState =>
    exact exec_command_of_wrongState (r := .claim line cutMode option restLevel lease) hp
      (by simp [Request.name, RequestName.takenIn, hna])
  case fields => exact exec_claim_of_noFields hs (claimFields_of_outside hout) tag
  case later =>
    obtain ⟨f, hf, rfl, hcycle, htry⟩ := claimFields_of_inside hk hm ho hr
    have refused {st : Status} (h : claimRefusal s p f lease = some st) := exec_claim_of_refusal hs tag hf h
    refine ⟨fun h => refused (claimRefusal_notPermitted (by rwa [hcycle])), fun hp hcut => ?_⟩
    have hc : f.cutMode = .cycle → mayCut s.map p f.line = true := by
      intro h
      rw [hcycle] at h
      subst h
      exact hcut.resolve_left (by decide)
    refine ⟨fun h => refused (claimRefusal_leaseOutside hp hc h), fun hl hu => ?_⟩
    refine ⟨fun h => refused (claimRefusal_retired hp hc hl hu h), fun he => ?_⟩
    exact ⟨fun hd => refused (claimRefusal_duplicate hp hc hl hu he hd),
      fun hn hopt hh => refused (claimRefusal_held hp hc hl hu he hn (htry.mpr hopt) hh)⟩

end Sys2Proof.Machine
end

section
/-! PROOFS. A RENEW that a check of Table 6-1 refuses (R94): the lines its selector names, each check's answer, and the
requests that fail it. -/

namespace Sys2Proof.Machine

/-! ### The lines a selector names -/

/-- The selector names a line: it is ALL, or the line's own number. -/
theorem mem_iff_of_linesSelected {selector : Byte} {ks : List LineNo} (h : linesSelected selector = some ks)
    (k : LineNo) : k ∈ ks ↔ selector = 0xFF ∨ k.val = selector.toNat := by
  unfold linesSelected at h
  split at h
  case isTrue hall =>
    have hevery : ∀ k : LineNo, k ∈ ([0, 1, 2, 3, 4, 5, 6, 7] : List LineNo) := by decide
    obtain rfl := Option.some.inj h
    simp only [hall, hevery, true_or]
  case isFalse hone =>
    obtain ⟨j, hj, rfl⟩ := Option.map_eq_some_iff.mp h
    simp only [List.mem_singleton, hone, false_or, ← lineOfByte_eq_some hj, Fin.ext_iff]

theorem linesSelected_eq_none {selector : Byte} (hge : 8 ≤ selector.toNat) (hall : selector ≠ 0xFF) :
    linesSelected selector = none := by
  rw [linesSelected, if_neg hall, lineOfByte_of_ge hge, Option.map_none]

theorem exists_linesSelected {selector : Byte} (h : selector.toNat < 8 ∨ selector = 0xFF) :
    ∃ ks, linesSelected selector = some ks := by
  by_cases hall : selector = 0xFF
  · exact ⟨_, if_pos hall⟩
  · have hline : lineOfByte selector = some ⟨selector.toNat, h.resolve_right hall⟩ := lineOfByte_of_lt rfl
    exact ⟨_, by rw [linesSelected, if_neg hall, hline, Option.map_some]⟩

/-! ### The checks of Table 6-1, in order -/

section actRenewRefused
variable {p : HostNo} {selector : Byte} {newLease : Option Word16} {s : State}

theorem actRenew_of_noLines (h : linesSelected selector = none) :
    actRenew p selector newLease s = .unchanged s (.plain .invalid) := by
  rw [actRenew, h]

variable {ks : List LineNo} (hks : linesSelected selector = some ks)
include hks

theorem actRenew_of_zero : actRenew p selector (some 0) s = .unchanged s (.plain .invalid) := by
  simp only [actRenew, hks, if_true]

theorem actRenew_of_noClaim (hv : newLease ≠ some 0) (hnone : ∀ k ∈ ks, renewable s p k = false) :
    actRenew p selector newLease s = .unchanged s (.plain .noClaim) := by
  have hempty : ks.filter (renewable s p) = [] := List.filter_eq_nil_iff.mpr fun k hk => by simp [hnone k hk]
  simp only [actRenew, hks, if_neg hv, hempty]

/-- One claim named whose cell's limit the new value passes is enough: none is renewed. -/
theorem actRenew_of_aboveLimit {v : Word16} {k : LineNo} (hv : v ≠ 0) (hk : k ∈ ks) (hr : renewable s p k = true)
    (hlimit : (leaseLimit s.map p k).toNat < v.toNat) :
    actRenew p selector (some v) s = .unchanged s (.plain .invalid) := by
  have hmem : k ∈ ks.filter (renewable s p) := List.mem_filter.mpr ⟨hk, hr⟩
  simp only [actRenew, hks, Option.some.injEq, if_neg hv]
  cases hf : ks.filter (renewable s p) with
  | nil => simp [hf] at hmem
  | cons j rest =>
    have hfails : ((j :: rest).all fun i => decide (v.toNat ≤ (leaseLimit s.map p i).toNat)) = false := by
      rw [List.all_eq_false]
      exact ⟨k, hf ▸ hmem, by simpa using hlimit⟩
    simp only [Option.map_some, hfails, if_true]

end actRenewRefused

/-! ### RENEW refused (R94) -/

theorem exec_renew_of_unchanged {p : HostNo} {selector : Byte} {newLease : Option Word16} {s : State} {reply : Reply}
    (hs : (s.ports.get p).status = .attached) (ha : actRenew p selector newLease s = .unchanged s reply) (tag : Byte) :
    exec (.renew p tag selector newLease) s = .next (s.answer p tag reply) :=
  exec_command_of_unchanged (r := .renew selector newLease)
    (by simp [Request.name, RequestName.takenIn, hs]) rfl ha

/-- Settles O33: each clause is one check of Table 6-1. In the last, the line whose limit is passed is itself named, so
that the selector is one that names lines. -/
theorem renewChecks : Obligations.RenewChecks := by
  intro p tag selector newLease s
  refine ⟨fun hna hp => ?wrongState, fun hs hge hall => ?selector, fun hs hsel hzero => ?zero,
    fun hs hsel hv hnone => ?noClaim, fun hs v k hnew hv hk hr hlimit => ?aboveLimit⟩
  case wrongState =>
    exact exec_command_of_wrongState (r := .renew selector newLease) hp
      (by simp [Request.name, RequestName.takenIn, hna])
  case selector => exact exec_renew_of_unchanged hs (actRenew_of_noLines (linesSelected_eq_none hge hall)) tag
  case zero =>
    subst hzero
    obtain ⟨ks, hks⟩ := exists_linesSelected hsel
    exact exec_renew_of_unchanged hs (actRenew_of_zero hks) tag
  case noClaim =>
    obtain ⟨ks, hks⟩ := exists_linesSelected hsel
    have hnamed : ∀ k ∈ ks, renewable s p k = false := fun k hk => hnone k ((mem_iff_of_linesSelected hks k).mp hk)
    exact exec_renew_of_unchanged hs (actRenew_of_noClaim hks hv hnamed) tag
  case aboveLimit =>
    subst hnew
    have hsel : selector.toNat < 8 ∨ selector = 0xFF := hk.symm.imp_left fun hline => by rw [← hline]; exact k.isLt
    obtain ⟨ks, hks⟩ := exists_linesSelected hsel
    exact exec_renew_of_unchanged hs
      (actRenew_of_aboveLimit hks hv ((mem_iff_of_linesSelected hks k).mpr hk) hr hlimit) tag

end Sys2Proof.Machine
end

section
/-! PROOFS. READY (R151): the digest, then the quota sum, then the port declared and the barrier evaluated. -/

namespace Sys2Proof.Machine

/-- A request taken: the answer is placed on the state its act leaves. -/
theorem exec_command_of_act {r : Request} {p : HostNo} {s t : State} {reply : Reply}
    (ht : r.name.takenIn (s.ports.get p).status = true) (hl : r.lengthOk = true)
    (ha : r.act p s = ⟨t, reply⟩) (tag : Byte) : exec (r.command p tag) s = .next (t.answer p tag reply) := by
  rw [exec_command, serve_taken ht hl, ha]

/-- READY is taken from an OPEN port alone (Table 11-2). -/
theorem takenIn_ready_iff {st : PortStatus} : RequestName.ready.takenIn st = true ↔ st = .open :=
  beq_iff_eq

/-! ### The checks of READY and the declaration -/

section actReady
variable {p : HostNo} {digest : Word16} {s : State}

theorem actReady_of_mismatch (hd : digest ≠ s.map.digest) :
    actReady p digest s = .unchanged s (.plain .mapMismatch) := by
  rw [actReady, if_pos hd]

variable (hd : digest = s.map.digest)
include hd

theorem actReady_of_quotas_above (hq : 96 < quotaSum s.map) :
    actReady p digest s = .unchanged s (.plain .mapInvalid) := by
  rw [actReady, if_neg (not_not.mpr hd), if_pos hq]

theorem actReady_of_agreed (hq : quotaSum s.map ≤ 96) {t : State}
    (ht : t = evaluateSetup (s.setPort p { s.ports.get p with status := .ready })) :
    actReady p digest s = ⟨t, ⟨.ok, [t.device.toByte, BitVec.ofNat 8 (t.countPorts .open)]⟩⟩ := by
  rw [actReady, if_neg (not_not.mpr hd), if_neg (Nat.not_lt.mpr hq), ht]

end actReady

/-! ### READY executed (R151) -/

theorem exec_ready_of_act {p : HostNo} {digest : Word16} {s t : State} {reply : Reply}
    (hs : (s.ports.get p).status = .open) (ha : actReady p digest s = ⟨t, reply⟩) (tag : Byte) :
    exec (.ready p tag digest) s = .next (t.answer p tag reply) :=
  exec_command_of_act (r := .ready digest) (takenIn_ready_iff.mpr hs) rfl ha tag

/-- Settles O20: each refusal is one check, with those before it passed, and the accepted READY is answered on the state
that the evaluated barrier leaves. -/
theorem readyDeclares : Obligations.ReadyDeclares := by
  intro p tag digest s
  refine ⟨fun hno hp => ?wrongState, fun hs hd => ?mismatch, fun hs hd hq => ?quotas, fun hs hd hq => ?declared⟩
  case wrongState =>
    have hnot : RequestName.ready.takenIn (s.ports.get p).status = false :=
      Bool.eq_false_iff.mpr (mt takenIn_ready_iff.mp hno)
    exact exec_command_of_wrongState (r := .ready digest) hp hnot
  case mismatch => exact exec_ready_of_act hs (actReady_of_mismatch hd) tag
  case quotas => exact exec_ready_of_act hs (actReady_of_quotas_above hd hq) tag
  case declared =>
    obtain ⟨t, ht⟩ : ∃ t, t = evaluateSetup (s.setPort p { s.ports.get p with status := .ready }) := ⟨_, rfl⟩
    exact ⟨t, ht, exec_ready_of_act hs (actReady_of_agreed hd hq ht) tag⟩

end Sys2Proof.Machine
end

section
/-! PROOFS. The port states each request is taken in, and a request's answer by the state of its port (R170). -/

namespace Sys2Proof.Machine

/-! ### Table 11-2 -/

theorem PortStatus.ne_absent_iff {st : PortStatus} :
    st ≠ .absent ↔ st = .open ∨ st = .ready ∨ st = .attached ∨ st = .pending := by
  cases st <;> decide

/-- A request that reads is taken in every present state. -/
theorem bne_absent_iff {st : PortStatus} :
    (st != .absent) = true ↔ st = .open ∨ st = .ready ∨ st = .attached ∨ st = .pending :=
  bne_iff_ne.trans PortStatus.ne_absent_iff

theorem takenIn_writeMap_iff {st : PortStatus} :
    RequestName.writeMap.takenIn st = true ↔ st = .open ∨ st = .ready := by
  simp only [RequestName.takenIn, Bool.or_eq_true, beq_iff_eq]

theorem takenIn_clearFault_iff {st : PortStatus} :
    RequestName.clearFault.takenIn st = true ↔ st = .open ∨ st = .ready ∨ st = .attached := by
  simp only [RequestName.takenIn, Bool.or_eq_true, beq_iff_eq, or_assoc]

/-- No request is taken on an ABSENT port. -/
theorem present_of_takenIn {n : RequestName} {st : PortStatus} (ht : n.takenIn st = true) : st ≠ .absent := by
  rintro rfl
  cases n <;> cases ht

/-! ### A request by the state of its port (R170, R167) -/

section commandByPortState
variable {r : Request} {p : HostNo} {s : State}

/-- An ABSENT port takes no part in anything. -/
theorem exec_command_of_absent (hp : (s.ports.get p).status = .absent) (tag : Byte) :
    exec (r.command p tag) s = .next s := by
  rw [exec_command, serve, if_pos hp]

theorem exec_command_of_wrongLength (ht : r.name.takenIn (s.ports.get p).status = true) (hl : r.lengthOk = false)
    (tag : Byte) : exec (r.command p tag) s = .next (s.answer p tag (.plain .invalid)) := by
  rw [exec_command, serve, if_neg (present_of_takenIn ht), if_neg (by simp [ht]), if_pos hl]

end commandByPortState

/-- Settles O4: the rows of Table 11-2, then one lemma for each answer of R170 and R167. -/
theorem portStatesOfRequests : Obligations.PortStatesOfRequests := by
  refine ⟨fun st n => ?table, fun r p tag s => ⟨fun hp => ?absent, fun hp ht => ?wrongState,
    fun ht hl => ?wrongLength, fun ht hl => ?taken⟩⟩
  case table =>
    cases n
    case nop | deviceStatus | lineStatus | fetch | readMap | digest => exact bne_absent_iff
    case writeMap => exact takenIn_writeMap_iff
    case clearFault => exact takenIn_clearFault_iff
    -- every other request is taken in one state
    all_goals exact beq_iff_eq
  case absent => exact exec_command_of_absent hp tag
  case wrongState => exact exec_command_of_wrongState hp ht
  case wrongLength => exact exec_command_of_wrongLength ht hl tag
  case taken => exact exec_command_of_act ht hl rfl tag

end Sys2Proof.Machine
end

section
/-! PROOFS. NOP (R171) and DEVICE_STATUS (R172), whose reply carries the set of open votes bit by bit. -/

namespace Sys2Proof.Machine

/-! ### The set of open votes (Table 11-10) -/

/-- A bit that is set or not stands in its own place alone. -/
theorem getLsbD_ite_twoPow (vote : Bool) {h : Nat} (hh : h < 8) (i : Nat) :
    (if vote then BitVec.twoPow 8 h else 0).getLsbD i = (vote && decide (h = i)) := by
  cases vote
  · exact BitVec.getLsbD_zero
  · simp [BitVec.getLsbD_twoPow, hh]

/-- Bit h is the vote of port h, and the bits past the last port are clear. -/
theorem getLsbD_voteSet (s : State) (i : Nat) :
    (voteSet s).getLsbD i = if h : i < 4 then (s.ports.get ⟨i, h⟩).vote else false := by
  have hbits : (voteSet s).getLsbD i =
      ((s.ports.get 0).vote && decide (0 = i) || (s.ports.get 1).vote && decide (1 = i)
        || (s.ports.get 2).vote && decide (2 = i) || (s.ports.get 3).vote && decide (3 = i)) := by
    rw [← getLsbD_ite_twoPow _ (by decide) i, ← getLsbD_ite_twoPow _ (by decide) i,
      ← getLsbD_ite_twoPow _ (by decide) i, ← getLsbD_ite_twoPow _ (by decide) i,
      ← BitVec.getLsbD_or, ← BitVec.getLsbD_or, ← BitVec.getLsbD_or]
    rfl
  rw [hbits]
  match i with
  | 0 | 1 | 2 | 3 => simp
  | i + 4 => simp

/-! ### The two requests -/

/-- Settles O6: both acts leave the state as it is, and any present port takes them (Table 11-2). -/
theorem deviceRequestsReport : Obligations.DeviceRequestsReport := by
  intro p tag s hp
  have htaken : ((s.ports.get p).status != .absent) = true := bne_iff_ne.mpr hp
  have hnop : exec (.nop p tag) s = .next (s.answer p tag (.plain .ok)) :=
    exec_command_of_unchanged (r := .nop) htaken rfl rfl
  have hstatus : exec (.deviceStatus p tag) s = .next (s.answer p tag ⟨.ok, deviceStatusBody p s⟩) :=
    exec_command_of_unchanged (r := .deviceStatus) htaken rfl rfl
  refine ⟨hnop, voteSet s, getLsbD_voteSet s, hstatus.trans ?_⟩
  -- the two enumerated bytes, written out by their values
  rw [deviceStatusBody]
  cases s.device <;> cases s.supply <;> rfl

end Sys2Proof.Machine
end

section
/-! PROOFS. The check byte (R166): a run followed by its own check checks to 00h, so every frame does. -/

namespace Sys2Proof.Machine

/-! ### The CRC-8 of a run -/

theorem crc8_concat (bytes : List Byte) (b : Byte) : crc8 (bytes ++ [b]) = crc8Byte (crc8 bytes) b :=
  List.foldl_concat _ _ _ _

/-- A value taken into itself is cleared, and the eight steps keep 00h. -/
theorem crc8Byte_self (v : Byte) : crc8Byte v v = 0x00 := by
  rw [crc8Byte, BitVec.xor_self]
  rfl

theorem crc8_append_check (bytes : List Byte) : crc8 (bytes ++ [crc8 bytes]) = 0x00 := by
  rw [crc8_concat, crc8Byte_self]

/-! ### Frames (Tables 11-6, 11-7) -/

theorem Reply.crc8_frame (r : Reply) (tag : Byte) : crc8 (r.frame tag) = 0x00 :=
  crc8_append_check _

theorem Request.crc8_frame (r : Request) (tag : Byte) : crc8 (r.frame tag) = 0x00 :=
  crc8_append_check _

/-- The constant of R161 is the frame of a plain NONE. -/
theorem noneFrame_eq_frame : noneFrame = (Reply.plain .none).frame 0x00 := by decide +kernel

theorem crc8_noneFrame : crc8 noneFrame = 0x00 := by
  rw [noneFrame_eq_frame, Reply.crc8_frame]

theorem crc8_notReadyFrame : crc8 notReadyFrame = 0x00 :=
  Reply.crc8_frame _ _

/-! ### The test values of R166 -/

theorem crc8_digits : crc8 [0x31, 0x32, 0x33, 0x34, 0x35, 0x36, 0x37, 0x38, 0x39] = 0xF4 := by decide +kernel

theorem crc8_nop : crc8 [0x01, 0x00, 0x00] = 0x6B := by decide +kernel

theorem nop_frame : Request.nop.frame 0x00 = [0x01, 0x00, 0x00, 0x6B] := by
  rw [← crc8_nop]
  rfl

/-- Settles O9: the frames and the test values by name; the eight steps are the model's own definition written out. -/
theorem checkByteIsCrc8 : Obligations.CheckByteIsCrc8 := by
  have hsteps : ∀ v b : Byte, crc8Byte v b =
      Nat.repeat (fun w : Byte => if w.msb = true then (w <<< 1) ^^^ 0x07 else w <<< 1) 8 (v ^^^ b) := fun _ _ => rfl
  exact ⟨hsteps, Reply.crc8_frame, Request.crc8_frame, crc8_noneFrame, crc8_notReadyFrame, crc8_digits, crc8_nop,
    nop_frame, noneFrame_eq_frame, crc8_append_check, crc8_concat, rfl⟩

end Sys2Proof.Machine
end

section
/-! PROOFS. The operations that touch every port or every line, field by field: entry to RUN, entry to SETUP, the two
evaluations of the barrier, a host's departure. Each changes of a port its notices and what is named here. -/

namespace Sys2Proof.Machine

/-! ### A port that differs in its notices only -/

section SameButNotices
variable {P Q : Port} (h : P.SameButNotices Q)
include h

theorem Port.SameButNotices.reply : Q.reply = P.reply := by rw [h]
theorem Port.SameButNotices.replyReady : Q.replyReady = P.replyReady := by rw [h]
theorem Port.SameButNotices.preparing : Q.preparing = P.preparing := by rw [h]

end SameButNotices

/-- A posting to an ABSENT or PENDING port is discarded (R120). -/
theorem Port.post_of_not_receives {P : Port} (h : P.status.receives = false) (b : NoticeBody) : P.post b = P := by
  simp [Port.post, h]

/-! ### Entry to RUN (R153) -/

/-- The ports at the entry to RUN, nothing posted yet. -/
def attachPorts (s : State) : State :=
  { s with device := .run, ports := .ofFn fun h => (s.ports.get h).attachReady }

section enterRun
variable (s : State)

@[simp] theorem enterRun_device : (enterRun s).device = .run := rfl
@[simp] theorem enterRun_supply : (enterRun s).supply = s.supply := rfl
@[simp] theorem enterRun_firstSettle : (enterRun s).firstSettle = s.firstSettle := rfl
@[simp] theorem enterRun_settle : (enterRun s).settle = s.settle := rfl
@[simp] theorem enterRun_map : (enterRun s).map = s.map := rfl
@[simp] theorem enterRun_lines : (enterRun s).lines = s.lines := rfl
@[simp] theorem enterRun_pending : (enterRun s).pending = s.pending := rfl

theorem enterRun_ports_same (h : HostNo) :
    (s.ports.get h).attachReady.SameButNotices ((enterRun s).ports.get h) := by
  have hpost := State.post_ports_same (attachPorts s) ⟨.all, .runEntered ((attachPorts s).countPorts .attached)⟩ h
  rwa [attachPorts, PerPort.get_ofFn] at hpost

theorem enterRun_status (h : HostNo) : ((enterRun s).ports.get h).status =
    if (s.ports.get h).status = .ready then .attached else (s.ports.get h).status := by
  rw [(enterRun_ports_same s h).status, Port.attachReady]
  split <;> rfl

theorem enterRun_vote (h : HostNo) : ((enterRun s).ports.get h).vote = (s.ports.get h).vote := by
  rw [(enterRun_ports_same s h).vote, Port.attachReady]
  split <;> rfl

end enterRun

/-- The three conditions of R152. -/
theorem barrierComplete_iff {s : State} : barrierComplete s = true ↔
    (∃ h, (s.ports.get h).status = .ready)
      ∧ (∀ h, (s.ports.get h).status = .ready ∨ (s.ports.get h).status = .absent) ∧ s.firstSettle = false := by
  simp [barrierComplete, PerPort.toList_eq, and_assoc]

theorem evaluateSetup_of_complete {s : State} (h : barrierComplete s = true) : evaluateSetup s = enterRun s := if_pos h

theorem evaluateSetup_of_incomplete {s : State} (h : barrierComplete s = false) : evaluateSetup s = s :=
  if_neg (by simp [h])

/-- What holds of a state and of its entry to RUN holds of the evaluated barrier. -/
theorem evaluateSetup_cases {motive : State → Prop} {s : State} (hs : barrierComplete s = false → motive s)
    (hr : barrierComplete s = true → motive (enterRun s)) : motive (evaluateSetup s) := by
  cases h : barrierComplete s
  · rw [evaluateSetup_of_incomplete h]; exact hs h
  · rw [evaluateSetup_of_complete h]; exact hr h

/-! ### Entry to SETUP (R158) -/

/-- The ports at the entry to SETUP, nothing posted yet. -/
def reopenPorts (s : State) : State :=
  { s with device := .setup, ports := .ofFn fun h => (s.ports.get h).reopen }

section enterSetup
variable (s : State)

@[simp] theorem enterSetup_device : (enterSetup s).device = .setup := by simp [enterSetup]
@[simp] theorem enterSetup_supply : (enterSetup s).supply = s.supply := by simp [enterSetup]
@[simp] theorem enterSetup_firstSettle : (enterSetup s).firstSettle = s.firstSettle := by simp [enterSetup]
@[simp] theorem enterSetup_settle : (enterSetup s).settle = s.settle := by simp [enterSetup]
@[simp] theorem enterSetup_map : (enterSetup s).map = s.map := by simp [enterSetup]
@[simp] theorem enterSetup_pending : (enterSetup s).pending = s.pending := by simp [enterSetup]

theorem enterSetup_lines (k : LineNo) : (enterSetup s).lines.get k =
    remonitor (s.ctx k) (s.lines.get k) ((reopenPorts s).ctx k)
      (setupLine ((reopenPorts s).ctx k) (s.lines.get k)).line := by
  simp [enterSetup, reopenPorts]

theorem enterSetup_ports_same (h : HostNo) :
    (s.ports.get h).reopen.SameButNotices ((enterSetup s).ports.get h) := by
  unfold enterSetup
  refine .trans ?_ (State.post_ports_same _ _ h)
  refine .trans ?_ (State.postMerged_ports_same _ _ h)
  refine .trans ?_ (State.postMerged_ports_same _ _ h)
  simp [Port.SameButNotices.refl]

theorem enterSetup_status (h : HostNo) : ((enterSetup s).ports.get h).status =
    if (s.ports.get h).status = .attached ∨ (s.ports.get h).status = .pending then .open
    else (s.ports.get h).status := by
  rw [(enterSetup_ports_same s h).status]; rfl

theorem enterSetup_vote (h : HostNo) : ((enterSetup s).ports.get h).vote = false := by
  rw [(enterSetup_ports_same s h).vote]; rfl

@[simp] theorem enterSetup_claims (k : LineNo) : ((enterSetup s).lines.get k).claims = [] := by
  rw [enterSetup_lines, remonitor_claims]; rfl

@[simp] theorem enterSetup_faultCount (k : LineNo) : ((enterSetup s).lines.get k).faultCount = 0 := by
  rw [enterSetup_lines, remonitor_faultCount]; rfl

theorem setupLine_engine (ctx : LineCtx) (L : LineState) : (setupLine ctx L).line.engine =
    if L.engine = .halted ∨ (L.engine = .faulted ∧ ctx.supply = .low) then .halted else .idle := by
  unfold setupLine
  cases L.engine <;> simp

theorem enterSetup_engine (k : LineNo) : ((enterSetup s).lines.get k).engine =
    if (s.lines.get k).engine = .halted ∨ ((s.lines.get k).engine = .faulted ∧ s.supply = .low) then .halted
    else .idle := by
  rw [enterSetup_lines, remonitor_engine, setupLine_engine]; rfl

end enterSetup

/-- R157: the ATTACHED ports all vote. -/
theorem returnComplete_iff {s : State} : returnComplete s = true ↔
    ∀ h, (s.ports.get h).status = .attached → (s.ports.get h).vote = true := by
  simp [returnComplete, PerPort.toList_eq, ← imp_iff_not_or]

theorem evaluateRun_of_complete {s : State} (h : returnComplete s = true) : evaluateRun s = enterSetup s := if_pos h

theorem evaluateRun_of_incomplete {s : State} (h : returnComplete s = false) : evaluateRun s = s :=
  if_neg (by simp [h])

/-- What holds of a state and of its entry to SETUP holds of the evaluated barrier. -/
theorem evaluateRun_cases {motive : State → Prop} {s : State} (hs : returnComplete s = false → motive s)
    (hr : returnComplete s = true → motive (enterSetup s)) : motive (evaluateRun s) := by
  cases h : returnComplete s
  · rw [evaluateRun_of_incomplete h]; exact hs h
  · rw [evaluateRun_of_complete h]; exact hr h

@[simp] theorem evaluateSetup_pending (s : State) : (evaluateSetup s).pending = s.pending :=
  evaluateSetup_cases (motive := fun t => t.pending = s.pending) (fun _ => rfl) fun _ => rfl

@[simp] theorem evaluateSetup_map (s : State) : (evaluateSetup s).map = s.map :=
  evaluateSetup_cases (motive := fun t => t.map = s.map) (fun _ => rfl) fun _ => rfl

@[simp] theorem evaluateSetup_supply (s : State) : (evaluateSetup s).supply = s.supply :=
  evaluateSetup_cases (motive := fun t => t.supply = s.supply) (fun _ => rfl) fun _ => rfl

@[simp] theorem evaluateSetup_lines (s : State) : (evaluateSetup s).lines = s.lines :=
  evaluateSetup_cases (motive := fun t => t.lines = s.lines) (fun _ => rfl) fun _ => rfl

@[simp] theorem evaluateRun_pending (s : State) : (evaluateRun s).pending = s.pending :=
  evaluateRun_cases (motive := fun t => t.pending = s.pending) (fun _ => rfl) fun _ => enterSetup_pending s

@[simp] theorem evaluateRun_map (s : State) : (evaluateRun s).map = s.map :=
  evaluateRun_cases (motive := fun t => t.map = s.map) (fun _ => rfl) fun _ => enterSetup_map s

@[simp] theorem evaluateRun_supply (s : State) : (evaluateRun s).supply = s.supply :=
  evaluateRun_cases (motive := fun t => t.supply = s.supply) (fun _ => rfl) fun _ => enterSetup_supply s

/-! ### A host's departure (R98 to R101) -/

section departHost
variable (s : State) (p : HostNo)

@[simp] theorem departHost_device : (departHost s p).device = s.device := State.updateLines_device _ _ _
@[simp] theorem departHost_supply : (departHost s p).supply = s.supply := State.updateLines_supply _ _ _
@[simp] theorem departHost_firstSettle : (departHost s p).firstSettle = s.firstSettle :=
  State.updateLines_firstSettle _ _ _
@[simp] theorem departHost_map : (departHost s p).map = s.map := State.updateLines_map _ _ _
@[simp] theorem departHost_pending : (departHost s p).pending = s.pending := State.updateLines_pending _ _ _

theorem departHost_lines (k : LineNo) : (departHost s p).lines.get k =
    remonitor (s.ctx k) (s.lines.get k) (s.ctx k) (departClaim (s.ctx k) (s.lines.get k) p).line :=
  State.updateLines_lines s _ _ k

theorem departHost_ports_same (h : HostNo) : (s.ports.get h).SameButNotices ((departHost s p).ports.get h) :=
  State.updateLines_ports_same s _ _ h

end departHost

/-- The state a DETACH leaves before the barrier is evaluated. -/
def detachedState (p : HostNo) (s : State) : State :=
  let s1 := departHost (s.setPort p { s.ports.get p with status := .pending }) p
  s1.setPort p { (s1.ports.get p).emptyNotices.emptyBuffers with vote := false }

/-- The state PRESENT falling leaves before the barrier is evaluated. -/
def fallenState (p : HostNo) (s : State) : State :=
  let s1 := departHost (s.setPort p { s.ports.get p with status := .absent }) p
  s1.setPort p { (s1.ports.get p).emptyNotices.clearBuffers with vote := false }

theorem actDetach_eq (p : HostNo) (s : State) :
    actDetach p s = ⟨evaluateRun (detachedState p s), .plain .ok⟩ := rfl

theorem presentFall_of_absent {p : HostNo} {s : State} (h : (s.ports.get p).status = .absent) :
    presentFall p s = s := by
  simp [presentFall, h]

theorem presentFall_of_present {p : HostNo} {s : State} (h : (s.ports.get p).status ≠ .absent) :
    presentFall p s =
      match s.device with
      | .setup => evaluateSetup (fallenState p s)
      | .run => if (s.ports.get p).status = .attached then evaluateRun (fallenState p s) else fallenState p s := by
  simp only [presentFall, h, if_false]; rfl

section departed
variable (p : HostNo) (s : State)

@[simp] theorem detachedState_device : (detachedState p s).device = s.device := by simp [detachedState]
@[simp] theorem detachedState_supply : (detachedState p s).supply = s.supply := by simp [detachedState]
@[simp] theorem detachedState_firstSettle : (detachedState p s).firstSettle = s.firstSettle := by
  simp [detachedState]
@[simp] theorem detachedState_map : (detachedState p s).map = s.map := by simp [detachedState]
@[simp] theorem detachedState_pending : (detachedState p s).pending = s.pending := by simp [detachedState]
@[simp] theorem fallenState_device : (fallenState p s).device = s.device := by simp [fallenState]
@[simp] theorem fallenState_supply : (fallenState p s).supply = s.supply := by simp [fallenState]
@[simp] theorem fallenState_firstSettle : (fallenState p s).firstSettle = s.firstSettle := by simp [fallenState]
@[simp] theorem fallenState_map : (fallenState p s).map = s.map := by simp [fallenState]
@[simp] theorem fallenState_pending : (fallenState p s).pending = s.pending := by simp [fallenState]

theorem detachedState_lines (k : LineNo) : (detachedState p s).lines.get k =
    remonitor (s.ctx k) (s.lines.get k) (s.ctx k) (departClaim (s.ctx k) (s.lines.get k) p).line := by
  simp [detachedState, departHost_lines]

theorem fallenState_lines (k : LineNo) : (fallenState p s).lines.get k =
    remonitor (s.ctx k) (s.lines.get k) (s.ctx k) (departClaim (s.ctx k) (s.lines.get k) p).line := by
  simp [fallenState, departHost_lines]

theorem detachedState_status (h : HostNo) : ((detachedState p s).ports.get h).status =
    if h = p then .pending else (s.ports.get h).status := by
  by_cases hp : h = p
  · subst hp; simp [detachedState, Port.emptyBuffers, Port.emptyNotices, (departHost_ports_same _ _ _).status]
  · simp [detachedState, State.setPort_ports, hp, (departHost_ports_same _ _ _).status]

theorem fallenState_status (h : HostNo) : ((fallenState p s).ports.get h).status =
    if h = p then .absent else (s.ports.get h).status := by
  by_cases hp : h = p
  · subst hp; simp [fallenState, Port.clearBuffers, Port.emptyNotices, (departHost_ports_same _ _ _).status]
  · simp [fallenState, State.setPort_ports, hp, (departHost_ports_same _ _ _).status]

theorem detachedState_vote (h : HostNo) : ((detachedState p s).ports.get h).vote =
    if h = p then false else (s.ports.get h).vote := by
  by_cases hp : h = p
  · subst hp; simp [detachedState]
  · simp [detachedState, State.setPort_ports, hp, (departHost_ports_same _ _ _).vote]

theorem fallenState_vote (h : HostNo) : ((fallenState p s).ports.get h).vote =
    if h = p then false else (s.ports.get h).vote := by
  by_cases hp : h = p
  · subst hp; simp [fallenState]
  · simp [fallenState, State.setPort_ports, hp, (departHost_ports_same _ _ _).vote]

end departed

end Sys2Proof.Machine
end

section
/-! PROOFS. The induction over commands: what the laws read of the state, which commands leave all of that alone, and
what is left to show of a law for every step to keep it. -/

namespace Sys2Proof.Machine

/-! ### What no law reads -/

/-- A line alike: the engine and the fault count are the same, and the claims keep host, priority, state and queue. -/
def LineState.Alike (L M : LineState) : Prop :=
  M.engine = L.engine ∧ M.faultCount = L.faultCount
    ∧ ∃ f : Claim → Claim, (∀ c, (f c).host = c.host ∧ (f c).priority = c.priority ∧ (f c).state = c.state
        ∧ (f c).queue = c.queue) ∧ M.claims = L.claims.map f

/-- A port alike: it differs in its pins, its transaction and its buffers only. -/
def Port.Alike (P Q : Port) : Prop :=
  Q.status = P.status ∧ Q.vote = P.vote ∧ Q.notices = P.notices ∧ Q.nextSeq = P.nextSeq

/-- Two states that no law tells apart. -/
structure State.Alike (s t : State) : Prop where
  device : t.device = s.device
  firstSettle : t.firstSettle = s.firstSettle
  map : t.map = s.map
  pending : t.pending = s.pending
  lines : ∀ k, (s.lines.get k).Alike (t.lines.get k)
  ports : ∀ h, (s.ports.get h).Alike (t.ports.get h)

theorem LineState.Alike.of_eq {L M : LineState} (he : M.engine = L.engine) (hf : M.faultCount = L.faultCount)
    (hc : M.claims = L.claims) : L.Alike M :=
  ⟨he, hf, id, fun _ => ⟨rfl, rfl, rfl, rfl⟩, by rw [hc, List.map_id]⟩

theorem LineState.Alike.refl (L : LineState) : L.Alike L := .of_eq rfl rfl rfl

theorem Port.Alike.refl (P : Port) : P.Alike P := ⟨rfl, rfl, rfl, rfl⟩

/-- Only a port is replaced, by one alike. -/
theorem State.Alike.setPort {s : State} {p : HostNo} {Q : Port} (h : (s.ports.get p).Alike Q) :
    s.Alike (s.setPort p Q) where
  device := rfl
  firstSettle := rfl
  map := rfl
  pending := rfl
  lines k := .refl _
  ports g := by
    by_cases hg : g = p
    · subst hg; rwa [State.setPort_ports_self]
    · rw [State.setPort_ports_ne _ _ _ hg]; exact .refl _

theorem State.Alike.answer (s : State) (p : HostNo) (tag : Byte) (r : Reply) : s.Alike (s.answer p tag r) :=
  .setPort ⟨rfl, rfl, rfl, rfl⟩

/-- Only a line is replaced, by one alike. -/
theorem State.Alike.setLine {s : State} {k : LineNo} {M : LineState} (h : (s.lines.get k).Alike M) :
    s.Alike { s with lines := s.lines.set k M } where
  device := rfl
  firstSettle := rfl
  map := rfl
  pending := rfl
  lines j := by
    by_cases hj : j = k
    · subst hj; rwa [PerLine.get_set_self]
    · rw [PerLine.get_set_ne _ _ hj]; exact .refl _
  ports _ := .refl _

/-- What the laws read is what the clock does not count. -/
theorem State.Alike.elapse (s : State) : s.Alike s.elapse where
  device := rfl
  firstSettle := rfl
  map := rfl
  pending := rfl
  lines k := by rw [State.elapse_lines]; exact ⟨rfl, rfl, _, Claim.elapse_keeps, rfl⟩
  ports h := by
    rw [State.elapse_ports, Port.elapse]
    split <;> exact .refl _

theorem State.Alike.orderCount (s : State) (n : Nat) : s.Alike { s with orderCount := n } :=
  ⟨rfl, rfl, rfl, rfl, fun _ => .refl _, fun _ => .refl _⟩

theorem State.Alike.settle (s : State) (timer : Option Nat) : s.Alike { s with settle := timer } :=
  ⟨rfl, rfl, rfl, rfl, fun _ => .refl _, fun _ => .refl _⟩

/-- A RENEW restarts leases. -/
theorem State.Alike.renew (s : State) (p : HostNo) (v : Option Word16) (ks : List LineNo) :
    s.Alike { s with lines := .ofFn fun j => if j ∈ ks then (s.lines.get j).renewClaim p v else s.lines.get j } where
  device := rfl
  firstSettle := rfl
  map := rfl
  pending := rfl
  lines k := by
    rw [PerLine.get_ofFn]
    split
    · refine ⟨rfl, rfl, _, fun c => ?_, rfl⟩
      by_cases hc : c.host = p <;> simp [hc, Claim.renew]
    · exact .refl _
  ports _ := .refl _

/-- The four ways a RELEASE acts on a line (Table 5-6). -/
theorem releaseClaim_cases {motive : LineOut → Prop} {ctx : LineCtx} {L : LineState} {c : Claim}
    {option : ReleaseOption} (hdrop : motive (dropClaim ctx L c.host)) (hquiet : motive (.quiet L))
    (hdrain : motive (drainClaim ctx L c.host)) (hend : motive (endClaim ctx L c.host .released)) :
    motive (releaseClaim ctx L c option) := by
  unfold releaseClaim
  split
  exacts [hdrop, hdrop, hquiet, hquiet, hdrain, hend, hend, hend]

theorem releaseClaim_fair {ctx : LineCtx} {L : LineState} {c : Claim} (option : ReleaseOption) (hc : c ∈ L.claims) :
    (releaseClaim ctx L c option).Fair L :=
  .of_kept
    (releaseClaim_cases (motive := fun o => L.Kept o.line) (dropClaim_kept ctx L _) (.refl L) (drainClaim_kept ctx L _)
      (endClaim_kept ctx L _ _))
    (releaseClaim_cases (motive := fun o => L.EngineStays o.line) (dropClaim_stays ctx L _) (.of_eq rfl)
      (drainClaim_stays ctx L _) (endClaim_stays ctx L _ _))
    fun hl => releaseClaim_law hl hc

/-! ### What a law has to meet -/

/-- What is left to show of a law, command by command: the commands that no law sees, and the timed events of one line,
are covered by the first three items. -/
structure KeptByCommands (motive : State → Prop) : Prop where
  alike : ∀ {s t : State}, s.Alike t → motive s → motive t
  post : ∀ {s : State} (n : Post), motive s → motive (s.post n)
  line : ∀ {s : State} (k : LineNo) {o : LineOut}, o.Fair (s.lines.get k) → motive s → motive (s.updateLine k o)
  fault : ∀ {s : State} (k : LineNo) {o : LineOut}, readbackFaultOut (s.ctx k) (s.lines.get k) = some o → motive s →
    motive (s.updateLine k o)
  fetch : ∀ {s : State} (p : HostNo) (q : List Notice),
    ((s.ports.get p).NoticeLaw → ({ s.ports.get p with notices := q } : Port).NoticeLaw) → motive s →
    motive (s.setPort p { s.ports.get p with notices := q })
  writeMap : ∀ {s : State} {p : HostNo} {m : Memory} {offset : Nat} {bytes : List Byte},
    ((s.ports.get p).status = .open ∨ (s.ports.get p).status = .ready) → mapAfterWrite s.map offset bytes = some m →
    motive s → motive { writeMapTo s m with ports := .ofFn fun h => ((writeMapTo s m).ports.get h).withdrawReady }
  declare : ∀ {s : State} {p : HostNo}, (s.ports.get p).status = .open → quotaSum s.map ≤ 96 → motive s →
    motive (evaluateSetup (s.setPort p { s.ports.get p with status := .ready }))
  attach : ∀ {s : State} {p : HostNo}, (s.ports.get p).status = .pending → motive s →
    motive (s.setPort p { s.ports.get p with status := .attached })
  vote : ∀ {s : State} {p : HostNo} (n : Post), (s.ports.get p).status = .attached → motive s →
    motive (evaluateRun ((s.setPort p { s.ports.get p with vote := true }).post n))
  cancel : ∀ {s : State} {p : HostNo}, (s.ports.get p).status = .attached → motive s →
    motive (s.setPort p { s.ports.get p with vote := false })
  detach : ∀ {s : State} {p : HostNo}, (s.ports.get p).status = .attached → motive s →
    motive (evaluateRun (detachedState p s))
  claim : ∀ {s : State} {p : HostNo} {f : ClaimFields} {lease : Word16}, (s.ports.get p).status = .attached →
    claimRefusal s p f lease = none → motive s →
    motive (s.updateLine f.line (enlist (s.ctx f.line) (s.lines.get f.line) (newClaim s p f lease)))
  submit : ∀ {s : State} {p : HostNo} {k : LineNo} {segs : List Segment},
    s.inUse p + segs.length ≤ quota s.map p → motive s →
    motive (s.updateLine k (submitTo (s.ctx k) (s.lines.get k) p segs))
  clear : ∀ {s : State} {k : LineNo} (extra : List Post), (s.lines.get k).engine = .faulted → motive s →
    motive (s.updateLineWith k (clearFaultLine (s.ctx k) (s.lines.get k)) extra)
  rise : ∀ {s : State} {p : HostNo}, (s.ports.get p).status = .absent → motive s → motive (presentRise p s)
  fall : ∀ {s : State} {p : HostNo}, (s.ports.get p).status ≠ .absent → motive s → motive (presentFall p s)
  reset : ∀ {s : State}, motive s → motive (deviceReset s)
  supplyLow : ∀ {s : State}, motive s → motive (supplyFallsLow s)
  supplyBack : ∀ {s : State}, motive s → motive (supplyRestore s)
  firstSettle : ∀ {s : State}, motive s → motive (firstSettleEnd s)

namespace KeptByCommands
variable {motive : State → Prop} (K : KeptByCommands motive)
include K

/-! ### Events on one line -/

theorem applyLine {s : State} {k : LineNo} {o : Option LineOut} (h : ∀ x, o = some x → x.Fair (s.lines.get k))
    (hs : motive s) : motive (s.applyLine k o) := by
  cases o with
  | none => exact hs
  | some x => exact K.line k (h x rfl) hs

theorem padReads {s : State} {k : LineNo} (reads : PadLevel) (hs : motive s) :
    motive { s with lines := s.lines.set k (Machine.padReads (s.ctx k) (s.lines.get k) reads) } :=
  K.alike (.setLine (.of_eq rfl rfl rfl)) hs

theorem readbackFault {s : State} (k : LineNo) (hs : motive s) : motive (Machine.readbackFault k s) := by
  rw [Machine.readbackFault]
  cases h : readbackFaultOut (s.ctx k) (s.lines.get k) with
  | none => exact hs
  | some o => exact K.fault k h hs

/-! ### The acts of the requests -/

theorem actFetch {s : State} (p : HostNo) (maximum : Byte) (ack : Option Byte) (hs : motive s) :
    motive (Machine.actFetch p maximum ack s).state := by
  unfold Machine.actFetch
  split
  · refine K.fetch p _ (fun hl => ?_) hs
    have hmarked : ∀ q, ({ s.ports.get p with notices := q } : Port).NoticeLaw →
        ({ s.ports.get p with notices := markDelivered q maximum.toNat } : Port).NoticeLaw :=
      fun q hq => hq.markDelivered maximum.toNat
    apply hmarked
    cases ack with
    | none => exact hl
    | some a =>
      cases hack : acknowledge (s.ports.get p).notices a with
      | none => simpa [hack] using hl
      | some q =>
        obtain ⟨pre, n, hq, -⟩ := acknowledge_spec hack
        have hsuffix := hl.suffix (pre := pre ++ [n]) (q := q) (by simpa using hq) (by simp)
        simpa [hack] using hsuffix
  · exact hs

theorem actWriteMap {s : State} {p : HostNo} (hp : (s.ports.get p).status = .open ∨ (s.ports.get p).status = .ready)
    (offset : Byte) (bytes : List Byte) (hs : motive s) : motive (Machine.actWriteMap p offset bytes s).state := by
  unfold Machine.actWriteMap
  split
  · exact hs
  · rename_i m hm
    exact K.post _ (K.writeMap hp hm hs)

theorem actReady {s : State} {p : HostNo} (hp : (s.ports.get p).status = .open) (digest : Word16) (hs : motive s) :
    motive (Machine.actReady p digest s).state := by
  unfold Machine.actReady
  split
  · exact hs
  · split
    · exact hs
    · rename_i hq
      exact K.declare hp (Nat.not_lt.mp hq) hs

theorem actAttach {s : State} {p : HostNo} (hp : (s.ports.get p).status = .pending) (digest : Word16)
    (hs : motive s) : motive (Machine.actAttach p digest s).state := by
  unfold Machine.actAttach
  split
  · exact hs
  · exact K.attach hp hs

theorem actReopen {s : State} {p : HostNo} (hp : (s.ports.get p).status = .attached) (choice : Byte)
    (hs : motive s) : motive (Machine.actReopen p choice s).state := by
  unfold Machine.actReopen
  dsimp only
  split
  · split
    · exact hs
    · exact K.vote _ hp hs
  · split
    · split
      · exact K.post _ (K.cancel hp hs)
      · exact hs
    · exact hs

theorem actClaim {s : State} {p : HostNo} (hp : (s.ports.get p).status = .attached)
    (line cutMode option restLevel : Byte) (lease : Word16) (hs : motive s) :
    motive (Machine.actClaim p line cutMode option restLevel lease s).state := by
  unfold Machine.actClaim
  split
  · exact hs
  · split
    · exact hs
    · rename_i hr
      exact K.claim hp hr hs

theorem actRelease {s : State} {p : HostNo} (line option : Byte) (hs : motive s) :
    motive (Machine.actRelease p line option s).state := by
  unfold Machine.actRelease
  split
  · split
    · exact hs
    · rename_i c hc
      exact K.line _ (releaseClaim_fair _ (LineState.claimOf_mem hc).1) hs
  · exact hs

theorem actRenew {s : State} {p : HostNo} (selector : Byte) (newLease : Option Word16) (hs : motive s) :
    motive (Machine.actRenew p selector newLease s).state := by
  unfold Machine.actRenew
  split
  · exact hs
  · split
    · exact hs
    · split
      · exact hs
      · split
        · exact hs
        · exact K.alike (.renew s p newLease _) hs

theorem actSubmit {s : State} {p : HostNo} (line count : Byte) (segments : List Byte) (hs : motive s) :
    motive (Machine.actSubmit p line count segments s).state := by
  unfold Machine.actSubmit
  split
  · exact hs
  · split
    · exact hs
    · split
      · exact hs
      · split
        · exact hs
        · split
          · exact hs
          · rename_i hq
            exact K.submit (Nat.not_lt.mp hq) hs

theorem actFlush {s : State} {p : HostNo} (line scope label cut : Byte) (hs : motive s) :
    motive (Machine.actFlush p line scope label cut s).state := by
  unfold Machine.actFlush
  split
  · split
    · exact hs
    · rename_i c hc
      exact K.line _ (.of_kept (flushLine_kept _ _ _ _ _) (flushLine_stays _ _ _ _ _)
        fun hl => flushLine_law hl (LineState.claimOf_mem hc).1) hs
  · exact hs

theorem actAmend {s : State} {p : HostNo} (line : Byte) (period active : Word16) (hs : motive s) :
    motive (Machine.actAmend p line period active s).state := by
  unfold Machine.actAmend
  split
  · exact hs
  · dsimp only
    split
    · exact hs
    · split
      · exact hs
      · split
        · exact hs
        · exact K.alike (.setLine (.of_eq rfl rfl rfl)) hs

theorem actClearFault {s : State} {p : HostNo} (line : Byte) (hs : motive s) :
    motive (Machine.actClearFault p line s).state := by
  unfold Machine.actClearFault
  split
  · exact hs
  · split
    · exact hs
    · split
      · exact hs
      · rename_i he
        exact K.clear _ (not_not.mp he) hs

/-- A request taken in its port's state. -/
theorem act {s : State} {p : HostNo} (r : Request) (ht : r.name.takenIn (s.ports.get p).status = true)
    (hs : motive s) : motive (r.act p s).state := by
  cases r with
  | nop | deviceStatus | digest => exact hs
  | lineStatus line =>
    change motive (actLineStatus line s).state
    unfold actLineStatus
    split <;> exact hs
  | readMap offset length =>
    change motive (actReadMap offset length s).state
    unfold actReadMap
    split <;> exact hs
  | fetch maximum ack => exact K.actFetch p maximum ack hs
  | writeMap offset bytes => exact K.actWriteMap (takenIn_writeMap_iff.mp ht) offset bytes hs
  | ready d => exact K.actReady (beq_iff_eq.mp ht) d hs
  | attach d => exact K.actAttach (beq_iff_eq.mp ht) d hs
  | reopen choice => exact K.actReopen (beq_iff_eq.mp ht) choice hs
  | detach => exact K.detach (beq_iff_eq.mp ht) hs
  | claim line cutMode option restLevel lease =>
    exact K.actClaim (beq_iff_eq.mp ht) line cutMode option restLevel lease hs
  | release line option => exact K.actRelease line option hs
  | renew selector newLease => exact K.actRenew selector newLease hs
  | submit line count segments => exact K.actSubmit line count segments hs
  | flush line scope label cut => exact K.actFlush line scope label cut hs
  | amend line period active => exact K.actAmend line period active hs
  | clearFault line => exact K.actClearFault line hs

theorem answer {s : State} (p : HostNo) (tag : Byte) (r : Reply) (hs : motive s) : motive (s.answer p tag r) :=
  K.alike (.answer s p tag r) hs

/-- A request that reaches its port, whatever comes of it. -/
theorem serve {s : State} (p : HostNo) (tag : Byte) (r : Request) (lengthOk : Bool) (hs : motive s) :
    motive (Machine.serve p tag r.name lengthOk (r.act p) s) := by
  unfold Machine.serve
  split
  · exact hs
  · split
    · exact K.answer _ _ _ hs
    · rename_i ht
      split
      · exact K.answer _ _ _ hs
      · exact K.answer _ _ _ (K.act r (by simpa using ht) hs)

end KeptByCommands

/-- A body is read as a request of the name its code gives. -/
theorem parseBody_name {name : RequestName} {body : List Byte} {r : Request} (h : parseBody name body = some r) :
    r.name = name := by
  unfold parseBody at h
  cases name <;> grind [Request.name]

namespace KeptByCommands
variable {motive : State → Prop} (K : KeptByCommands motive)
include K

theorem dispatchFrame {s : State} (p : HostNo) (code tag : Byte) (body : List Byte) (hs : motive s) :
    motive (Machine.dispatchFrame p code tag body s) := by
  unfold Machine.dispatchFrame
  split
  · exact K.answer _ _ _ hs
  · split
    · rename_i r hr
      rw [← parseBody_name hr]
      exact K.serve p tag r true hs
    · exact serve_keeps (fun _ _ _ h => K.answer _ _ _ h) id hs

theorem deselectPort {s : State} (p : HostNo) (bytes : List Byte) (bits : Nat) (hs : motive s) :
    motive (Machine.deselectPort p bytes bits s) := by
  unfold Machine.deselectPort
  dsimp only
  have hd : motive (s.setPort p (s.ports.get p).deselected) := K.alike (.setPort ⟨rfl, rfl, rfl, rfl⟩) hs
  split
  · exact hs
  · split
    · exact hd
    · exact hd
    · split
      · exact hd
      · unfold examine
        split
        · exact K.answer _ _ _ hd
        · exact K.answer _ _ _ hd
        · exact K.dispatchFrame _ _ _ _ hd

/-- Every command keeps the law. -/
theorem exec {c : Instr} {s t : State} (h : Machine.exec c s = .next t) (hs : motive s) : motive t := by
  have request (r : Request) (p : HostNo) (tag : Byte) (hx : Machine.exec (r.command p tag) s = .next t) :
      motive t := by
    rw [exec_command] at hx
    obtain rfl := Host.Outcome.next.inj hx
    exact K.serve p tag r _ hs
  cases c
  case nop p tag => exact request .nop p tag h
  case deviceStatus p tag => exact request .deviceStatus p tag h
  case lineStatus p tag line => exact request (.lineStatus line) p tag h
  case fetch p tag maximum ack => exact request (.fetch maximum ack) p tag h
  case readMap p tag offset length => exact request (.readMap offset length) p tag h
  case digest p tag => exact request .digest p tag h
  case writeMap p tag offset bytes => exact request (.writeMap offset bytes) p tag h
  case ready p tag d => exact request (.ready d) p tag h
  case attach p tag d => exact request (.attach d) p tag h
  case reopen p tag choice => exact request (.reopen choice) p tag h
  case detach p tag => exact request .detach p tag h
  case claim p tag line cutMode option restLevel lease =>
    exact request (.claim line cutMode option restLevel lease) p tag h
  case release p tag line option => exact request (.release line option) p tag h
  case renew p tag selector newLease => exact request (.renew selector newLease) p tag h
  case submit p tag line count segments => exact request (.submit line count segments) p tag h
  case flush p tag line scope label cut => exact request (.flush line scope label cut) p tag h
  case amend p tag line period active => exact request (.amend line period active) p tag h
  case clearFault p tag line => exact request (.clearFault line) p tag h
  all_goals obtain rfl := Host.Outcome.next.inj h
  case transactionSelect p => exact K.alike (.setPort ⟨by simp, by simp, by simp, by simp⟩) hs
  case deselect p bytes bits => exact K.deselectPort p bytes bits hs
  case replyReady p => exact K.alike (.setPort ⟨by simp, by simp, by simp, by simp⟩) hs
  case presentRise p =>
    by_cases hp : (s.ports.get p).status = .absent
    · exact K.rise hp hs
    · rwa [presentRise, if_neg hp]
  case presentFall p =>
    by_cases hp : (s.ports.get p).status = .absent
    · rwa [presentFall_of_absent hp]
    · exact K.fall hp hs
  case deviceReset => exact K.reset hs
  case supplyFallsLow => exact K.supplyLow hs
  case settleTimerStart =>
    rw [settleTimerStart]
    split
    · exact K.alike (.settle s _) hs
    · exact hs
  case settleTimerCleared =>
    rw [settleTimerCleared]
    split
    · exact K.alike (.settle s _) hs
    · exact hs
  case supplyRestore => exact K.supplyBack hs
  case firstSettleEnd => exact K.firstSettle hs
  case leaseExpiry k g => exact K.applyLine (fun _ => leaseExpiryOut_fair) hs
  case guardEnd k => exact K.applyLine (fun _ => guardEndOut_fair) hs
  case pulsePhaseEnd k => exact K.applyLine (fun _ => pulsePhaseEndOut_fair) hs
  case pulseCycleEnd k => exact K.applyLine (fun _ => pulseCycleEndOut_fair) hs
  case carrierElementEnd k => exact K.applyLine (fun _ => carrierElementEndOut_fair) hs
  case carrierPartChange k => exact K.applyLine (fun _ => carrierPartChangeOut_fair) hs
  case holdEnd k => exact K.applyLine (fun _ => holdEndOut_fair) hs
  case senseRelease k => exact K.applyLine (fun _ => senseReleaseOut_fair) hs
  case sensePadHigh k => exact K.applyLine (fun _ => sensePadHighOut_fair) hs
  case senseLimitReached k => exact K.applyLine (fun _ => senseLimitReachedOut_fair) hs
  case padMismatchBegins k reads => exact K.padReads reads hs
  case padMatches k => exact K.padReads _ hs
  case readbackFault k => exact K.readbackFault k hs

/-- Every step keeps the law, given that it does not read the queue of waiting commands. -/
theorem step (hq : ∀ {s : State} (q : List Instr), motive s → motive { s with pending := q }) {s t : State}
    (h : Machine.step s = .next t) (hs : motive s) : motive t := by
  unfold Machine.step at h
  split at h
  · exact K.exec h (hq _ hs)
  · obtain rfl := Host.Outcome.next.inj h
    exact tick_keeps (fun s hs => K.alike (.elapse s) hs) (fun s n hs => K.alike (.orderCount s n) hs)
      (fun s i hi hs => K.exec (exec_of_due hi) hs) hs

end KeptByCommands

end Sys2Proof.Machine
end

section
/-! PROOFS. The access map, every notice queue and every fault count keep their laws at every step. -/

namespace Sys2Proof.Machine

/-! ### A map write, and the events of every line, field by field -/

section writeMapTo
variable (s : State) (m : Memory)

@[simp] theorem writeMapTo_device : (writeMapTo s m).device = s.device := rfl
@[simp] theorem writeMapTo_supply : (writeMapTo s m).supply = s.supply := rfl
@[simp] theorem writeMapTo_firstSettle : (writeMapTo s m).firstSettle = s.firstSettle := rfl
@[simp] theorem writeMapTo_settle : (writeMapTo s m).settle = s.settle := rfl
@[simp] theorem writeMapTo_map : (writeMapTo s m).map = m := rfl
@[simp] theorem writeMapTo_ports : (writeMapTo s m).ports = s.ports := rfl
@[simp] theorem writeMapTo_pending : (writeMapTo s m).pending = s.pending := rfl

/-- A line at a write before a fault is looked for: its monitor told, an entry fault carried. -/
def writtenLine (k : LineNo) : LineState :=
  (remonitor (s.ctx k) (s.lines.get k) (({ s with map := m } : State).ctx k) (s.lines.get k)).carryEntryFault
    (s.ctx k) (({ s with map := m } : State).ctx k)

theorem writeMapTo_lines (k : LineNo) : (writeMapTo s m).lines.get k =
    if faultDue (({ s with map := m } : State).ctx k).window (writtenLine s m k) then
      remonitor (({ s with map := m } : State).ctx k) (writtenLine s m k) (({ s with map := m } : State).ctx k)
        (faultLine (({ s with map := m } : State).ctx k) (writtenLine s m k)).line
    else writtenLine s m k := by
  simp only [writeMapTo, PerLine.get_ofFn, State.remonitorAll, writtenLine]
  rfl

@[simp] theorem writtenLine_engine (k : LineNo) : (writtenLine s m k).engine = (s.lines.get k).engine := by
  simp [writtenLine]
@[simp] theorem writtenLine_claims (k : LineNo) : (writtenLine s m k).claims = (s.lines.get k).claims := by
  simp [writtenLine]
@[simp] theorem writtenLine_faultCount (k : LineNo) : (writtenLine s m k).faultCount = (s.lines.get k).faultCount := by
  simp [writtenLine]

end writeMapTo

section updateLineWith
variable (s : State) (k : LineNo) (o : LineOut) (extra : List Post)

@[simp] theorem State.updateLineWith_device : (s.updateLineWith k o extra).device = s.device := by
  simp [State.updateLineWith]
@[simp] theorem State.updateLineWith_firstSettle : (s.updateLineWith k o extra).firstSettle = s.firstSettle := by
  simp [State.updateLineWith]
@[simp] theorem State.updateLineWith_map : (s.updateLineWith k o extra).map = s.map := by simp [State.updateLineWith]
@[simp] theorem State.updateLineWith_pending : (s.updateLineWith k o extra).pending = s.pending := by
  simp [State.updateLineWith]

theorem State.updateLineWith_lines : (s.updateLineWith k o extra).lines =
    s.lines.set k (remonitor (s.ctx k) (s.lines.get k) (s.ctx k) o.line) := by simp [State.updateLineWith]

theorem State.updateLineWith_ports_same (h : HostNo) :
    (s.ports.get h).SameButNotices ((s.updateLineWith k o extra).ports.get h) :=
  State.postMerged_ports_same _ _ h

end updateLineWith

/-! ### The access map (R144) -/

theorem MapLaw.of_map {s t : State} (h : MapLaw s) (hm : t.map = s.map) : MapLaw t := by
  rwa [MapLaw, hm]

theorem mapLaw_reset : MapLaw State.reset := by
  unfold MapLaw
  decide +kernel

@[simp] theorem presentRise_map (p : HostNo) (s : State) : (presentRise p s).map = s.map := by
  simp only [presentRise]
  split
  · split <;> simp
  · rfl

@[simp] theorem presentFall_map (p : HostNo) (s : State) : (presentFall p s).map = s.map := by
  by_cases hp : (s.ports.get p).status = .absent
  · rw [presentFall_of_absent hp]
  · rw [presentFall_of_present hp]
    split
    · simp
    · split <;> simp

@[simp] theorem supplyFallsLow_map (s : State) : (supplyFallsLow s).map = s.map := by
  unfold supplyFallsLow
  split <;> simp

@[simp] theorem supplyRestore_map (s : State) : (supplyRestore s).map = s.map := by
  unfold supplyRestore
  split <;> simp

@[simp] theorem firstSettleEnd_map (s : State) : (firstSettleEnd s).map = s.map := by
  unfold firstSettleEnd
  split
  · dsimp only
    split
    · rw [evaluateSetup_map]; rfl
    · rfl
  · rfl

/-- Only WRITE_MAP and a device reset write the map. -/
theorem mapLaw_kept : KeptByCommands MapLaw where
  alike ha h := h.of_map ha.map
  post _ h := h
  line k _ _ h := h.of_map (State.updateLine_map _ k _)
  fault k _ _ h := h.of_map (State.updateLine_map _ k _)
  fetch _ _ _ h := h
  writeMap _ hm h := mapAfterWrite_law h.1 h.2 hm
  declare _ _ h := h.of_map (evaluateSetup_map _)
  attach _ h := h
  vote _ _ h := h.of_map (evaluateRun_map _)
  cancel _ h := h
  detach _ h := h.of_map ((evaluateRun_map _).trans (detachedState_map _ _))
  claim _ _ h := h.of_map (State.updateLine_map _ _ _)
  submit _ h := h.of_map (State.updateLine_map _ _ _)
  clear _ _ h := h.of_map (State.updateLineWith_map _ _ _ _)
  rise _ h := h.of_map (presentRise_map _ _)
  fall _ h := h.of_map (presentFall_map _ _)
  reset _ := mapLaw_reset
  supplyLow h := h.of_map (supplyFallsLow_map _)
  supplyBack h := h.of_map (supplyRestore_map _)
  firstSettle h := h.of_map (firstSettleEnd_map _)

/-- Settles O54, by the induction over commands. -/
theorem everyStepKeepsTheMapLaw : Obligations.EveryStepKeepsTheMapLaw :=
  fun _ _ hstep h => mapLaw_kept.step (fun _ h => h) hstep h

/-! ### The notice queues (R118, R121, R124) -/

/-- One port is replaced by one whose queue keeps its law. -/
theorem NoticeLaw.setPort {s : State} (h : NoticeLaw s) {p : HostNo} {Q : Port} (hQ : Q.NoticeLaw) :
    NoticeLaw (s.setPort p Q) := by
  intro g
  rw [State.setPort_ports]
  split
  · exact hQ
  · exact h g

/-- The port of one host changes in other things than its queue. -/
theorem NoticeLaw.setPort_same {s : State} (h : NoticeLaw s) {p : HostNo} {Q : Port}
    (hn : Q.notices = (s.ports.get p).notices) (hs : Q.nextSeq = (s.ports.get p).nextSeq) :
    NoticeLaw (s.setPort p Q) :=
  h.setPort ((h p).of_same hn hs)

theorem NoticeLaw.enterRun {s : State} (h : NoticeLaw s) : NoticeLaw (enterRun s) := by
  refine NoticeLaw.post (s := attachPorts s) (h.of_ports fun p => ?_) _
  rw [attachPorts, PerPort.get_ofFn, Port.attachReady]
  split <;> exact ⟨rfl, rfl⟩

theorem NoticeLaw.evaluateSetup {s : State} (h : NoticeLaw s) : NoticeLaw (evaluateSetup s) :=
  evaluateSetup_cases (fun _ => h) fun _ => h.enterRun

theorem NoticeLaw.enterSetup {s : State} (h : NoticeLaw s) : NoticeLaw (enterSetup s) := by
  unfold Machine.enterSetup
  refine ((NoticeLaw.postMerged ?_ _).postMerged _).post _
  refine h.of_ports fun p => ?_
  rw [PerPort.get_ofFn]
  exact ⟨rfl, rfl⟩

theorem NoticeLaw.evaluateRun {s : State} (h : NoticeLaw s) : NoticeLaw (evaluateRun s) :=
  evaluateRun_cases (fun _ => h) fun _ => h.enterSetup

theorem NoticeLaw.departHost {s : State} (h : NoticeLaw s) (p : HostNo) : NoticeLaw (departHost s p) := by
  unfold Machine.departHost
  exact h.updateLines _ _

/-- A port that departs is emptied last, whatever its host's departure has posted. -/
theorem NoticeLaw.departed {s : State} {p : HostNo} {P Q : Port} (h : NoticeLaw s)
    (hP : P.notices = (s.ports.get p).notices ∧ P.nextSeq = (s.ports.get p).nextSeq) (hQ : Q.notices = []) :
    NoticeLaw ((Machine.departHost (s.setPort p P) p).setPort p Q) := by
  have hset : NoticeLaw (s.setPort p P) := h.setPort_same hP.1 hP.2
  exact (hset.departHost p).setPort (Port.noticeLaw_nil hQ)

theorem NoticeLaw.detachedState {s : State} (h : NoticeLaw s) (p : HostNo) : NoticeLaw (detachedState p s) := by
  unfold Machine.detachedState
  exact h.departed ⟨rfl, rfl⟩ rfl

theorem NoticeLaw.fallenState {s : State} (h : NoticeLaw s) (p : HostNo) : NoticeLaw (fallenState p s) := by
  unfold Machine.fallenState
  exact h.departed ⟨rfl, rfl⟩ rfl

/-- Every queue is changed by postings, by a FETCH, and where its port is emptied. -/
theorem noticeLaw_kept : KeptByCommands NoticeLaw where
  alike ha h := h.of_ports fun p => (ha.ports p).2.2
  post n h := h.post n
  line k _ _ h := h.updateLine k _
  fault k _ _ h := h.updateLine k _
  fetch p _ hq h := h.setPort (hq (h p))
  writeMap _ _ h := h.of_ports fun p => by
    rw [PerPort.get_ofFn, writeMapTo_ports, Port.withdrawReady]
    split <;> exact ⟨rfl, rfl⟩
  declare _ _ h := NoticeLaw.evaluateSetup (h.setPort_same rfl rfl)
  attach _ h := h.setPort_same rfl rfl
  vote n _ h := by
    refine NoticeLaw.evaluateRun (NoticeLaw.post ?_ n)
    exact h.setPort_same rfl rfl
  cancel _ h := h.setPort_same rfl rfl
  detach {_ p} _ h := (h.detachedState p).evaluateRun
  claim _ _ h := h.updateLine _ _
  submit _ h := h.updateLine _ _
  clear _ _ h := by
    unfold State.updateLineWith
    refine NoticeLaw.postMerged ?_ _
    exact h.of_ports fun _ => ⟨rfl, rfl⟩
  rise {s p} hp h := by
    simp only [presentRise, hp, if_true]
    split
    · exact NoticeLaw.evaluateSetup (h.setPort_same rfl rfl)
    · exact h.setPort_same rfl rfl
  fall {s p} hp h := by
    rw [presentFall_of_present hp]
    split
    · exact (h.fallenState p).evaluateSetup
    · split
      · exact (h.fallenState p).evaluateRun
      · exact h.fallenState p
  reset _ g := by
    rw [deviceReset, PerPort.get_ofFn]
    exact Port.noticeLaw_nil rfl
  supplyLow {s} h := by
    unfold supplyFallsLow
    split
    · exact h
    · exact NoticeLaw.updateLines (s := { s with supply := .low, settle := none }) h _ _
  supplyBack {s} h := by
    unfold supplyRestore
    split
    · exact NoticeLaw.updateLines (s := { s with supply := .ok, settle := none }) h _ _
    · exact h
  firstSettle {s} h := by
    have hd : NoticeLaw (State.remonitorAll { s with supply := .ok, settle := none, firstSettle := false } s) := h
    unfold firstSettleEnd
    split
    · dsimp only
      split
      · exact hd.evaluateSetup
      · exact hd
    · exact h

/-- Settles O55, by the induction over commands. -/
theorem everyStepKeepsTheNoticeLaw : Obligations.EveryStepKeepsTheNoticeLaw :=
  fun _ _ hstep h => noticeLaw_kept.step (fun _ h => h) hstep h

/-! ### The fault counts (R134 to R136) -/

/-- The count of one line fits its engine. -/
def LineState.CountFits (L : LineState) : Prop :=
  L.faultCount ≤ 4 ∧ (L.engine = .retired ↔ L.faultCount = 4)

/-- A line whose count stands and whose engine is RETIRED where it was. -/
theorem LineState.CountFits.of_engine {L M : LineState} (h : L.CountFits) (hc : M.faultCount = L.faultCount)
    (he : M.engine = .retired ↔ L.engine = .retired) : M.CountFits := by
  unfold LineState.CountFits at *
  rwa [hc, he]

/-- An event that leaves engines that cannot fault alone retires no line. -/
theorem LineState.EngineStays.retired_iff {L M : LineState} (h : L.EngineStays M) :
    M.engine = .retired ↔ L.engine = .retired := by
  obtain ⟨hfault, hstay⟩ := h
  cases hL : L.engine.canFault
  · rw [hstay hL]
  · have hM := hfault hL
    constructor <;> intro hr <;> simp [hr, EngineState.canFault] at hL hM

/-- One line is replaced by one that fits, with its count 0 where the device is in SETUP. -/
theorem FaultLaw.of_lines {s t : State} (hd : t.device = .setup → s.device = .setup)
    (hl : ∀ k, (s.lines.get k).CountFits → (t.lines.get k).CountFits)
    (hc : s.device = .setup → ∀ k, (s.lines.get k).faultCount = 0 → (t.lines.get k).faultCount = 0) (h : FaultLaw s) :
    FaultLaw t :=
  ⟨fun k => hl k (h.1 k), fun ht k => hc (hd ht) k (h.2 (hd ht) k)⟩

theorem FaultLaw.of_stays {s t : State} (hd : t.device = .setup → s.device = .setup)
    (hl : ∀ k, (t.lines.get k).faultCount = (s.lines.get k).faultCount
      ∧ ((t.lines.get k).engine = .retired ↔ (s.lines.get k).engine = .retired)) (h : FaultLaw s) : FaultLaw t :=
  .of_lines hd (fun k hf => hf.of_engine (hl k).1 (hl k).2) (fun _ k h0 => (hl k).1.trans h0) h

theorem FaultLaw.of_same_lines {s t : State} (h : FaultLaw s) (hd : t.device = .setup → s.device = .setup)
    (hl : t.lines = s.lines) : FaultLaw t :=
  h.of_stays hd fun k => by rw [hl]; exact ⟨rfl, Iff.rfl⟩

/-- An event on one line that keeps the count and retires nothing. -/
theorem FaultLaw.setLine {s t : State} {k : LineNo} {M : LineState} (h : FaultLaw s) (hd : t.device = s.device)
    (hl : t.lines = s.lines.set k M) (hc : M.faultCount = (s.lines.get k).faultCount)
    (he : M.engine = .retired ↔ (s.lines.get k).engine = .retired) : FaultLaw t := by
  refine h.of_stays (fun ht => hd ▸ ht) fun j => ?_
  rw [hl, PerLine.get_set]
  split
  · subst_vars; exact ⟨hc, he⟩
  · exact ⟨rfl, Iff.rfl⟩

theorem FaultLaw.updateLine {s : State} {k : LineNo} {o : LineOut} (h : FaultLaw s)
    (hc : o.line.faultCount = (s.lines.get k).faultCount) (he : (s.lines.get k).EngineStays o.line) :
    FaultLaw (s.updateLine k o) :=
  h.setLine (State.updateLine_device _ _ _) (State.updateLine_lines _ _ _) (by rw [remonitor_faultCount, hc])
    (by rw [remonitor_engine, he.retired_iff])

/-- Events of every line that keep its count and retire nothing. -/
theorem FaultLaw.updateLines {s : State} {f : LineNo → LineOut} {extra : List (List Post)} (h : FaultLaw s)
    (hf : ∀ k, (f k).line.faultCount = (s.lines.get k).faultCount
      ∧ ((f k).line.engine = .retired ↔ (s.lines.get k).engine = .retired)) :
    FaultLaw (s.updateLines f extra) := by
  refine h.of_stays (fun ht => by simpa using ht) fun k => ?_
  rw [State.updateLines_lines, remonitor_faultCount, remonitor_engine]
  exact hf k

/-- A fault counts in RUN alone, and retires exactly at the fourth. -/
theorem faultLine_countFits {ctx : LineCtx} {L : LineState} (hc : L.engine.canFault = true) (h : L.CountFits) :
    (faultLine ctx L).line.CountFits := by
  obtain ⟨_, _, hsetup, hrun⟩ := faultLine_counts ctx L
  obtain ⟨hle, hiff⟩ := h
  have hne : L.faultCount ≠ 4 := fun h4 => by rw [hiff.mpr h4] at hc; cases hc
  cases hd : ctx.device
  · obtain ⟨hcount, heng⟩ := hsetup hd
    simp [LineState.CountFits, hcount, heng, hle, hne]
  · obtain ⟨hcount, heng⟩ := hrun hd
    rw [LineState.CountFits, hcount, heng]
    split
    · exact ⟨by omega, by simp; omega⟩
    · exact ⟨by omega, by simp; omega⟩

theorem faultLine_faultCount_of_setup {ctx : LineCtx} {L : LineState} (hd : ctx.device = .setup) :
    (faultLine ctx L).line.faultCount = L.faultCount :=
  ((faultLine_counts ctx L).2.2.1 hd).1

theorem enterSafeStop_retired_iff {ctx : LineCtx} {L : LineState} {target : EngineState} {outcome : SegOutcome}
    (ht : target = .faulted ∨ target = .halted) (hL : L.engine ≠ .retired) :
    (enterSafeStop ctx L target outcome).line.engine = .retired ↔ L.engine = .retired := by
  have htarget : (enterSafeStop ctx L target outcome).line.engine = target :=
    enterSafeStop_engine ctx L target outcome (by rcases ht with rfl | rfl <;> rfl)
  rw [htarget]
  constructor
  · rintro rfl; simp at ht
  · intro h; exact absurd h hL

/-- A line that a fault can be declared on is not RETIRED, so one that a safe stop leaves is none either. -/
theorem leaveSafeStop_retired_iff {ctx : LineCtx} {L : LineState} (hL : L.engine ≠ .retired) :
    (leaveSafeStop ctx L).line.engine = .retired ↔ L.engine = .retired := by
  have hcan := leaveSafeStop_canFault ctx L
  constructor
  · intro h; rw [h] at hcan; cases hcan
  · intro h; exact absurd h hL

theorem FaultLaw.enterSetup {s : State} : FaultLaw (enterSetup s) := by
  refine ⟨fun k => ?_, fun _ k => enterSetup_faultCount s k⟩
  rw [enterSetup_faultCount, enterSetup_engine]
  split <;> simp

theorem FaultLaw.evaluateRun {s : State} (h : FaultLaw s) : FaultLaw (evaluateRun s) :=
  evaluateRun_cases (fun _ => h) fun _ => FaultLaw.enterSetup

theorem FaultLaw.evaluateSetup {s : State} (h : FaultLaw s) : FaultLaw (evaluateSetup s) :=
  evaluateSetup_cases (fun _ => h) fun _ => h.of_same_lines (fun hd => by cases hd) rfl

theorem departed_retired {c0 c1 : LineCtx} {L : LineState} {p : HostNo} {ctx : LineCtx} :
    (remonitor c0 L c1 (departClaim ctx L p).line).faultCount = L.faultCount
      ∧ ((remonitor c0 L c1 (departClaim ctx L p).line).engine = .retired ↔ L.engine = .retired) := by
  rw [remonitor_faultCount, remonitor_engine]
  exact ⟨(departClaim_kept ctx L p).2.1, (departClaim_stays ctx L p).retired_iff⟩

theorem FaultLaw.detachedState {s : State} (h : FaultLaw s) (p : HostNo) : FaultLaw (detachedState p s) :=
  h.of_stays (fun hd => by simpa using hd) fun k => by rw [detachedState_lines]; exact departed_retired

theorem FaultLaw.fallenState {s : State} (h : FaultLaw s) (p : HostNo) : FaultLaw (fallenState p s) :=
  h.of_stays (fun hd => by simpa using hd) fun k => by rw [fallenState_lines]; exact departed_retired

theorem FaultLaw.writeMapTo {s : State} (h : FaultLaw s) (m : Memory) : FaultLaw (writeMapTo s m) := by
  refine FaultLaw.of_lines (s := s) (fun hd => hd) (fun k hf => ?_) (fun hd k h0 => ?_) h <;>
    rw [writeMapTo_lines] <;> split
  · rename_i hdue
    have hfits : (writtenLine s m k).CountFits := hf.of_engine (writtenLine_faultCount s m k)
      (by rw [writtenLine_engine])
    have hcan : (writtenLine s m k).engine.canFault = true := (Bool.and_eq_true_iff.mp hdue).2
    have hfault := faultLine_countFits (ctx := ({ s with map := m } : State).ctx k) hcan hfits
    exact hfault.of_engine (remonitor_faultCount _ _ _ _) (by rw [remonitor_engine])
  · exact hf.of_engine (writtenLine_faultCount s m k) (by rw [writtenLine_engine])
  · rw [remonitor_faultCount, faultLine_faultCount_of_setup hd, writtenLine_faultCount, h0]
  · rw [writtenLine_faultCount, h0]

theorem enlist_stays (ctx : LineCtx) (L : LineState) (c : Claim) : L.EngineStays (enlist ctx L c).line := by
  unfold enlist
  dsimp only
  split
  · rename_i h
    have hidle : L.engine = .idle := by simpa using (Bool.and_eq_true_iff.mp h).2
    exact .of_canFault rfl (by rw [hidle]; rfl)
  · exact withClaims_stays ctx { L with arrivals := L.arrivals + 1 } _

theorem enlist_faultCount (ctx : LineCtx) (L : LineState) (c : Claim) :
    (enlist ctx L c).line.faultCount = L.faultCount := by
  unfold enlist
  dsimp only
  split
  · rfl
  · exact (withClaims_kept ctx { L with arrivals := L.arrivals + 1 } _).2.1

/-- The fault count changes at a readback fault, at a fault a map write declares, and at the entry to SETUP. -/
theorem faultLaw_kept : KeptByCommands FaultLaw where
  alike ha h := h.of_stays (fun hd => ha.device ▸ hd) fun k => ⟨(ha.lines k).2.1, by rw [(ha.lines k).1]⟩
  post _ h := h
  line _ _ ho h := h.updateLine ho.2.1 ho.2.2.1
  fault {s} k o ho h := by
    obtain ⟨hcan, rfl⟩ := readbackFaultOut_eq ho
    refine h.of_lines (fun hd => by simpa using hd) (fun j hf => ?_) (fun hd j h0 => ?_) <;>
      rw [State.updateLine_lines, PerLine.get_set] <;> split
    · subst_vars
      have hfault := faultLine_countFits (ctx := s.ctx j)
        (L := { s.lines.get j with mismatchAtEntry := none }) hcan hf
      exact hfault.of_engine (remonitor_faultCount _ _ _ _) (by rw [remonitor_engine])
    · exact hf
    · subst_vars
      rw [remonitor_faultCount, faultLine_faultCount_of_setup hd]
      exact h0
    · exact h0
  fetch _ _ _ h := h
  writeMap _ _ h := h.writeMapTo _
  declare _ _ h := FaultLaw.evaluateSetup h
  attach _ h := h
  vote _ _ h := FaultLaw.evaluateRun h
  cancel _ h := h
  detach {_ p} _ h := (h.detachedState p).evaluateRun
  claim _ _ h := h.updateLine (enlist_faultCount _ _ _) (enlist_stays _ _ _)
  submit _ h := h.updateLine (submitTo_kept _ _ _ _).2.1 (submitTo_stays _ _ _ _)
  clear {s k} extra he h := by
    refine h.setLine (State.updateLineWith_device _ _ _ _) (State.updateLineWith_lines _ _ _ _) ?_ ?_
    · rw [remonitor_faultCount, clearFaultLine]
      split
      · exact (leaveSafeStop_kept _ _).2.1
      · rfl
    · rw [remonitor_engine, clearFaultLine]
      split
      · exact leaveSafeStop_retired_iff (by simp [he])
      · simp [LineOut.quiet, he]
  rise {s p} hp h := by
    simp only [presentRise, hp, if_true]
    split
    · exact FaultLaw.evaluateSetup h
    · exact h
  fall {s p} hp h := by
    rw [presentFall_of_present hp]
    split
    · exact (h.fallenState p).evaluateSetup
    · split
      · exact (h.fallenState p).evaluateRun
      · exact h.fallenState p
  reset _ := by
    refine ⟨fun k => ?_, fun _ k => ?_⟩ <;> simp [deviceReset, LineState.resetWith]
  supplyLow {s} h := by
    unfold supplyFallsLow
    split
    · exact h
    · refine FaultLaw.updateLines (s := { s with supply := .low, settle := none }) h fun k => ?_
      split
      · rename_i hh
        exact ⟨(enterSafeStop_kept _ _ _ _).2.1,
          enterSafeStop_retired_iff (.inr rfl) fun hr => by simp [hr, EngineState.halts] at hh⟩
      · exact ⟨rfl, Iff.rfl⟩
  supplyBack {s} h := by
    unfold supplyRestore
    split
    · refine FaultLaw.updateLines (s := { s with supply := .ok, settle := none }) h fun k => ?_
      split
      · rename_i hh
        exact ⟨(leaveSafeStop_kept _ _).2.1, leaveSafeStop_retired_iff (by simp [hh])⟩
      · exact ⟨rfl, Iff.rfl⟩
    · exact h
  firstSettle {s} h := by
    have hd : FaultLaw (State.remonitorAll { s with supply := .ok, settle := none, firstSettle := false } s) :=
      FaultLaw.of_stays (s := s) (fun hd => hd) (fun k => by simp [State.remonitorAll]) h
    unfold firstSettleEnd
    split
    · dsimp only
      split
      · exact hd.evaluateSetup
      · exact hd
    · exact h

/-- Settles O57, by the induction over commands. -/
theorem everyStepKeepsTheFaultLaw : Obligations.EveryStepKeepsTheFaultLaw :=
  fun _ _ hstep h => faultLaw_kept.step (fun _ h => h) hstep h

end Sys2Proof.Machine
end

section
/-! PROOFS. The states of the device and the ports stay in the combinations the join barrier allows, at every step. -/

namespace Sys2Proof.Machine

/-! ### What the law reads -/

/-- The law reads the device state, the first settle, and the state and vote of every port. -/
theorem BarrierLaw.congr {s t : State} (h : BarrierLaw s) (hd : t.device = s.device)
    (hf : t.firstSettle = s.firstSettle) (hs : ∀ p, (t.ports.get p).status = (s.ports.get p).status)
    (hv : ∀ p, (t.ports.get p).vote = (s.ports.get p).vote) : BarrierLaw t := by
  have hcomplete : barrierComplete t = barrierComplete s := by
    rw [Bool.eq_iff_iff, barrierComplete_iff, barrierComplete_iff]
    simp only [hs, hf]
  unfold BarrierLaw at *
  simpa only [hd, hf, hs, hv, hcomplete] using h

theorem BarrierLaw.of_ports_same {s t : State} (h : BarrierLaw s) (hd : t.device = s.device)
    (hf : t.firstSettle = s.firstSettle) (hp : ∀ p, (s.ports.get p).SameButNotices (t.ports.get p)) : BarrierLaw t :=
  h.congr hd hf (fun p => (hp p).status) fun p => (hp p).vote

/-- In SETUP no vote is open. -/
theorem BarrierLaw.no_votes {s : State} (h : BarrierLaw s) (hd : s.device = .setup) (p : HostNo) :
    (s.ports.get p).vote = false := by
  obtain ⟨-, hsetup, hvote⟩ := h
  cases hv : (s.ports.get p).vote
  · rfl
  · exact absurd (hvote p hv) ((hsetup hd).1 p).1

/-- A port that has joined, or waits to, tells that the device is in RUN. -/
theorem BarrierLaw.run_of_joined {s : State} (h : BarrierLaw s) {p : HostNo}
    (hp : (s.ports.get p).status = .attached ∨ (s.ports.get p).status = .pending) : s.device = .run := by
  cases hd : s.device
  · exact (hp.elim ((h.2.1 hd).1 p).1 ((h.2.1 hd).1 p).2).elim
  · rfl

/-- A port that has not joined tells that the device is in SETUP. -/
theorem BarrierLaw.setup_of_open {s : State} (h : BarrierLaw s) {p : HostNo}
    (hp : (s.ports.get p).status = .open ∨ (s.ports.get p).status = .ready) : s.device = .setup := by
  cases hd : s.device
  · rfl
  · exact (hp.elim ((h.1 hd).2.1 p).1 ((h.1 hd).2.1 p).2).elim

/-! ### The evaluations establish it -/

theorem BarrierLaw.of_setup {s : State} (hd : s.device = .setup)
    (hp : ∀ p, (s.ports.get p).status ≠ .attached ∧ (s.ports.get p).status ≠ .pending)
    (hv : ∀ p, (s.ports.get p).vote = false) (hc : barrierComplete s = false) : BarrierLaw s :=
  ⟨fun hrun => absurd (hd ▸ hrun) (by simp), fun _ => ⟨hp, hc⟩, fun p hvote => by simp [hv p] at hvote⟩

/-- Entry to RUN finds a READY port, which has no vote. -/
theorem BarrierLaw.enterRun {s : State} (hv : ∀ p, (s.ports.get p).vote = false) (hc : barrierComplete s = true) :
    BarrierLaw (enterRun s) := by
  obtain ⟨⟨q, hq⟩, hall, hf⟩ := barrierComplete_iff.mp hc
  refine ⟨fun _ => ⟨⟨q, by rw [enterRun_status, if_pos hq], by rw [enterRun_vote, hv q]⟩, fun p => ?_, hf⟩,
    (fun hd => by cases hd), fun p hvote => ?_⟩
  · rw [enterRun_status]
    rcases hall p with h | h <;> simp [h]
  · rw [enterRun_vote, hv p] at hvote
    cases hvote

/-- The evaluation in SETUP, of ports of which none has joined. -/
theorem BarrierLaw.evaluateSetup {s : State} (hd : s.device = .setup)
    (hp : ∀ p, (s.ports.get p).status ≠ .attached ∧ (s.ports.get p).status ≠ .pending)
    (hv : ∀ p, (s.ports.get p).vote = false) : BarrierLaw (evaluateSetup s) :=
  evaluateSetup_cases (.of_setup hd hp hv) (.enterRun hv)

/-- Entry to SETUP leaves no port READY, where none was. -/
theorem BarrierLaw.enterSetup {s : State} (hr : ∀ p, (s.ports.get p).status ≠ .ready) : BarrierLaw (enterSetup s) := by
  refine .of_setup (enterSetup_device s) (fun p => ?_) (enterSetup_vote s) ?_
  · rw [enterSetup_status]
    cases h : (s.ports.get p).status <;> simp
  · rw [Bool.eq_false_iff, Ne, barrierComplete_iff]
    rintro ⟨⟨p, hready⟩, -⟩
    rw [enterSetup_status] at hready
    split at hready
    · cases hready
    · exact hr p hready

/-- The evaluation in RUN, of ports of which none has yet to join. -/
theorem BarrierLaw.evaluateRun {s : State} (hd : s.device = .run)
    (hp : ∀ p, (s.ports.get p).status ≠ .open ∧ (s.ports.get p).status ≠ .ready) (hf : s.firstSettle = false)
    (hv : ∀ p, (s.ports.get p).vote = true → (s.ports.get p).status = .attached) : BarrierLaw (evaluateRun s) := by
  refine evaluateRun_cases (fun hc => ?_) fun _ => BarrierLaw.enterSetup fun p => (hp p).2
  rw [Bool.eq_false_iff, Ne, returnComplete_iff, not_forall] at hc
  obtain ⟨q, hq⟩ := hc
  obtain ⟨hatt, hno⟩ := Classical.not_imp.mp hq
  exact ⟨fun _ => ⟨⟨q, hatt, by simpa using hno⟩, hp, hf⟩, fun hs => absurd (hd ▸ hs) (by simp), hv⟩

/-- A change of one port in RUN, to a state in which a port can be in RUN, with the barrier evaluated. -/
theorem BarrierLaw.evaluateRun_setPort {s t : State} {p : HostNo} (h : BarrierLaw s) (hd : s.device = .run)
    (htd : t.device = s.device) (htf : t.firstSettle = s.firstSettle)
    (hs : ∀ q, q ≠ p → (t.ports.get q).status = (s.ports.get q).status)
    (hv : ∀ q, q ≠ p → (t.ports.get q).vote = (s.ports.get q).vote)
    (hp : (t.ports.get p).status ≠ .open ∧ (t.ports.get p).status ≠ .ready)
    (hpv : (t.ports.get p).vote = true → (t.ports.get p).status = .attached) : BarrierLaw (Machine.evaluateRun t) := by
  obtain ⟨⟨_, hno, hf⟩, _, hvote⟩ := And.intro (h.1 hd) h.2
  refine BarrierLaw.evaluateRun (htd.trans hd) (fun q => ?_) (htf.trans hf) fun q => ?_
  · by_cases hq : q = p
    · subst hq; exact hp
    · rw [hs q hq]; exact hno q
  · by_cases hq : q = p
    · subst hq; exact hpv
    · rw [hs q hq, hv q hq]; exact hvote q

/-- A change of one port in SETUP, to a state in which a port can be in SETUP, with the barrier evaluated. -/
theorem BarrierLaw.evaluateSetup_setPort {s t : State} {p : HostNo} (h : BarrierLaw s) (hd : s.device = .setup)
    (htd : t.device = s.device)
    (hs : ∀ q, q ≠ p → (t.ports.get q).status = (s.ports.get q).status)
    (hv : ∀ q, q ≠ p → (t.ports.get q).vote = (s.ports.get q).vote)
    (hp : (t.ports.get p).status ≠ .attached ∧ (t.ports.get p).status ≠ .pending)
    (hpv : (t.ports.get p).vote = false) : BarrierLaw (Machine.evaluateSetup t) := by
  refine BarrierLaw.evaluateSetup (htd.trans hd) (fun q => ?_) fun q => ?_
  · by_cases hq : q = p
    · subst hq; exact hp
    · rw [hs q hq]; exact (h.2.1 hd).1 q
  · by_cases hq : q = p
    · subst hq; exact hpv
    · rw [hv q hq]; exact h.no_votes hd q

/-- A change of one port in RUN that leaves who has joined and not voted, or adds to it. -/
theorem BarrierLaw.setPort_run {s : State} {p : HostNo} {Q : Port} (h : BarrierLaw s) (hd : s.device = .run)
    (hQ : (Q.status = .attached ∧ Q.vote = false)
      ∨ ((s.ports.get p).status ≠ .attached ∧ (Q.status = .absent ∨ Q.status = .pending) ∧ Q.vote = false)) :
    BarrierLaw (s.setPort p Q) := by
  obtain ⟨⟨⟨q, hq, hqv⟩, hno, hf⟩, _, hvote⟩ := And.intro (h.1 hd) h.2
  refine ⟨fun _ => ⟨?_, fun g => ?_, hf⟩, fun hs => absurd (hd ▸ hs : DeviceState.run = .setup) (by simp), fun g => ?_⟩
  · rcases hQ with ⟨ha, hv⟩ | ⟨hp, -, -⟩
    · exact ⟨p, by simpa using ha, by simpa using hv⟩
    · have hqp : q ≠ p := fun e => hp (e ▸ hq)
      exact ⟨q, by rwa [State.setPort_ports_ne _ _ _ hqp], by rwa [State.setPort_ports_ne _ _ _ hqp]⟩
  · rw [State.setPort_ports]
    split
    · rcases hQ with ⟨ha, -⟩ | ⟨-, ha | ha, -⟩ <;> simp [ha]
    · exact hno g
  · rw [State.setPort_ports]
    split
    · rcases hQ with ⟨-, hv⟩ | ⟨-, -, hv⟩ <;> simp [hv]
    · exact hvote g

/-! ### Every command keeps it -/

/-- A READY withdrawn at a write: in SETUP, and none READY after it. -/
theorem BarrierLaw.withdrawn {s : State} (h : BarrierLaw s) (hd : s.device = .setup) (m : Memory) :
    BarrierLaw { writeMapTo s m with ports := .ofFn fun q => ((writeMapTo s m).ports.get q).withdrawReady } := by
  have hstatus : ∀ q, (s.ports.get q).withdrawReady.status ≠ .ready ∧ (s.ports.get q).withdrawReady.status ≠ .attached
      ∧ (s.ports.get q).withdrawReady.status ≠ .pending := by
    intro q
    obtain ⟨ha, hp⟩ := (h.2.1 hd).1 q
    by_cases hr : (s.ports.get q).status = .ready <;> simp [Port.withdrawReady, hr, ha, hp]
  have hvote : ∀ q, (s.ports.get q).withdrawReady.vote = false := by
    intro q
    have hv := h.no_votes hd q
    rw [Port.withdrawReady]
    split <;> exact hv
  refine .of_setup hd (fun q => ?_) (fun q => ?_) ?_
  · rw [PerPort.get_ofFn, writeMapTo_ports]
    exact (hstatus q).2
  · rw [PerPort.get_ofFn, writeMapTo_ports]
    exact hvote q
  · rw [Bool.eq_false_iff, Ne, barrierComplete_iff]
    rintro ⟨⟨q, hq⟩, -⟩
    rw [PerPort.get_ofFn, writeMapTo_ports] at hq
    exact (hstatus q).1 hq

theorem BarrierLaw.deviceReset (s : State) : BarrierLaw (deviceReset s) := by
  refine .of_setup rfl (fun p => ?_) (fun p => ?_) ?_
  · rw [Machine.deviceReset, PerPort.get_ofFn, Port.resetWith]
    cases (s.ports.get p).status <;> simp
  · rw [Machine.deviceReset, PerPort.get_ofFn]
    rfl
  · rw [Bool.eq_false_iff, Ne, barrierComplete_iff]
    rintro ⟨-, -, hf⟩
    cases hf

theorem BarrierLaw.firstSettleEnd {s : State} (h : BarrierLaw s) : BarrierLaw (firstSettleEnd s) := by
  unfold Machine.firstSettleEnd
  split
  · rename_i hfirst
    dsimp only
    split
    · rename_i hd
      exact BarrierLaw.evaluateSetup hd (fun p => (h.2.1 hd).1 p) fun p => h.no_votes hd p
    · rename_i hd
      -- in RUN the first settle has ended already
      simp [settling, (h.1 hd).2.2] at hfirst
  · exact h

theorem BarrierLaw.presentFall {s : State} {p : HostNo} (hp : (s.ports.get p).status ≠ .absent) (h : BarrierLaw s) :
    BarrierLaw (presentFall p s) := by
  have hs : ∀ q, q ≠ p → ((fallenState p s).ports.get q).status = (s.ports.get q).status :=
    fun q hq => by rw [fallenState_status, if_neg hq]
  have hv : ∀ q, q ≠ p → ((fallenState p s).ports.get q).vote = (s.ports.get q).vote :=
    fun q hq => by rw [fallenState_vote, if_neg hq]
  have hps : ((fallenState p s).ports.get p).status = .absent := by rw [fallenState_status, if_pos rfl]
  have hpv : ((fallenState p s).ports.get p).vote = false := by rw [fallenState_vote, if_pos rfl]
  rw [presentFall_of_present hp]
  split
  · rename_i hd
    exact h.evaluateSetup_setPort hd (fallenState_device p s) hs hv (by simp [hps]) hpv
  · rename_i hd
    split
    · exact h.evaluateRun_setPort hd (fallenState_device p s) (fallenState_firstSettle p s) hs hv (by simp [hps])
        (by simp [hpv])
    · rename_i hatt
      have hset : BarrierLaw (s.setPort p { s.ports.get p with status := .absent, vote := false }) :=
        h.setPort_run hd (.inr ⟨hatt, .inl rfl, rfl⟩)
      refine hset.congr (fallenState_device p s) (fallenState_firstSettle p s) (fun q => ?_) fun q => ?_
      · rw [fallenState_status, State.setPort_ports]; split <;> rfl
      · rw [fallenState_vote, State.setPort_ports]; split <;> rfl

/-- The device state and the ports' states and votes change at the commands of the barrier alone. -/
theorem barrierLaw_kept : KeptByCommands BarrierLaw where
  alike ha h := h.congr ha.device ha.firstSettle (fun p => (ha.ports p).1) fun p => (ha.ports p).2.1
  post n h := h.of_ports_same rfl rfl (State.post_ports_same _ n)
  line k o _ h := h.of_ports_same (by simp) (by simp) (State.updateLine_ports_same _ k o)
  fault k o _ h := h.of_ports_same (by simp) (by simp) (State.updateLine_ports_same _ k o)
  fetch {s} p q _ h := by
    refine h.congr rfl rfl (fun g => ?_) fun g => ?_ <;> rw [State.setPort_ports] <;> split <;> simp_all
  writeMap hp _ h := h.withdrawn (h.setup_of_open hp) _
  declare {s p} hp _ h := by
    have hd := h.setup_of_open (.inl hp)
    exact h.evaluateSetup_setPort (p := p) hd rfl (fun q hq => by rw [State.setPort_ports_ne _ _ _ hq])
      (fun q hq => by rw [State.setPort_ports_ne _ _ _ hq]) (by simp) (by simpa using h.no_votes hd p)
  attach {s p} hp h := by
    refine h.setPort_run (h.run_of_joined (.inr hp)) (.inl ⟨rfl, ?_⟩)
    cases hv : (s.ports.get p).vote
    · rfl
    · have := h.2.2 p hv; simp [hp] at this
  vote {s p} n hp h := by
    have hsame := State.post_ports_same (s.setPort p { s.ports.get p with vote := true }) n
    refine h.evaluateRun_setPort (p := p) (h.run_of_joined (.inl hp)) rfl rfl (fun q hq => ?_) (fun q hq => ?_) ?_ ?_
    · rw [(hsame q).status, State.setPort_ports_ne _ _ _ hq]
    · rw [(hsame q).vote, State.setPort_ports_ne _ _ _ hq]
    · rw [(hsame p).status, State.setPort_ports_self]; simp [hp]
    · rw [(hsame p).status, State.setPort_ports_self]; simp [hp]
  cancel {s p} hp h := h.setPort_run (h.run_of_joined (.inl hp)) (.inl ⟨hp, rfl⟩)
  detach {s p} hp h :=
    h.evaluateRun_setPort (p := p) (h.run_of_joined (.inl hp)) (detachedState_device p s)
      (detachedState_firstSettle p s)
      (fun q hq => by rw [detachedState_status, if_neg hq]) (fun q hq => by rw [detachedState_vote, if_neg hq])
      (by rw [detachedState_status, if_pos rfl]; simp) (by rw [detachedState_vote, if_pos rfl]; simp)
  claim _ _ h := h.of_ports_same (by simp) (by simp) (State.updateLine_ports_same _ _ _)
  submit _ h := h.of_ports_same (by simp) (by simp) (State.updateLine_ports_same _ _ _)
  clear extra _ h := h.of_ports_same (by simp) (by simp) (State.updateLineWith_ports_same _ _ _ extra)
  rise {s p} hp h := by
    have hv : (s.ports.get p).vote = false := by
      cases hv : (s.ports.get p).vote
      · rfl
      · have := h.2.2 p hv; simp [hp] at this
    simp only [presentRise, hp, if_true]
    split
    · rename_i hd
      exact h.evaluateSetup_setPort (p := p) hd rfl (fun q hq => by rw [State.setPort_ports_ne _ _ _ hq])
        (fun q hq => by rw [State.setPort_ports_ne _ _ _ hq]) (by simp) (by simpa using hv)
    · rename_i hd
      exact h.setPort_run hd (.inr ⟨by simp [hp], .inr rfl, hv⟩)
  fall hp h := h.presentFall hp
  reset {s} _ := BarrierLaw.deviceReset s
  supplyLow {s} h := by
    unfold supplyFallsLow
    split
    · exact h
    · exact h.of_ports_same (by simp) (by simp) (State.updateLines_ports_same
        { s with supply := .low, settle := none } _ _)
  supplyBack {s} h := by
    unfold supplyRestore
    split
    · exact h.of_ports_same (by simp) (by simp) (State.updateLines_ports_same
        { s with supply := .ok, settle := none } _ _)
    · exact h
  firstSettle h := h.firstSettleEnd

/-- Settles O56, by the induction over commands. -/
theorem everyStepKeepsTheBarrierLaw : Obligations.EveryStepKeepsTheBarrierLaw :=
  fun _ _ hstep h => barrierLaw_kept.step (fun _ h => h) hstep h

end Sys2Proof.Machine
end

section
/-! PROOFS. Every claim list and its engine keep their law at every step, and so does the segment store; and every
command
completes. -/

namespace Sys2Proof.Machine

/-! ### Every command completes -/

theorem exec_completes (c : Instr) (s : State) : ∃ t, exec c s = .next t := by
  cases c <;> exact ⟨_, rfl⟩

/-- No command touches the queue of waiting commands. -/
theorem pending_kept (q : List Instr) : KeptByCommands fun s => s.pending = q where
  alike ha h := ha.pending.trans h
  post _ h := h
  line _ _ _ h := (State.updateLine_pending _ _ _).trans h
  fault _ _ _ h := (State.updateLine_pending _ _ _).trans h
  fetch _ _ _ h := h
  writeMap _ _ h := h
  declare _ _ h := (evaluateSetup_pending _).trans h
  attach _ h := h
  vote _ _ h := (evaluateRun_pending _).trans h
  cancel _ h := h
  detach _ h := (evaluateRun_pending _).trans ((detachedState_pending _ _).trans h)
  claim _ _ h := (State.updateLine_pending _ _ _).trans h
  submit _ h := (State.updateLine_pending _ _ _).trans h
  clear _ _ h := (State.updateLineWith_pending _ _ _ _).trans h
  rise {s p} hp h := by
    simp only [presentRise, hp, if_true]
    split
    · exact (evaluateSetup_pending _).trans h
    · exact h
  fall {s p} hp h := by
    rw [presentFall_of_present hp]
    split
    · exact (evaluateSetup_pending _).trans ((fallenState_pending p s).trans h)
    · split
      · exact (evaluateRun_pending _).trans ((fallenState_pending p s).trans h)
      · exact (fallenState_pending p s).trans h
  reset h := h
  supplyLow {s} h := by
    unfold supplyFallsLow
    split
    · exact h
    · exact (State.updateLines_pending _ _ _).trans h
  supplyBack {s} h := by
    unfold supplyRestore
    split
    · exact (State.updateLines_pending _ _ _).trans h
    · exact h
  firstSettle {s} h := by
    unfold firstSettleEnd
    split
    · dsimp only
      split
      · exact (evaluateSetup_pending _).trans h
      · exact h
    · exact h

/-- Settles O2: the outcome of each command is a next state, and the induction over commands follows its queue. -/
theorem everyCommandCompletes : Obligations.EveryCommandCompletes := by
  intro c s
  obtain ⟨t, ht⟩ := exec_completes c s
  exact ⟨t, ht, (pending_kept s.pending).exec ht rfl⟩

/-! ### Every claim list (R4, R69, R70) -/

/-- A CLAIM that passes the checks finds no claim of its host, on a line that is not RETIRED. -/
theorem claimRefusal_eq_none {s : State} {p : HostNo} {f : ClaimFields} {lease : Word16}
    (h : claimRefusal s p f lease = none) :
    (s.lines.get f.line).engine ≠ .retired ∧ ∀ c ∈ (s.lines.get f.line).claims, c.host ≠ p := by
  unfold claimRefusal at h
  dsimp only at h
  split at h
  · cases h
  · split at h
    · cases h
    · split at h
      · cases h
      · split at h
        · cases h
        · rename_i hret
          split at h
          · cases h
          · rename_i hof
            exact ⟨hret, LineState.claimOf_eq_none.mp (by simpa using hof)⟩

/-- An engine's law reads the engine and the claims alone. -/
theorem LineState.ListLaw.of_eq {L M : LineState} (h : L.ListLaw) (he : M.engine = L.engine)
    (hc : M.claims = L.claims) : M.ListLaw :=
  .mapClaims (f := id) (fun _ => ⟨rfl, rfl, rfl, rfl⟩) (by rw [hc, List.map_id]) he h

/-- A FAULTED line under supply LOW is HALTED by CLEAR_FAULT with its claims kept (R138). -/
theorem clearFaultLine_law {ctx : LineCtx} {L : LineState} (he : L.engine = .faulted) (hl : L.ListLaw) :
    (clearFaultLine ctx L).line.ListLaw ∧ ClaimsWithin (clearFaultLine ctx L).line.claims L.claims := by
  unfold clearFaultLine
  split
  · exact leaveSafeStop_law hl (.inl he)
  · obtain ⟨hclaims, -, -, -, hkept⟩ := hl
    have hexecuting : ∀ c, L.executing = some c → c.state = .holding ∨ c.state = .leaving false :=
      hkept (.inr (.inl he))
    exact ⟨⟨hclaims, by simp [LineOut.quiet], by simp [LineOut.quiet], by simp [LineOut.quiet], fun _ => hexecuting⟩,
      .refl _⟩

theorem writtenLine_listLaw {s : State} {m : Memory} {k : LineNo} (h : (s.lines.get k).ListLaw) :
    (writtenLine s m k).ListLaw :=
  h.of_eq (writtenLine_engine s m k) (writtenLine_claims s m k)

/-- What a map write leaves on a line: its claims, or what a fault leaves of them. -/
theorem writeMapTo_law {s : State} {m : Memory} {k : LineNo} (h : (s.lines.get k).ListLaw) :
    ((writeMapTo s m).lines.get k).ListLaw
      ∧ ClaimsWithin ((writeMapTo s m).lines.get k).claims (s.lines.get k).claims := by
  rw [writeMapTo_lines]
  split
  · obtain ⟨hlaw, hwithin⟩ :=
      faultLine_law (ctx := ({ s with map := m } : State).ctx k) (writtenLine_listLaw (m := m) h)
    rw [remonitor_claims, ← writtenLine_claims s m k]
    exact ⟨remonitor_listLaw hlaw, hwithin⟩
  · exact ⟨writtenLine_listLaw h, by rw [writtenLine_claims]; exact .refl _⟩

theorem readbackFaultOut_law {ctx : LineCtx} {L : LineState} {o : LineOut} (ho : readbackFaultOut ctx L = some o)
    (h : L.ListLaw) : o.line.ListLaw ∧ ClaimsWithin o.line.claims L.claims := by
  obtain ⟨-, rfl⟩ := readbackFaultOut_eq ho
  exact faultLine_law (L := { L with mismatchAtEntry := none }) h

theorem supplyFallsLow_law {s : State} {k : LineNo} (h : (s.lines.get k).ListLaw) :
    ((supplyFallsLow s).lines.get k).ListLaw
      ∧ ClaimsWithin ((supplyFallsLow s).lines.get k).claims (s.lines.get k).claims := by
  unfold supplyFallsLow
  split
  · exact ⟨h, .refl _⟩
  · dsimp only
    rw [State.updateLines_lines, remonitor_claims]
    split
    · obtain ⟨hlaw, hwithin⟩ := enterSafeStop_law h (.inr rfl)
      exact ⟨remonitor_listLaw hlaw, hwithin⟩
    · exact ⟨remonitor_listLaw h, .refl _⟩

theorem supplyRestore_law {s : State} {k : LineNo} (h : (s.lines.get k).ListLaw) :
    ((supplyRestore s).lines.get k).ListLaw
      ∧ ClaimsWithin ((supplyRestore s).lines.get k).claims (s.lines.get k).claims := by
  unfold supplyRestore
  split
  · dsimp only
    rw [State.updateLines_lines, remonitor_claims]
    split
    · rename_i he
      obtain ⟨hlaw, hwithin⟩ := leaveSafeStop_law h (.inr he)
      exact ⟨remonitor_listLaw hlaw, hwithin⟩
    · exact ⟨remonitor_listLaw h, .refl _⟩
  · exact ⟨h, .refl _⟩

theorem detachedState_law {s : State} {p : HostNo} {k : LineNo} (h : (s.lines.get k).ListLaw) :
    ((detachedState p s).lines.get k).ListLaw
      ∧ ClaimsWithin ((detachedState p s).lines.get k).claims (s.lines.get k).claims := by
  obtain ⟨hlaw, hwithin⟩ := departClaim_law (ctx := s.ctx k) (h := p) h
  rw [detachedState_lines, remonitor_claims]
  exact ⟨remonitor_listLaw hlaw, hwithin⟩

theorem fallenState_law {s : State} {p : HostNo} {k : LineNo} (h : (s.lines.get k).ListLaw) :
    ((fallenState p s).lines.get k).ListLaw
      ∧ ClaimsWithin ((fallenState p s).lines.get k).claims (s.lines.get k).claims := by
  obtain ⟨hlaw, hwithin⟩ := departClaim_law (ctx := s.ctx k) (h := p) h
  rw [fallenState_lines, remonitor_claims]
  exact ⟨remonitor_listLaw hlaw, hwithin⟩

theorem ListLaw.evaluateSetup {s : State} (h : ListLaw s) : ListLaw (evaluateSetup s) :=
  h.of_lines (evaluateSetup_lines s)

theorem ListLaw.enterSetup (s : State) : ListLaw (enterSetup s) := by
  intro k
  rw [enterSetup_lines]
  exact remonitor_listLaw (setupLine_law _ _).1

theorem ListLaw.evaluateRun {s : State} (h : ListLaw s) : ListLaw (evaluateRun s) :=
  evaluateRun_cases (fun _ => h) fun _ => .enterSetup s

/-- A line that DEVICE_RESET leaves. -/
theorem resetWith_listLaw (pad : PadLevel) : (LineState.resetWith pad).ListLaw :=
  listLaw_nil rfl (by simp [LineState.resetWith])

theorem newClaim_law {s : State} {p : HostNo} {f : ClaimFields} {lease : Word16}
    (hr : claimRefusal s p f lease = none) (h : (s.lines.get f.line).ListLaw) :
    (enlist (s.ctx f.line) (s.lines.get f.line) (newClaim s p f lease)).line.ListLaw
      ∧ ∀ g, entriesOf g (enlist (s.ctx f.line) (s.lines.get f.line) (newClaim s p f lease)).line.claims
          ≤ entriesOf g (s.lines.get f.line).claims := by
  obtain ⟨hret, hnew⟩ := claimRefusal_eq_none hr
  exact enlist_law h hnew rfl hret

/-- Every change of a list is one of those the laws of the engine cover. -/
theorem listLaw_kept : KeptByCommands ListLaw where
  alike ha h k := by
    obtain ⟨he, -, f, hf, hc⟩ := ha.lines k
    exact .mapClaims hf hc he (h k)
  post n h := h.of_lines rfl
  line k o ho h := h.updateLine (ho.2.2.2 (h k)).1
  fault k o ho h := h.updateLine (readbackFaultOut_law ho (h k)).1
  fetch _ _ _ h := h.of_lines rfl
  writeMap _ _ h k := (writeMapTo_law (h k)).1
  declare _ _ h := ListLaw.evaluateSetup (h.of_lines rfl)
  attach _ h := h.of_lines rfl
  vote _ _ h := ListLaw.evaluateRun (h.of_lines rfl)
  cancel _ h := h.of_lines rfl
  detach _ h := ListLaw.evaluateRun fun k => (detachedState_law (h k)).1
  claim _ hr h := h.updateLine (newClaim_law hr (h _)).1
  submit {s p k segs} _ h := h.updateLine (submitTo_law (h k)).1
  clear {s k} extra he h j := by
    rw [State.updateLineWith_lines, PerLine.get_set]
    split
    · exact remonitor_listLaw (clearFaultLine_law he (h k)).1
    · exact h j
  rise {s p} hp h := by
    simp only [presentRise, hp, if_true]
    split
    · exact ListLaw.evaluateSetup (h.of_lines rfl)
    · exact h.of_lines rfl
  fall {s p} hp h := by
    have hf : ListLaw (fallenState p s) := fun k => (fallenState_law (h k)).1
    rw [presentFall_of_present hp]
    split
    · exact hf.evaluateSetup
    · split
      · exact hf.evaluateRun
      · exact hf
  reset {s} _ k := by
    rw [deviceReset, PerLine.get_ofFn]
    exact resetWith_listLaw _
  supplyLow h k := (supplyFallsLow_law (h k)).1
  supplyBack h k := (supplyRestore_law (h k)).1
  firstSettle {s} h := by
    have hd : ListLaw (State.remonitorAll { s with supply := .ok, settle := none, firstSettle := false } s) := by
      intro k
      rw [State.remonitorAll, PerLine.get_ofFn]
      exact remonitor_listLaw (h k)
    unfold firstSettleEnd
    split
    · dsimp only
      split
      · exact hd.evaluateSetup
      · exact hd
    · exact h

/-- Settles O58, by the induction over commands. -/
theorem everyStepKeepsTheListLaw : Obligations.EveryStepKeepsTheListLaw :=
  fun _ _ hstep h => listLaw_kept.step (fun _ h => h) hstep h

/-! ### The entries in use (R105) -/

/-- Entries in use after an event on one line: only those of that line change. -/
theorem State.updateLine_inUse (s : State) (k : LineNo) (o : LineOut) (h : HostNo) :
    (s.updateLine k o).inUse h + entriesOf h (s.lines.get k).claims = s.inUse h + entriesOf h o.line.claims := by
  simp only [State.inUse_eq, ← Fin.sum_univ_def, State.updateLine_lines]
  rw [← Finset.add_sum_erase Finset.univ _ (Finset.mem_univ k),
    ← Finset.add_sum_erase Finset.univ (fun j => entriesOf h (s.lines.get j).claims) (Finset.mem_univ k)]
  have hrest : ∑ j ∈ Finset.univ.erase k, entriesOf h
        ((s.lines.set k (remonitor (s.ctx k) (s.lines.get k) (s.ctx k) o.line)).get j).claims
      = ∑ j ∈ Finset.univ.erase k, entriesOf h (s.lines.get j).claims :=
    Finset.sum_congr rfl fun j hj => by rw [PerLine.get_set_ne _ _ (Finset.ne_of_mem_erase hj)]
  rw [hrest, PerLine.get_set_self, remonitor_claims]
  omega

theorem entriesOf_nil (h : HostNo) : entriesOf h [] = 0 := rfl

/-- Segments appended to a host's claim are that many entries of the host at most, and of no other. -/
theorem entriesOf_append_le {g h : HostNo} {segs : List Segment} : ∀ {cs : List Claim}, (cs.map Claim.host).Nodup →
    entriesOf g (mapHost h (fun c => { c.restartLease with queue := c.queue ++ segs.map (⟨·, false⟩) }) cs)
      ≤ entriesOf g cs + if g = h then segs.length else 0
  | [], _ => Nat.zero_le _
  | c :: cs, hn => by
    rw [List.map_cons, List.nodup_cons] at hn
    obtain ⟨hc, hn⟩ := hn
    by_cases hh : c.host = h
    · have hne : ∀ d ∈ cs, d.host ≠ h := fun d hd he => hc (hh ▸ he ▸ List.mem_map_of_mem hd)
      rw [mapHost_head hh hne, entriesOf_cons, entriesOf_cons]
      by_cases hg : g = h
      · simp [hh, hg]; omega
      · simp [hh, hg, Ne.symm hg]
    · rw [mapHost_cons_ne hh, entriesOf_cons, entriesOf_cons]
      have := entriesOf_append_le (g := g) (h := h) (segs := segs) hn
      omega

theorem State.inUse_of_empty {s : State} {h : HostNo} (hc : ∀ k, (s.lines.get k).claims = []) : s.inUse h = 0 := by
  simp [State.inUse_eq, hc, entriesOf_nil]

/-! ### The store (R105, R117, R151) -/

theorem ClaimsWithin.eq_nil {ds : List Claim} (h : ClaimsWithin ds []) : ds = [] :=
  List.map_eq_nil_iff.mp (List.eq_nil_of_sublist_nil h.hosts)

/-- Fewer entries, and no port READY that was not. -/
theorem StoreLaw.mono {s t : State} (h : StoreLaw s) (hm : t.map = s.map) (hd : t.device = s.device)
    (hr : ∀ p, (t.ports.get p).status = .ready → (s.ports.get p).status = .ready)
    (hw : ∀ k, ClaimsWithin (t.lines.get k).claims (s.lines.get k).claims) : StoreLaw t := by
  obtain ⟨huse, hsum, hempty⟩ := h
  refine ⟨fun g => ?_, fun hrun => ?_, fun ht k => ?_⟩
  · rw [hm]
    exact (State.inUse_mono fun k => (hw k).entries g).trans (huse g)
  · rw [hm]
    exact hsum (hrun.imp (fun e => hd ▸ e) fun ⟨p, hp⟩ => ⟨p, hr p hp⟩)
  · have hk := hw k
    rw [hempty (hd ▸ ht) k] at hk
    exact hk.eq_nil

theorem StoreLaw.of_same {s t : State} (h : StoreLaw s) (hm : t.map = s.map) (hd : t.device = s.device)
    (hr : ∀ p, (t.ports.get p).status = .ready → (s.ports.get p).status = .ready) (hl : t.lines = s.lines) :
    StoreLaw t :=
  h.mono hm hd hr fun k => by rw [hl]; exact .refl _

theorem StoreLaw.updateLine {s : State} {k : LineNo} {o : LineOut} (h : StoreLaw s)
    (hw : ClaimsWithin o.line.claims (s.lines.get k).claims) : StoreLaw (s.updateLine k o) := by
  refine h.mono (by simp) (by simp) (fun p hp => ?_) fun j => ?_
  · rwa [(State.updateLine_ports_same s k o p).status] at hp
  · rw [State.updateLine_lines, PerLine.get_set]
    split
    · subst_vars; rwa [remonitor_claims]
    · exact .refl _

/-- A READY port has agreed on quotas that fit, so entry to RUN finds them so. -/
theorem StoreLaw.evaluateSetup {s : State} (h : StoreLaw s) : StoreLaw (evaluateSetup s) := by
  refine evaluateSetup_cases (fun _ => h) fun hc => ?_
  obtain ⟨huse, hsum, -⟩ := h
  exact ⟨huse, fun _ => hsum (.inr (barrierComplete_iff.mp hc).1), fun hd => by cases hd⟩

theorem StoreLaw.enterSetup {s : State} (h : StoreLaw s) : StoreLaw (enterSetup s) := by
  refine ⟨fun g => ?_, ?_, fun _ k => enterSetup_claims s k⟩
  · rw [State.inUse_of_empty (enterSetup_claims s)]
    exact Nat.zero_le _
  · rintro (hd | ⟨p, hp⟩)
    · simp at hd
    · rw [enterSetup_status] at hp
      split at hp
      · cases hp
      · rw [enterSetup_map]; exact h.2.1 (.inr ⟨p, hp⟩)

theorem StoreLaw.evaluateRun {s : State} (h : StoreLaw s) : StoreLaw (evaluateRun s) :=
  evaluateRun_cases (fun _ => h) fun _ => h.enterSetup

theorem StoreLaw.detachedState {s : State} (h : StoreLaw s) (hl : ListLaw s) (p : HostNo) :
    StoreLaw (detachedState p s) := by
  refine h.mono (detachedState_map p s) (detachedState_device p s) (fun q hq => ?_)
    fun k => (detachedState_law (hl k)).2
  rw [detachedState_status] at hq
  split at hq
  · cases hq
  · exact hq

theorem StoreLaw.fallenState {s : State} (h : StoreLaw s) (hl : ListLaw s) (p : HostNo) :
    StoreLaw (fallenState p s) := by
  refine h.mono (fallenState_map p s) (fallenState_device p s) (fun q hq => ?_) fun k => (fallenState_law (hl k)).2
  rw [fallenState_status] at hq
  split at hq
  · cases hq
  · exact hq

/-- A new claim has no entry, and is made in RUN. -/
theorem StoreLaw.claim {s : State} {p : HostNo} {f : ClaimFields} {lease : Word16} (h : StoreLaw s) (hl : ListLaw s)
    (hd : s.device = .run) (hr : claimRefusal s p f lease = none) :
    StoreLaw (s.updateLine f.line (enlist (s.ctx f.line) (s.lines.get f.line) (newClaim s p f lease))) := by
  refine ⟨fun g => ?_, fun _ => ?_, fun hs => by simp [hd] at hs⟩
  · have hsum := State.updateLine_inUse s f.line
      (enlist (s.ctx f.line) (s.lines.get f.line) (newClaim s p f lease)) g
    have hentries := (newClaim_law hr (hl f.line)).2 g
    have huse := h.1 g
    rw [State.updateLine_map]
    omega
  · rw [State.updateLine_map]
    exact h.2.1 (.inl hd)

/-- Submitted segments fit the quota, and go to a claim that exists. -/
theorem StoreLaw.submit {s : State} {p : HostNo} {k : LineNo} {segs : List Segment} (h : StoreLaw s) (hl : ListLaw s)
    (hq : s.inUse p + segs.length ≤ quota s.map p) :
    StoreLaw (s.updateLine k (submitTo (s.ctx k) (s.lines.get k) p segs)) := by
  have hwithin := (submitTo_law (ctx := s.ctx k) (h := p) (segs := segs) (hl k)).2
  obtain ⟨huse, hsum, hempty⟩ := h
  refine ⟨fun g => ?_, fun hr => ?_, fun hs j => ?_⟩
  · have hline := State.updateLine_inUse s k (submitTo (s.ctx k) (s.lines.get k) p segs) g
    have hentries := (hwithin.entries g).trans (entriesOf_append_le (g := g) (h := p) (segs := segs) (hl k).1.1)
    have := huse g
    rw [State.updateLine_map]
    by_cases hg : g = p
    · subst hg; rw [if_pos rfl] at hentries; omega
    · rw [if_neg hg] at hentries; omega
  · rw [State.updateLine_map]
    refine hsum (hr.imp (fun hd => by simpa using hd) fun ⟨q, hq⟩ => ⟨q, ?_⟩)
    rwa [(State.updateLine_ports_same s k _ q).status] at hq
  · rw [State.updateLine_device] at hs
    rw [State.updateLine_lines, PerLine.get_set]
    split
    · rw [remonitor_claims]
      have hnone : ((s.lines.get k).appendWork p segs).claims = [] := by
        rw [LineState.appendWork, hempty hs k]; rfl
      rw [hnone] at hwithin
      exact hwithin.eq_nil
    · exact hempty hs j

/-- An accepted write in SETUP finds the store empty, and leaves no port READY. -/
theorem StoreLaw.writeMap {s : State} {m : Memory} (h : StoreLaw s) (hl : ListLaw s) (hd : s.device = .setup) :
    StoreLaw { writeMapTo s m with ports := .ofFn fun q => ((writeMapTo s m).ports.get q).withdrawReady } := by
  have hempty : ∀ k, ((writeMapTo s m).lines.get k).claims = [] := by
    intro k
    have hwithin := (writeMapTo_law (m := m) (hl k)).2
    rw [h.2.2 hd k] at hwithin
    exact hwithin.eq_nil
  refine ⟨fun g => ?_, ?_, fun _ => hempty⟩
  · rw [State.inUse_of_empty (s := { writeMapTo s m with
      ports := .ofFn fun q => ((writeMapTo s m).ports.get q).withdrawReady }) hempty]
    exact Nat.zero_le _
  · rintro (hrun | ⟨q, hq⟩)
    · simp [hd] at hrun
    · rw [PerPort.get_ofFn, Port.withdrawReady] at hq
      split at hq
      · cases hq
      · contradiction

theorem storeLaw_reset {s : State} : StoreLaw (deviceReset s) := by
  have hempty : ∀ k, ((deviceReset s).lines.get k).claims = [] := fun k => by
    rw [deviceReset, PerLine.get_ofFn]; rfl
  refine ⟨fun g => ?_, fun _ => ?_, fun _ => hempty⟩
  · rw [State.inUse_of_empty hempty]
    exact Nat.zero_le _
  · change quotaSum [] ≤ 96
    decide +kernel

/-- The law of the store, with the two laws it rests on. -/
def StoreLaws (s : State) : Prop := BarrierLaw s ∧ ListLaw s ∧ StoreLaw s

/-- What both other laws keep, and the store law keeps given them, is kept. -/
theorem StoreLaws.of {s t : State} (hb : BarrierLaw s → BarrierLaw t) (hl : ListLaw s → ListLaw t)
    (hs : BarrierLaw s → ListLaw s → StoreLaw s → StoreLaw t) : StoreLaws s → StoreLaws t :=
  fun ⟨b, l, h⟩ => ⟨hb b, hl l, hs b l h⟩

/-- Entries are gained by SUBMIT alone, quotas change by a write alone. -/
theorem storeLaws_kept : KeptByCommands StoreLaws where
  alike ha := .of (barrierLaw_kept.alike ha) (listLaw_kept.alike ha) fun _ _ h => by
    refine h.mono ha.map ha.device (fun p hp => (ha.ports p).1 ▸ hp) fun k => ?_
    obtain ⟨-, -, f, hf, hc⟩ := ha.lines k
    rw [hc]
    exact .map fun c _ => ⟨(hf c).1, (hf c).2.1, by rw [(hf c).2.2.2]⟩
  post n := .of (barrierLaw_kept.post n) (listLaw_kept.post n) fun _ _ h =>
    h.of_same rfl rfl (fun p hp => by rwa [(State.post_ports_same _ n p).status] at hp) rfl
  line k o ho := .of (barrierLaw_kept.line k ho) (listLaw_kept.line k ho) fun _ hl h =>
    h.updateLine (ho.2.2.2 (hl k)).2
  fault k o ho := .of (barrierLaw_kept.fault k ho) (listLaw_kept.fault k ho) fun _ hl h =>
    h.updateLine (readbackFaultOut_law ho (hl k)).2
  fetch {s} p q hq := .of (barrierLaw_kept.fetch p q hq) (listLaw_kept.fetch p q hq) fun _ _ h =>
    h.of_same rfl rfl (fun g hg => by rw [State.setPort_ports] at hg; split at hg <;> simp_all) rfl
  writeMap hp hm := .of (barrierLaw_kept.writeMap hp hm) (listLaw_kept.writeMap hp hm) fun hb hl h =>
    h.writeMap hl (hb.setup_of_open hp)
  declare {s p} hp hq := .of (barrierLaw_kept.declare hp hq) (listLaw_kept.declare hp hq) fun hb _ h =>
    StoreLaw.evaluateSetup ⟨h.1, fun _ => hq, fun _ => h.2.2 (hb.setup_of_open (.inl hp))⟩
  attach {s p} hp := .of (barrierLaw_kept.attach hp) (listLaw_kept.attach hp) fun _ _ h =>
    h.of_same rfl rfl (fun g hg => by rw [State.setPort_ports] at hg; split at hg <;> simp_all) rfl
  vote {s p} n hp := .of (barrierLaw_kept.vote n hp) (listLaw_kept.vote n hp) fun _ _ h =>
    StoreLaw.evaluateRun <| h.of_same rfl rfl (fun g hg => by
      rw [(State.post_ports_same _ n g).status, State.setPort_ports] at hg; split at hg <;> simp_all) rfl
  cancel {s p} hp := .of (barrierLaw_kept.cancel hp) (listLaw_kept.cancel hp) fun _ _ h =>
    h.of_same rfl rfl (fun g hg => by rw [State.setPort_ports] at hg; split at hg <;> simp_all) rfl
  detach {s p} hp := .of (barrierLaw_kept.detach hp) (listLaw_kept.detach hp) fun _ hl h =>
    (h.detachedState hl p).evaluateRun
  claim hp hr := .of (barrierLaw_kept.claim hp hr) (listLaw_kept.claim hp hr) fun hb hl h =>
    h.claim hl (hb.run_of_joined (.inl hp)) hr
  submit {s p k segs} hq := .of (barrierLaw_kept.submit hq) (listLaw_kept.submit hq) fun _ hl h => h.submit hl hq
  clear {s k} extra he := .of (barrierLaw_kept.clear extra he) (listLaw_kept.clear extra he) fun _ hl h => by
    refine h.mono (by simp) (by simp) (fun p hp => ?_) fun j => ?_
    · rwa [(State.updateLineWith_ports_same _ _ _ extra p).status] at hp
    · rw [State.updateLineWith_lines, PerLine.get_set]
      split
      · subst_vars; rw [remonitor_claims]; exact (clearFaultLine_law he (hl _)).2
      · exact .refl _
  rise {s p} hp := .of (barrierLaw_kept.rise hp) (listLaw_kept.rise hp) fun _ _ h => by
    have hset : ∀ st, st ≠ PortStatus.ready → StoreLaw (s.setPort p { s.ports.get p with status := st }) :=
      fun st hst => h.of_same rfl rfl
        (fun g hg => by rw [State.setPort_ports] at hg; split at hg <;> simp_all) rfl
    simp only [presentRise, hp, if_true]
    split
    · exact (hset .open (by simp)).evaluateSetup
    · exact hset .pending (by simp)
  fall {s p} hp := .of (barrierLaw_kept.fall hp) (listLaw_kept.fall hp) fun _ hl h => by
    rw [presentFall_of_present hp]
    split
    · exact (h.fallenState hl p).evaluateSetup
    · split
      · exact (h.fallenState hl p).evaluateRun
      · exact h.fallenState hl p
  reset := .of barrierLaw_kept.reset listLaw_kept.reset fun _ _ _ => storeLaw_reset
  supplyLow {s} := .of barrierLaw_kept.supplyLow listLaw_kept.supplyLow fun _ hl h => by
    refine h.mono (supplyFallsLow_map s) ?_ (fun p hp => ?_) fun k => (supplyFallsLow_law (hl k)).2
    · unfold supplyFallsLow; split <;> simp
    · unfold supplyFallsLow at hp
      split at hp
      · exact hp
      · rwa [(State.updateLines_ports_same _ _ _ p).status] at hp
  supplyBack {s} := .of barrierLaw_kept.supplyBack listLaw_kept.supplyBack fun _ hl h => by
    refine h.mono (supplyRestore_map s) ?_ (fun p hp => ?_) fun k => (supplyRestore_law (hl k)).2
    · unfold supplyRestore; split <;> simp
    · unfold supplyRestore at hp
      split at hp
      · rwa [(State.updateLines_ports_same _ _ _ p).status] at hp
      · exact hp
  firstSettle {s} := .of barrierLaw_kept.firstSettle listLaw_kept.firstSettle fun _ _ h => by
    have hd : StoreLaw (State.remonitorAll { s with supply := .ok, settle := none, firstSettle := false } s) := by
      refine StoreLaw.mono (s := s) h rfl rfl (fun _ hp => hp) fun k => ?_
      rw [State.remonitorAll, PerLine.get_ofFn, remonitor_claims]
      exact .refl _
    unfold firstSettleEnd
    split
    · dsimp only
      split
      · exact hd.evaluateSetup
      · exact hd
    · exact h

/-- Settles O59, by the induction over commands, the barrier and the lists beside the store. -/
theorem everyStepKeepsTheStoreLaw : Obligations.EveryStepKeepsTheStoreLaw :=
  fun _ _ hstep hb hl hs => (storeLaws_kept.step (fun _ h => h) hstep ⟨hb, hl, hs⟩).2.2

end Sys2Proof.Machine
end

section
/-! PROOFS. Replies and transactions: a reply fixed and made ready (R168), a select and the bits shifted (R162, R163), a
deselect and what the bytes sampled come to (R164, R165, R167), and the requests that read the map (R148). -/

namespace Sys2Proof.Machine

/-- Settles O1: the queue's front is what `step` runs. -/
theorem stepRunsTheFrontCommand : Obligations.StepRunsTheFrontCommand := fun _ _ _ => rfl

/-! ### A reply fixed, then ready (R168) -/

theorem exec_replyReady (p : HostNo) (s : State) :
    exec (.replyReady p) s = .next (s.setPort p (s.ports.get p).replyBecomesReady) := rfl

/-- Settles O5: the answered port is the one that prepares the frame; REPLY_READY acts by what is in preparation. -/
theorem repliesAreFixedThenReady : Obligations.RepliesAreFixedThenReady := by
  intro s p tag r
  refine ⟨fun h => State.answer_ports s p tag r h, rfl, rfl, rfl, rfl, rfl, rfl, rfl, rfl, fun frame hf => ?_,
    fun hn => ?_⟩
  · rw [exec_replyReady, Port.replyBecomesReady_of_preparing hf]
  · rw [exec_replyReady, Port.replyBecomesReady_of_none hn]

/-! ### The requests that read the map (R148) -/

/-- Settles O8: each act leaves the state as it is, and any present port takes them (Table 11-2). -/
theorem mapReadsChangeNothing : Obligations.MapReadsChangeNothing := by
  intro p tag offset length s hp
  have htaken : ((s.ports.get p).status != .absent) = true := bne_iff_ne.mpr hp
  have hread {reply : Reply} (ha : actReadMap offset length s = .unchanged s reply) :
      exec (.readMap p tag offset length) s = .next (s.answer p tag reply) :=
    exec_command_of_unchanged (r := .readMap offset length) htaken rfl ha
  refine ⟨fun hout => hread ?_, fun hpos hle hend => hread ?_, ?_⟩
  · exact if_neg (by simp only [Config.mapBytes]; omega)
  · rw [actReadMap, if_pos ⟨hpos, hle, hend⟩, Memory.readRange_eq]
  · have hdigest : s.map.digest = crc16 ((List.range 132).map s.map.read) := by
      simp [Memory.digest, Memory.readRange_eq, Config.mapBytes]
    rw [← hdigest]
    exact exec_command_of_unchanged (r := .digest) htaken rfl rfl

/-! ### A select (R162, R163) -/

theorem exec_transactionSelect (p : HostNo) (s : State) :
    exec (.transactionSelect p) s = .next (s.setPort p (s.ports.get p).select) := rfl

/-- A present port with a high select pin begins a transaction with the reply as it stands at the latest. -/
theorem Port.select_of_present {P : Port} (hn : P.selnLow = false) (hs : P.status ≠ .absent) :
    P.select = { P.replyAtLatest with
      selnLow := true, transaction := some (if P.replyAtLatest.replyReady then .reply else .notReady) } := by
  simp only [Port.select, hn, hs, if_false, Bool.false_eq_true]
  rfl

theorem State.outByte_eq (s : State) (p : HostNo) (i : Nat) : s.outByte p i = (s.ports.get p).outByte s.orderCount i :=
  rfl

/-- Bit `j` of the `i`-th byte is the bit after `8 * i + j` edges. -/
theorem State.outBit_of_outByte {s : State} {p : HostNo} {i j : Nat} {b : Byte} (hj : j < 8)
    (hb : s.outByte p i = some b) : s.outBit p (8 * i + j) = some (b.getLsbD (7 - j)) := by
  have hdiv : (8 * i + j) / 8 = i := by omega
  have hmod : (8 * i + j) % 8 = j := by omega
  rw [State.outBit, hdiv, hmod, hb, Option.map_some]

theorem bitsOfByte_eq (b : Byte) : bitsOfByte b = [b.getLsbD 7, b.getLsbD 6, b.getLsbD 5, b.getLsbD 4, b.getLsbD 3,
    b.getLsbD 2, b.getLsbD 1, b.getLsbD 0] := rfl

/-- The bits of a byte shifted in one after the other are the byte. -/
theorem foldl_shiftIn_bitsOfByte : ∀ b : Byte, (bitsOfByte b).foldl shiftIn 0x00 = b := by decide +kernel

theorem bytesOfBits_bitsOfByte_append (b : Byte) (bits : List Bool) :
    bytesOfBits (bitsOfByte b ++ bits) = b :: bytesOfBits bits := by
  conv_rhs => rw [← foldl_shiftIn_bitsOfByte b]
  rfl

theorem bytesOfBits_of_short {bits : List Bool} (h : bits.length < 8) : bytesOfBits bits = [] := by
  unfold bytesOfBits
  split
  · simp only [List.length_cons] at h; omega
  · rfl

/-- The bits of whole bytes, with fewer than eight behind them, give the bytes back. -/
theorem bytesOfBits_flatten {extra : List Bool} (h : extra.length < 8) : ∀ bytes : List Byte,
    bytesOfBits ((bytes.map bitsOfByte).flatten ++ extra) = bytes
      ∧ ((bytes.map bitsOfByte).flatten ++ extra).length % 8 = extra.length
  | [] => ⟨bytesOfBits_of_short h, Nat.mod_eq_of_lt h⟩
  | b :: bytes => by
    obtain ⟨hbytes, hlen⟩ := bytesOfBits_flatten h bytes
    rw [List.map_cons, List.flatten_cons, List.append_assoc, bytesOfBits_bitsOfByte_append, hbytes, List.length_append,
      show (bitsOfByte b).length = 8 from rfl, Nat.add_mod_left, hlen]
    exact ⟨rfl, rfl⟩

/-- Settles O10: the selected port drives its chosen frame byte by byte, and bits are bytes most significant first. -/
theorem selectChoosesTheFrame : Obligations.SelectChoosesTheFrame := by
  refine ⟨fun p s P hn hs hready hearly => ?select, fun p s i hidle => ?idle, bitsOfByte_eq,
    fun p bytes extra hlen => ?sampled⟩
  case select =>
    have hP : (s.ports.get p).replyAtLatest = P := by
      by_cases hw : Config.replyClocks ≤ (s.ports.get p).preparingClocks
      · rw [Port.replyAtLatest_of_waited hw]
        cases hf : (s.ports.get p).preparing with
        | none => rw [Port.replyBecomesReady_of_none hf, hearly (.inl hf)]
        | some frame => rw [Port.replyBecomesReady_of_preparing hf, hready frame hf hw]
      · rw [Port.replyAtLatest_of_early (Nat.not_le.mp hw), hearly (.inr (Nat.not_le.mp hw))]
    have hstatus : P.status ≠ .absent := by rwa [← hP, Port.replyAtLatest_status]
    refine ⟨_, exec_transactionSelect p s, ?_, fun i => ?_, fun i j hj b hb => State.outBit_of_outByte hj hb⟩
    · rw [Port.select_of_present hn hs, hP]
    · rw [Port.select_of_present hn hs, hP, State.outByte_eq, State.setPort_ports_self]
      refine Port.outByte_of_transaction (P := { P with selnLow := true, transaction := _ }) hstatus rfl ?_ i
      cases hr : P.replyReady <;> simp [Port.outFrame, notReadyFrame]
  case idle =>
    have hnone : ∀ i, s.outByte p i = none := fun i => Port.outByte_of_idle hidle i
    exact ⟨hnone i, by rw [State.outBit, hnone, Option.map_none]⟩
  case sampled =>
    obtain ⟨hbytes, hbits⟩ := bytesOfBits_flatten hlen bytes
    rw [deselectAfter, hbytes, hbits]

/-! ### A deselect (R164, R165) -/

section deselect
variable {p : HostNo} {s : State} (hn : (s.ports.get p).selnLow = true) (hrx : (s.ports.get p).rxBytes = [])
  (hbits : (s.ports.get p).rxBits = 0)
include hn

theorem exec_deselect_notReady (ht : (s.ports.get p).transaction = some .notReady) (bytes : List Byte) (bits : Nat) :
    exec (.deselect p bytes bits) s = .next (s.setPort p (s.ports.get p).deselected) := by
  change Host.Outcome.next (deselectPort p bytes bits s) = _
  simp [deselectPort, hn, ht]

include hrx hbits

theorem exec_deselect_empty (ht : (s.ports.get p).transaction = some .reply) :
    exec (.deselect p [] 0) s = .next (s.setPort p (s.ports.get p).deselected) := by
  change Host.Outcome.next (deselectPort p [] 0 s) = _
  simp [deselectPort, hn, ht, hrx, hbits]

theorem exec_deselect_reply (ht : (s.ports.get p).transaction = some .reply) {bytes : List Byte} {bits : Nat}
    (h : bytes ≠ [] ∨ bits ≠ 0) :
    exec (.deselect p bytes bits) s =
      .next (examine p bytes bits (s.setPort p (s.ports.get p).deselected)) := by
  have hsome : ¬ (bytes = [] ∧ bits = 0) := by tauto
  change Host.Outcome.next (deselectPort p bytes bits s) = _
  simp [deselectPort, hn, ht, hrx, hbits, hsome]

end deselect

/-! ### The framing tests and the check (R165) -/

theorem receive_of_bits {bits : Nat} (h : bits ≠ 0) (bytes : List Byte) : receive bytes bits = .framing := by
  unfold receive
  split
  · exact if_pos (.inl h)
  · rfl

theorem receive_of_short {bytes : List Byte} (h : bytes.length < 4) (bits : Nat) : receive bytes bits = .framing := by
  unfold receive
  split
  · simp only [List.length_cons] at h
    exact if_pos (.inr (.inr (.inl (by omega))))
  · rfl

theorem receive_of_long {bytes : List Byte} (h : 64 < bytes.length) (bits : Nat) : receive bytes bits = .framing := by
  unfold receive
  split
  · simp only [List.length_cons] at h
    exact if_pos (.inr (.inr (.inr (.inl (by omega)))))
  · rfl

/-- The length byte above 60, too few bytes for it, or padding that is not 00h. -/
theorem receive_of_unframed {code tag len : Byte} {rest : List Byte}
    (h : 60 < len.toNat ∨ rest.length < len.toNat + 1 ∨ ∃ b ∈ rest.drop (len.toNat + 1), b ≠ 0x00) (bits : Nat) :
    receive (code :: tag :: len :: rest) bits = .framing := by
  refine if_pos (.inr ?_)
  rcases h with h | h | ⟨b, hb, hne⟩
  · exact .inl h
  · exact .inr (.inl h)
  · exact .inr (.inr (.inr (List.any_eq_true.mpr ⟨b, hb, by simpa using hne⟩)))

/-- A whole frame with padding of 00h bytes: its check decides. -/
theorem receive_of_frame {code tag check : Byte} {body : List Byte} {padding : Nat} (hb : body.length ≤ 60)
    (hlen : body.length + padding ≤ 60) :
    receive (code :: tag :: BitVec.ofNat 8 body.length :: body ++ check :: List.replicate padding 0x00) 0 =
      if crc8 (code :: tag :: BitVec.ofNat 8 body.length :: body) = check then .frame code tag body
      else .checkError := by
  have hn : (BitVec.ofNat 8 body.length).toNat = body.length := by simp; omega
  have hdrop : (body ++ check :: List.replicate padding 0x00).drop (body.length + 1) = List.replicate padding 0x00 := by
    rw [← List.drop_drop, List.drop_left]; rfl
  have hframed : ¬ ((0 : Nat) ≠ 0 ∨ 60 < body.length
      ∨ (body ++ check :: List.replicate padding (0x00 : Byte)).length < body.length + 1
      ∨ 61 < (body ++ check :: List.replicate padding (0x00 : Byte)).length
      ∨ (List.replicate padding (0x00 : Byte)).any (fun b => decide (b ≠ 0x00)) = true) := by
    simp; omega
  simp only [receive, List.cons_append, hn, hdrop, if_neg hframed, List.take_left]
  simp

theorem examine_of_framing {p : HostNo} {bytes : List Byte} {bits : Nat} {s : State}
    (h : receive bytes bits = .framing) : examine p bytes bits s = s.answer p 0x00 (.plain .framing) := by
  rw [examine, h]

/-! ### The request a code names (R167) -/

theorem code_of_mem_requestOfCode : ∀ code : Byte, ∀ n ∈ requestOfCode code, n.code = code := by decide +kernel

theorem requestOfCode_code (n : RequestName) : requestOfCode n.code = some n := by cases n <;> rfl

/-- A code that no request has names none. -/
theorem requestOfCode_eq_none {code : Byte} (h : ∀ n : RequestName, n.code ≠ code) : requestOfCode code = none :=
  Option.eq_none_iff_forall_not_mem.mpr fun n hn => h n (code_of_mem_requestOfCode code n hn)

/-- Settles O11: each kind of transaction by what `receive` makes of its bytes. -/
theorem deselectDisposesOfTheTransaction : Obligations.DeselectDisposesOfTheTransaction := by
  intro p bytes bits s hn hrx hb
  have framing (ht : (s.ports.get p).transaction = some .reply) (hsome : bytes ≠ [] ∨ bits ≠ 0)
      (hf : receive bytes bits = .framing) : exec (.deselect p bytes bits) s =
        .next ((s.setPort p (s.ports.get p).deselected).answer p 0x00 ⟨.framing, []⟩) := by
    rw [exec_deselect_reply hn hrx hb ht hsome, examine_of_framing hf]
    rfl
  refine ⟨fun ht hbytes hbits => ?empty, fun ht => exec_deselect_notReady hn ht bytes bits, fun ht hlen => ?length,
    fun ht code tag len rest hbytes hbad => ?unframed,
    fun ht hbits code tag check body padding hbytes hbody hlen => ?framed⟩
  case empty =>
    subst hbytes hbits
    exact exec_deselect_empty hn hrx hb ht
  case length =>
    rcases hlen with hbits | ⟨hne, hshort⟩ | hlong
    · exact framing ht (.inr hbits) (receive_of_bits hbits bytes)
    · exact framing ht (.inl hne) (receive_of_short hshort bits)
    · exact framing ht (.inl (by rintro rfl; simp at hlong)) (receive_of_long hlong bits)
  case unframed =>
    subst hbytes
    refine framing ht (.inl (by simp)) (receive_of_unframed ?_ bits)
    refine hbad.imp_right (Or.imp (fun h => ?_) fun h => ?_)
    · simp only [List.length_cons] at h; omega
    · rwa [show 4 + len.toNat = len.toNat + 1 + 3 by omega] at h
  case framed =>
    subst hbits
    have hpad : body.length + padding ≤ 60 := by
      rw [hbytes] at hlen
      simp at hlen
      omega
    rw [exec_deselect_reply hn hrx hb ht (.inl (by rw [hbytes]; simp)), hbytes]
    unfold examine
    rw [receive_of_frame hbody hpad]
    refine ⟨fun hne => ?_, fun heq hcode => ?_⟩
    · rw [if_neg (Ne.symm hne)]
      rfl
    · rw [if_pos heq.symm]
      simp only [dispatchFrame, requestOfCode_eq_none hcode]
      rfl

/-! ### A request read back from its frame (Tables 11-6, 11-8) -/

@[simp] theorem word16_hiByte_loByte (w : Word16) : word16 (hiByte w) (loByte w) = w := by
  apply BitVec.eq_of_toNat_eq
  simp only [word16, hiByte, loByte, BitVec.toNat_append, BitVec.extractLsb'_toNat, Nat.shiftRight_zero]
  rw [← Nat.shiftLeft_add_eq_or_of_lt (Nat.mod_lt _ (by decide)), Nat.shiftLeft_eq, Nat.shiftRight_eq_div_pow]
  have := w.isLt
  omega

/-- Every request of an allowed length is read back from its body. -/
theorem parseBody_body {r : Request} (h : r.lengthOk = true) : parseBody r.name r.body = some r := by
  cases r
  case fetch maximum ack => cases ack <;> rfl
  case renew selector newLease => cases newLease <;> simp [parseBody, Request.name, Request.body, word16Bytes]
  case writeMap offset bytes => simpa [parseBody, Request.name, Request.body, Request.lengthOk] using h
  case submit line count segments => simpa [parseBody, Request.name, Request.body, Request.lengthOk] using h
  all_goals simp [parseBody, Request.name, Request.body, word16Bytes]

theorem Request.frame_length (r : Request) (tag : Byte) : (r.frame tag).length = r.body.length + 4 := by
  simp [Request.frame]

/-- Settles O12: the frame is received whole, its code names the request and its body gives it back. -/
theorem deselectRunsTheRequest : Obligations.DeselectRunsTheRequest := by
  intro r p tag padding s hl hlen hn ht hrx hb
  rw [Request.frame_length] at hlen
  have hframe : r.frame tag ++ List.replicate padding 0x00 =
      r.name.code :: tag :: BitVec.ofNat 8 r.body.length :: r.body
        ++ crc8 (r.name.code :: tag :: BitVec.ofNat 8 r.body.length :: r.body) :: List.replicate padding 0x00 := by
    simp [Request.frame]
  have hreceive : receive (r.frame tag ++ List.replicate padding 0x00) 0 = .frame r.name.code tag r.body := by
    rw [hframe, receive_of_frame (by omega) (by omega), if_pos rfl]
  rw [exec_deselect_reply hn hrx hb ht (.inl (by rw [hframe]; simp)), exec_command, hl]
  simp only [examine, hreceive, dispatchFrame, requestOfCode_code, parseBody_body hl]

end Sys2Proof.Machine
end

section
/-! PROOFS. Segments read back from their bytes (Tables 11-11, 11-12), the ranges a PULSE is held to (R28), and the
checks
of SUBMIT (R107). -/

namespace Sys2Proof.Machine

/-! ### Enumerated bytes read back -/

@[simp] theorem tapOfByte_toByte (t : Tap) : tapOfByte t.toByte = some t := by cases t <;> rfl
@[simp] theorem levelOfByte_toByte (l : Level) : levelOfByte l.toByte = some l := by cases l <;> rfl
@[simp] theorem polarityOfByte_toByte (p : Polarity) : polarityOfByte p.toByte = some p := by cases p <;> rfl
@[simp] theorem sourceOfByte_toByte (src : Source) : sourceOfByte src.toByte = some src := by cases src <;> rfl

theorem exists_tapOfByte {b : Byte} (h : b.toNat < 6) : ∃ t, tapOfByte b = some t := by
  obtain rfl | rfl | rfl | rfl | rfl | rfl :
      b = 0x00 ∨ b = 0x01 ∨ b = 0x02 ∨ b = 0x03 ∨ b = 0x04 ∨ b = 0x05 := by bv_omega
  all_goals exact ⟨_, rfl⟩

theorem polarityOfByte_of_ge {b : Byte} (h : 2 ≤ b.toNat) : polarityOfByte b = none := by
  have h0 : b ≠ 0x00 := by bv_omega
  have h1 : b ≠ 0x01 := by bv_omega
  rw [polarityOfByte, if_neg h0, if_neg h1]

theorem polarityOfByte_of_lt {b : Byte} (h : b.toNat < 2) :
    polarityOfByte b = some (if b = 0x00 then .activeHigh else .activeLow) := by
  obtain rfl | rfl : b = 0x00 ∨ b = 0x01 := by bv_omega
  all_goals rfl

/-- The flags byte carries join, notify and policy in its bits 0, 1 and 2 (Table 11-11). -/
theorem Segment.flagsByte_bits (g : Segment) : g.flagsByte.toNat < 8 ∧ g.flagsByte.getLsbD 0 = g.join
    ∧ g.flagsByte.getLsbD 1 = g.notify ∧ (if g.flagsByte.getLsbD 2 then Policy.drop else .restart) = g.policy := by
  obtain ⟨_, _, join, notify, policy, _⟩ := g
  cases join <;> cases notify <;> cases policy <;> simp [Segment.flagsByte]

/-! ### One segment -/

/-- The header read, the kind-specific part is what is left. -/
theorem takeSegment_header {kind label tapByte flags : Byte} {tap : Tap} {rest : List Byte}
    (ht : tapOfByte tapByte = some tap) (hf : flags.toNat < 8) :
    takeSegment (kind :: label :: tapByte :: flags :: rest) =
      (takeBody kind (flags.getLsbD 0) rest).map fun r =>
        (⟨label, tap, flags.getLsbD 0, flags.getLsbD 1, if flags.getLsbD 2 then .drop else .restart, r.1⟩, r.2) := by
  simp only [takeSegment, ht, if_pos hf]
  cases takeBody kind (flags.getLsbD 0) rest <;> rfl

theorem takeDurations_append (rest : List Byte) : ∀ ds : List Word16,
    takeDurations ds.length ((ds.map word16Bytes).flatten ++ rest) = some (ds, rest)
  | [] => rfl
  | d :: ds => by simp [word16Bytes, takeDurations, takeDurations_append rest ds]

/-- Every kind-specific part within its ranges is read back (R26, R28, R42, R55). -/
theorem takeBody_bytes {g : Segment} (h : g.valid = true) (rest : List Byte) :
    takeBody g.body.kindByte g.join (g.body.bytes ++ rest) = some (g.body, rest) := by
  unfold Segment.valid at h
  cases hb : g.body with rw [hb] at h
  | hold level d => simp [takeBody, SegmentBody.kindByte, SegmentBody.bytes, word16Bytes]
  | pulse period active pol count =>
    have hrange : 2 ≤ period.toNat ∧ active.toNat ≤ period.toNat := by simpa using h
    simp [takeBody, SegmentBody.kindByte, SegmentBody.bytes, word16Bytes, hrange]
  | carrier source pol ds =>
    obtain ⟨hlen, hzero⟩ : (1 ≤ ds.length ∧ ds.length ≤ 12) ∧ ds.all (fun d => decide (d ≠ 0)) = true := by
      simpa only [Bool.and_eq_true, decide_eq_true_eq] using h
    have hn : (BitVec.ofNat 8 ds.length).toNat = ds.length := by simp; omega
    simp only [takeBody, SegmentBody.kindByte, SegmentBody.bytes, List.cons_append, hn, takeDurations_append,
      sourceOfByte_toByte, polarityOfByte_toByte, hzero, hlen, and_self, if_true]
    rfl
  | sense d l =>
    have hrange : (d ≠ 0 ∧ l ≠ 0) ∧ g.join = false := by simpa using h
    simp only [takeBody, SegmentBody.kindByte, SegmentBody.bytes, word16Bytes, List.cons_append, List.nil_append,
      word16_hiByte_loByte]
    rw [if_neg (by decide), if_neg (by decide), if_neg (by decide), if_pos trivial, if_pos (and_assoc.mp hrange)]

theorem takeSegment_bytes {g : Segment} (h : g.valid = true) (rest : List Byte) :
    takeSegment (g.bytes ++ rest) = some (g, rest) := by
  obtain ⟨hlt, hjoin, hnotify, hpolicy⟩ := g.flagsByte_bits
  have hheader := takeSegment_header (kind := g.body.kindByte) (label := g.label)
    (rest := g.body.bytes ++ rest) (tapOfByte_toByte g.tap) hlt
  rw [hjoin, takeBody_bytes h rest, hnotify, hpolicy] at hheader
  exact hheader

/-! ### A SUBMIT list -/

/-- Valid segments are read off one after the other; what stands behind them is read at the places that follow. -/
theorem takeSegments_append {n : Nat} {bytes : List Byte} : ∀ {gs : List Segment} (place : Nat),
    (∀ g ∈ gs, g.valid = true) →
    takeSegments place (gs.length + n) ((gs.map Segment.bytes).flatten ++ bytes) =
      match takeSegments (place + gs.length) n bytes with
      | .ok segs => .ok (gs ++ segs)
      | .error p => .error p
  | [], place, _ => by
    simp only [List.length_nil, Nat.zero_add, List.map_nil, List.flatten_nil, List.nil_append, Nat.add_zero]
    cases takeSegments place n bytes <;> rfl
  | g :: gs, place, h => by
    have htail := takeSegments_append (n := n) (bytes := bytes) (gs := gs) (place + 1)
      fun x hx => h x (List.mem_cons_of_mem _ hx)
    rw [List.length_cons, Nat.add_right_comm, List.map_cons, List.flatten_cons, List.append_assoc]
    simp only [takeSegments, takeSegment_bytes (h g List.mem_cons_self), htail]
    rw [show place + 1 + gs.length = place + (gs.length + 1) by omega]
    cases takeSegments (place + (gs.length + 1)) n bytes <;> rfl

/-- Settles O13: a segment by its header and its kind-specific part, a list by its segments in turn. -/
theorem segmentsReadBack : Obligations.SegmentsReadBack := by
  refine ⟨fun g rest h => takeSegment_bytes h rest, fun gs h => ?_⟩
  have hall := takeSegments_append (n := 0) (bytes := []) 1 h
  simpa [takeSegments] using hall

/-! ### SUBMIT refused (R107) -/

section submitRefused
variable {p : HostNo} {line count : Byte} {segments : List Byte} {s : State}

theorem actSubmit_of_noLine (h : 8 ≤ line.toNat) :
    actSubmit p line count segments s = .unchanged s ⟨.invalid, [0x00]⟩ := by
  rw [actSubmit, lineOfByte_of_ge h]

theorem submitSegments_of_outside (h : count.toNat = 0 ∨ 8 < count.toNat) :
    submitSegments count segments = .error 0 := if_neg (by omega)

theorem submitSegments_of_inside (h1 : 1 ≤ count.toNat) (h8 : count.toNat ≤ 8) :
    submitSegments count segments = takeSegments 1 count.toNat segments := if_pos ⟨h1, h8⟩

variable {k : LineNo} (hk : k.val = line.toNat)
include hk

theorem actSubmit_of_error {place : Nat} (h : submitSegments count segments = .error place) :
    actSubmit p line count segments s = .unchanged s ⟨.invalid, [BitVec.ofNat 8 place]⟩ := by
  simp only [actSubmit, lineOfByte_of_lt hk, h]

variable {segs : List Segment} (hs : submitSegments count segments = .ok segs)
include hs

theorem actSubmit_of_noClaim (h : ∀ c ∈ (s.lines.get k).claims, c.host ≠ p) :
    actSubmit p line count segments s = .unchanged s (.plain .noClaim) := by
  simp only [actSubmit, lineOfByte_of_lt hk, hs, LineState.claimOf_eq_none.mpr h]

variable {c : Claim} (hc : (s.lines.get k).claimOf p = some c)
include hc

theorem actSubmit_of_leaving (h : c.state.refusesWork = true) :
    actSubmit p line count segments s = .unchanged s (.plain .leaving) := by
  simp only [actSubmit, lineOfByte_of_lt hk, hs, hc, if_pos h]

variable (hw : c.state.refusesWork = false)
include hw

theorem actSubmit_of_full (h : quota s.map p < s.inUse p + segs.length) :
    actSubmit p line count segments s =
      .unchanged s ⟨.storeFull, [BitVec.ofNat 8 (s.inUse p), BitVec.ofNat 8 (quota s.map p)]⟩ := by
  simp only [actSubmit, lineOfByte_of_lt hk, hs, hc, hw, if_pos h, if_false, Bool.false_eq_true]

/-- A SUBMIT that passes the checks. -/
theorem actSubmit_of_room (h : s.inUse p + segs.length ≤ quota s.map p) {t : State}
    (ht : t = s.updateLine k (submitTo (s.ctx k) (s.lines.get k) p segs)) :
    actSubmit p line count segments s = ⟨t, ⟨.ok, [BitVec.ofNat 8 segs.length,
      BitVec.ofNat 8 (queueLength (t.lines.get k) p), BitVec.ofNat 8 (t.inUse p)]⟩⟩ := by
  simp only [actSubmit, lineOfByte_of_lt hk, hs, hc, hw, if_neg (Nat.not_lt.mpr h), if_false, Bool.false_eq_true, ht]

end submitRefused

section submitCommand
variable {p : HostNo} {line count : Byte} {segments : List Byte} {s t : State} {reply : Reply}
  (hs : (s.ports.get p).status = .attached) (h1 : 1 ≤ segments.length) (h58 : segments.length ≤ 58)
include hs h1 h58

theorem exec_submit_of_act (ha : actSubmit p line count segments s = ⟨t, reply⟩) (tag : Byte) :
    exec (.submit p tag line count segments) s = .next (t.answer p tag reply) :=
  exec_command_of_act (r := .submit line count segments) (by simp [Request.name, RequestName.takenIn, hs])
    (decide_eq_true ⟨h1, h58⟩) ha tag

end submitCommand

theorem ClaimState.refusesWork_iff {st : ClaimState} : st.refusesWork = true ↔
    st.isEnding = true ∨ st = .leaving true ∨ st = .leaving false := by
  rcases st with _ | _ | _ | _ | d | _ <;> simp [ClaimState.refusesWork, ClaimState.isEnding]

theorem ClaimState.refusesWork_eq_false_iff {st : ClaimState} : st.refusesWork = false ↔
    st = .waiting ∨ st = .taking ∨ st = .holding ∨ st = .yielding := by
  cases st <;> simp [ClaimState.refusesWork]

/-- Settles O36: each clause is one check of Table 7-1, with the checks before it passed. -/
theorem submitChecks : Obligations.SubmitChecks := by
  intro p tag line count segments s hs h1 h58
  have refused {reply : Reply} (ha : actSubmit p line count segments s = .unchanged s reply) :
      exec (.submit p tag line count segments) s = .next (s.answer p tag reply) := exec_submit_of_act hs h1 h58 ha tag
  refine ⟨fun hout => ?outside, fun k hk hc1 hc8 => ?inside⟩
  case outside =>
    by_cases hline : 8 ≤ line.toNat
    · exact refused (actSubmit_of_noLine hline)
    · have hk : (⟨line.toNat, Nat.not_le.mp hline⟩ : LineNo).val = line.toNat := rfl
      exact refused (actSubmit_of_error hk (submitSegments_of_outside (hout.resolve_left hline)))
  case inside =>
    rw [← submitSegments_of_inside hc1 hc8]
    refine ⟨fun place he => refused (actSubmit_of_error hk he), fun segs hsegs => ⟨fun hno => ?_, fun c hc => ?_⟩⟩
    · exact refused (actSubmit_of_noClaim hk hsegs hno)
    · exact ⟨fun hst => refused (actSubmit_of_leaving hk hsegs hc (ClaimState.refusesWork_iff.mpr hst)),
        fun hst hfull =>
          refused (actSubmit_of_full hk hsegs hc (ClaimState.refusesWork_eq_false_iff.mpr hst) hfull)⟩

/-! ### The ranges of a PULSE (R28) -/

section pulseRanges
variable {period active count : Word16} {pol : Byte} {join : Bool}

theorem takeBody_pulse_of_outside (rest : List Byte)
    (h : period.toNat < 2 ∨ period.toNat < active.toNat ∨ 2 ≤ pol.toNat) :
    takeBody 0x01 join ((word16Bytes period ++ word16Bytes active ++ pol :: word16Bytes count) ++ rest) = none := by
  have hpulse : takeBody 0x01 join ((word16Bytes period ++ word16Bytes active ++ pol :: word16Bytes count) ++ rest) =
      (polarityOfByte pol).bind fun polarity => if 2 ≤ period.toNat ∧ active.toNat ≤ period.toNat then
          some (.pulse period active polarity count, rest) else none := by
    simp only [takeBody, word16Bytes, List.cons_append, List.nil_append, word16_hiByte_loByte]
    cases polarityOfByte pol <;> rfl
  rw [hpulse]
  by_cases hp : 2 ≤ pol.toNat
  · rw [polarityOfByte_of_ge hp, Option.bind_none]
  · have hout : ¬ (2 ≤ period.toNat ∧ active.toNat ≤ period.toNat) := by omega
    simp only [if_neg hout, Option.bind_fun_none]

theorem takeBody_pulse_of_inside (rest : List Byte) (h2 : 2 ≤ period.toNat) (ha : active.toNat ≤ period.toNat)
    (hp : pol.toNat < 2) :
    takeBody 0x01 join ((word16Bytes period ++ word16Bytes active ++ pol :: word16Bytes count) ++ rest) =
      some (.pulse period active (if pol = 0x00 then .activeHigh else .activeLow) count, rest) := by
  simp [takeBody, word16Bytes, polarityOfByte_of_lt hp, h2, ha]

end pulseRanges

/-- A segment that cannot be read is refused at its own place, behind valid ones. -/
theorem takeSegments_of_bad {gs : List Segment} {bytes : List Byte} {n : Nat} (h : ∀ g ∈ gs, g.valid = true)
    (hn : gs.length < n) (hbad : takeSegment bytes = none) :
    takeSegments 1 n ((gs.map Segment.bytes).flatten ++ bytes) = .error (gs.length + 1) := by
  obtain ⟨m, rfl⟩ : ∃ m, n = gs.length + (m + 1) := ⟨n - gs.length - 1, by omega⟩
  rw [takeSegments_append 1 h]
  simp only [takeSegments, hbad, Nat.add_comm]

/-- Settles O37: the kind-specific part decides, wherever the segment stands. -/
theorem pulseRangesAreChecked : Obligations.PulseRangesAreChecked := by
  intro label tap flags pol period active count rest ht hf
  obtain ⟨t, ht⟩ := exists_tapOfByte ht
  refine ⟨fun hout p tag line n before s hs hline hn hn8 hvalid hlen => ?outside, fun h2 ha hp => ?inside⟩
  case outside =>
    have hbad : takeSegment ((0x01 :: label :: tap :: flags :: (word16Bytes period ++ word16Bytes active
        ++ pol :: word16Bytes count)) ++ rest) = none := by
      rw [List.cons_append, List.cons_append, List.cons_append, List.cons_append, takeSegment_header ht hf,
        takeBody_pulse_of_outside rest hout, Option.map_none]
    have hk : (⟨line.toNat, hline⟩ : LineNo).val = line.toNat := rfl
    have herr := takeSegments_of_bad hvalid hn hbad
    rw [← List.append_assoc, ← submitSegments_of_inside (by omega) hn8] at herr
    exact exec_submit_of_act hs (by simp; omega) hlen (actSubmit_of_error hk herr) tag
  case inside =>
    rw [List.cons_append, List.cons_append, List.cons_append, List.cons_append, takeSegment_header ht hf,
      takeBody_pulse_of_inside rest h2 ha hp]
    exact ⟨_, rfl, rfl⟩

end Sys2Proof.Machine
end

section
/-! PROOFS. Notices: what a posting does to a queue (R120 to R122), the two steps of a FETCH (R126 to R128), and ATTN
(R129). -/

namespace Sys2Proof.Machine

/-! ### A posting (R120 to R122) -/

theorem PortStatus.receives_iff {st : PortStatus} : st.receives = true ↔ st ≠ .absent ∧ st ≠ .pending := by
  cases st <;> simp [PortStatus.receives]

theorem Port.post_of_receives {P : Port} (h : P.status.receives = true) (b : NoticeBody) : P.post b = P.enqueue b :=
  if_pos h

/-- R121: room for the notice. -/
theorem Port.enqueue_of_room {P : Port} (h : P.notices.length ≤ 14) (b : NoticeBody) : P.enqueue b = P.append b :=
  if_pos (by omega)

/-- R122: the first notice lost. -/
theorem Port.enqueue_of_full {P : Port} (h : 15 ≤ P.notices.length)
    (hl : ∀ seq lost d, P.notices.getLast? ≠ some ⟨seq, .overflow lost, d⟩) (b : NoticeBody) :
    P.enqueue b = P.append (.overflow 1) := by
  rw [Port.enqueue, if_neg (by omega)]
  split
  · rename_i seq lost d hlast
    exact absurd hlast (hl seq lost d)
  · rfl

/-- R122: one more notice lost. -/
theorem Port.enqueue_of_overflow {P : Port} {older : List Notice} {seq : Byte} {lost : Nat} {d : Bool}
    (h : 15 ≤ P.notices.length) (hq : P.notices = older ++ [⟨seq, .overflow lost, d⟩]) (b : NoticeBody) :
    P.enqueue b = { P with notices := older ++ [raiseOverflow ⟨seq, .overflow lost, d⟩ lost] } := by
  rw [Port.enqueue, if_neg (by omega)]
  simp [hq]

/-- Settles O14: a posting by the room in the queue, and the recipients by what `includes` asks. -/
theorem postingAppendsOrCounts : Obligations.PostingAppendsOrCounts := by
  refine ⟨fun P b => ⟨fun hno => ?discarded, fun ha hp => ?_⟩, fun s h =>
    ⟨fun n => ⟨rfl, State.post_ports s n h⟩, fun g => beq_iff_eq, fun k => ?permitted, rfl, fun g => ?attached⟩⟩
  case discarded =>
    refine Port.post_of_not_receives ?_ b
    rcases hno with h | h <;> rw [h] <;> rfl
  case permitted =>
    cases hd : s.device <;> simp [Recipients.includes, hd]
  case attached => simp [Recipients.includes]
  rw [Port.post_of_receives (PortStatus.receives_iff.mpr ⟨ha, hp⟩)]
  exact ⟨fun hroom => Port.enqueue_of_room hroom b, fun hfull hl => Port.enqueue_of_full hfull hl b,
    fun older seq lost d hfull hq => Port.enqueue_of_overflow hfull hq b⟩

/-! ### FETCH (R126, R127) -/

/-- Any present port takes a FETCH (Table 11-2). -/
theorem exec_fetch_of_act {p : HostNo} {maximum : Byte} {ack : Option Byte} {s t : State} {reply : Reply}
    (hp : (s.ports.get p).status ≠ .absent) (ha : actFetch p maximum ack s = ⟨t, reply⟩) (tag : Byte) :
    exec (.fetch p tag maximum ack) s = .next (t.answer p tag reply) :=
  exec_command_of_act (r := .fetch maximum ack) (bne_iff_ne.mpr hp) rfl ha tag

theorem actFetch_of_outside {maximum : Byte} (h : maximum.toNat = 0 ∨ 4 < maximum.toNat) (p : HostNo)
    (ack : Option Byte) (s : State) : actFetch p maximum ack s = .unchanged s (.plain .invalid) :=
  if_neg (by omega)

/-- FETCH acts on the queue that the acknowledgement leaves. -/
theorem actFetch_of_inside {maximum : Byte} (h1 : 1 ≤ maximum.toNat) (h4 : maximum.toNat ≤ 4) {p : HostNo}
    {ack : Option Byte} {s : State} {acked : Option (List Notice)} {q : List Notice}
    (ha : (match ack with | none => some (s.ports.get p).notices | some a => acknowledge (s.ports.get p).notices a)
      = acked) (hq : acked.getD (s.ports.get p).notices = q) :
    actFetch p maximum ack s = ⟨s.setPort p { s.ports.get p with notices := markDelivered q maximum.toNat },
      ⟨if acked.isSome then .ok else .badAck, fetchBody q maximum.toNat⟩⟩ := by
  subst ha hq
  exact if_pos ⟨h1, h4⟩

/-- The notices a FETCH has marked are delivered, so the undelivered ones stand behind them. -/
theorem countP_markDelivered (q : List Notice) (maximum : Nat) :
    (markDelivered q maximum).countP (fun n => !n.delivered) = (q.drop maximum).countP fun n => !n.delivered := by
  rw [markDelivered, List.countP_append, List.countP_map, Nat.add_eq_right, List.countP_eq_zero]
  simp

/-- Settles O15: without an acknowledgement the queue between the two steps is the queue itself. -/
theorem fetchReturnsTheOldest : Obligations.FetchReturnsTheOldest := by
  intro p tag maximum ack s hp
  refine ⟨fun hout => exec_fetch_of_act hp (actFetch_of_outside hout p ack s) tag, fun h1 h4 => ?_⟩
  rw [exec_fetch_of_act hp (actFetch_of_inside h1 h4 rfl rfl) tag, ← countP_markDelivered, ← List.length_take]
  rfl

/-! ### The acknowledgement (R126, R128, R176) -/

/-- The first notice that carries the number decides. -/
theorem acknowledge_append {ack : Byte} {n : Notice} {post : List Notice} (hn : n.seq = ack) :
    ∀ {pre : List Notice}, (∀ m ∈ pre, m.seq ≠ ack) →
      acknowledge (pre ++ n :: post) ack = if n.delivered then some post else none
  | [], _ => by rw [List.nil_append, acknowledge, if_pos hn]
  | m :: pre, h => by
    rw [List.cons_append, acknowledge, if_neg (h m List.mem_cons_self)]
    exact acknowledge_append hn fun x hx => h x (List.mem_cons_of_mem _ hx)

theorem acknowledge_of_no_number {ack : Byte} : ∀ {q : List Notice}, (∀ m ∈ q, m.seq ≠ ack) →
    acknowledge q ack = none
  | [], _ => rfl
  | m :: q, h => by
    rw [acknowledge, if_neg (h m List.mem_cons_self)]
    exact acknowledge_of_no_number fun x hx => h x (List.mem_cons_of_mem _ hx)

section acknowledged
variable {p : HostNo} {maximum ack : Byte} {s : State} (hp : (s.ports.get p).status ≠ .absent)
  (h1 : 1 ≤ maximum.toNat) (h4 : maximum.toNat ≤ 4)
include hp h1 h4

theorem exec_fetch_of_acknowledged {q : List Notice} (ha : acknowledge (s.ports.get p).notices ack = some q)
    (tag : Byte) : exec (.fetch p tag maximum (some ack)) s =
      .next ((s.setPort p { s.ports.get p with notices := markDelivered q maximum.toNat }).answer p tag
        ⟨.ok, fetchBody q maximum.toNat⟩) :=
  exec_fetch_of_act hp (actFetch_of_inside (ack := some ack) h1 h4 ha (Option.getD_some ..)) tag

theorem exec_fetch_of_badAck (ha : acknowledge (s.ports.get p).notices ack = none)
    (tag : Byte) : exec (.fetch p tag maximum (some ack)) s =
      .next ((s.setPort p { s.ports.get p with
          notices := markDelivered (s.ports.get p).notices maximum.toNat }).answer p tag
        ⟨.badAck, fetchBody (s.ports.get p).notices maximum.toNat⟩) :=
  exec_fetch_of_act hp (actFetch_of_inside (ack := some ack) h1 h4 ha (Option.getD_none ..)) tag

end acknowledged

/-- Settles O16: the three outcomes of the acknowledgement step. -/
theorem fetchAcknowledgesByEquality : Obligations.FetchAcknowledgesByEquality := by
  intro p tag maximum ack s hp h1 h4
  refine ⟨fun pre n post hq hpre hn hd => exec_fetch_of_acknowledged hp h1 h4 ?_ tag,
    fun pre n post hq hpre hn hd => exec_fetch_of_badAck hp h1 h4 ?_ tag,
    fun hnone => exec_fetch_of_badAck hp h1 h4 (acknowledge_of_no_number hnone) tag⟩
  · rw [hq, acknowledge_append hn hpre, if_pos hd]
  · rw [hq, acknowledge_append hn hpre, hd]
    rfl

/-! ### ATTN (R129) -/

theorem Port.attn_iff {P : Port} : P.attn = true ↔ ∃ n ∈ P.notices, n.delivered = false := by
  simp [Port.attn]

/-- What an acknowledgement removes is delivered: the notice it names, and by the law all before it. -/
theorem Port.NoticeLaw.removed_delivered {P : Port} {pre post : List Notice} {n : Notice} (h : P.NoticeLaw)
    (hq : P.notices = pre ++ n :: post) (hd : n.delivered = true) : ∀ m ∈ pre, m.delivered = true := by
  intro m hm
  obtain ⟨i, hi, hmi⟩ := List.getElem_of_mem hm
  refine h.2.2.2 i pre.length m n hi ?_ ?_ hd
  · rw [hq, List.getElem?_append_left hi, List.getElem?_eq_getElem hi, hmi]
  · rw [hq, List.getElem?_append_right le_rfl, Nat.sub_self, List.getElem?_cons_zero]

/-- Settles O17. -/
theorem attnFollowsTheMarks : Obligations.AttnFollowsTheMarks := by
  refine ⟨fun P => Port.attn_iff, fun P b hr hroom => ?posted, fun P ack q hlaw hack => ?acknowledged⟩
  case posted =>
    rw [Port.post_of_receives hr, Port.enqueue_of_room hroom, Port.attn_iff]
    exact ⟨⟨P.nextSeq, b, false⟩, by simp [Port.append], rfl⟩
  case acknowledged =>
    obtain ⟨pre, n, hq, -, hd, -⟩ := acknowledge_spec hack
    have hpre := hlaw.removed_delivered hq hd
    rw [Bool.eq_iff_iff, Port.attn_iff, Port.attn_iff, hq]
    constructor
    · rintro ⟨m, hm, hmd⟩
      exact ⟨m, by simp [show m ∈ q from hm], hmd⟩
    · rintro ⟨m, hm, hmd⟩
      rcases List.mem_append.mp hm with hm | hm
      · simp [hpre m hm] at hmd
      · rcases List.mem_cons.mp hm with rfl | hm
        · simp [hd] at hmd
        · exact ⟨m, hm, hmd⟩

end Sys2Proof.Machine
end

section
/-! PROOFS. A WRITE_MAP refused and accepted (R146, R147), and what it does to each line (R133, R136). -/

namespace Sys2Proof.Machine

/-! ### The checks of WRITE_MAP (R146) -/

section writeMapCommand
variable {p : HostNo} {offset : Byte} {bytes : List Byte} {s t : State} {reply : Reply}
  (hp : (s.ports.get p).status = .open ∨ (s.ports.get p).status = .ready) (h1 : 1 ≤ bytes.length)
  (h56 : bytes.length ≤ 56)
include hp h1 h56

theorem exec_writeMap_of_act (ha : actWriteMap p offset bytes s = ⟨t, reply⟩) (tag : Byte) :
    exec (.writeMap p tag offset bytes) s = .next (t.answer p tag reply) :=
  exec_command_of_act (r := .writeMap offset bytes) (takenIn_writeMap_iff.mpr hp) (decide_eq_true ⟨h1, h56⟩) ha tag

end writeMapCommand

theorem coversWholeItems_iff {offset n : Nat} : coversWholeItems offset n = true ↔
    (∃ i ∈ mapItems, i.1 = offset) ∧ ∃ i ∈ mapItems, i.1 + i.2 = offset + n := by
  simp only [coversWholeItems, Bool.and_eq_true, List.any_eq_true, beq_iff_eq]

theorem writtenItemsValid_iff {m : Memory} {offset n : Nat} : writtenItemsValid m offset n = true ↔
    ∀ i ∈ mapItems, offset ≤ i.1 → i.1 < offset + n → itemValid m i.1 = true := by
  simp only [writtenItemsValid, List.all_eq_true, Bool.or_eq_true, Bool.not_eq_true', decide_eq_false_iff_not,
    ← imp_iff_not_or, and_imp]

theorem mapAfterWrite_of_valid {m : Memory} {offset : Nat} {bytes : List Byte}
    (hend : offset + bytes.length ≤ Config.mapBytes) (hc : coversWholeItems offset bytes.length = true)
    (hv : writtenItemsValid (m.writeAll offset bytes) offset bytes.length = true) :
    mapAfterWrite m offset bytes = some (m.writeAll offset bytes) :=
  if_pos ⟨hend, hc, hv⟩

/-- Settles O18: each clause breaks one of the three conditions of an admissible write. -/
theorem writeMapChecks : Obligations.WriteMapChecks := by
  intro p tag offset bytes s hp h1 h56 hbad
  have hnone : mapAfterWrite s.map offset.toNat bytes = none := by
    refine if_neg fun ⟨hend, hcovers, hvalid⟩ => ?_
    obtain ⟨⟨i, hi, hbegin⟩, j, hj, hfinish⟩ := coversWholeItems_iff.mp hcovers
    rcases hbad with hpast | hbegins | hends | ⟨a, ha, hle, hlt, hno⟩
    · exact absurd hend (Nat.not_le.mpr hpast)
    · exact hbegins i hi hbegin
    · exact hends j hj hfinish
    · simp [writtenItemsValid_iff.mp hvalid a ha hle hlt] at hno
  exact exec_writeMap_of_act hp h1 h56 (by rw [actWriteMap, hnone]; rfl) tag

/-! ### A line at a write (R133, R136) -/

/-- The mark of an event that keeps the engine: the timer was due, and is not due any more (log 37). -/
theorem forestall_mark_of_engine {w0 w1 : Nat} {L0 L1 : LineState} (he : L1.engine = L0.engine) :
    (LineState.forestall w0 L0 w1 L1).faultForestalled = (L1.faultForestalled
      || (L0.engine.canFault && timerReached w0 L0.mismatch && !timerReached w1 L1.mismatch)) := by
  simp only [LineState.forestall, faultDue, he]
  generalize timerReached w0 L0.mismatch = due
  generalize timerReached w1 L1.mismatch = stillDue
  cases L0.engine <;> revert due stillDue <;> cases L1.faultForestalled <;> decide

/-- A line told of an event that keeps its engine. -/
theorem remonitor_of_engine {c0 c1 : LineCtx} {L0 L1 : LineState} (he : L1.engine = L0.engine) :
    remonitor c0 L0 c1 L1 = { L1 with
      mismatch := timerAfter c0 L0 c1 L1
      faultForestalled := L1.faultForestalled
        || (L0.engine.canFault && timerReached c0.window L0.mismatch
          && !timerReached c1.window (timerAfter c0 L0 c1 L1)) } := by
  rw [remonitor_eq, remonitor, forestall_mark_of_engine (L1 := { L1 with mismatch := timerAfter c0 L0 c1 L1 }) he]

theorem Drive.compared_iff {check : Bool} {d : Drive} :
    d.compared check = true ↔ check = true ∧ d.checked = true ∧ d.level ≠ .float := by
  simp [Drive.compared, and_assoc]

/-- What is driven while FAULTED, RETIRED or HALTED is compared with nothing, so no timer runs. -/
theorem timerAfter_of_floating {c0 c1 : LineCtx} {L0 L1 : LineState} (h : L1.drive c1 = .floating) :
    timerAfter c0 L0 c1 L1 = none := by
  simp [timerAfter, h, Drive.floating, Drive.compared]

theorem LineState.drive_of_faulted {ctx : LineCtx} {L : LineState} (h : L.engine = .faulted) :
    L.drive ctx = .floating := by
  simp [LineState.drive, h]

/-- The monitor of a line that is FAULTED by an event: its timer clear, its mark as it was. -/
theorem remonitor_of_faulted {c0 c1 : LineCtx} {L0 L1 : LineState} (h : L1.engine = .faulted) :
    remonitor c0 L0 c1 L1 = { L1 with mismatch := none } := by
  simp [remonitor, timerAfter_of_floating (LineState.drive_of_faulted h), LineState.forestall, h]

/-- The timer of a line after a write, by the level driven before and after it. -/
theorem timerAfter_self (c0 c1 : LineCtx) (L : LineState) : timerAfter c0 L c1 L =
    if c1.check = true ∧ (L.drive c1).checked = true ∧ (L.drive c1).level ≠ .float then
      if c0.check = true ∧ L.drive c0 = L.drive c1 then L.mismatch
      else if padMismatches L.pad (L.drive c1).level = true then some 0 else none
    else none := by
  simp only [timerAfter, Drive.compared_iff]

/-- A reading of a timer against its window, whatever it is called. -/
theorem reads_eq_timerReached {reached : Option Nat → Bool} {window : Nat}
    (h : ∀ m, reached m = true ↔ ∃ n, m = some n ∧ window * 8 ≤ n) : reached = timerReached window := by
  funext m
  rw [Bool.eq_iff_iff, h m, timerReached_iff]

section writtenLine
variable (s : State) (m : Memory) (k : LineNo)

/-- The line after a write, before a fault is looked for, field by field. -/
theorem writtenLine_eq {c1 : LineCtx} (hc1 : ({ s with map := m } : State).ctx k = c1) : writtenLine s m k =
    { s.lines.get k with
      mismatch := timerAfter (s.ctx k) (s.lines.get k) c1 (s.lines.get k)
      mismatchAtEntry :=
        if c1.check = true ∧ (s.lines.get k).drive (s.ctx k) = (s.lines.get k).drive c1
            ∧ (timerReached (s.ctx k).window (s.lines.get k).mismatchAtEntry = true →
              timerReached c1.window (s.lines.get k).mismatchAtEntry = true) then
          (s.lines.get k).mismatchAtEntry
        else none
      faultForestalled := (s.lines.get k).faultForestalled
        || ((s.lines.get k).engine.canFault && timerReached (s.ctx k).window (s.lines.get k).mismatch
          && !timerReached c1.window (timerAfter (s.ctx k) (s.lines.get k) c1 (s.lines.get k))) } := by
  subst hc1
  rw [writtenLine, remonitor_of_engine rfl]
  rfl

end writtenLine

/-- A fault in SETUP is not counted, and leaves a line without claims FAULTED at once (R136). -/
theorem faultLine_of_setup {ctx : LineCtx} {L : LineState} (hd : ctx.device = .setup) (hc : L.claims = []) :
    faultLine ctx L = .quiet { L.clearRun with engine := .faulted, guardRemaining := 0 } := by
  have hnone : L.executing = none := by simp [LineState.executing, hc]
  simp [faultLine, hd, enterSafeStop, hnone, LineOut.quiet]

/-- A line whose fault a write declares (R133, R136, log 27). -/
theorem writeMapTo_faulted {s : State} {m : Memory} {k : LineNo} (hd : s.device = .setup)
    (hdue : faultDue (({ s with map := m } : State).ctx k).window (writtenLine s m k) = true) :
    ((writeMapTo s m).lines.get k).engine = .faulted
      ∧ ((writeMapTo s m).lines.get k).faultCount = (writtenLine s m k).faultCount
      ∧ ((writeMapTo s m).lines.get k).mismatch = none
      ∧ ((writtenLine s m k).claims = [] → (writeMapTo s m).lines.get k =
          { (writtenLine s m k).clearRun with engine := .faulted, guardRemaining := 0, mismatch := none }) := by
  obtain ⟨-, -, hsetup, -⟩ := faultLine_counts (({ s with map := m } : State).ctx k) (writtenLine s m k)
  obtain ⟨hcount, hengine⟩ := hsetup hd
  rw [writeMapTo_lines, if_pos hdue, remonitor_of_faulted hengine]
  refine ⟨hengine, hcount, rfl, fun hc => ?_⟩
  rw [faultLine_of_setup hd hc]
  rfl

/-! ### The ports at a write (R147, R133) -/

/-- What is queued does not depend on the port's state. -/
theorem Port.enqueue_status (P : Port) (st : PortStatus) (b : NoticeBody) :
    ({ P with status := st } : Port).enqueue b = { P.enqueue b with status := st } := by
  simp only [Port.enqueue, Port.append]
  split
  · rfl
  · split <;> rfl

theorem Port.withdrawReady_post_notices (P : Port) (b : NoticeBody) :
    (P.withdrawReady.post b).notices = (if P.status.receives then P.enqueue b else P).notices := by
  by_cases hr : P.status = .ready
  · simp [Port.withdrawReady, hr, Port.post, PortStatus.receives, Port.enqueue_status]
  · rw [Port.withdrawReady, if_neg hr]
    rfl

theorem Port.withdrawReady_status (P : Port) :
    P.withdrawReady.status = if P.status = .ready then .open else P.status := by
  rw [Port.withdrawReady]
  split <;> rfl

/-- Settles O19: the bytes by the canonical image, the ports one by one, and each line by what is due after the
write. -/
theorem writeMapWritesAndWithdrawsReady : Obligations.WriteMapWritesAndWithdrawsReady := by
  intro p tag offset bytes s hmap hbar hp h1 h56 hend hbegin hfinish hvalid
  have hd : s.device = .setup := hbar.setup_of_open hp
  have hwrite : mapAfterWrite s.map offset.toNat bytes = some (s.map.writeAll offset.toNat bytes) :=
    mapAfterWrite_of_valid hend (coversWholeItems_iff.mpr ⟨hbegin, hfinish⟩) (writtenItemsValid_iff.mpr hvalid)
  generalize hm : s.map.writeAll offset.toNat bytes = m at hwrite
  have hact : actWriteMap p offset bytes s =
      ⟨({ writeMapTo s m with ports := .ofFn fun h => ((writeMapTo s m).ports.get h).withdrawReady } : State).post
        ⟨.all, .mapChanged p⟩, ⟨.ok, word16Bytes m.digest⟩⟩ := by
    rw [actWriteMap, hwrite]
  refine ⟨_, exec_writeMap_of_act hp h1 h56 hact tag, fun a => ?image, fun h => ?status, fun h => ?notices, ?reply,
    rfl, rfl, rfl, rfl, ?lines⟩
  case image => exact mapAfterWrite_read hmap.1 hwrite a
  case status =>
    rw [State.answer_status, (State.post_ports_same _ _ h).status, PerPort.get_ofFn, Port.withdrawReady_status]
    rfl
  case notices =>
    rw [State.answer_notices, State.post_ports, if_pos (show Recipients.includes _ h .all = true from rfl),
      PerPort.get_ofFn, Port.withdrawReady_post_notices]
    rfl
  case reply =>
    rw [State.answer_ports, if_pos rfl]
    rfl
  case lines =>
    intro k d d' timer reached reached' L hd0 hd1 htimer hreached hreached' hL
    have hwritten : writtenLine s m k = L := by
      rw [writtenLine_eq s m k rfl, hL, reads_eq_timerReached hreached, reads_eq_timerReached hreached', htimer, hd0,
        hd1, timerAfter_self]
      rfl
    have hdue : faultDue (({ s with map := m } : State).ctx k).window L = true ↔
        (∃ n, L.mismatch = some n ∧ faultWindow m k * 8 ≤ n) ∧ L.engine.canFault = true := by
      rw [faultDue, Bool.and_eq_true, timerReached_iff]
      rfl
    rw [← hwritten] at hdue ⊢
    refine ⟨fun hfault => writeMapTo_faulted hd (hdue.mpr hfault), fun hno => ?_⟩
    change (writeMapTo s m).lines.get k = _
    rw [writeMapTo_lines, if_neg (mt hdue.mp hno)]

end Sys2Proof.Machine
end

section
/-! PROOFS. The join barrier: entry to RUN (R152, R153), ATTACH (R154), the votes (R155, R156), the return to SETUP
(R157, R158). -/

namespace Sys2Proof.Machine

/-! ### The ports counted -/

theorem State.countPorts_eq (s : State) (st : PortStatus) :
    s.countPorts st = (Finset.univ.filter fun h => (s.ports.get h).status = st).card := by
  rw [State.countPorts, PerPort.toList_eq, List.filter_map, List.length_map, Fin.univ_def, Finset.card,
    Finset.filter_val,
    Multiset.filter_coe, Multiset.coe_card]
  congr 1

theorem State.countPorts_congr {s t : State} {st st' : PortStatus}
    (h : ∀ p, (s.ports.get p).status = st ↔ (t.ports.get p).status = st') : s.countPorts st = t.countPorts st' := by
  rw [State.countPorts_eq, State.countPorts_eq, Finset.filter_congr fun p _ => h p]

/-- A port that comes to a state it was not in is one more in that state. -/
theorem State.countPorts_setPort {s : State} {p : HostNo} {P : Port} {st : PortStatus}
    (hbefore : (s.ports.get p).status ≠ st) (hafter : P.status = st) :
    (s.setPort p P).countPorts st = s.countPorts st + 1 := by
  rw [State.countPorts_eq, State.countPorts_eq, ← Finset.card_insert_of_notMem (a := p) (by simpa using hbefore)]
  congr 1
  ext q
  by_cases hq : q = p
  · simp [hq, hafter]
  · simp [hq, State.setPort_ports]

/-! ### Entry to RUN (R152, R153) -/

theorem enterRun_port (s : State) (h : HostNo) : (enterRun s).ports.get h =
    (s.ports.get h).attachReady.post (.runEntered ((attachPorts s).countPorts .attached)) := by
  change (State.post (attachPorts s) _).ports.get h = _
  rw [State.post_ports, if_pos (show Recipients.includes _ h .all = true from rfl), attachPorts, PerPort.get_ofFn]

theorem barrierComplete_iff_present {s : State} : barrierComplete s = true ↔
    (∃ h, (s.ports.get h).status ≠ .absent)
      ∧ (∀ h, (s.ports.get h).status ≠ .absent → (s.ports.get h).status = .ready) ∧ s.firstSettle = false := by
  rw [barrierComplete_iff]
  constructor
  · rintro ⟨⟨h, hready⟩, hall, hfirst⟩
    exact ⟨⟨h, by simp [hready]⟩, fun g hg => (hall g).resolve_right hg, hfirst⟩
  · rintro ⟨⟨h, hpresent⟩, hall, hfirst⟩
    exact ⟨⟨h, hall h hpresent⟩, fun g => (em ((s.ports.get g).status = .absent)).symm.imp_left (hall g), hfirst⟩

/-- The count RUN_ENTERED carries, where no port was ATTACHED before. -/
theorem countPorts_attachPorts {s : State} (h : ∀ p, (s.ports.get p).status ≠ .attached) :
    (attachPorts s).countPorts .attached = s.countPorts .ready :=
  State.countPorts_congr fun p => by
    rw [attachPorts, PerPort.get_ofFn, Port.attachReady]
    split
    next hready => simp [hready]
    next hready => simp [hready, h p]

/-- Settles O21: at a complete barrier every port is READY or ABSENT, so RUN_ENTERED reaches the ports just attached. -/
theorem barrierEntersRun : Obligations.BarrierEntersRun := by
  refine fun s => ⟨barrierComplete_iff_present, evaluateSetup_of_incomplete, fun hc => ?_⟩
  rw [evaluateSetup_of_complete hc]
  obtain ⟨-, hall, -⟩ := barrierComplete_iff.mp hc
  refine ⟨rfl, rfl, rfl, rfl, rfl, fun h => ?_⟩
  rw [enterRun_port, countPorts_attachPorts fun p => by rcases hall p with hp | hp <;> simp [hp]]
  rcases hall h with hready | habsent
  · rw [if_pos hready, Port.attachReady, if_pos hready]
    exact Port.post_of_receives rfl _
  · have hnot : (s.ports.get h).status ≠ .ready := by simp [habsent]
    rw [if_neg hnot, Port.attachReady, if_neg hnot]
    exact Port.post_of_not_receives (by simp [habsent, PortStatus.receives]) _

/-! ### ATTACH (R154) -/

/-- Settles O22: the port was PENDING, so it is one more ATTACHED port. -/
theorem attachJoinsTheRun : Obligations.AttachJoinsTheRun := by
  intro p tag digest s hp
  have htaken : RequestName.attach.takenIn (s.ports.get p).status = true := by rw [hp]; rfl
  refine ⟨fun hd => exec_command_of_unchanged (r := .attach digest) htaken rfl (if_pos hd), fun hd => ?_⟩
  have hbefore : (s.ports.get p).status ≠ .attached := by simp [hp]
  rw [← State.countPorts_setPort (P := { s.ports.get p with status := .attached }) hbefore rfl]
  exact exec_command_of_act (r := .attach digest) htaken rfl (if_neg (not_not.mpr hd)) tag

/-! ### The votes (R155, R156) -/

/-- The two choice bytes differ. -/
theorem cancel_ne_vote : ¬ (0x02 : Byte) = 0x01 := by decide

section actReopen
variable {p : HostNo} {choice : Byte} {s : State}

theorem actReopen_vote (hc : choice = 0x01) (hv : (s.ports.get p).vote = false) {t : State}
    (ht : t = evaluateRun ((s.setPort p { s.ports.get p with vote := true }).post
      ⟨.attachedBut p, .reopenVote false p⟩)) :
    actReopen p choice s = ⟨t, reopenReply p t⟩ := by
  subst ht
  exact (if_pos hc).trans (if_neg (by simp [hv]))

theorem actReopen_cancel (hc : choice = 0x02) (hv : (s.ports.get p).vote = true) {t : State}
    (ht : t = (s.setPort p { s.ports.get p with vote := false }).post ⟨.attachedBut p, .reopenVote true p⟩) :
    actReopen p choice s = ⟨t, reopenReply p t⟩ := by
  subst ht hc
  rw [actReopen, if_neg cancel_ne_vote, if_pos rfl, if_pos hv]

/-- VOTE where the vote is open, CANCEL where it is closed. -/
theorem actReopen_stands (h : choice = 0x01 ∧ (s.ports.get p).vote = true ∨ choice = 0x02 ∧ (s.ports.get p).vote =
    false) :
    actReopen p choice s = .unchanged s (reopenReply p s) := by
  rcases h with ⟨rfl, hv⟩ | ⟨rfl, hv⟩
  · rw [actReopen, if_pos rfl, if_pos hv]
  · rw [actReopen, if_neg cancel_ne_vote, if_pos rfl, if_neg (by simp [hv])]

theorem actReopen_of_noChoice (h1 : choice ≠ 0x01) (h2 : choice ≠ 0x02) :
    actReopen p choice s = .unchanged s (.plain .invalid) :=
  (if_neg h1).trans (if_neg h2)

theorem reopenReply_of_vote {b : Bool} (h : (s.ports.get p).vote = b) :
    reopenReply p s = ⟨.ok, [boolByte b, BitVec.ofNat 8 s.countNonVoters]⟩ := by rw [reopenReply, h]

end actReopen

/-- Settles O23: one branch of the request for each choice and each state of the vote. -/
theorem reopenVotes : Obligations.ReopenVotes := by
  intro p tag choice s hp
  have hact : ∀ {t : State} {reply : Reply}, actReopen p choice s = ⟨t, reply⟩ →
      exec (.reopen p tag choice) s = .next (t.answer p tag reply) := fun ha =>
    exec_command_of_act (r := .reopen choice) (by rw [hp]; rfl) rfl ha tag
  refine ⟨fun hc hv => ⟨_, _, rfl, rfl, hact (actReopen_vote hc hv rfl)⟩, fun hc hv => ⟨_, rfl, ?cancel⟩,
    fun hc hv => ?voted, fun hc hv => ?notVoted, fun h1 h2 => hact (actReopen_of_noChoice h1 h2)⟩
  case cancel =>
    have hclosed := (State.post_ports_same (s.setPort p { s.ports.get p with vote := false })
      ⟨.attachedBut p, .reopenVote true p⟩ p).vote
    rw [State.setPort_ports_self] at hclosed
    exact (hact (actReopen_cancel hc hv rfl)).trans (by rw [reopenReply_of_vote hclosed]; rfl)
  case voted =>
    exact (hact (actReopen_stands (.inl ⟨hc, hv⟩))).trans (by rw [reopenReply_of_vote hv]; rfl)
  case notVoted =>
    exact (hact (actReopen_stands (.inr ⟨hc, hv⟩))).trans (by rw [reopenReply_of_vote hv]; rfl)

end Sys2Proof.Machine
end

section
/-! PROOFS. The notices of a segment that is broken off and of claims that are all removed, and the return of the device
to SETUP (R157, R158). -/

namespace Sys2Proof.Machine

/-! ### The running segment of a line -/

theorem LineState.front_of {L : LineState} {c : Claim} {e : Entry} {rest : List Entry} (he : L.engine = .running)
    (hx : L.executing = some c) (hq : c.queue = e :: rest) : L.front = some ⟨c, e, rest⟩ := by
  simp only [LineState.front, he, hx, hq]

theorem LineState.front_of_not_running {L : LineState} (he : L.engine ≠ .running) : L.front = none := by
  unfold LineState.front
  split
  next h _ => exact absurd h he
  next => rfl

theorem LineState.front_of_no_executing {L : LineState} (hx : L.executing = none) : L.front = none := by
  unfold LineState.front
  split
  next h => simp [hx] at h
  next => rfl

/-! ### The notices of a segment that is broken off (R16, R24, R61) -/

theorem amendLostNotice_eq (k : LineNo) (c : Claim) (L : LineState) :
    amendLostNotice k c.host L.staged = lostPosts k c L := by
  cases h : L.staged <;> simp [amendLostNotice, lostPosts, h]

/-- The outcomes that break a segment off. -/
def SegOutcome.BreaksOff (o : SegOutcome) : Prop := o = .stopped ∨ o = .fault ∨ o = .supply

theorem brokenOffPosts_of_no_front {L : LineState} (h : L.front = none) (k : LineNo) (o : SegOutcome) :
    brokenOffPosts k L o = [] := by
  rw [brokenOffPosts, h]

theorem endPosts_of_front {L : LineState} {f : Front} {o : SegOutcome} (h : L.front = some f) (ho : o.BreaksOff)
    (k : LineNo) : endPosts k L f.claim f.entry o .aborted 0 = brokenOffPosts k L o := by
  simp only [endPosts, brokenOffPosts, h, amendLostNotice_eq]
  rcases ho with rfl | rfl | rfl <;> cases hb : f.entry.seg.body <;> simp [endNotice, hb]

/-! ### The claims all removed (R87, R89, R100) -/

/-- CLAIM_ENDED for every claim of a list but those ENDING with cause DEPARTED. -/
theorem claimEndedNotices_eq (k : LineNo) (reason : EndReason) : ∀ cs : List Claim,
    (cs.map fun c => claimEndedNotice k c.host (if c.state = .ending .departed then none else some reason)).flatten
      = cs.filterMap fun c =>
        if c.state = .ending .departed then none else some ⟨.host c.host, .claimEnded k reason⟩
  | [] => rfl
  | c :: cs => by
    by_cases h : c.state = .ending .departed <;>
      simpa [h, claimEndedNotice] using claimEndedNotices_eq k reason cs

/-! ### A line at the entry to SETUP (R19, R158) -/

theorem setupLine_seg (ctx : LineCtx) (L : LineState) : (setupLine ctx L).seg =
    if L.executing.map Claim.state = some (.ending .departed) then [] else brokenOffPosts ctx.line L .stopped := by
  unfold setupLine
  rcases hx : L.executing with _ | c
  · simp [brokenOffPosts_of_no_front (LineState.front_of_no_executing hx)]
  · by_cases he : L.engine = .running
    · rcases hq : c.queue with _ | ⟨e, rest⟩
      · have hf : L.front = none := by simp [LineState.front, he, hx, hq]
        simp [he, hq, brokenOffPosts_of_no_front hf]
      · have hposts := endPosts_of_front (LineState.front_of he hx hq) (.inl rfl) ctx.line
        by_cases hd : c.state = .ending .departed <;> simp [he, hq, hd, ← hposts]
    · cases h : L.engine <;> simp [h, brokenOffPosts_of_no_front (LineState.front_of_not_running he)] at he ⊢

theorem setupLine_claim (ctx : LineCtx) (L : LineState) : (setupLine ctx L).claim = L.claims.filterMap fun c =>
    if c.state = .ending .departed then none else some ⟨.host c.host, .claimEnded ctx.line .reopen⟩ :=
  claimEndedNotices_eq ctx.line .reopen L.claims

theorem PerLine.toList_ofFn {α : Type} (f : LineNo → α) : (PerLine.ofFn f).toList = (List.finRange 8).map f := rfl

/-- The lines at the entry to SETUP, nothing posted yet. -/
def setupLines (s : State) : State :=
  { reopenPorts s with
    lines := .ofFn fun k => remonitor (s.ctx k) (s.lines.get k) ((reopenPorts s).ctx k)
      (setupLine ((reopenPorts s).ctx k) (s.lines.get k)).line }

theorem enterSetup_eq (s : State) : enterSetup s =
    (((setupLines s).postMerged (PerLine.ofFn fun k => (setupLine ((reopenPorts s).ctx k)
      (s.lines.get k)).seg).toList).postMerged
      (PerLine.ofFn fun k => (setupLine ((reopenPorts s).ctx k) (s.lines.get k)).claim).toList).post
        ⟨.all, .setupEntered⟩ := rfl

/-- What is posted at the entry to SETUP: all segment notices, then all claim notices, then SETUP_ENTERED (log 12). -/
theorem enterSetup_posts (s : State) : ∃ segs ends : List Post,
      segs.Perm ((List.finRange 8).map fun k => (setupLine ((reopenPorts s).ctx k) (s.lines.get k)).seg).flatten
      ∧ ends.Perm ((List.finRange 8).map fun k => (setupLine ((reopenPorts s).ctx k) (s.lines.get k)).claim).flatten
      ∧ (enterSetup s).ports = ((((reopenPorts s).postAll segs).postAll ends).post ⟨.all, .setupEntered⟩).ports := by
  rw [enterSetup_eq]
  obtain ⟨segs, hsegs, hports⟩ := State.postMerged_ports_perm (setupLines s)
    (PerLine.ofFn fun k => (setupLine ((reopenPorts s).ctx k) (s.lines.get k)).seg).toList
  generalize hafter : (setupLines s).postMerged _ = s3 at hports ⊢
  have hd3 : s3.device = (reopenPorts s).device := by rw [← hafter, State.postMerged_device]; rfl
  have hm3 : s3.map = (reopenPorts s).map := by rw [← hafter, State.postMerged_map]; rfl
  obtain ⟨ends, hends, hports'⟩ := State.postMerged_ports_perm s3
    (PerLine.ofFn fun k => (setupLine ((reopenPorts s).ctx k) (s.lines.get k)).claim).toList
  have hstart : s3.ports = ((reopenPorts s).postAll segs).ports :=
    hports.trans (State.postAll_ports_congr segs rfl rfl rfl)
  refine ⟨segs, ends, ?_, ?_, State.post_ports_congr
    (hports'.trans (State.postAll_ports_congr ends hstart ?_ ?_)) ?_ ?_ _⟩
  · rwa [PerLine.toList_ofFn] at hsegs
  · rwa [PerLine.toList_ofFn] at hends
  all_goals simp [hd3, hm3]

@[simp] theorem evaluateRun_firstSettle (s : State) : (evaluateRun s).firstSettle = s.firstSettle :=
  evaluateRun_cases (motive := fun t => t.firstSettle = s.firstSettle) (fun _ => rfl) fun _ => enterSetup_firstSettle s

/-- What of the entry to SETUP stays on a line (R19). -/
theorem enterSetup_line (s : State) (k : LineNo) : ∃ (L : LineState), (enterSetup s).lines.get k = L
    ∧ L.claims = [] ∧ L.faultCount = 0 ∧ L.arrivals = 0 ∧ L.staged = none ∧ L.lastEnded = none ∧ L.gen.running = false
    ∧ L.gen.position = 0 ∧ L.gen.atBoundary = false :=
  ⟨_, enterSetup_lines s k, rfl, rfl, rfl, rfl, rfl, rfl, rfl, rfl⟩

/-- Settles O24: each field by what the entry to SETUP does to the ports and to one line. -/
theorem barrierReturnsToSetup : Obligations.BarrierReturnsToSetup := by
  refine fun s => ⟨returnComplete_iff, evaluateRun_of_incomplete, fun hc => ?_⟩
  rw [evaluateRun_of_complete hc]
  refine ⟨enterSetup_device s, enterSetup_map s, enterSetup_supply s, enterSetup_settle s, enterSetup_firstSettle s,
    fun h => ⟨enterSetup_vote s h, enterSetup_status s h, (enterSetup_ports_same s h).reply,
      (enterSetup_ports_same s h).preparing, (enterSetup_ports_same s h).replyReady⟩,
    fun h => State.inUse_of_empty (enterSetup_claims s), ?posts, fun k => ?line⟩
  case posts =>
    obtain ⟨segs, ends, hsegs, hends, hports⟩ := enterSetup_posts s
    simp only [setupLine_seg] at hsegs
    simp only [setupLine_claim] at hends
    refine ⟨segs, ends, hsegs, hends, fun s1 hs hp => hports.trans ?_⟩
    have hd : s1.device = .setup := by rw [hs]
    have hm : s1.map = s.map := by rw [hs]
    have hstart : (reopenPorts s).ports = s1.ports := PerPort.ext_get fun h => by
      rw [hp, reopenPorts, PerPort.get_ofFn]; rfl
    refine State.post_ports_congr (State.postAll_ports_congr ends (State.postAll_ports_congr segs hstart ?_ ?_) ?_ ?_)
      ?_ ?_ _ <;> simp [reopenPorts, hd, hm]
  case line =>
    obtain ⟨L, hL, hclaims, hfaults, harrivals, hstaged, hlast, hrunning, hposition, hboundary⟩ := enterSetup_line s k
    rw [← enterSetup_engine s k, hL]
    exact ⟨hclaims, hfaults, harrivals, hstaged, hlast, hrunning, hposition, hboundary, rfl⟩

end Sys2Proof.Machine
end

section
/-! PROOFS. A host that leaves: what stands of its claims (R99, R100), DETACH and PRESENT falling (R98 to R102), PRESENT
rising (R150). -/

namespace Sys2Proof.Machine

/-! ### The claims after a stop are claims of the resolved list -/

theorem takenLine_claims (ctx : LineCtx) (L : LineState) (c : Claim) (cs : List Claim) :
    (takenLine ctx L c cs).claims = { takenClaim c with queue := (takenRun ctx c).queue } :: cs.map behindHead := by
  unfold takenLine
  dsimp only
  split
  · rw [startFront_claims]
  · rfl

theorem takeLine_within (ctx : LineCtx) (L : LineState) : ∀ cs : List Claim,
    ClaimsWithin (takeLine ctx L cs).line.claims cs
  | [] => .nil
  | c :: cs => by
    rw [takeLine]
    split
    · dsimp only [LineOut.afterSeg, LineOut.afterClaim]
      split
      · exact .cons_right (takeLine_within ctx L cs)
      · exact .cons_right (settle_within cs)
    · rw [takenLine_claims]
      exact .cons ⟨rfl, rfl, (takenRun_spec ctx c).1⟩ (ClaimsWithin.map fun d _ => behindHead_within d)

theorem stopClaim_within_resolved (ctx : LineCtx) (L : LineState) (c : Claim) :
    ClaimsWithin (stopClaim ctx L c).line.claims (resolveStop ctx.line c L.claims).1 := by
  have hnext : ClaimsWithin (guardOrTake ctx L (resolveStop ctx.line c L.claims).1).line.claims
      (resolveStop ctx.line c L.claims).1 := by
    unfold guardOrTake
    dsimp only
    split
    · exact takeLine_within ctx _ _
    · exact settle_within _
  unfold stopClaim
  dsimp only
  split
  · exact hnext
  · exact hnext
  all_goals exact settle_within _

/-! ### The stop of an ENDING claim -/

/-- An ENDING claim that stops leaves the list (R79). -/
theorem stopClaim_removes {c : Claim} {cause : EndingCause} (hc : c.state = .ending cause) (ctx : LineCtx)
    (L : LineState) : ∀ d ∈ (stopClaim ctx L c).line.claims, d.host ≠ c.host := by
  intro d hd
  obtain ⟨x, hx, hhost, -⟩ := (stopClaim_within_resolved ctx L c).origin d hd
  rw [resolveStop, hc] at hx
  rw [hhost]
  simpa using (List.mem_filter.mp hx).2

/-! ### The points that stand at an instant, engine by engine -/

section checkNow
variable {L : LineState} {c : Claim} {e : Entry} {rest : List Entry}

theorem checkNow_of_no_executing (hx : L.executing = none) (ctx : LineCtx) : checkNow ctx L = .quiet L := by
  simp only [checkNow, hx]

section executing
variable (hx : L.executing = some c)
include hx

theorem checkNow_of_idle (he : L.engine = .idle ∨ L.engine = .retired) (ctx : LineCtx) : checkNow ctx L = .quiet L := by
  rcases he with he | he <;> simp only [checkNow, hx, he]

theorem checkNow_of_starved (he : L.engine = .starved) (ctx : LineCtx) :
    checkNow ctx L = if c.state = .holding then .quiet L else stopClaim ctx L c := by
  simp only [checkNow, hx, he]

/-- In GUARD, FAULTED and HALTED the yield and stop points of a kept claim are immediate (R9, R15). -/
theorem checkNow_of_stopped (he : L.engine = .guard ∨ L.engine = .faulted ∨ L.engine = .halted)
    (hs : c.state.CanStop) (ctx : LineCtx) : checkNow ctx L = stopClaim ctx L c := by
  rcases he with he | he | he <;> rcases hs with hs | hs | ⟨cause, hs⟩ <;> simp only [checkNow, hx, he, hs]

theorem checkNow_of_kept (he : L.engine = .guard ∨ L.engine = .faulted ∨ L.engine = .halted)
    (hs : c.state = .holding ∨ c.state = .leaving false) (ctx : LineCtx) : checkNow ctx L = .quiet L := by
  rcases he with he | he | he <;> rcases hs with hs | hs <;> simp only [checkNow, hx, he, hs]

section running
variable (he : L.engine = .running) (hq : c.queue = e :: rest)
include he hq

theorem checkNow_of_hold {level : Level} {duration : Word16} (hb : e.seg.body = .hold level duration) (ctx : LineCtx) :
    checkNow ctx L =
      if duration = 0 ∧ c.state.isEnding = false ∧ (rest ≠ [] ∨ c.state = .leaving false) then
        naturalEnd ctx L c e rest .aborted 0
      else if stopsAtCyclePoint (headCut L.claims) c (duration == 0) rest then
        if holdIsOver L e duration then naturalEnd ctx L c e rest .aborted 0 else cutAndStop ctx L c e rest
      else .quiet L := by
  simp only [checkNow, hx, he, hq, hb]

theorem checkNow_of_sense {discharge limit : Word16} (hb : e.seg.body = .sense discharge limit) (ctx : LineCtx) :
    checkNow ctx L = if c.state.isEnding then cutAndStop ctx L c e rest else .quiet L := by
  simp only [checkNow, hx, he, hq, hb]

/-- No point of a PULSE or CARRIER stands between its events. -/
theorem checkNow_of_cyclic (hb : (∀ level duration, e.seg.body ≠ .hold level duration)
    ∧ ∀ discharge limit, e.seg.body ≠ .sense discharge limit) (ctx : LineCtx) : checkNow ctx L = .quiet L := by
  cases h : e.seg.body with
  | hold level duration => exact absurd h (hb.1 level duration)
  | sense discharge limit => exact absurd h (hb.2 discharge limit)
  | pulse => simp only [checkNow, hx, he, hq, h]
  | carrier => simp only [checkNow, hx, he, hq, h]

end running
end executing
end checkNow

/-- What an instant does to a line whose executing claim is ENDING: nothing, or the claim stops and is removed. -/
theorem checkNow_of_ending {L : LineState} {c : Claim} {cause : EndingCause} (hx : L.executing = some c)
    (hc : c.state = .ending cause) (ctx : LineCtx) :
    checkNow ctx L = .quiet L ∨ ∀ d ∈ (checkNow ctx L).line.claims, d.host ≠ c.host := by
  have hremoved : ∀ M : LineState, ∀ d ∈ (stopClaim ctx M c).line.claims, d.host ≠ c.host := stopClaim_removes hc ctx
  have hstopped : L.engine = .guard ∨ L.engine = .faulted ∨ L.engine = .halted →
      ∀ d ∈ (checkNow ctx L).line.claims, d.host ≠ c.host := fun he => by
    rw [checkNow_of_stopped hx he (.inr (.inr ⟨cause, hc⟩))]; exact hremoved L
  cases he : L.engine with
  | idle => exact .inl (checkNow_of_idle hx (.inl he) ctx)
  | retired => exact .inl (checkNow_of_idle hx (.inr he) ctx)
  | starved => exact .inr (by rw [checkNow_of_starved hx he, if_neg (by simp [hc])]; exact hremoved L)
  | guard => exact .inr (hstopped (.inl he))
  | faulted => exact .inr (hstopped (.inr (.inl he)))
  | halted => exact .inr (hstopped (.inr (.inr he)))
  | running =>
    rcases hq : c.queue with _ | ⟨e, rest⟩
    · exact .inl (by simp only [checkNow, hx, he, hq])
    cases hb : e.seg.body with
    | hold level duration =>
      have hpoint : stopsAtCyclePoint (headCut L.claims) c (duration == 0) rest = true := by
        simp [stopsAtCyclePoint, hc]
      have hnext : goesOnAtEnd (headCut L.claims) c rest = none := by simp [goesOnAtEnd, hc]
      right
      rw [checkNow_of_hold hx he hq hb, if_neg (by simp [hc, ClaimState.isEnding]), if_pos hpoint]
      split
      · rw [naturalEnd, hnext]; exact hremoved _
      · exact hremoved _
    | sense discharge limit =>
      right
      rw [checkNow_of_sense hx he hq hb, if_pos (by simp [hc, ClaimState.isEnding])]
      exact hremoved _
    | pulse => exact .inl (checkNow_of_cyclic hx he hq (by simp [hb]) ctx)
    | carrier => exact .inl (checkNow_of_cyclic hx he hq (by simp [hb]) ctx)

/-! ### The claims of a host that has left (R99, R100) -/

/-- A claim as it may outlive its host: ENDING, with its running segment at most. -/
def Claim.Departed (c : Claim) : Prop := c.state.isEnding = true ∧ c.queue.length ≤ 1

/-- The claims of host `h` on a line are all ENDING. -/
def LineState.EndingOf (L : LineState) (h : HostNo) : Prop := ∀ c ∈ L.claims, c.host = h → c.state.isEnding = true

theorem endClaim_endingOf {L : LineState} {c : Claim} (hl : L.ListLaw) (hm : c ∈ L.claims)
    (hx : c.state.isExecuting = true) (ctx : LineCtx) (cause : EndingCause) :
    (endClaim ctx L c.host cause).line.EndingOf c.host := by
  have hlaw := hl.1.changeExecuting (f := Claim.toEnding cause) hm hx (fun _ => ⟨rfl, rfl, rfl⟩) rfl (.inl rfl)
  have hexec : ({ L with claims := mapHost c.host (Claim.toEnding cause) L.claims } : LineState).executing
      = some (c.toEnding cause) := LineState.executing_of_mem hlaw.2.2.2.2 (mem_mapHost hm rfl) rfl
  rcases checkNow_of_ending hexec rfl ctx with hquiet | hgone
  · intro d hd hh
    rw [endClaim, hquiet] at hd
    obtain ⟨x, -, rfl⟩ := List.mem_map.mp hd
    have hhost : x.host = c.host := by
      by_contra hne
      rw [if_neg hne] at hh
      exact hne hh
    rw [if_pos hhost]; rfl
  · exact fun d hd hh => absurd hh (hgone d hd)

theorem dropClaim_endingOf (L : LineState) (hl : L.ListLaw) {h : HostNo}
    (hx : ∀ c ∈ L.claims, c.host = h → c.state.isExecuting = false) (ctx : LineCtx) :
    (dropClaim ctx L h).line.EndingOf h := by
  intro d hd hh
  obtain ⟨x, hx', hhost, -⟩ := (dropClaim_law (ctx := ctx) hl hx).2.origin d hd
  have hne : x.host ≠ h := by simpa using (List.mem_filter.mp hx').2
  exact absurd (hhost.symm.trans hh) hne

/-- A host's queues cut to at most one entry, where its claims are ENDING. -/
theorem trimmed_departed {L : LineState} {h : HostNo} (he : L.EndingOf h) {n : Nat} (hn : n ≤ 1) :
    ∀ c ∈ mapHost h (fun d => { d with queue := d.queue.take n }) L.claims, c.host = h → c.Departed := by
  intro c hc hh
  obtain ⟨x, hx, rfl⟩ := List.mem_map.mp hc
  by_cases hhost : x.host = h
  · rw [if_pos hhost]
    exact ⟨he x hx hhost, by simp only [List.length_take]; omega⟩
  · rw [if_neg hhost] at hh
    exact absurd hh hhost

theorem departClaim_departed {L : LineState} (hl : L.ListLaw) (h : HostNo) (ctx : LineCtx) :
    ∀ c ∈ (departClaim ctx L h).line.claims, c.host = h → c.Departed := by
  have htrim : ∀ o : LineOut, o.line.EndingOf h →
      ∀ c ∈ mapHost h (fun d => { d with queue := d.queue.take (if o.line.engine = .running then 1 else 0) })
        o.line.claims, c.host = h → c.Departed := fun o ho => trimmed_departed ho (by split <;> omega)
  unfold departClaim
  split
  next hnone => exact fun c hc hh => absurd hh (LineState.claimOf_eq_none.mp hnone c hc)
  next c hc =>
    obtain ⟨hm, rfl⟩ := LineState.claimOf_mem hc
    have honly : ∀ d ∈ L.claims, d.host = c.host → d = c := fun d hd hh => eq_of_host hl.1.1 hm hd hh
    have hdrop : c.state.isExecuting = false → (dropClaim ctx L c.host).line.EndingOf c.host := fun hx =>
      dropClaim_endingOf L hl (fun d hd hh => by rw [honly d hd hh]; exact hx) ctx
    apply htrim
    split
    next hst => exact endClaim_endingOf hl hm (by rw [hst]; rfl) ctx .departed
    next hst => exact endClaim_endingOf hl hm (by rw [hst]; rfl) ctx .departed
    next hst => exact endClaim_endingOf hl hm (by rw [hst]; rfl) ctx .departed
    next hst => exact hdrop (by rw [hst]; rfl)
    next hst => exact hdrop (by rw [hst]; rfl)
    next hst => exact fun d hd hh => by rw [honly d hd hh, hst]; rfl

end Sys2Proof.Machine
end

section
/-! PROOFS. DETACH (R98, R101) and the presence input (R98 to R102, R150), on the port concerned. -/

namespace Sys2Proof.Machine

/-! ### A port that receives nothing (R120) -/

theorem State.post_port_of_not_receives {s : State} {h : HostNo} (hr : (s.ports.get h).status.receives = false)
    (n : Post) :
    (s.post n).ports.get h = s.ports.get h := by
  rw [State.post_ports]
  split
  · exact Port.post_of_not_receives hr _
  · rfl

theorem State.postAll_port_of_not_receives {h : HostNo} : ∀ (ns : List Post) {s : State},
    (s.ports.get h).status.receives = false → (s.postAll ns).ports.get h = s.ports.get h
  | [], _, _ => rfl
  | n :: ns, s, hr => by
    have hpost := State.post_port_of_not_receives hr n
    rw [State.postAll_cons, State.postAll_port_of_not_receives ns (by rw [hpost]; exact hr), hpost]

theorem State.postMerged_port_of_not_receives {s : State} {h : HostNo} (hr : (s.ports.get h).status.receives = false)
    (runs : List (List Post)) : (s.postMerged runs).ports.get h = s.ports.get h :=
  State.postAll_port_of_not_receives (mergeAll s.orderCount 0 runs) hr

/-- Nothing reaches the port of a host whose claims are resolved (R98). -/
theorem departHost_port_of_not_receives {s : State} {h : HostNo} (hr : (s.ports.get h).status.receives = false)
    (p : HostNo) : (departHost s p).ports.get h = s.ports.get h := by
  rw [departHost, State.updateLines, State.postMerged_port_of_not_receives (by exact hr)]

theorem enterRun_port_of_absent {s : State} {h : HostNo} (ha : (s.ports.get h).status = .absent) :
    (enterRun s).ports.get h = s.ports.get h := by
  have hnot : (s.ports.get h).attachReady = s.ports.get h := if_neg (by simp [ha])
  rw [enterRun_port, hnot]
  exact Port.post_of_not_receives (by rw [ha]; rfl) _

theorem enterSetup_port_of_absent {s : State} {h : HostNo} (ha : (s.ports.get h).status = .absent) :
    (enterSetup s).ports.get h = { s.ports.get h with vote := false } := by
  obtain ⟨segs, ends, -, -, hports⟩ := enterSetup_posts s
  have hreopen : (reopenPorts s).ports.get h = { s.ports.get h with vote := false } := by
    simp [reopenPorts, Port.reopen, ha]
  have hr : ((reopenPorts s).ports.get h).status.receives = false := by rw [hreopen, ha]; rfl
  have hsegs := State.postAll_port_of_not_receives segs hr
  have hends := State.postAll_port_of_not_receives ends (by rw [hsegs]; exact hr)
  have hlast := State.post_port_of_not_receives (by rw [hends, hsegs]; exact hr) ⟨.all, .setupEntered⟩
  rw [hports, hlast, hends, hsegs, hreopen]

/-! ### The claims of the host after its departure -/

theorem detachedState_departed {p : HostNo} {s : State} (hl : ListLaw s) (k : LineNo) :
    ∀ c ∈ ((detachedState p s).lines.get k).claims, c.host = p → c.Departed := by
  rw [detachedState_lines, remonitor_claims]
  exact departClaim_departed (hl k) p _

theorem fallenState_departed {p : HostNo} {s : State} (hl : ListLaw s) (k : LineNo) :
    ∀ c ∈ ((fallenState p s).lines.get k).claims, c.host = p → c.Departed := by
  rw [fallenState_lines, remonitor_claims]
  exact departClaim_departed (hl k) p _

/-- What holds of every claim holds of every claim after the barrier is evaluated. -/
theorem evaluateRun_claims {P : Claim → Prop} {s : State} {k : LineNo} (h : ∀ c ∈ (s.lines.get k).claims, P c) :
    ∀ c ∈ ((evaluateRun s).lines.get k).claims, P c :=
  evaluateRun_cases (motive := fun t => ∀ c ∈ (t.lines.get k).claims, P c) (fun _ => h) fun _ => by simp

/-! ### DETACH -/

theorem evaluateRun_ports_same (s : State) (h : HostNo) : ((evaluateRun s).ports.get h).reply = (s.ports.get h).reply :=
  evaluateRun_cases (motive := fun t => (t.ports.get h).reply = (s.ports.get h).reply) (fun _ => rfl)
    fun _ => (enterSetup_ports_same s h).reply

theorem detachedState_port (p : HostNo) (s : State) : ∃ P : Port, (detachedState p s).ports.get p = P
    ∧ P.reply = [] ∧ P.notices = [] ∧ P.nextSeq = 0 :=
  ⟨_, State.setPort_ports_self _ _ _, rfl, rfl, rfl⟩

theorem evaluateRun_vote {s : State} {h : HostNo} (hv : (s.ports.get h).vote = false) :
    ((evaluateRun s).ports.get h).vote = false :=
  evaluateRun_cases (motive := fun t => (t.ports.get h).vote = false) (fun _ => hv) fun _ => enterSetup_vote s h

/-- Whether the departure of a port completes the return (R157): the other ATTACHED ports all vote. -/
theorem returnComplete_detachedState {p : HostNo} {s : State} : returnComplete (detachedState p s) = true ↔
    ∀ h, h ≠ p → (s.ports.get h).status = .attached → (s.ports.get h).vote = true := by
  rw [returnComplete_iff]
  refine forall_congr' fun h => ?_
  rw [detachedState_status, detachedState_vote]
  by_cases hp : h = p <;> simp [hp]

/-- Settles O25: the port as the teardown leaves it, and the barrier evaluated over the other ports. -/
theorem detachTearsDown : Obligations.DetachTearsDown := by
  intro p tag s hp hl
  have hexec : exec (.detach p tag) s = .next ((evaluateRun (detachedState p s)).answer p tag (.plain .ok)) :=
    exec_command_of_act (r := .detach) (by rw [hp]; rfl) rfl (actDetach_eq p s) tag
  obtain ⟨P, hP, hreply, hnotices, hseq⟩ := detachedState_port p s
  refine ⟨_, hexec, ?vote, ?reply, ?ready, ?preparing, ?claims, ?stays, ?returns⟩
  case vote =>
    rw [State.answer_vote]
    exact evaluateRun_vote (by simp [detachedState_vote])
  case reply =>
    rw [State.answer_ports, if_pos rfl]
    exact (evaluateRun_ports_same _ p).trans (by rw [hP, hreply])
  case ready => rw [State.answer_ports, if_pos rfl]; rfl
  case preparing => rw [State.answer_ports, if_pos rfl]; rfl
  case claims => exact fun k => evaluateRun_claims (detachedState_departed hl k)
  case stays =>
    rintro ⟨h, hne, hattached, hvote⟩
    have hrun : evaluateRun (detachedState p s) = detachedState p s := by
      refine evaluateRun_of_incomplete (Bool.eq_false_iff.mpr fun hc => ?_)
      have := returnComplete_detachedState.mp hc h hne hattached
      simp [hvote] at this
    rw [hrun, State.answer_status, State.answer_notices, State.answer_nextSeq, hP]
    refine ⟨detachedState_device p s, ?_, hnotices, hseq⟩
    rw [← hP, detachedState_status, if_pos rfl]
  case returns =>
    intro hall
    rw [evaluateRun_of_complete (returnComplete_detachedState.mpr hall), State.answer_status, enterSetup_status,
      detachedState_status, if_pos rfl, if_pos (.inr rfl), State.answer_device, enterSetup_device]
    exact ⟨rfl, rfl⟩

/-! ### The presence input -/

theorem fallenState_port (p : HostNo) (s : State) : (fallenState p s).ports.get p = { s.ports.get p with
    status := .absent, vote := false, transaction := none, rxBytes := [], rxBits := 0, reply := noneFrame
    replyReady := true, preparing := none, preparingClocks := 0, notices := [], nextSeq := 0 } := by
  have habsent := departHost_port_of_not_receives
    (s := s.setPort p { s.ports.get p with status := .absent }) (h := p) (by rw [State.setPort_ports_self]; rfl) p
  rw [State.setPort_ports_self] at habsent
  simp only [fallenState, State.setPort_ports_self, habsent]
  rfl

/-- What PRESENT falling leaves, whichever evaluation of the barrier follows. -/
theorem presentFall_cases {motive : State → Prop} {p : HostNo} {s : State} (hp : (s.ports.get p).status ≠ .absent)
    (hfallen : motive (fallenState p s)) (hrun : motive (enterRun (fallenState p s)))
    (hsetup : motive (enterSetup (fallenState p s))) : motive (presentFall p s) := by
  rw [presentFall_of_present hp]
  cases s.device with
  | setup => exact evaluateSetup_cases (fun _ => hfallen) fun _ => hrun
  | run =>
    by_cases ha : (s.ports.get p).status = .attached
    · simpa only [ha, if_true] using evaluateRun_cases (fun _ => hfallen) fun _ => hsetup
    · simpa only [ha, if_false] using hfallen

/-- Settles O26: an ABSENT port receives nothing, so it stays as the teardown leaves it through the barrier. -/
theorem presenceMovesThePort : Obligations.PresenceMovesThePort := by
  intro p s
  refine ⟨fun ha hd => ?run, fun ha hd => ?setup, fun hp => ?present, fun ha => ?absent, fun hp hl => ?falls⟩
  case run => exact congrArg Host.Outcome.next (by simp [presentRise, ha, hd])
  case setup =>
    have hincomplete : barrierComplete (s.setPort p { s.ports.get p with status := .open }) = false := by
      refine Bool.eq_false_iff.mpr fun hc => ?_
      have := (barrierComplete_iff.mp hc).2.1 p
      simp at this
    refine congrArg Host.Outcome.next ?_
    simp only [presentRise, ha, hd, if_true]
    exact evaluateSetup_of_incomplete hincomplete
  case present => exact congrArg Host.Outcome.next (by simp [presentRise, hp])
  case absent => exact congrArg Host.Outcome.next (presentFall_of_absent ha)
  case falls =>
    have habsent : ((fallenState p s).ports.get p).status = .absent := by simp [fallenState_status]
    refine ⟨_, rfl, ?_, ?_, presentFall_map p s, ?_⟩
    · refine presentFall_cases (motive := fun t => t.ports.get p = _) hp (fallenState_port p s) ?_ ?_
      · rw [enterRun_port_of_absent habsent, fallenState_port]
      · rw [enterSetup_port_of_absent habsent, fallenState_port]
    · have hfallen := fallenState_departed (p := p) hl
      exact presentFall_cases (motive := fun t => ∀ k, ∀ c ∈ (t.lines.get k).claims, c.host = p → c.Departed) hp hfallen
        hfallen fun k => by simp
    · exact presentFall_cases (motive := fun t => t.supply = s.supply) hp (fallenState_supply p s)
        (fallenState_supply p s) ((enterSetup_supply _).trans (fallenState_supply p s))

end Sys2Proof.Machine
end

section
/-! PROOFS. Insertion in a claim list (R69); device reset (Table 1-5); the end of the first settle (R140). -/

namespace Sys2Proof.Machine

/-! ### Insertion (R69) -/

/-- In a list in order of priority, insertion splits it at the first claim of lower priority. -/
theorem insertClaim_eq (c : Claim) : ∀ {cs : List Claim}, cs.Pairwise (fun a b => b.priority ≤ a.priority) →
    insertClaim c cs =
      (cs.filter fun d => decide (c.priority ≤ d.priority)) ++ c :: cs.filter fun d => decide (d.priority < c.priority)
  | [], _ => rfl
  | b :: bs, h => by
    obtain ⟨hhead, htail⟩ := List.pairwise_cons.mp h
    by_cases hlow : b.priority < c.priority
    · have hall : ∀ d ∈ b :: bs, d.priority < c.priority := by
        rintro d (_ | ⟨_, hd⟩)
        · exact hlow
        · exact Nat.lt_of_le_of_lt (hhead d hd) hlow
      have hnone : (b :: bs).filter (fun d => decide (c.priority ≤ d.priority)) = [] :=
        List.filter_eq_nil_iff.mpr fun d hd => by simpa using hall d hd
      have hrest : (b :: bs).filter (fun d => decide (d.priority < c.priority)) = b :: bs :=
        List.filter_eq_self.mpr fun d hd => by simpa using hall d hd
      rw [hnone, hrest, insertClaim, if_pos hlow]
      rfl
    · rw [insertClaim, if_neg hlow, insertClaim_eq c htail, List.filter_cons_of_pos (by simpa using hlow),
        List.filter_cons_of_neg (by simpa using hlow)]
      rfl

/-- Settles O31: by induction on the list, whose head decides where the new claim goes. -/
theorem insertionKeepsPriorityOrder : Obligations.InsertionKeepsPriorityOrder :=
  fun c _ h => ⟨insertClaim_eq c h, insertClaim_priorities h⟩

/-! ### Device reset (Table 1-5) -/

theorem reset_hosts : ∀ h, quota [] h = 0 ∧ ∀ k,
    permitted [] h k = false ∧ mayCut [] h k = false ∧ cellPriority [] h k = 0 ∧ leaseLimit [] h k = 1000 := by
  decide +kernel

theorem reset_settings : ∀ k,
    safeLevel [] k = .float ∧ guardUnits [] k = 0 ∧ faultWindow [] k = 16 ∧ checkEnable [] k = true := by
  decide +kernel

theorem reset_carriers : carrierSetting [] .ca = ⟨211, 70⟩ ∧ carrierSetting [] .cb = ⟨140, 47⟩ := by decide +kernel

section deviceReset
variable (s : State)

theorem deviceReset_line (k : LineNo) : (deviceReset s).lines.get k = .resetWith (s.lines.get k).pad := by
  simp [deviceReset]

theorem deviceReset_port (h : HostNo) : (deviceReset s).ports.get h =
    .resetWith (decide ((s.ports.get h).status ≠ .absent)) (s.ports.get h).selnLow := by
  simp [deviceReset]

theorem Port.resetWith_status (present low : Bool) :
    (Port.resetWith present low).status = if present then .open else .absent := rfl

end deviceReset

/-- Settles O27: the map reads its defaults, and each line and port is the reset one with its pins. -/
theorem deviceResetRestoresEveryBlock : Obligations.DeviceResetRestoresEveryBlock := by
  refine fun s => ⟨deviceReset s, rfl, rfl, rfl, rfl, rfl, fun h => (reset_hosts h).1, fun h k => (reset_hosts h).2 k,
    reset_settings, reset_carriers.1, reset_carriers.2, fun k => ?line, fun h => ?port,
    fun h => State.inUse_of_empty fun k => by rw [deviceReset_line]; rfl⟩
  case line =>
    rw [deviceReset_line]
    exact ⟨rfl, rfl, rfl, rfl, rfl, rfl, rfl, rfl, rfl, rfl, rfl, rfl, rfl, rfl, rfl, rfl, rfl, rfl⟩
  case port =>
    rw [deviceReset_port]
    refine ⟨?_, rfl, rfl, rfl, rfl, rfl, rfl, rfl, rfl, rfl, rfl, rfl, rfl⟩
    by_cases hs : (s.ports.get h).status = .absent <;> simp [Port.resetWith_status, hs]

/-- The state after reset is the one a device reset takes it to. -/
theorem deviceReset_reset : deviceReset State.reset = State.reset := rfl

theorem noticeLaw_deviceReset (s : State) : NoticeLaw (deviceReset s) := fun h => by
  rw [deviceReset_port]
  exact Port.noticeLaw_nil rfl

theorem faultLaw_deviceReset (s : State) : FaultLaw (deviceReset s) := by
  refine ⟨fun k => ?_, fun _ k => ?_⟩ <;> rw [deviceReset_line] <;> simp [LineState.resetWith]

theorem listLaw_deviceReset (s : State) : ListLaw (deviceReset s) := fun k => by
  rw [deviceReset_line]
  exact resetWith_listLaw _

/-- Settles O60: a device reset establishes each law from whatever state. -/
theorem resetHasEveryLaw : Obligations.ResetHasEveryLaw := by
  rw [Obligations.ResetHasEveryLaw, ← deviceReset_reset]
  refine ⟨mapLaw_reset, noticeLaw_deviceReset _, BarrierLaw.deviceReset _, faultLaw_deviceReset _,
    listLaw_deviceReset _,
    storeLaw_reset, fun k => ?_, fun h => ?_⟩
  · rw [deviceReset_line]; rfl
  · rw [deviceReset_port]; exact ⟨rfl, rfl⟩

/-! ### The end of the first settle (R140) -/

/-- The state the end of the first settle leaves before the barrier is evaluated. -/
def settledState (s : State) : State :=
  State.remonitorAll { s with supply := .ok, settle := none, firstSettle := false } s

theorem settledState_line (s : State) (k : LineNo) : ∃ c1, (settledState s).lines.get k =
    remonitor (s.ctx k) (s.lines.get k) c1 (s.lines.get k) :=
  ⟨_, PerLine.get_ofFn _ k⟩

theorem firstSettleEnd_of_setup {s : State} (hs : settling true s = true) (hd : s.device = .setup) :
    firstSettleEnd s = evaluateSetup (settledState s) := by
  rw [firstSettleEnd, if_pos hs]
  split
  next => rfl
  next h => simp [hd] at h

@[simp] theorem evaluateSetup_settle (s : State) : (evaluateSetup s).settle = s.settle :=
  evaluateSetup_cases (motive := fun t => t.settle = s.settle) (fun _ => rfl) fun _ => rfl

@[simp] theorem evaluateSetup_firstSettle (s : State) : (evaluateSetup s).firstSettle = s.firstSettle :=
  evaluateSetup_cases (motive := fun t => t.firstSettle = s.firstSettle) (fun _ => rfl) fun _ => rfl

/-- The level an IDLE line drives once the first settle has ended: its safe level, checked where it is not FLOAT. -/
theorem LineState.drive_of_idle {ctx : LineCtx} {L : LineState} (he : L.engine = .idle) (hf : ctx.firstSettle = false) :
    L.drive ctx = .steady ctx.safe := by
  simp [LineState.drive, he, hf]

/-- Settles O53: the lines keep their engines, and the barrier is evaluated with the first settle over. -/
theorem firstSettleEndDrivesSafeLevels : Obligations.FirstSettleEndDrivesSafeLevels := by
  intro s hlow hfirst hsettle hd
  have hsettling : settling true s = true := by
    simp [settling, hlow, hfirst, Option.isSome_iff_ne_none.mpr hsettle]
  have hbarrier : barrierComplete (settledState s) = barrierComplete { s with firstSettle := false } := rfl
  refine ⟨firstSettleEnd s, rfl, ?_⟩
  rw [firstSettleEnd_of_setup hsettling hd]
  refine ⟨evaluateSetup_supply _, evaluateSetup_settle _, evaluateSetup_firstSettle _, evaluateSetup_map _,
    fun k he => ?_,
    fun hc => ?_, fun hc => ?_⟩
  · obtain ⟨c1, hline⟩ := settledState_line s k
    have hidle : ((evaluateSetup (settledState s)).lines.get k).engine = .idle := by
      rw [evaluateSetup_lines, hline, remonitor_engine, he]
    have hsafe : ((evaluateSetup (settledState s)).ctx k).safe = safeLevel s.map k :=
      congrArg (safeLevel · k) (evaluateSetup_map (settledState s))
    refine ⟨hidle, (LineState.drive_of_idle hidle (evaluateSetup_firstSettle _)).trans ?_⟩
    rw [hsafe]
    cases safeLevel s.map k <;> rfl
  · rw [evaluateSetup_of_incomplete (hbarrier.trans hc)]
    exact ⟨hd, rfl⟩
  · rw [evaluateSetup_of_complete (hbarrier.trans hc)]
    rfl

end Sys2Proof.Machine
end

section
/-! PROOFS. An accepted CLAIM: on a line with an empty list (R14, R72), above a HOLDING head, and behind it
(R69, R73). -/

namespace Sys2Proof.Machine

/-! ### An accepted CLAIM -/

/-- The claim a CLAIM puts on a line, in the state given. -/
def enteredClaim (s : State) (p : HostNo) (f : ClaimFields) (lease : Word16) (st : ClaimState) : Claim :=
  { newClaim s p f lease with state := st }

section actClaim
variable {p : HostNo} {line cutMode option restLevel : Byte} {lease : Word16} {s : State} {f : ClaimFields}
  (hf : claimFields line cutMode option restLevel = some f) (hr : claimRefusal s p f lease = none)
include hf hr

theorem exec_claim_of_accepted (hs : (s.ports.get p).status = .attached) (tag : Byte) {o : LineOut} {st : Status}
    {place : Byte} (ho : enlist (s.ctx f.line) (s.lines.get f.line) (newClaim s p f lease) = o)
    (hst : admission (s.lines.get f.line) (cellPriority s.map p f.line) = st)
    (hplace : BitVec.ofNat 8 (placeOf p (insertClaim (newClaim s p f lease) (s.lines.get f.line).claims)) = place) :
    exec (.claim p tag line cutMode option restLevel lease) s = .next ((s.updateLine f.line o).answer p tag
      ⟨st, word16Bytes (s.lines.get f.line).arrivals ++ [place]⟩) := by
  refine exec_command_of_act (r := .claim line cutMode option restLevel lease) (by rw [hs]; rfl) rfl ?_ tag
  subst ho hst hplace
  simp only [Request.act, actClaim, hf, hr]
  rfl

end actClaim

/-- An accepted CLAIM is of a host without a claim on the line (Table 5-3). -/
theorem claims_ne_of_accepted {s : State} {p : HostNo} {f : ClaimFields} {lease : Word16}
    (hr : claimRefusal s p f lease = none) : ∀ d ∈ (s.lines.get f.line).claims, d.host ≠ p :=
  (claimRefusal_eq_none hr).2

/-! ### A claim entering a line -/

section enlist
variable {ctx : LineCtx} {L : LineState} {c : Claim}

theorem enlist_of_idle (hc : L.claims = []) (he : L.engine = .idle) : enlist ctx L c =
    .quiet { L with
      arrivals := L.arrivals + 1, engine := .starved, lastEnded := none,
        claims := [{ c with state := .holding }] } := by
  simp [enlist, hc, he]

/-- A claim inserted where nothing follows from the list as it is then settled. -/
theorem enlist_of_busy (h : L.claims ≠ [] ∨ L.engine ≠ .idle) {cs : List Claim}
    (hcs : settle (insertClaim { c with state := .waiting } L.claims) = cs)
    (hquiet : checkNow ctx { L with arrivals := L.arrivals + 1, claims := cs }
      = .quiet { L with arrivals := L.arrivals + 1, claims := cs }) :
    enlist ctx L c = .quiet { L with arrivals := L.arrivals + 1, claims := cs } := by
  have hbusy : (L.claims.isEmpty && L.engine == .idle) = false := by
    rcases h with h | h <;> simp [h]
  simp only [enlist, hbusy, Bool.false_eq_true, if_false, withClaims, hcs, hquiet]

end enlist

/-- The executing claim, with claims that do not execute in front of it. -/
theorem LineState.executing_of_append {L : LineState} {pre post : List Claim} {c : Claim}
    (hc : L.claims = pre ++ c :: post)
    (hpre : ∀ d ∈ pre, d.state.isExecuting = false) (hx : c.state.isExecuting = true) : L.executing = some c := by
  have hnone : pre.find? (fun d => d.state.isExecuting) = none := by simpa using hpre
  rw [LineState.executing, hc, List.find?_append, hnone]
  simp [hx]

theorem LineState.executing_of_head {L : LineState} {c : Claim} {cs : List Claim} (hc : L.claims = c :: cs)
    (hx : c.state.isExecuting = true) : L.executing = some c :=
  L.executing_of_append (pre := []) hc (by simp) hx

theorem LineState.executing_of_second {L : LineState} {b c : Claim} {cs : List Claim} (hc : L.claims = b :: c :: cs)
    (hb : b.state.isExecuting = false) (hx : c.state.isExecuting = true) : L.executing = some c :=
  L.executing_of_append (pre := [b]) hc (by simpa using hb) hx

/-- The place of a new claim: behind every claim of equal or higher priority. -/
theorem placeOf_insertClaim {p : HostNo} {x : Claim} (hx : x.host = p) : ∀ {cs : List Claim}, (∀ d ∈ cs, d.host ≠ p) →
    placeOf p (insertClaim x cs) = (cs.takeWhile fun d => decide (x.priority ≤ d.priority)).length
  | [], _ => by simp [placeOf, insertClaim, hx]
  | b :: bs, h => by
    by_cases hlow : b.priority < x.priority
    · rw [insertClaim, if_pos hlow, List.takeWhile_cons_of_neg (by simpa using hlow)]
      simp [placeOf, hx, List.findIdx_cons]
    · have hne : (b.host == p) = false := by simpa using h b (by simp)
      have ih := placeOf_insertClaim hx (cs := bs) fun d hd => h d (by simp [hd])
      rw [insertClaim, if_neg hlow, List.takeWhile_cons_of_pos (by simpa using hlow), List.length_cons, ← ih, placeOf,
        placeOf, List.findIdx_cons, hne]
      rfl

/-- The place an accepted CLAIM is answered with. -/
theorem placeOf_newClaim {s : State} {p : HostNo} {f : ClaimFields} {lease : Word16}
    (hr : claimRefusal s p f lease = none) :
    placeOf p (insertClaim (newClaim s p f lease) (s.lines.get f.line).claims) =
      ((s.lines.get f.line).claims.takeWhile fun d => decide (cellPriority s.map p f.line ≤ d.priority)).length := by
  have hhost : (newClaim s p f lease).host = p := rfl
  have hpriority : (newClaim s p f lease).priority = cellPriority s.map p f.line := rfl
  rw [placeOf_insertClaim hhost (claims_ne_of_accepted hr), hpriority]

/-- Settles O29: an empty list is entered at its head, HOLDING where the line is IDLE and TAKING otherwise. -/
theorem claimOnIdleLineIsGranted : Obligations.ClaimOnIdleLineIsGranted := by
  intro p tag line cutMode option restLevel lease s f hs hf hr hc
  have hplace : BitVec.ofNat 8 (placeOf p (insertClaim (newClaim s p f lease) (s.lines.get f.line).claims)) = 0x00 := by
    rw [placeOf_newClaim hr, hc]
    rfl
  refine ⟨fun he => exec_claim_of_accepted hf hr hs tag (enlist_of_idle hc he) ?_ hplace, fun he => ?_⟩
  · simp [admission, hc, he]
  · have hne : (s.lines.get f.line).engine ≠ .idle := by rcases he with he | he | he <;> simp [he]
    exact exec_claim_of_accepted hf hr hs tag (enlist_of_busy (.inr hne) (by rw [hc]; rfl)
      (checkNow_of_no_executing rfl _))
      (by simp [admission, hc, hne]) hplace

/-- A list of a HOLDING head and claims that wait behind it is settled. -/
theorem settle_of_holding {c : Claim} {cs : List Claim} (hc : c.state = .holding) (hw : ∀ d ∈ cs, d.state = .waiting) :
    settle (c :: cs) = c :: cs := by
  rw [settle, map_behindHead_of_waiting hw, asHead_of_headLike (by rw [hc]; rfl)]

/-- A HOLDING head stays where it is whatever an instant brings, but at the cycle point of a HOLD (R9, R15). -/
theorem checkNow_of_holding {L : LineState} {c : Claim} (hx : L.executing = some c) (hc : c.state = .holding)
    (he : L.engine = .starved ∨ L.engine = .guard ∨ L.engine = .faulted ∨ L.engine = .halted) (ctx : LineCtx) :
    checkNow ctx L = .quiet L := by
  rcases he with he | he
  · rw [checkNow_of_starved hx he, if_pos hc]
  · exact checkNow_of_kept hx he (.inl hc) ctx

/-- Nothing of a PULSE is decided between its events. -/
theorem checkNow_of_pulse {L : LineState} {c : Claim} {e : Entry} {rest : List Entry} {period active count : Word16}
    {pol : Polarity} (hx : L.executing = some c) (he : L.engine = .running) (hq : c.queue = e :: rest)
    (hb : e.seg.body = .pulse period active pol count) (ctx : LineCtx) : checkNow ctx L = .quiet L :=
  checkNow_of_cyclic hx he hq ⟨by simp [hb], by simp [hb]⟩ ctx

/-- Settles O30: the list after the insertion, settled, and nothing of the running segment decided. -/
theorem claimAboveTheHolderTakes : Obligations.ClaimAboveTheHolderTakes := by
  intro p tag line cutMode option restLevel lease s f c cs hs hf hr hwait
  refine ⟨fun e rest period active pol count hrun hb habove => ?above, fun hc hhold hbelow hline => ?below⟩
  case above =>
    obtain ⟨he, hclaims, hhold, hq, -⟩ := hrun
    have hyield : behindHead c = { c with state := .yielding, yieldRun :=
      (rest.takeWhile fun e => e.seg.join).length } := by
      simp [behindHead, hhold, countYieldRun, hq]
    have hsettle : settle (insertClaim (enteredClaim s p f lease .waiting) (s.lines.get f.line).claims) =
        enteredClaim s p f lease .taking ::
          { c with state := .yielding, yieldRun := (rest.takeWhile fun e => e.seg.join).length } :: cs := by
      rw [hclaims, insertClaim, if_pos (show c.priority < (enteredClaim s p f lease .waiting).priority from habove),
        settle, List.map_cons,
        map_behindHead_of_waiting hwait, hyield]
      rfl
    refine exec_claim_of_accepted hf hr hs tag (enlist_of_busy (.inr (by simp [he])) hsettle
      (checkNow_of_pulse (LineState.executing_of_second rfl rfl rfl) (by exact he) (by exact hq) hb _)) ?_ ?_
    · simp [admission, hclaims, habove]
    · rw [placeOf_newClaim hr, hclaims, List.takeWhile_cons_of_neg (by simpa using habove)]
      rfl
  case below =>
    have hinsert : insertClaim (newClaim s p f lease) (c :: cs) = c :: insertClaim (newClaim s p f lease) cs :=
      if_neg (Nat.not_lt.mpr hbelow)
    have hsettle : settle (insertClaim (newClaim s p f lease) (s.lines.get f.line).claims) =
        c :: insertClaim (newClaim s p f lease) cs := by
      rw [hc, hinsert]
      refine settle_of_holding hhold fun d hd => ?_
      rcases mem_insertClaim.mp hd with rfl | hd
      · rfl
      · exact hwait d hd
    have hx : ∀ (L : LineState), L.claims = c :: insertClaim (newClaim s p f lease) cs → L.executing = some c :=
      fun L hL => LineState.executing_of_head hL (by rw [hhold]; rfl)
    refine exec_claim_of_accepted hf hr hs tag (enlist_of_busy (.inl (by simp [hc])) hsettle ?_) ?_ ?_
    · rcases hline with he | he | he | he | ⟨e, rest, period, active, pol, count, hrun, hb⟩
      · exact checkNow_of_holding (hx _ rfl) hhold (by exact .inl he) _
      · exact checkNow_of_holding (hx _ rfl) hhold (by exact .inr (.inl he)) _
      · exact checkNow_of_holding (hx _ rfl) hhold (by exact .inr (.inr (.inl he))) _
      · exact checkNow_of_holding (hx _ rfl) hhold (by exact .inr (.inr (.inr he))) _
      · obtain ⟨he, -, -, hq, -⟩ := hrun
        exact checkNow_of_pulse (hx _ rfl) (by exact he) hq hb _
    · simp [admission, hc, Nat.not_lt.mpr hbelow]
    · rw [placeOf_newClaim hr, hc, List.takeWhile_cons_of_pos (by simpa using hbelow), List.length_cons, Nat.add_comm]

end Sys2Proof.Machine
end

section
/-! PROOFS. RELEASE by the state of the claim (R83 to R85) and the expiry of a lease (R92). -/

namespace Sys2Proof.Machine

/-! ### A host's claim within a list -/

section within
variable {pre post : List Claim} {c : Claim}

theorem mapHost_append {h : HostNo} (f : Claim → Claim) (hc : c.host = h) (hne : ∀ d ∈ pre ++ post, d.host ≠ h) :
    mapHost h f (pre ++ c :: post) = pre ++ f c :: post := by
  have hpre : mapHost h f pre = pre := mapHost_of_ne fun d hd => hne d (by simp [hd])
  have hpost : mapHost h f (c :: post) = f c :: post := mapHost_head hc fun d hd => hne d (by simp [hd])
  rw [mapHost, List.map_append]
  exact congrArg₂ (· ++ ·) hpre hpost

theorem LineState.claimOf_of_append {L : LineState} (hL : L.claims = pre ++ c :: post) {h : HostNo} (hc : c.host = h)
    (hne : ∀ d ∈ pre, d.host ≠ h) : L.claimOf h = some c := by
  have hnone : pre.find? (fun d => d.host == h) = none := by simpa using hne
  rw [LineState.claimOf, hL, List.find?_append, hnone]
  simp [hc]

/-- The claim of a host behind a head of another host. -/
theorem LineState.claimOf_behind {L : LineState} {cs : List Claim} (hL : L.claims = c :: cs) {h : HostNo}
    (hc : c.host ≠ h)
    (hd : ∃ d ∈ cs, d.host = h) : ∃ x ∈ cs, x.host = h ∧ L.claimOf h = some x := by
  obtain ⟨d, hd, hdh⟩ := hd
  obtain ⟨x, hx⟩ := Option.isSome_iff_exists.mp
    (LineState.claimOf_isSome_iff.mpr ⟨d, by rw [hL]; exact List.mem_cons_of_mem _ hd, hdh⟩)
  obtain ⟨hmem, hxh⟩ := LineState.claimOf_mem hx
  rw [hL, List.mem_cons] at hmem
  exact ⟨x, hmem.resolve_left fun h => hc (h ▸ hxh), hxh, hx⟩

end within

/-- A line on which a host has no claim left. -/
theorem standing_of_none {L : LineState} {h : HostNo} (hn : ∀ d ∈ L.claims, d.host ≠ h) : standing L h = 0x02 := by
  rw [standing, LineState.claimOf_eq_none.mpr hn]

theorem standing_of_leaving {L : LineState} {h : HostNo} {c : Claim} {displaced : Bool} (hc : L.claimOf h = some c)
    (hs : c.state = .leaving displaced) : standing L h = 0x01 := by
  simp only [standing, hc, hs]

theorem standing_of_ending {L : LineState} {h : HostNo} {c : Claim} (hc : L.claimOf h = some c)
    (hs : c.state.isEnding = true) : standing L h = 0x00 := by
  unfold standing
  rw [hc]
  cases hst : c.state <;> simp_all [ClaimState.isEnding]

/-! ### A stop with a guard (R11, R12) -/

theorem stopClaim_of_guard {ctx : LineCtx} {L : LineState} {c : Claim} {left : List Claim} {posts : List Post}
    (he : L.engine = .running ∨ L.engine = .starved) (hg : 0 < ctx.guard)
    (hr : resolveStop ctx.line c L.claims = (left, posts)) (hs : settle left = left) :
    stopClaim ctx L c = ⟨guardedWith ctx.guard L left, [], posts⟩ := by
  have hnext : guardOrTake ctx L left = .quiet (guardedWith ctx.guard L left) := by
    rw [guardOrTake, if_neg (Nat.pos_iff_ne_zero.mp hg), LineState.enterGuard, hs]
    rfl
  rcases he with he | he <;> simp [stopClaim, he, hr, hnext, LineOut.afterClaim, LineOut.quiet]

/-! ### A claim ended or removed while a PULSE runs -/

section pulse
variable {ctx : LineCtx} {L : LineState} {c : Claim} {e : Entry} {rest : List Entry} {period active count : Word16}
  {pol : Polarity}
  (he : L.engine = .running) (hq : c.queue = e :: rest) (hb : e.seg.body = .pulse period active pol count)
include he hq hb

/-- The executing claim changed to another executing state, its queue kept: the PULSE runs on. -/
theorem checkNow_of_changed {pre post : List Claim} {f : Claim → Claim} (hL : L.claims = pre ++ c :: post)
    (hpre : ∀ d ∈ pre, d.state.isExecuting = false) (hne : ∀ d ∈ pre ++ post, d.host ≠ c.host)
    (hf : (f c).state.isExecuting = true) (hqf : (f c).queue = c.queue) :
    checkNow ctx { L with claims := mapHost c.host f L.claims } = .quiet { L with claims := pre ++ f c :: post } := by
  rw [hL, mapHost_append f rfl hne]
  exact checkNow_of_pulse (LineState.executing_of_append rfl hpre hf) (by exact he) (hqf.trans hq) hb ctx

theorem endClaim_of_pulse {pre post : List Claim} (hL : L.claims = pre ++ c :: post)
    (hpre : ∀ d ∈ pre, d.state.isExecuting = false) (hne : ∀ d ∈ pre ++ post, d.host ≠ c.host) (cause : EndingCause) :
    endClaim ctx L c.host cause = .quiet { L with claims := pre ++ c.toEnding cause :: post } :=
  checkNow_of_changed he hq hb hL hpre hne rfl rfl

/-- A claim that waits behind the HOLDING head leaves. -/
theorem dropClaim_of_waiting {cs : List Claim} {h : HostNo} (hL : L.claims = c :: cs) (hc : c.state = .holding)
    (hw : ∀ d ∈ cs, d.state = .waiting) (hne : c.host ≠ h) :
    dropClaim ctx L h = .quiet { L with claims := c :: cs.filter fun d => d.host != h } := by
  have hsettle : settle (removeHost h L.claims) = c :: cs.filter fun d => d.host != h := by
    rw [hL, removeHost_cons_ne hne]
    exact settle_of_holding hc fun d hd => hw d (List.mem_filter.mp hd).1
  rw [dropClaim, withClaims, hsettle]
  exact checkNow_of_pulse (LineState.executing_of_head rfl (by rw [hc]; rfl)) (by exact he) hq hb ctx

/-- The TAKING head leaves: the claim behind it holds the line again (R73, R74). -/
theorem dropClaim_of_taker {taker : Claim} {cs : List Claim} (hL : L.claims = taker :: c :: cs)
    (hc : c.state = .yielding)
    (hw : ∀ d ∈ cs, d.state = .waiting) (hne : ∀ d ∈ c :: cs, d.host ≠ taker.host) :
    dropClaim ctx L taker.host = .quiet { L with claims := { c with state := .holding, yieldRun := 0 } :: cs } := by
  have hsettle : settle (removeHost taker.host L.claims) = { c with state := .holding, yieldRun := 0 } :: cs := by
    rw [hL, removeHost_cons_self hne, settle, map_behindHead_of_waiting hw, asHead, hc]
  rw [dropClaim, withClaims, hsettle]
  exact checkNow_of_pulse (LineState.executing_of_head rfl rfl) (by exact he) (by exact hq) hb ctx

end pulse

/-- The only claim of a STARVED line ended: it stops at once, and is removed for its cause (R9, R79). -/
theorem endClaim_of_starved {ctx : LineCtx} {L : LineState} {c : Claim} (he : L.engine = .starved) (hL : L.claims = [c])
    (hg : 0 < ctx.guard) (cause : EndingCause) : endClaim ctx L c.host cause =
      ⟨guardedWith ctx.guard L [], [], claimEndedNotice ctx.line c.host cause.reason⟩ := by
  have hchanged : mapHost c.host (Claim.toEnding cause) L.claims = [c.toEnding cause] := by
    rw [hL, mapHost_cons_self (by simp)]
  have hresolve : resolveStop ctx.line (c.toEnding cause) [c.toEnding cause] =
      ([], claimEndedNotice ctx.line c.host cause.reason) := by
    rw [resolveStop]
    exact congrArg (·, _) (removeHost_cons_self (c := c.toEnding cause) (by simp))
  rw [endClaim, hchanged, checkNow_of_starved (LineState.executing_of_head rfl rfl) (by exact he), if_neg nofun,
    stopClaim_of_guard (by exact .inr he) hg hresolve rfl]
  rfl

/-! ### RELEASE -/

theorem releaseOptionOfByte_of_ge {option : Byte} (h : 2 ≤ option.toNat) : releaseOptionOfByte option = none := by
  have h0 : option ≠ 0x00 := by rintro rfl; simp at h
  have h1 : option ≠ 0x01 := by rintro rfl; simp at h
  rw [releaseOptionOfByte, if_neg h0, if_neg h1]

/-- The option byte of either RELEASE. -/
theorem releaseOptionOfByte_of_lt {option : Byte} (h : option.toNat < 2) : ∃ o, releaseOptionOfByte option =
    some o := by
  have hbyte : option = 0x00 ∨ option = 0x01 := by bv_omega
  rcases hbyte with rfl | rfl
  · exact ⟨.now, rfl⟩
  · exact ⟨.drain, rfl⟩

section release
variable {p : HostNo} {line option : Byte} {s : State}

theorem actRelease_of_outside (h : 8 ≤ line.toNat ∨ 2 ≤ option.toNat) :
    actRelease p line option s = .unchanged s (.plain .invalid) := by
  rcases h with h | h
  · rw [actRelease, lineOfByte_of_ge h]
  · rw [actRelease, releaseOptionOfByte_of_ge h]
    cases lineOfByte line <;> rfl

variable {k : LineNo} (hk : k.val = line.toNat) {opt : ReleaseOption} (ho : releaseOptionOfByte option = some opt)
include hk ho

theorem actRelease_of_noClaim (hn : ∀ d ∈ (s.lines.get k).claims, d.host ≠ p) :
    actRelease p line option s = .unchanged s (.plain .noClaim) := by
  simp only [actRelease, lineOfByte_of_lt hk, ho, LineState.claimOf_eq_none.mpr hn]

/-- An accepted RELEASE: what it makes of the claim, and the standing that is then the reply. -/
theorem actRelease_of_claim {c : Claim} (hc : (s.lines.get k).claimOf p = some c) {o : LineOut} {st : Byte}
    (hr : releaseClaim (s.ctx k) (s.lines.get k) c opt = o) (hst : standing o.line p = st) :
    actRelease p line option s = ⟨s.updateLine k o, ⟨.ok, [st]⟩⟩ := by
  simp only [actRelease, lineOfByte_of_lt hk, ho, hc, hr, hst]

end release

/-- What a RELEASE does to the claim of its host on a running PULSE, and the standing it answers (Table 5-6). -/
theorem releaseClaim_of_pulse {ctx : LineCtx} {L : LineState} {pre post : List Claim} {c : Claim} {e : Entry}
    {rest : List Entry} {period active count : Word16} {pol : Polarity} {opt : ReleaseOption}
    (hL : L.claims = pre ++ c :: post) (hpre : ∀ d ∈ pre, d.state.isExecuting = false)
    (hne : ∀ d ∈ pre ++ post, d.host ≠ c.host) (he : L.engine = .running) (hq : c.queue = e :: rest)
    (hb : e.seg.body = .pulse period active pol count)
    (hs : ((c.state = .holding ∨ c.state = .yielding ∨ c.state = .leaving true ∨ c.state = .leaving false) ∧ opt = .now)
      ∨ (c.state = .yielding ∧ opt = .drain)) :
    releaseClaim ctx L c opt = .quiet { L with claims := pre ++ c.toEnding .released :: post } := by
  have hend : releaseClaim ctx L c opt = endClaim ctx L c.host .released := by
    rcases hs with ⟨hs | hs | hs | hs, rfl⟩ | ⟨hs, rfl⟩ <;> simp only [releaseClaim, hs]
  rw [hend, endClaim_of_pulse he hq hb hL hpre hne]

/-- Settles O32: the claim of the port is found in the list, and each state and option takes one branch of Table 5-6. -/
theorem releaseActsByClaimState : Obligations.ReleaseActsByClaimState := by
  refine ⟨fun p tag line option s hs hout => exec_command_of_unchanged (r := .release line option) (by rw [hs]; rfl) rfl
    (actRelease_of_outside hout), fun p tag line option s k c cs hs hk => ?_⟩
  have hact : ∀ {t : State} {reply : Reply}, actRelease p line option s = ⟨t, reply⟩ →
      exec (.release p tag line option) s = .next (t.answer p tag reply) := fun ha =>
    exec_command_of_act (r := .release line option) (by rw [hs]; rfl) rfl ha tag
  have hnow : option = 0x00 → releaseOptionOfByte option = some .now := by rintro rfl; rfl
  have hdrain : option = 0x01 → releaseOptionOfByte option = some .drain := by rintro rfl; rfl
  have heither : option = 0x00 ∨ option = 0x01 → ∃ opt, releaseOptionOfByte option = some opt := fun h =>
    h.elim (fun h => ⟨_, hnow h⟩) fun h => ⟨_, hdrain h⟩
  refine ⟨fun hlt hn => ?noClaim, ?executing, ?taker, ?holder, ?waiter, ?starved⟩
  case noClaim =>
    obtain ⟨opt, ho⟩ := releaseOptionOfByte_of_lt hlt
    exact hact (actRelease_of_noClaim hk ho hn)
  case executing =>
    intro pre post e rest period active pol count he hL hpre hne hc hq hb
    subst hc
    have hpreHosts : ∀ d ∈ pre, d.host ≠ c.host := fun d hd => hne d (by simp [hd])
    have hclaim : (s.lines.get k).claimOf c.host = some c := LineState.claimOf_of_append hL rfl hpreHosts
    have hended : standing { s.lines.get k with claims := pre ++ c.toEnding .released :: post } c.host = 0x00 :=
      standing_of_ending (LineState.claimOf_of_append (c := c.toEnding .released) rfl rfl hpreHosts) rfl
    refine ⟨?_, fun hst hopt => ?_, fun hst hopt => ?_⟩
    · rintro (⟨hst, hopt⟩ | ⟨hst, hopt⟩)
      · exact hact (actRelease_of_claim hk (hnow hopt) hclaim
          (releaseClaim_of_pulse hL hpre hne he hq hb (.inl ⟨.inr hst, rfl⟩)) hended)
      · exact hact (actRelease_of_claim hk (hdrain hopt) hclaim
          (releaseClaim_of_pulse hL hpre hne he hq hb (.inr ⟨hst, rfl⟩)) hended)
    · have hquiet : releaseClaim (s.ctx k) (s.lines.get k) c .drain = .quiet (s.lines.get k) := by
        rcases hst with hst | hst <;> simp only [releaseClaim, hst]
      exact hact (actRelease_of_claim hk (hdrain hopt) hclaim hquiet
        (hst.elim (standing_of_leaving hclaim) (standing_of_leaving hclaim)))
    · obtain ⟨opt, ho⟩ := heither hopt
      have hquiet : releaseClaim (s.ctx k) (s.lines.get k) c opt = .quiet (s.lines.get k) := by
        cases h : c.state <;> simp_all [ClaimState.isEnding, releaseClaim]
      exact hact (actRelease_of_claim hk ho hclaim hquiet (standing_of_ending hclaim hst))
  case taker =>
    rintro d e rest period active pol count ⟨he, hL, htaking, hq, hne, hcs⟩ hyield rfl hcsne hb hopt
    obtain ⟨opt, ho⟩ := heither hopt
    have hothers : ∀ x ∈ d :: cs, x.host ≠ c.host := by
      rintro x (_ | ⟨_, hx⟩)
      · exact hne.symm
      · exact hcsne x hx
    have hclaim : (s.lines.get k).claimOf c.host = some c := LineState.claimOf_of_append (pre := []) hL rfl (by simp)
    have hleft : ∀ x ∈ { d with state := .holding, yieldRun := 0 } :: cs, x.host ≠ c.host := by
      rintro x (_ | ⟨_, hx⟩)
      · exact hne.symm
      · exact hcsne x hx
    refine hact (actRelease_of_claim hk ho hclaim ?_ (standing_of_none hleft))
    simp only [releaseClaim, htaking]
    exact dropClaim_of_taker he hq hb hL hyield (fun x hx => (hcs x hx).2) hothers
  case holder =>
    rintro e rest period active pol count ⟨he, hL, hhold, hq, hne⟩ rfl hb
    have hclaim : (s.lines.get k).claimOf c.host = some c := LineState.claimOf_of_append (pre := []) hL rfl (by simp)
    refine ⟨fun hopt => hact (actRelease_of_claim hk (hnow hopt) hclaim
      (releaseClaim_of_pulse (pre := []) hL (by simp) hne he hq hb (.inl ⟨.inl hhold, rfl⟩))
      (standing_of_ending (LineState.claimOf_of_append (pre := []) (c := c.toEnding .released) rfl rfl
        (by simp)) rfl)), fun hopt => ?_⟩
    refine hact (actRelease_of_claim hk (hdrain hopt) hclaim (o := .quiet { s.lines.get k with
      claims := { c with state := .leaving false } :: cs }) ?_
      (standing_of_leaving
        (LineState.claimOf_of_append (pre := []) (c := { c with state := .leaving false }) rfl rfl (by simp)) rfl))
    simp only [releaseClaim, hhold]
    exact checkNow_of_changed (pre := []) (f := fun c => { c with state := .leaving false }) he hq hb hL (by simp) hne
      rfl rfl
  case waiter =>
    rintro e rest period active pol count ⟨he, hL, hhold, hq, -⟩ hcp hb hwait hbehind hopt
    obtain ⟨opt, ho⟩ := heither hopt
    obtain ⟨x, hxcs, hxp, hx⟩ := LineState.claimOf_behind hL hcp hbehind
    refine hact (actRelease_of_claim hk ho hx (o := .quiet { s.lines.get k with
      claims := c :: cs.filter fun d => d.host != p }) ?_ (standing_of_none ?_))
    · simp only [releaseClaim, hwait x hxcs, hxp]
      exact dropClaim_of_waiting he hq hb hL hhold hwait hcp
    · rintro y (_ | ⟨_, hy⟩)
      · exact hcp
      · simpa using (List.mem_filter.mp hy).2
  case starved =>
    rintro he hL hhold rfl - hg hopt
    have hclaim : (s.lines.get k).claimOf c.host = some c := LineState.claimOf_of_append (pre := []) hL rfl (by simp)
    refine hact (actRelease_of_claim hk (hnow hopt) hclaim ?_ (standing_of_none (by simp)))
    simp only [releaseClaim, hhold]
    exact endClaim_of_starved he hL hg .released

/-! ### The expiry of a lease -/

theorem exec_leaseExpiry_of_none {k : LineNo} {p : HostNo} {s : State}
    (h : leaseExpiryOut (s.ctx k) (s.lines.get k) p = none) : exec (.leaseExpiry k p) s = .next s := by
  change Host.Outcome.next (s.applyLine k _) = _
  rw [h]; rfl

theorem exec_leaseExpiry_of_claim {k : LineNo} {p : HostNo} {s : State} {c : Claim}
    (hc : (s.lines.get k).claimOf p = some c) (hend : c.state.isEnding = false) (hf : c.forestalled = false)
      {o : LineOut}
    (ho : expireClaim (s.ctx k) (s.lines.get k) p = o) : exec (.leaseExpiry k p) s = .next (s.updateLine k o) := by
  have hout : leaseExpiryOut (s.ctx k) (s.lines.get k) p = some o := by simp [leaseExpiryOut, hc, hend, hf, ho]
  change Host.Outcome.next (s.applyLine k _) = _
  rw [hout]; rfl

/-- Settles O35: an executing claim is ended as by a release, one that waits is removed with its notice. -/
theorem leaseExpiryWithdraws : Obligations.LeaseExpiryWithdraws := by
  refine fun k p s c cs => ⟨?holder, ?waiter, ?starved, fun hall => ?nothing⟩
  case holder =>
    rintro e rest period active pol count ⟨he, hL, hhold, hq, hne⟩ rfl hf hb
    have hclaim : (s.lines.get k).claimOf c.host = some c := LineState.claimOf_of_append (pre := []) hL rfl (by simp)
    refine exec_leaseExpiry_of_claim hclaim (by rw [hhold]; rfl) hf ?_
    simp only [expireClaim, hclaim, hhold]
    exact endClaim_of_pulse (pre := []) he hq hb hL (by simp) hne .lease
  case waiter =>
    rintro e rest period active pol count ⟨he, hL, hhold, hq, -⟩ hcp hb hwait hbehind hf
    obtain ⟨x, hxcs, hxp, hx⟩ := LineState.claimOf_behind hL hcp hbehind
    refine exec_leaseExpiry_of_claim hx (by rw [hwait x hxcs]; rfl) (hf x hxcs) ?_
    simp only [expireClaim, hx, hwait x hxcs, dropClaim_of_waiting he hq hb hL hhold hwait hcp]
    rfl
  case starved =>
    rintro he hL hhold rfl hf hg
    have hclaim : (s.lines.get k).claimOf c.host = some c := LineState.claimOf_of_append (pre := []) hL rfl (by simp)
    refine exec_leaseExpiry_of_claim hclaim (by rw [hhold]; rfl) hf ?_
    simp only [expireClaim, hclaim, hhold]
    exact endClaim_of_starved he hL hg .lease
  case nothing =>
    refine exec_leaseExpiry_of_none ?_
    cases hx : (s.lines.get k).claimOf p with
    | none => simp [leaseExpiryOut, hx]
    | some x =>
      obtain ⟨hmem, hxp⟩ := LineState.claimOf_mem hx
      rcases hall x hmem hxp with h | h <;> simp [leaseExpiryOut, hx, h]

end Sys2Proof.Machine
end

section
/-! PROOFS. A RENEW that is accepted (R95), and AMEND (R39, R40). -/

namespace Sys2Proof.Machine

/-! ### The lines a RENEW renews -/

/-- The lines named, in ascending order. -/
theorem linesSelected_eq {selector : Byte} {ks : List LineNo} (h : linesSelected selector = some ks) :
    ks = (List.finRange 8).filter fun k => decide (selector = 0xFF ∨ k.val = selector.toNat) := by
  unfold linesSelected at h
  split at h
  case isTrue hall =>
    obtain rfl := Option.some.inj h
    simp only [hall, true_or, decide_true, List.filter_true]
    rfl
  case isFalse hone =>
    obtain ⟨j, hj, rfl⟩ := Option.map_eq_some_iff.mp h
    have hsingle : ∀ j : LineNo, [j] = (List.finRange 8).filter fun k => decide (k.val = j.val) := by decide
    simpa only [hone, false_or, ← lineOfByte_eq_some hj] using hsingle j

/-- The claims a RENEW renews, by their lines in ascending order. -/
def renewedLines (s : State) (p : HostNo) (selector : Byte) : List LineNo :=
  (List.finRange 8).filter fun k => decide (selector = 0xFF ∨ k.val = selector.toNat) && renewable s p k

theorem mem_renewedLines {s : State} {p : HostNo} {selector : Byte} {k : LineNo} : k ∈ renewedLines s p selector ↔
    (selector = 0xFF ∨ k.val = selector.toNat) ∧ renewable s p k = true := by
  simp [renewedLines]

theorem filter_linesSelected {selector : Byte} {ks : List LineNo} (h : linesSelected selector = some ks) (s : State)
    (p : HostNo) : ks.filter (renewable s p) = renewedLines s p selector := by
  rw [linesSelected_eq h, List.filter_filter, renewedLines]
  exact List.filter_congr fun k _ => Bool.and_comm _ _

/-- The lowest-numbered line renewed stands first. -/
theorem renewedLines_eq_cons {s : State} {p : HostNo} {selector : Byte} {lowest : LineNo}
    (hm : lowest ∈ renewedLines s p selector) (hleast : ∀ k ∈ renewedLines s p selector, ¬k < lowest) :
    ∃ rest, renewedLines s p selector = lowest :: rest := by
  have hsorted : (renewedLines s p selector).Pairwise (· < ·) := (List.pairwise_lt_finRange 8).filter _
  cases h : renewedLines s p selector with
  | nil => simp [h] at hm
  | cons k rest =>
    rw [h] at hm hleast hsorted
    rcases List.mem_cons.mp hm with rfl | hrest
    · exact ⟨rest, rfl⟩
    · exact absurd ((List.pairwise_cons.mp hsorted).1 lowest hrest) (hleast k (by simp))

/-- An accepted RENEW. -/
theorem actRenew_of_accepted {p : HostNo} {selector : Byte} {newLease : Option Word16} {s : State} {ks : List LineNo}
    (hks : linesSelected selector = some ks) {lowest : LineNo} {rest : List LineNo}
    (hl : renewedLines s p selector = lowest :: rest)
    (hv : ∀ v, newLease = some v → v ≠ 0 ∧ ∀ k ∈ renewedLines s p selector, v.toNat ≤ (leaseLimit s.map p k).toNat) :
    actRenew p selector newLease s =
      ⟨{ s with lines := .ofFn fun j =>
          if j ∈ renewedLines s p selector then (s.lines.get j).renewClaim p newLease else s.lines.get j },
        ⟨.ok, BitVec.ofNat 8 (renewedLines s p selector).length ::
          word16Bytes (newLease.getD (leaseValueOf s p lowest))⟩⟩ := by
  have hnonzero : newLease ≠ some 0 := fun h => (hv 0 h).1 rfl
  have hlimits : (newLease.map fun v => (lowest :: rest).all fun j => decide (v.toNat ≤ (leaseLimit s.map p j).toNat))
      ≠ some false := by
    cases newLease with
    | none => simp
    | some v =>
      rw [hl] at hv
      have hall : ((lowest :: rest).all fun j => decide (v.toNat ≤ (leaseLimit s.map p j).toNat)) = true :=
        List.all_eq_true.mpr fun k hk => decide_eq_true ((hv v rfl).2 k hk)
      rw [Option.map_some, hall]
      simp
  simp only [actRenew, hks, if_neg hnonzero, filter_linesSelected hks, hl, if_neg hlimits]

/-- Settles O34: the claims renewed are those of the lines named that are not ENDING, the lowest first. -/
theorem renewRestartsLeases : Obligations.RenewRestartsLeases := by
  intro p tag selector newLease s hs lowest hsel hren hleast hv
  have hbyte : selector.toNat < 8 ∨ selector = 0xFF := hsel.symm.imp_left fun h => by rw [← h]; exact lowest.isLt
  obtain ⟨ks, hks⟩ := exists_linesSelected hbyte
  obtain ⟨rest, hl⟩ := renewedLines_eq_cons (mem_renewedLines.mpr ⟨hsel, hren⟩) fun k hk hlt => by
    obtain ⟨hksel, hkren⟩ := mem_renewedLines.mp hk
    by_cases hall : selector = 0xFF
    · simp [hleast k hlt hall] at hkren
    · have hsame : k.val = lowest.val := (hksel.resolve_left hall).trans (hsel.resolve_left hall).symm
      exact absurd hlt (by rw [Fin.ext hsame]; exact lt_irrefl _)
  have hact := actRenew_of_accepted hks hl fun v hvv => ⟨(hv v hvv).1, fun k hk =>
    (hv v hvv).2 k (mem_renewedLines.mp hk).1 (mem_renewedLines.mp hk).2⟩
  refine ⟨_, (renewedLines s p selector).length,
    exec_command_of_act (r := .renew selector newLease) (by rw [hs]; rfl) rfl hact tag, rfl, rfl, fun k => ?_⟩
  simp only [PerLine.get_ofFn, mem_renewedLines]
  rfl

/-! ### AMEND -/

theorem Segment.isPulse_iff {g : Segment} :
    g.isPulse = true ↔ ∃ period active pol count, g.body = .pulse period active pol count := by
  unfold Segment.isPulse
  cases g.body <;> simp

theorem executes_iff {L : LineState} {h : HostNo} : executes L h = true ↔ ∃ c, L.executing = some c ∧ c.host = h := by
  simp [executes]

section actAmend
variable {p : HostNo} {line : Byte} {period active : Word16} {s : State} {k : LineNo}

theorem actAmend_of_noLine (h : 8 ≤ line.toNat) :
    actAmend p line period active s = .unchanged s (.plain .invalid) := by
  rw [actAmend, lineOfByte_of_ge h]

theorem actAmend_of_outside (h : period.toNat < 2 ∨ period.toNat < active.toNat) :
    actAmend p line period active s = .unchanged s (.plain .invalid) := by
  unfold actAmend
  cases lineOfByte line with
  | none => rfl
  | some k => exact if_pos h

variable (hk : k.val = line.toNat) (h2 : 2 ≤ period.toNat) (ha : active.toNat ≤ period.toNat)
include hk h2 ha

theorem actAmend_of_notHolder (hx : executes (s.lines.get k) p = false) :
    actAmend p line period active s = .unchanged s (.plain .notHolder) := by
  have hin : ¬(period.toNat < 2 ∨ period.toNat < active.toNat) := by omega
  simp only [actAmend, lineOfByte_of_lt hk, if_neg hin, hx, if_true]

variable (hx : executes (s.lines.get k) p = true)
include hx

theorem actAmend_of_notPulse (hg : (s.lines.get k).running.map Segment.isPulse ≠ some true) :
    actAmend p line period active s = .unchanged s (.plain .invalid) := by
  have hin : ¬(period.toNat < 2 ∨ period.toNat < active.toNat) := by omega
  simp only [actAmend, lineOfByte_of_lt hk, if_neg hin, hx, Bool.true_eq_false, if_false, if_pos hg]

theorem actAmend_of_pulse (hg : (s.lines.get k).running.map Segment.isPulse = some true) :
    actAmend p line period active s =
      ⟨{ s with lines := s.lines.set k { s.lines.get k with staged := some ⟨period, active⟩ } },
        ⟨.staged, [boolByte (s.lines.get k).staged.isSome]⟩⟩ := by
  have hin : ¬(period.toNat < 2 ∨ period.toNat < active.toNat) := by omega
  simp only [actAmend, lineOfByte_of_lt hk, if_neg hin, hx, Bool.true_eq_false, if_false, if_neg (not_not.mpr hg)]

end actAmend

/-- Settles O41: one branch of the request for each check of R39. -/
theorem amendStages : Obligations.AmendStages := by
  intro p tag line period active s hs
  have hact : ∀ {t : State} {reply : Reply}, actAmend p line period active s = ⟨t, reply⟩ →
      exec (.amend p tag line period active) s = .next (t.answer p tag reply) := fun ha =>
    exec_command_of_act (r := .amend line period active) (by rw [hs]; rfl) rfl ha tag
  refine ⟨fun hout => hact (hout.elim actAmend_of_noLine actAmend_of_outside), fun k hk h2 ha => ⟨fun hno => ?notHolder,
    fun c hx hc => ?holder⟩⟩
  case notHolder =>
    refine hact (actAmend_of_notHolder hk h2 ha (Bool.eq_false_iff.mpr fun h => ?_))
    obtain ⟨c, hx, hc⟩ := executes_iff.mp h
    exact hno c hx hc
  case holder =>
    have hexec : executes (s.lines.get k) p = true := executes_iff.mpr ⟨c, hx, hc⟩
    refine ⟨fun hg => hact (actAmend_of_notPulse hk h2 ha hexec fun h => ?_), fun g a b q n hg hb => ?_⟩
    · obtain ⟨g, hr, hpulse⟩ := Option.map_eq_some_iff.mp h
      obtain ⟨a, b, q, n, hb⟩ := Segment.isPulse_iff.mp hpulse
      exact hg g hr a b q n hb
    · have hpulse : (s.lines.get k).running.map Segment.isPulse = some true := by
        rw [hg]
        exact congrArg some (Segment.isPulse_iff.mpr ⟨a, b, q, n, hb⟩)
      refine (hact (actAmend_of_pulse hk h2 ha hexec hpulse)).trans ?_
      cases (s.lines.get k).staged <;> rfl

end Sys2Proof.Machine
end

section
/-! PROOFS. What an event on one line changes, and the level a line drives (R1, R2, R3, R133). -/

namespace Sys2Proof.Machine

/-! ### The monitor told of an event on its own line -/

/-- The timer after an event on a line: what surrounds the line is the same before and after. -/
theorem timerAfter_sameCtx (ctx : LineCtx) (L0 L1 : LineState) : timerAfter ctx L0 ctx L1 =
    if ctx.check = true ∧ (L1.drive ctx).checked = true ∧ (L1.drive ctx).level ≠ .float then
      if L0.drive ctx = L1.drive ctx then L1.mismatch
      else if padMismatches L1.pad (L1.drive ctx).level = true then some 0 else none
    else none := by
  simp only [timerAfter, Drive.compared_iff]
  split
  next h => simp only [h.1, true_and]
  next => rfl

theorem State.updateLine_ports (s : State) (k : LineNo) (o : LineOut) :
    (s.updateLine k o).ports = (s.postAll (o.seg ++ o.claim)).ports :=
  State.postAll_ports_congr _ rfl rfl rfl

theorem State.updateLine_line (s : State) (k : LineNo) (o : LineOut) :
    (s.updateLine k o).lines.get k = remonitor (s.ctx k) (s.lines.get k) (s.ctx k) o.line := by
  rw [State.updateLine_lines, PerLine.get_set_self]

theorem State.updateLine_line_ne (s : State) {j k : LineNo} (h : j ≠ k) (o : LineOut) :
    (s.updateLine k o).lines.get j = s.lines.get j := by
  rw [State.updateLine_lines, PerLine.get_set_ne _ _ h]

theorem State.updateLine_same (s : State) (k : LineNo) (o : LineOut) : SameButLine k s (s.updateLine k o) :=
  ⟨fun _ h => s.updateLine_line_ne h o, s.updateLine_device k o, s.updateLine_supply k o, s.updateLine_firstSettle k o,
    s.updateLine_settle k o, s.updateLine_map k o, s.updateLine_orderCount k o, s.updateLine_pending k o⟩

/-! ### The level a line drives -/

theorem Drive.steady_eq (level : Level) : Drive.steady level = ⟨level, decide (level ≠ .float)⟩ := by
  cases level <;> rfl

theorem LineState.running_of_front {L : LineState} {f : Front} (h : L.front = some f) : L.running =
    some f.entry.seg := by
  obtain ⟨he, hx, hq⟩ := LineState.front_eq h
  simp [LineState.running, he, hx, hq]

theorem LineState.drive_of_front {ctx : LineCtx} {L : LineState} {f : Front} (h : L.front = some f) :
    L.drive ctx = segmentDrive f.entry.seg L.progress L.gen := by
  obtain ⟨he, -⟩ := LineState.front_eq h
  simp only [LineState.drive, he, LineState.running_of_front h]

/-- Settles O42: the line is told of the event, the rest stands; each level is read off the engine and the phase. -/
theorem eventOnOneLine : Obligations.EventOnOneLine := by
  refine ⟨fun s k o => ⟨s.updateLine_same k o, s.updateLine_ports k o, s.updateLine_ports_same k o,
    fun timer reached htimer hreached => ?line⟩, fun ctx L steady hsteady => ?drive⟩
  case line =>
    have htimer' : timerAfter (s.ctx k) (s.lines.get k) (s.ctx k) o.line = timer := by
      rw [htimer, timerAfter_sameCtx]; rfl
    rw [State.updateLine_line, remonitor, LineState.forestall, htimer', reads_eq_timerReached hreached]
    simp only [faultDue, Bool.and_comm (timerReached _ _)]
    rfl
  case drive =>
    obtain rfl : steady = Drive.steady := hsteady.trans (funext fun level => (Drive.steady_eq level).symm)
    refine ⟨fun he => by simp only [LineState.drive, he]; rfl, fun he => by simp only [LineState.drive, he],
      fun he c hx => ?_, ?_, fun f hf => ⟨fun level duration hb => ?_, fun period active pol count hb => ?_,
        fun source pol durations hb => ?_, fun discharge limit hb => ?_⟩⟩
    · simp only [LineState.drive, he, hx, Option.map_some, Option.getD_some]
      cases c.restLevel <;> rfl
    · rintro (he | he | he) <;> simp only [LineState.drive, he] <;> rfl
    all_goals rw [LineState.drive_of_front hf, segmentDrive, hb]
    · refine ⟨fun hp => ?_, fun hp => ?_⟩ <;> simp only [hp] <;> cases pol <;> rfl
    · refine ⟨fun hr hpos => ?_, fun hr => ?_⟩
      · simp only [hr, hpos, decide_true, Bool.and_self, if_true]
        cases pol <;> rfl
      · have hidle : (L.gen.running && decide (L.gen.position < L.gen.active)) = false := by
          rcases hr with hr | hr <;> simp [hr]
        simp only [hidle]
        cases pol <;> rfl
    · refine ⟨fun hp => ?_, fun hp => ?_⟩ <;> simp only [hp] <;> rfl

end Sys2Proof.Machine
end

section
/-! PROOFS. The end of the running segment and what follows it: the next segment, STARVED, or the stop of the claim with
a guard (R5 to R12); and the take of a line for its head (R13). -/

namespace Sys2Proof.Machine

/-! ### The notices of a segment that ends DONE (R16, R25, R61) -/

theorem endPosts_done {k : LineNo} {L : LineState} {c : Claim} {e : Entry} (hb : ∀ d l, e.seg.body ≠ .sense d l)
    (r : SenseResult) (v : Nat) : endPosts k L c e .done r v = lostPosts k c L ++ donePosts k c e := by
  rw [endPosts, amendLostNotice_eq, endNotice, donePosts]
  cases h : e.seg.body with
  | sense d l => exact absurd h (hb d l)
  | hold => rfl
  | pulse => rfl
  | carrier => rfl

theorem endPosts_sense {k : LineNo} {L : LineState} {c : Claim} {e : Entry} {d l : Word16}
    (hb : e.seg.body = .sense d l)
    (r : SenseResult) (v : Nat) :
    endPosts k L c e .done r v = lostPosts k c L ++ [⟨.host c.host, .senseResult k e.seg.label r v⟩] := by
  simp only [endPosts, amendLostNotice_eq, endNotice, hb]

/-! ### The next segment (R5, R32) -/

/-- The oldest segment starts: it is no joined one that fails its test, and no continuous HOLD that ends at its
start. -/
theorem runQueue_starts {k : LineNo} {cut : CutMode} {c : Claim} {last : Option LastEnded} {run : Nat} {e : Entry}
    {rest : List Entry} (hj : e.seg.join = false ∨ last = some ⟨.done, false⟩)
    (hh : e.seg.isContinuousHold = false ∨ (rest = [] ∧ c.state = .holding)) :
    runQueue k cut c last run (e :: rest) = ⟨.starts, e :: rest, last, run, []⟩ := by
  have hjoin : (e.seg.join && !joinHolds last) = false := by rcases hj with h | h <;> simp [h, joinHolds]
  rw [runQueue, hjoin]
  rcases hh with h | ⟨rfl, h⟩
  · simp [h]
  · simp [h, stopsAtCyclePoint]

section advance
variable {ctx : LineCtx} {L : LineState} {c : Claim} {run : Nat} {fresh : Bool}

theorem advance_starts {e : Entry} {rest : List Entry} (hj : e.seg.join = false ∨ L.lastEnded = some ⟨.done, false⟩)
    (hh : e.seg.isContinuousHold = false ∨ (rest = [] ∧ c.state = .holding)) :
    advance ctx L c (e :: rest) run fresh = .quiet { L.withQueue c.host (e :: rest) run with
      engine := .running, progress := ⟨e.seg.body.firstPhase, 0, 0⟩, startedAtEnd := fresh
      gen := startGen ctx L.gen e.seg.body, senseCounter := 0 } := by
  rw [advance, runQueue_starts hj hh]
  simp [LineOut.afterSeg, LineOut.quiet, LineState.startFront, LineState.withQueue]

theorem advance_starves (hc : c.state = .holding) : advance ctx L c [] run fresh =
    .quiet { L.withQueue c.host [] run with
      engine := .starved, lastEnded := L.lastEnded.map fun r => { r with starvedSince := true } } := by
  simp [advance, runQueue, hc, LineOut.afterSeg, LineOut.quiet, LineState.starve, LineState.withQueue]

/-- A LEAVING claim with nothing left to start stops (R80). -/
theorem advance_drains (hc : c.state = .leaving false) : advance ctx L c [] run fresh =
    stopClaim ctx (L.withQueue c.host [] run) c := by
  simp [advance, runQueue, hc, LineOut.afterSeg, LineState.withQueue]

end advance

/-! ### The stop of the executing claim -/

/-- The states whose claim leaves the list when it stops, and the CLAIM_ENDED reason (R11, R78 to R80). -/
def ClaimState.Leaves (st : ClaimState) (reason : Option EndReason) : Prop :=
  (∃ cause, st = .ending cause ∧ reason = cause.reason) ∨ (st = .leaving true ∧ reason = some .displacedLeaving)
    ∨ (st = .leaving false ∧ reason = some .drained)

theorem resolveStop_of_leaves {k : LineNo} {c d : Claim} {pre post : List Claim} {reason : Option EndReason}
    (hc : c.state.Leaves reason) (hd : d.host = c.host) (hne : ∀ x ∈ pre ++ post, x.host ≠ c.host) :
    resolveStop k c (pre ++ d :: post) = (pre ++ post, claimEndedNotice k c.host reason) := by
  have hpre : removeHost c.host pre = pre := removeHost_of_ne fun x hx => hne x (by simp [hx])
  have hpost : removeHost d.host (d :: post) = post :=
    removeHost_cons_self fun x hx => by rw [hd]; exact hne x (by simp [hx])
  have hremoved : removeHost c.host (pre ++ d :: post) = pre ++ post := by
    rw [removeHost, List.filter_append]
    exact congrArg₂ (· ++ ·) hpre (by rw [hd] at hpost; exact hpost)
  rcases hc with ⟨cause, hc, rfl⟩ | ⟨hc, rfl⟩ | ⟨hc, rfl⟩ <;> simp only [resolveStop, hc, hremoved]

theorem resolveStop_of_yielding {k : LineNo} {c d taker : Claim} {cs : List Claim} (hc : c.state = .yielding)
    (hd : d.host = c.host) (hne : ∀ x ∈ taker :: cs, x.host ≠ c.host) :
    resolveStop k c (taker :: d :: cs) = (taker :: { d with state := .waiting, yieldRun := 0 } :: cs,
      [⟨.host c.host, .preempted k taker.host⟩]) := by
  simp only [resolveStop, hc]
  exact congrArg (·, _) (mapHost_append (pre := [taker]) (fun d => { d with state := .waiting, yieldRun := 0 }) hd hne)

theorem settle_of_taking {c : Claim} {cs : List Claim} (hc : c.state = .taking) (hw : ∀ d ∈ cs, d.state = .waiting) :
    settle (c :: cs) = c :: cs := by
  rw [settle, map_behindHead_of_waiting hw, asHead_of_headLike (by rw [hc]; rfl)]

/-- The claims of a line whose running segment has ended. -/
theorem endRunning_claims {L : LineState} {pre post : List Claim} {c : Claim} (hL : L.claims = pre ++ c :: post)
    (hne : ∀ x ∈ pre ++ post, x.host ≠ c.host) (e : Entry) (rest : List Entry) (o : SegOutcome) :
    (endRunning L c e rest o).claims = pre ++ { c with queue := queueAfterEnd e rest o } :: post := by
  change mapHost c.host _ L.claims = _
  rw [hL, mapHost_append _ rfl hne]

/-- The ended segment leaves nothing that a guard does not clear. -/
theorem guardedWith_endRunning (guard : Nat) (L : LineState) (c : Claim) (e : Entry) (rest : List Entry)
    (o : SegOutcome)
    (left : List Claim) : guardedWith guard (endRunning L c e rest o) left = guardedWith guard L left := rfl

/-- How a RUNNING line whose segment ends stands after the stop of its claim with a guard: `left` on its list, `posts`
posted by the claim unit. -/
structure StopsTo (k : LineNo) (L : LineState) (c : Claim) (queue : List Entry) (left : List Claim)
    (posts : List Post) :
    Prop where
  running : L.engine = .running
  resolved : ∃ pre post, L.claims = pre ++ c :: post ∧ (∀ x ∈ pre ++ post, x.host ≠ c.host)
    ∧ resolveStop k c (pre ++ { c with queue := queue } :: post) = (left, posts)
  settled : settle left = left

section stops
variable {ctx : LineCtx} {L : LineState} {c : Claim} {e : Entry} {rest : List Entry} {left : List Claim}
  {posts : List Post} (hg : 0 < ctx.guard)
include hg

theorem stopClaim_endRunning {o : SegOutcome} (h : StopsTo ctx.line L c (queueAfterEnd e rest o) left posts) :
    stopClaim ctx (endRunning L c e rest o) c = ⟨guardedWith ctx.guard L left, [], posts⟩ := by
  obtain ⟨pre, post, hL, hne, hr⟩ := h.resolved
  rw [← guardedWith_endRunning ctx.guard L c e rest o]
  exact stopClaim_of_guard (.inl h.running) hg (by rw [endRunning_claims hL hne]; exact hr) h.settled

theorem naturalEnd_stops (h : StopsTo ctx.line L c rest left posts)
    (hstop : goesOnAtEnd (headCut L.claims) c rest = none)
    (r : SenseResult) (v : Nat) : naturalEnd ctx L c e rest r v =
      ⟨guardedWith ctx.guard L left, endPosts ctx.line L c e .done r v, posts⟩ := by
  simp only [naturalEnd, hstop]
  rw [stopClaim_endRunning hg (o := .done) h]
  simp [LineOut.afterSeg]

theorem cutAndStop_stops (h : StopsTo ctx.line L c (queueAfterEnd e rest (cutOutcome c e.seg)) left posts) :
    cutAndStop ctx L c e rest =
      ⟨guardedWith ctx.guard L left, endPosts ctx.line L c e (cutOutcome c e.seg) .aborted 0, posts⟩ := by
  rw [cutAndStop, stopClaim_endRunning hg h]
  simp [LineOut.afterSeg]

/-- A LEAVING claim with nothing behind the segment that has ended is drained (R80). -/
theorem advance_endRunning_drains (hL : L.claims = [c]) (he : L.engine = .running) (hc : c.state = .leaving false)
    (o : SegOutcome) (run : Nat) (fresh : Bool) : advance ctx (endRunning L c e rest o) c [] run fresh =
      ⟨guardedWith ctx.guard L [], [], [⟨.host c.host, .claimEnded ctx.line .drained⟩]⟩ := by
  have hclaims : ((endRunning L c e rest o).withQueue c.host [] run).claims =
      [{ c with queue := [], yieldRun := run }] := by
    change mapHost c.host _ (mapHost c.host _ L.claims) = _
    rw [hL, mapHost_cons_self (by simp)]
    exact mapHost_head rfl (by simp)
  have hresolve : resolveStop ctx.line c ((endRunning L c e rest o).withQueue c.host [] run).claims =
      ([], [⟨.host c.host, .claimEnded ctx.line .drained⟩]) := by
    rw [hclaims]
    exact resolveStop_of_leaves (pre := []) (post := []) (.inr (.inr ⟨hc, rfl⟩)) rfl (by simp)
  rw [advance_drains hc, stopClaim_of_guard (by exact .inl he) hg hresolve rfl]
  rfl

theorem naturalEnd_drains (hL : L.claims = [c]) (he : L.engine = .running) (hc : c.state = .leaving false)
    (r : SenseResult) (v : Nat) : naturalEnd ctx L c e [] r v =
      ⟨guardedWith ctx.guard L [], endPosts ctx.line L c e .done r v,
        [⟨.host c.host, .claimEnded ctx.line .drained⟩]⟩ := by
  have hgoes : goesOnAtEnd (headCut L.claims) c [] = some c.yieldRun := by simp [goesOnAtEnd, hc]
  simp only [naturalEnd, hgoes]
  rw [advance_endRunning_drains hg hL he hc]
  simp [LineOut.afterSeg]

end stops

/-! ### The take of a line (R13) -/

section take
variable {ctx : LineCtx} {L : LineState} {c : Claim} {cs : List Claim} (hc : c.state = .taking ∨ c.state = .holding)
  (hw : ∀ d ∈ cs, d.state = .waiting)
include hc

theorem takeEnds_of_taker : takeEnds ctx c = none := by
  rcases hc with h | h <;> simp only [takeEnds, h]

theorem takenClaim_of_taker : takenClaim c = { c with state := .holding, yieldRun := 0 } := by
  rcases hc with h | h <;> simp only [takenClaim, h, ClaimState.atTake]

theorem takenRun_of_taker :
    takenRun ctx c = runQueue ctx.line c.cutMode { c with state := .holding, yieldRun := 0 } none 0 c.queue := by
  rw [← takenClaim_of_taker hc]
  rcases hc with h | h <;> simp only [takenRun, h]

include hw

theorem takeLine_starves (hq : c.queue = []) : takeLine ctx L (c :: cs) =
    ⟨{ L with
      engine := .starved, guardRemaining := 0, lastEnded := none
      claims := { c with state := .holding, yieldRun := 0 } :: cs }, [], grantNotice ctx.line c⟩ := by
  simp [takeLine, takeEnds_of_taker hc, takenLine, takenRun_of_taker hc, takenClaim_of_taker hc, hq, runQueue,
    LineState.starve, map_behindHead_of_waiting hw]

theorem takeLine_starts {e : Entry} {rest : List Entry} (hq : c.queue = e :: rest) (hj : e.seg.join = false)
    (hh : e.seg.isContinuousHold = false ∨ rest = []) : takeLine ctx L (c :: cs) =
    ⟨{ L with
      engine := .running, guardRemaining := 0, lastEnded := none
      progress := ⟨e.seg.body.firstPhase, 0, 0⟩, startedAtEnd := false
      gen := startGen ctx L.gen e.seg.body, senseCounter := 0
      claims := { c with state := .holding, yieldRun := 0 } :: cs }, [], grantNotice ctx.line c⟩ := by
  have hrun : takenRun ctx c = ⟨.starts, e :: rest, none, 0, []⟩ := by
    rw [takenRun_of_taker hc, hq]
    exact runQueue_starts (.inl hj) (hh.imp_right fun h => ⟨h, rfl⟩)
  simp [takeLine, takeEnds_of_taker hc, takenLine, hrun, takenClaim_of_taker hc, hq, LineState.startFront,
    map_behindHead_of_waiting hw]

end take

end Sys2Proof.Machine
end

section
/-! PROOFS. The events of a running segment, each as one operation on its line: the guard's end (R13), the ends of a
cycle, an element and a part (R29 to R49), the natural ends (R26 to R60). -/

namespace Sys2Proof.Machine

/-- An event that does something on its line. -/
theorem next_applyLine {s : State} {k : LineNo} {out : Option LineOut} {o : LineOut} (h : out = some o) :
    (Host.Outcome.next (s.applyLine k out) : Host.Outcome State Fault Refusal) = .next (s.updateLine k o) := by
  rw [h]; rfl

/-- An event that finds nothing on its line. -/
theorem next_applyLine_none {s : State} {k : LineNo} {out : Option LineOut} (h : out = none) :
    (Host.Outcome.next (s.applyLine k out) : Host.Outcome State Fault Refusal) = .next s := by
  rw [h]; rfl

/-! ### The end of a guard -/

/-- Settles O43: the line is taken for its head, or stands IDLE without one. -/
theorem guardEndTakesTheLine : Obligations.GuardEndTakesTheLine := by
  intro k s he
  have hout : ∀ {o : LineOut}, takeLine (s.ctx k) { s.lines.get k with guardRemaining := 0 } (s.lines.get k).claims =
    o →
      exec (.guardEnd k) s = .next (s.updateLine k o) := fun ho =>
    next_applyLine (out := guardEndOut (s.ctx k) (s.lines.get k)) ((if_pos he).trans (congrArg some ho))
  refine ⟨fun hL => hout (by rw [hL]; rfl), fun c cs hL hc hw => ?_⟩
  have hgrant : grantNotice (s.ctx k).line c = [⟨.host c.host, .claimGranted k⟩] := by
    rw [grantNotice, hc]; rfl
  refine ⟨fun hq => hout ?_, fun e rest hq hj hh => hout ?_⟩
  · rw [hL, takeLine_starves (.inl hc) hw hq, hgrant]
  · rw [hL, takeLine_starts (.inl hc) hw hq hj hh, hgrant]

/-! ### The events of a running segment -/

section events
variable {s : State} {k : LineNo} {f : Front} (hf : (s.lines.get k).front = some f)
include hf

theorem exec_pulsePhaseEnd {period active count : Word16} {pol : Polarity}
    (hb : f.entry.seg.body = .pulse period active pol count)
    (hp : (s.lines.get k).progress.phase = .active) (ha : active ≠ period) :
    exec (.pulsePhaseEnd k) s = .next (s.updateLine k (.quiet { s.lines.get k with
      progress := ⟨.inactive, 0, (s.lines.get k).progress.completed⟩, startedAtEnd := false })) :=
  next_applyLine (out := pulsePhaseEndOut (s.lines.get k)) (by simp only [pulsePhaseEndOut, hf, hb, hp, ha, ne_eq,
    not_false_eq_true, and_self, if_true])

/-- The end of a cycle, by the two decisions at it: whether it ends the PULSE, and whether the claim stops there. -/
theorem exec_pulseCycleEnd {period active count : Word16} {pol : Polarity}
    (hb : f.entry.seg.body = .pulse period active pol count) {ends stops : Bool}
    (hends : pulseEnds f.claim count ((s.lines.get k).progress.completed + 1) f.rest = ends)
    (hstops : stopsAtCyclePoint (headCut (s.lines.get k).claims) f.claim (count == 0) f.rest = stops) :
    exec (.pulseCycleEnd k) s = .next (s.updateLine k (
      if ends then naturalEnd (s.ctx k) (s.lines.get k) f.claim f.entry f.rest .aborted 0
      else if stops then cutAndStop (s.ctx k) (s.lines.get k) f.claim f.entry f.rest
      else .quiet (nextCycle (s.lines.get k) f))) :=
  next_applyLine (out := pulseCycleEndOut (s.ctx k) (s.lines.get k)) (by
    simp only [pulseCycleEndOut, hf, hb, hends, hstops]
    cases ends <;> cases stops <;> rfl)

theorem exec_carrierElementEnd {source : Source} {pol : Polarity} {durations : List Word16} {i : Nat}
    (hb : f.entry.seg.body = .carrier source pol durations) (hp : (s.lines.get k).progress.phase = .element i)
    {stops : Bool} (hstops : stopsAtCyclePoint (headCut (s.lines.get k).claims) f.claim false f.rest = stops) :
    exec (.carrierElementEnd k) s = .next (s.updateLine k (
      if durations.length ≤ i + 1 then naturalEnd (s.ctx k) (s.lines.get k) f.claim f.entry f.rest .aborted 0
      else if stops then cutAndStop (s.ctx k) (s.lines.get k) f.claim f.entry f.rest
      else .quiet (nextElement (s.ctx k) (s.lines.get k) source (i + 1)))) :=
  next_applyLine (out := carrierElementEndOut (s.ctx k) (s.lines.get k)) (by
    simp only [carrierElementEndOut, hf, hb, hp, hstops]
    split
    · rfl
    · cases stops <;> rfl)

theorem exec_holdEnd {level : Level} {duration : Word16} (hb : f.entry.seg.body = .hold level duration)
    (hd : duration ≠ 0) : exec (.holdEnd k) s =
      .next (s.updateLine k (naturalEnd (s.ctx k) (s.lines.get k) f.claim f.entry f.rest .aborted 0)) :=
  next_applyLine (out := holdEndOut (s.ctx k) (s.lines.get k)) (by simp only [holdEndOut, hf, hb, if_neg hd])

/-- At a natural end the command of the segment ends it DONE (R26, R31, R43). -/
theorem exec_of_endsNaturally {i : Instr} (hi : EndsNaturally k (s.lines.get k) f.entry i) : exec i s =
    .next (s.updateLine k (naturalEnd (s.ctx k) (s.lines.get k) f.claim f.entry f.rest .aborted 0)) := by
  rcases hi with ⟨level, duration, hb, hd, rfl⟩ | ⟨period, active, pol, count, hb, hcount, hlast, rfl⟩ |
    ⟨source, pol, durations, j, hb, hp, hlast, rfl⟩
  · exact exec_holdEnd hf hb hd
  · have hends : pulseEnds f.claim count ((s.lines.get k).progress.completed + 1) f.rest = true := by
      rw [pulseEnds, if_neg hcount]
      exact decide_eq_true hlast
    rw [exec_pulseCycleEnd hf hb hends rfl, if_pos rfl]
  · rw [exec_carrierElementEnd hf hb hp rfl, if_pos hlast]

/-- At a cycle point that is no natural end the claim stops, or not, as at a point that is no segment point
(Table 2-6). -/
theorem exec_of_endsACycle {i : Instr} (hi : EndsACycle k (s.lines.get k) f.entry i)
    (hstops : stopsAtCyclePoint (headCut (s.lines.get k).claims) f.claim false f.rest = true) :
    exec i s = .next (s.updateLine k (cutAndStop (s.ctx k) (s.lines.get k) f.claim f.entry f.rest)) := by
  rcases hi with ⟨period, active, pol, count, hb, hmore, rfl⟩ | ⟨source, pol, durations, j, hb, hp, hmore, rfl⟩
  · have hcount : count ≠ 0 := by rintro rfl; simp at hmore
    have hends : pulseEnds f.claim count ((s.lines.get k).progress.completed + 1) f.rest = false := by
      rw [pulseEnds, if_neg hcount]
      exact decide_eq_false (by omega)
    have hpoint : (count == 0) = false := by simpa using hcount
    have hhere : stopsAtCyclePoint (headCut (s.lines.get k).claims) f.claim (count == 0) f.rest = true := by
      rw [hpoint]; exact hstops
    rw [exec_pulseCycleEnd hf hb hends hhere]
    rfl
  · rw [exec_carrierElementEnd hf hb hp hstops, if_neg (by omega), if_pos rfl]

end events

/-! ### A HOLDING claim's cycles and elements -/

theorem stopsAtCyclePoint_of_holding {c : Claim} (hc : c.state = .holding) (cut : CutMode) (point : Bool)
    (rest : List Entry) : stopsAtCyclePoint cut c point rest = false := by
  simp only [stopsAtCyclePoint, hc]

/-- The record a cycle goes on with: the values amended, where an amendment is staged (R40). -/
theorem amended_pulse (staged : Option Amendment) (period active count : Word16) (pol : Polarity) : ∃ per act,
    (staged = none → per = period ∧ act = active) ∧ (∀ a, staged = some a → per = a.period ∧ act = a.active)
      ∧ SegmentBody.amended staged (.pulse period active pol count) = .pulse per act pol count := by
  cases staged with
  | none => exact ⟨period, active, fun _ => ⟨rfl, rfl⟩, nofun, rfl⟩
  | some a => exact ⟨a.period, a.active, nofun, fun b hb => by obtain rfl := Option.some.inj hb; exact ⟨rfl, rfl⟩, rfl⟩

/-- Settles O44: the phase's end moves the progress alone; the cycle's end writes the record and begins anew. -/
theorem pulseGoesFromCycleToCycle : Obligations.PulseGoesFromCycleToCycle := by
  intro k s c cs e rest period active count pol hrun hb
  have hf := hrun.front
  obtain ⟨he, hL, hhold, hq, hne⟩ := hrun
  refine ⟨fun hp ha => exec_pulsePhaseEnd hf hb hp ha, fun hcont hcounted => ?_⟩
  have hends : pulseEnds c count ((s.lines.get k).progress.completed + 1) rest = false := by
    rw [pulseEnds]
    split
    next h => simp [hcont h, hhold]
    next h => exact decide_eq_false (by have := hcounted h; omega)
  obtain ⟨per, act, hnone, hsome, hamended⟩ := amended_pulse (s.lines.get k).staged period active count pol
  refine ⟨per, act, hnone, hsome, ?_⟩
  rw [exec_pulseCycleEnd hf hb hends (stopsAtCyclePoint_of_holding hhold _ _ _)]
  have hclaims := mapHost_cons_self (c := c) (f := fun d => { d with
    queue := { e with seg := { e.seg with body := .pulse per act pol count } } :: rest, yieldRun := c.yieldRun }) hne
  simp only [Bool.false_eq_true, if_false, nextCycle, hb, hamended, LineState.withQueue, hL, hclaims]
  rfl

/-! ### The parts of a carrier period -/

theorem LineState.markLeft_of_front {L : LineState} {f : Front} {source : Source} {pol : Polarity}
    {durations : List Word16} {i : Nat} (hf : L.front = some f) (hb : f.entry.seg.body = .carrier source pol durations)
    (hp : L.progress.phase = .element i) (hi : i % 2 = 0) :
    L.markLeft = some ((durations.getD i 0).toNat * f.entry.seg.tap.clocks - L.progress.elapsed) := by
  simp only [LineState.markLeft, hf, hb, hp, isMark, hi, beq_self_eq_true, if_true]

theorem carrierPartChangeOut_of_mark {L : LineState} {left : Nat} (hm : L.markLeft = some left) :
    carrierPartChangeOut L = if L.gen.running = true ∧ L.gen.partLeft ≤ left then
      some (.quiet { L with
        progress := { L.progress with elapsed := L.progress.elapsed + L.gen.partLeft }
        gen := L.gen.nextPart
        startedAtEnd := false })
    else none := by
  rw [carrierPartChangeOut, hm]

/-- Settles O45: the next element by its place; a part passes where the mark still holds it. -/
theorem carrierGoesFromElementToElement : Obligations.CarrierGoesFromElementToElement := by
  refine fun k s => ⟨fun c cs e rest source pol durations i hrun hb hp hmore => ?element,
    fun L f source pol durations i hL hf hb hp hi hgen partEnd left hpart hleft => ?part, fun hgen => ?idle⟩
  case element =>
    obtain ⟨-, -, hhold, -, -⟩ := id hrun
    rw [exec_carrierElementEnd hrun.front hb hp (stopsAtCyclePoint_of_holding hhold _ _ _), if_neg (by omega)]
    simp only [Bool.false_eq_true, if_false, nextElement, isMark, beq_iff_eq]
    cases source <;> rfl
  case part =>
    subst hL
    have hmark := LineState.markLeft_of_front hf hb hp hi
    obtain rfl : (s.lines.get k).gen.partEnd = partEnd := hpart.symm
    obtain rfl : (s.lines.get k).gen.partLeft = left := hleft.symm
    refine ⟨fun hfits => ?_, fun hpos hpast => ?_⟩
    · have hin : (s.lines.get k).gen.partLeft ≤
          (durations.getD i 0).toNat * f.entry.seg.tap.clocks - (s.lines.get k).progress.elapsed := by omega
      exact next_applyLine (out := carrierPartChangeOut (s.lines.get k))
        ((carrierPartChangeOut_of_mark hmark).trans (if_pos ⟨hgen, hin⟩))
    · have hout : ¬(s.lines.get k).gen.partLeft ≤
          (durations.getD i 0).toNat * f.entry.seg.tap.clocks - (s.lines.get k).progress.elapsed := by omega
      exact next_applyLine_none (out := carrierPartChangeOut (s.lines.get k))
        ((carrierPartChangeOut_of_mark hmark).trans (if_neg fun h => hout h.2))
  case idle =>
    refine next_applyLine_none (out := carrierPartChangeOut (s.lines.get k)) ?_
    cases hm : (s.lines.get k).markLeft with
    | none => rw [carrierPartChangeOut, hm]
    | some left => exact (carrierPartChangeOut_of_mark hm).trans (if_neg fun h => by simp [hgen] at h)

end Sys2Proof.Machine
end

section
/-! PROOFS. The natural ends of the segments of a HOLDING claim (R6, R26, R31, R43, R58 to R60). -/

namespace Sys2Proof.Machine

/-! ### The release of a SENSE as a change of level of its own (R57, R133) -/

/-- What of a line after an event counts is what its monitor makes of it. -/
theorem State.updateLine_congr {s : State} {k : LineNo} {o o' : LineOut} (hp : o.posts = o'.posts)
    (hl : remonitor (s.ctx k) (s.lines.get k) (s.ctx k) o.line = remonitor (s.ctx k) (s.lines.get k)
      (s.ctx k) o'.line) :
    s.updateLine k o = s.updateLine k o' := by
  rw [State.updateLine, State.updateLine, hp, hl]

/-- The timer after a line has floated: from 0 where the pad mismatches what is then driven. -/
def restartedTimer (ctx : LineCtx) (L : LineState) : Option Nat :=
  if (L.drive ctx).compared ctx.check then if padMismatches L.pad (L.drive ctx).level then some 0 else none else none

theorem timerAfter_of_floated {ctx : LineCtx} {M N : LineState} (h : M.drive ctx = .floating) :
    timerAfter ctx M ctx N = restartedTimer ctx N := by
  rw [timerAfter, restartedTimer]
  split
  next hc =>
    have hne : ¬(ctx.check = true ∧ M.drive ctx = N.drive ctx) := fun hsame => by
      simp [← hsame.2, h, Drive.floating, Drive.compared] at hc
    rw [if_neg hne]
  next => rfl

theorem timerAfter_restarted {ctx : LineCtx} (L : LineState) {N : LineState} (h : N.mismatch = restartedTimer ctx N) :
    timerAfter ctx L ctx N = N.mismatch := by
  rw [timerAfter]
  split
  next hc =>
    split
    next => rfl
    next => rw [h, restartedTimer, if_pos hc]
  next hc => rw [h, restartedTimer, if_neg hc]

theorem remonitor_of_timer {ctx : LineCtx} {L N : LineState} (h : timerAfter ctx L ctx N = N.mismatch) :
    remonitor ctx L ctx N = .forestall ctx.window L ctx.window N := by
  rw [remonitor, h]

/-- A line that floats on the way is marked as one that goes straight to where it ends, its timer restarted. -/
theorem remonitor_of_floated {ctx : LineCtx} {L M N : LineState} (hd : M.drive ctx = .floating)
    (hdue : faultDue ctx.window M = faultDue ctx.window L) :
    remonitor ctx L ctx (remonitor ctx M ctx N) = remonitor ctx L ctx { N with mismatch := restartedTimer ctx N } := by
  have hfirst : remonitor ctx M ctx N =
      .forestall ctx.window M ctx.window { N with mismatch := restartedTimer ctx N } := by
    rw [remonitor, timerAfter_of_floated hd]
  rw [hfirst, remonitor_of_timer (timerAfter_restarted L rfl), remonitor_of_timer (timerAfter_restarted L rfl)]
  rw [faultDue, faultDue] at hdue
  simp only [LineState.forestall, faultDue, hdue, Bool.or_assoc, Bool.or_self]

/-! ### The events of a SENSE -/

theorem LineState.senseIn_of_front {L : LineState} {f : Front} {discharge limit : Word16} (hf : L.front = some f)
    (hb : f.entry.seg.body = .sense discharge limit) {phase : Phase} (hp : L.progress.phase = phase) :
    L.senseIn phase = some (f, limit) := by
  simp only [LineState.senseIn, hf, hb, hp, if_true]

/-- The line at the end of the discharge, nothing sampled yet. -/
def releasedLine (L : LineState) : LineState :=
  { L with progress := ⟨.release, 0, L.progress.completed⟩, senseCounter := 0, startedAtEnd := false }

theorem releasedLine_drive {ctx : LineCtx} {L : LineState} {f : Front} {discharge limit : Word16}
    (hf : L.front = some f)
    (hb : f.entry.seg.body = .sense discharge limit) : (releasedLine L).drive ctx = .floating := by
  have hfront : (releasedLine L).front = some f := hf
  rw [LineState.drive_of_front hfront, segmentDrive, hb]
  rfl

section sense
variable {s : State} {k : LineNo} {f : Front} {discharge limit : Word16} (hf : (s.lines.get k).front = some f)
  (hb : f.entry.seg.body = .sense discharge limit)
include hf hb

theorem exec_senseRelease_of_low (hp : (s.lines.get k).progress.phase = .discharge)
    (hpad : (s.lines.get k).pad ≠ .high) :
    exec (.senseRelease k) s = .next (s.updateLine k (.quiet (releasedLine (s.lines.get k)))) :=
  next_applyLine (out := senseReleaseOut (s.ctx k) (s.lines.get k)) (by
    simp only [senseReleaseOut, LineState.senseIn_of_front hf hb hp, if_neg hpad]
    rfl)

theorem exec_senseRelease_of_high (hp : (s.lines.get k).progress.phase = .discharge)
    (hpad : (s.lines.get k).pad = .high)
    {next : LineState} {seg : List Post}
    (hn : naturalEnd (s.ctx k) (s.lines.get k) f.claim f.entry f.rest .count 0 = ⟨next, seg, []⟩) :
    exec (.senseRelease k) s =
      .next (s.updateLine k ⟨{ next with mismatch := restartedTimer (s.ctx k) next }, seg, []⟩) := by
  have hout : senseReleaseOut (s.ctx k) (s.lines.get k) =
      some ⟨remonitor (s.ctx k) (releasedLine (s.lines.get k)) (s.ctx k) next, seg, []⟩ := by
    simp only [senseReleaseOut, LineState.senseIn_of_front hf hb hp, if_pos hpad, hn]
    rfl
  exact (next_applyLine hout).trans (congrArg Host.Outcome.next (State.updateLine_congr rfl
    (remonitor_of_floated (releasedLine_drive hf hb) rfl)))

theorem exec_sensePadHigh (hp : (s.lines.get k).progress.phase = .release) : exec (.sensePadHigh k) s =
    .next (s.updateLine k (naturalEnd (s.ctx k) { s.lines.get k with pad := .high } f.claim f.entry f.rest .count
      (s.lines.get k).senseCounter)) :=
  next_applyLine (out := sensePadHighOut (s.ctx k) (s.lines.get k)) (by
    simp only [sensePadHighOut, LineState.senseIn_of_front hf hb hp])

theorem exec_senseLimitReached (hp : (s.lines.get k).progress.phase = .release) : exec (.senseLimitReached k) s =
    .next (s.updateLine k (if (s.lines.get k).pad = .high then
        naturalEnd (s.ctx k) (s.lines.get k) f.claim f.entry f.rest .count limit.toNat
      else naturalEnd (s.ctx k) (s.lines.get k) f.claim f.entry f.rest .timeout 0)) :=
  next_applyLine (out := senseLimitReachedOut (s.ctx k) (s.lines.get k)) (by
    simp only [senseLimitReachedOut, LineState.senseIn_of_front hf hb hp]
    split <;> rfl)

end sense

/-! ### The natural ends -/

/-- A HOLDING claim's segment ends: STARVED where nothing is queued, the next segment where one is. -/
theorem naturalEnd_goesOn {ctx : LineCtx} {c : Claim} {cs : List Claim} {e : Entry} {rest : List Entry}
    (hs : c.state = .holding) (hne : ∀ d ∈ cs, d.host ≠ c.host) {next : LineState → LineState}
    (hnil : rest = [] → next = fun L => starvedAfterDone L c cs)
    (hcons : ∀ e2 rest2, rest = e2 :: rest2 →
      (e2.seg.isContinuousHold = false ∨ rest2 = []) ∧ next = fun L => nextAfterDone ctx L c cs e2 rest2)
    {L : LineState} (hL : L.claims = c :: cs) (r : SenseResult) (v : Nat) :
    naturalEnd ctx L c e rest r v = ⟨next L, endPosts ctx.line L c e .done r v, []⟩ := by
  cases rest with
  | nil => rw [hnil rfl]; exact naturalEnd_starves hL hs hne
  | cons e2 rest2 =>
    obtain ⟨hh, hnext⟩ := hcons e2 rest2 rfl
    rw [hnext]
    exact naturalEnd_starts hL hs hne hh

/-- Settles O46: each command ends its segment, and what follows is the same for all. -/
theorem naturalEndGoesOn : Obligations.NaturalEndGoesOn := by
  intro k s c cs e rest hrun next hnil hcons
  have hf := hrun.front
  obtain ⟨he, hL, hhold, hq, hne⟩ := hrun
  have hend : ∀ {L : LineState}, L.claims = c :: cs → ∀ r v,
      naturalEnd (s.ctx k) L c e rest r v = ⟨next L, endPosts k L c e .done r v, []⟩ :=
    fun hL => naturalEnd_goesOn hhold hne hnil hcons hL
  have hdone : ∀ {i : Instr}, (∀ d l, e.seg.body ≠ .sense d l) →
      exec i s = .next (s.updateLine k (naturalEnd (s.ctx k) (s.lines.get k) c e rest .aborted 0)) → exec i s =
      .next (s.updateLine k ⟨next (s.lines.get k), lostPosts k c (s.lines.get k) ++ donePosts k c e, []⟩) :=
    fun hb hi => by rw [hi, hend hL, endPosts_done hb]
  refine ⟨fun level duration hb hd => hdone (by simp [hb]) (exec_holdEnd hf hb hd),
    fun period active pol count hb hcount => hdone (by simp [hb]) ?pulse,
    fun source pol durations i hb hp hlast => hdone (by simp [hb])
      ((exec_carrierElementEnd hf hb hp rfl).trans (by rw [if_pos hlast])),
    fun discharge limit hb => ⟨fun hp => ⟨fun hpad => ?released, fun hpad => exec_senseRelease_of_low hf hb hp hpad⟩,
      fun hp => ⟨?padHigh, fun hpad => ?timeout, fun hpad => ?limit⟩⟩⟩
  case pulse =>
    have hends : pulseEnds c count ((s.lines.get k).progress.completed + 1) rest = true := by
      rw [pulseEnds]
      rcases hcount with ⟨h, hlast⟩ | ⟨h, hrest⟩
      · rw [if_neg h]; exact decide_eq_true hlast
      · rw [if_pos h]; simp [hrest]
    exact (exec_pulseCycleEnd hf hb hends rfl).trans (by rw [if_pos rfl])
  case released =>
    have hpadNext : (next (s.lines.get k)).pad = .high := by
      cases rest with
      | nil => rw [hnil rfl]; exact hpad
      | cons e2 rest2 => rw [(hcons e2 rest2 rfl).2]; exact hpad
    have htimer : restartedTimer (s.ctx k) (next (s.lines.get k)) =
        if checkEnable s.map k = true ∧ ((next (s.lines.get k)).drive (s.ctx k)).checked = true
            ∧ ((next (s.lines.get k)).drive (s.ctx k)).level = .low then some 0 else none := by
      simp only [restartedTimer, Drive.compared_iff, hpadNext]
      cases ((next (s.lines.get k)).drive (s.ctx k)).level <;> simp [padMismatches]
      rfl
    rw [exec_senseRelease_of_high hf hb hp hpad (hend hL _ _), endPosts_sense hb, htimer]
  case padHigh =>
    rw [exec_sensePadHigh hf hb hp, hend (L := { s.lines.get k with pad := .high }) hL, endPosts_sense hb]
    rfl
  case timeout => rw [exec_senseLimitReached hf hb hp, if_neg hpad, hend hL, endPosts_sense hb]
  case limit => rw [exec_senseLimitReached hf hb hp, if_pos hpad, hend hL, endPosts_sense hb]

end Sys2Proof.Machine
end

section
/-! PROOFS. The yield and stop points of a running claim (R74 to R80). -/

namespace Sys2Proof.Machine

/-! ### A line that runs for a claim behind the taker -/

section behindTaker
variable {s : State} {k : LineNo} {taker c : Claim} {cs : List Claim} {e : Entry} {rest : List Entry}
  (h : RunsBehindTaker s k taker c cs e rest)
include h

theorem RunsBehindTaker.hosts : ∀ d ∈ [taker] ++ cs, d.host ≠ c.host := by
  obtain ⟨-, -, -, -, hne, hcs⟩ := h
  rintro d (_ | ⟨_, hd⟩)
  · exact hne
  · exact (hcs d hd).1

theorem RunsBehindTaker.front (hx : c.state.isExecuting = true) : (s.lines.get k).front = some ⟨c, e, rest⟩ := by
  obtain ⟨he, hL, htaking, hq, -, -⟩ := h
  exact LineState.front_of he (LineState.executing_of_second hL (by rw [htaking]; rfl) hx) hq

theorem RunsBehindTaker.claims : (s.lines.get k).claims = [taker] ++ c :: cs := by
  obtain ⟨-, hL, -⟩ := h
  exact hL

theorem RunsBehindTaker.queue : c.queue = e :: rest := by
  obtain ⟨-, -, -, hq, -⟩ := h
  exact hq

theorem RunsBehindTaker.headCut : headCut (s.lines.get k).claims = taker.cutMode := by
  obtain ⟨-, hL, -⟩ := h
  rw [hL]; rfl

end behindTaker

section stopsTo
variable {L : LineState} {k : LineNo} {taker c : Claim} {cs : List Claim} (he : L.engine = .running)
  (hL : L.claims = taker :: c :: cs) (htaking : taker.state = .taking) (hne : ∀ d ∈ [taker] ++ cs, d.host ≠ c.host)
  (hw : ∀ d ∈ cs, d.state = .waiting)
include he hL htaking hne hw

/-- A YIELDING claim that stops waits behind the taker (R76). -/
theorem stopsTo_of_yielding (hc : c.state = .yielding) (queue : List Entry) :
    StopsTo k L c queue (taker :: { c with state := .waiting, yieldRun := 0, queue := queue } :: cs)
      [⟨.host c.host, .preempted k taker.host⟩] := by
  refine ⟨he, ⟨[taker], cs, hL, hne, resolveStop_of_yielding (d := { c with queue := queue }) hc rfl hne⟩,
    settle_of_taking htaking ?_⟩
  rintro d (_ | ⟨_, hd⟩)
  · rfl
  · exact hw d hd

/-- A LEAVING or ENDING claim that stops leaves the taker its place. -/
theorem stopsTo_of_leaves {reason : Option EndReason} (hc : c.state.Leaves reason) (queue : List Entry) :
    StopsTo k L c queue (taker :: cs) (claimEndedNotice k c.host reason) :=
  ⟨he, ⟨[taker], cs, hL, hne, resolveStop_of_leaves (pre := [taker]) (d := { c with queue := queue }) hc rfl hne⟩,
    settle_of_taking htaking hw⟩

end stopsTo

section behindTaker
variable {s : State} {k : LineNo} {taker c : Claim} {cs : List Claim} {e : Entry} {rest : List Entry}
  (h : RunsBehindTaker s k taker c cs e rest)
include h

theorem RunsBehindTaker.stopsTo_of_yielding (hc : c.state = .yielding) (queue : List Entry) :
    StopsTo k (s.lines.get k) c queue (taker :: { c with state := .waiting, yieldRun := 0, queue := queue } :: cs)
      [⟨.host c.host, .preempted k taker.host⟩] := by
  have hhosts := h.hosts
  obtain ⟨he, hL, htaking, -, -, hcs⟩ := h
  exact Machine.stopsTo_of_yielding he hL htaking hhosts (fun d hd => (hcs d hd).2) hc queue

theorem RunsBehindTaker.stopsTo_of_leaves {reason : Option EndReason} (hc : c.state.Leaves reason)
    (queue : List Entry) :
    StopsTo k (s.lines.get k) c queue (taker :: cs) (claimEndedNotice k c.host reason) := by
  have hhosts := h.hosts
  obtain ⟨he, hL, htaking, -, -, hcs⟩ := h
  exact Machine.stopsTo_of_leaves he hL htaking hhosts (fun d hd => (hcs d hd).2) hc queue

end behindTaker

/-- The only claim of a line, LEAVING or ENDING, that stops leaves it empty. -/
theorem stopsTo_of_alone {L : LineState} {k : LineNo} {c : Claim} {reason : Option EndReason} (he : L.engine = .running)
    (hL : L.claims = [c]) (hc : c.state.Leaves reason) (queue : List Entry) :
    StopsTo k L c queue [] (claimEndedNotice k c.host reason) :=
  ⟨he, ⟨[], [], hL, by simp, resolveStop_of_leaves (pre := []) (post := []) (d := { c with queue := queue }) hc rfl
    (by simp)⟩, rfl⟩

/-! ### What a point decides (R74, R78 to R80) -/

theorem EndsNaturally.not_sense {k : LineNo} {L : LineState} {e : Entry} {i : Instr} (h : EndsNaturally k L e i) :
    ∀ d l, e.seg.body ≠ .sense d l := by
  rcases h with ⟨level, duration, hb, -⟩ | ⟨period, active, pol, count, hb, -⟩ | ⟨source, pol, durations, j, hb, -⟩ <;>
    simp [hb]

/-- A YIELDING or displaced claim stops at a natural end: under cut mode CYCLE, with no yield run left, and where the
next segment is not joined. -/
theorem goesOnAtEnd_eq_none {cut : CutMode} {c : Claim} {rest : List Entry}
    (hc : c.state = .yielding ∨ c.state = .leaving true)
    (h : cut = .cycle ∨ c.yieldRun = 0 ∨ ∀ e2 rest2, rest = e2 :: rest2 → e2.seg.join = false) :
    goesOnAtEnd cut c rest = none := by
  have hrun : cut = .cycle ∨ yieldRunGoesOn c.yieldRun rest = none := by
    rcases h with h | h | h
    · exact .inl h
    · right; cases rest <;> simp [yieldRunGoesOn, h]
    · right
      cases rest with
      | nil => rfl
      | cons e2 rest2 => simp [yieldRunGoesOn, h e2 rest2 rfl]
  rcases hrun with rfl | hrun <;> rcases hc with hc | hc
  · simp only [goesOnAtEnd, hc]
  · simp only [goesOnAtEnd, hc]
  · simp only [goesOnAtEnd, hc, hrun]; cases cut <;> rfl
  · simp only [goesOnAtEnd, hc, hrun]; cases cut <;> rfl

theorem goesOnAtEnd_eq_some {c : Claim} {e2 : Entry} {rest2 : List Entry} {n : Nat}
    (hc : c.state = .yielding ∨ c.state = .leaving true) (hn : c.yieldRun = n + 1) (hj : e2.seg.join = true) :
    goesOnAtEnd .segment c (e2 :: rest2) = some n := by
  rcases hc with hc | hc <;> simp [goesOnAtEnd, hc, yieldRunGoesOn, hn, hj]

theorem goesOnAtEnd_of_ending {c : Claim} {cause : EndingCause} (hc : c.state = .ending cause) (cut : CutMode)
    (rest : List Entry) : goesOnAtEnd cut c rest = none := by
  simp only [goesOnAtEnd, hc]

theorem stopsAtCyclePoint_of_ending {c : Claim} {cause : EndingCause} (hc : c.state = .ending cause) (cut : CutMode)
    (point : Bool) (rest : List Entry) : stopsAtCyclePoint cut c point rest = true := by
  simp only [stopsAtCyclePoint, hc]

theorem stopsAtCyclePoint_of_cycle {c : Claim} (hc : c.state = .yielding ∨ c.state = .leaving true) (point : Bool)
    (rest : List Entry) : stopsAtCyclePoint .cycle c point rest = true := by
  rcases hc with hc | hc <;> simp only [stopsAtCyclePoint, hc]

/-- Under cut mode SEGMENT a cycle point that is no segment point stops no claim (R74). -/
theorem stopsAtCyclePoint_of_segment {c : Claim} (hc : c.state = .yielding ∨ c.state = .leaving true)
    (rest : List Entry) : stopsAtCyclePoint .segment c false rest = false := by
  rcases hc with hc | hc <;> simp only [stopsAtCyclePoint, hc, Bool.false_and]

/-- The natural end of a segment behind which the claim goes on with its next. -/
theorem naturalEnd_next {ctx : LineCtx} {L : LineState} {pre post : List Claim} {c : Claim} {e e2 : Entry}
    {rest2 : List Entry} {run : Nat} (hL : L.claims = pre ++ c :: post) (hne : ∀ d ∈ pre ++ post, d.host ≠ c.host)
    (hgoes : goesOnAtEnd (headCut L.claims) c (e2 :: rest2) = some run) (hh : e2.seg.isContinuousHold = false)
    (r : SenseResult) (v : Nat) : naturalEnd ctx L c e (e2 :: rest2) r v =
      ⟨{ nextAfterDone ctx L c post e2 rest2 with
          claims := pre ++ { c with queue := e2 :: rest2, yieldRun := run } :: post },
        endPosts ctx.line L c e .done r v, []⟩ := by
  have hclaims : ((endRunning L c e (e2 :: rest2) .done).withQueue c.host (e2 :: rest2) run).claims =
      pre ++ { c with queue := e2 :: rest2, yieldRun := run } :: post := by
    rw [LineState.withQueue, endRunning_claims hL hne]
    exact mapHost_append _ rfl hne
  simp only [naturalEnd, hgoes]
  rw [advance_starts (by exact .inr rfl) (.inl hh)]
  simp only [LineOut.afterSeg, LineOut.quiet, hclaims, List.append_nil]
  rfl

/-- The outcome of a YIELDING claim's cut: kept under RESTART with join clear (R76). -/
theorem cutOutcome_of_yielding {c : Claim} (hc : c.state = .yielding) (g : Segment) :
    cutOutcome c g = if !g.join && decide (g.policy = .restart) then .cutKept else .cutDropped := by
  simp only [cutOutcome, hc]
  cases g.join <;> cases g.policy <;> rfl

theorem endPosts_cut {k : LineNo} {L : LineState} {c : Claim} {e : Entry} (kept : Bool) :
    endPosts k L c e (if kept then .cutKept else .cutDropped) .aborted 0 = lostPosts k c L ++
      (if kept then [] else [⟨.host c.host, .segmentEnded k e.seg.label .cutDropped⟩]) := by
  cases kept <;> simp [endPosts, amendLostNotice_eq, endNotice]

/-- A cycle of a PULSE ends and the next begins with the record as it is: its claim is as it was. -/
theorem nextCycle_of_not_staged {L : LineState} {pre post : List Claim} {f : Front} {period active count : Word16}
    {pol : Polarity} (hL : L.claims = pre ++ f.claim :: post) (hne : ∀ d ∈ pre ++ post, d.host ≠ f.claim.host)
    (hq : f.claim.queue = f.entry :: f.rest) (hb : f.entry.seg.body = .pulse period active pol count)
    (hs : L.staged = none) : nextCycle L f = { L with
      startedAtEnd := false
      progress := ⟨if active = 0 then .inactive else .active, 0, L.progress.completed + 1⟩ } := by
  have hbody : f.entry.seg.body.amended L.staged = f.entry.seg.body := by rw [hb, hs]; rfl
  have hclaims : mapHost f.claim.host (fun d => { d with queue := f.entry :: f.rest, yieldRun := f.claim.yieldRun })
      L.claims = L.claims := by
    rw [hL, mapHost_append _ rfl hne, ← hq]
  simp only [nextCycle, LineState.withQueue, hbody, hclaims]
  rw [← hs, hb]
  rfl

/-! ### The obligation, by the state of the claim -/

theorem leaves_of_ending {st : ClaimState} {cause : EndingCause} (h : st = .ending cause) : st.Leaves cause.reason :=
  .inl ⟨cause, h, rfl⟩

section points
variable {k : LineNo} {s : State} {c : Claim} {e : Entry} {rest left : List Entry} {out : List Claim}
  {posts : List Post}
  {i : Instr} (hf : (s.lines.get k).front = some ⟨c, e, rest⟩) (hg : 0 < guardUnits s.map k)
include hf hg

/-- A claim stops at a natural end (R7). -/
theorem exec_stops_naturally (hi : EndsNaturally k (s.lines.get k) e i)
    (hstop : goesOnAtEnd (headCut (s.lines.get k).claims) c rest = none)
    (h : StopsTo k (s.lines.get k) c rest out posts) : exec i s =
      .next (s.updateLine k ⟨guardedWith (guardUnits s.map k) (s.lines.get k) out,
        lostPosts k c (s.lines.get k) ++ donePosts k c e, posts⟩) := by
  rw [exec_of_endsNaturally hf hi, naturalEnd_stops (ctx := s.ctx k) hg h hstop, endPosts_done hi.not_sense]
  rfl

/-- A LEAVING or ENDING claim stops at a cycle point: its segment is STOPPED (R78, R79). -/
theorem exec_stops_at_cycle (hi : EndsACycle k (s.lines.get k) e i)
    (hstop : stopsAtCyclePoint (headCut (s.lines.get k).claims) c false rest = true)
      (hc : cutOutcome c e.seg = .stopped)
    (h : StopsTo k (s.lines.get k) c rest out posts) : exec i s =
      .next (s.updateLine k ⟨guardedWith (guardUnits s.map k) (s.lines.get k) out,
        brokenOffPosts k (s.lines.get k) .stopped, posts⟩) := by
  have hposts := endPosts_of_front hf (.inl rfl) k
  rw [exec_of_endsACycle hf hi hstop, cutAndStop_stops (ctx := s.ctx k) hg (by rw [hc]; exact h), hc]
  exact congrArg (fun ps => Host.Outcome.next (s.updateLine k ⟨_, ps, posts⟩)) hposts

end points

/-- Settles O47: at each point the claim stops by its state and the cut mode of the head, or goes on. -/
theorem yieldAtTheCyclePoint : Obligations.YieldAtTheCyclePoint := by
  refine ⟨?cut, ?behind, ?alone⟩
  case cut =>
    intro k s taker c cs e rest period active count pol he hL htaking hcut hc hq hne hcs hb hcont hcounted hg
    have hrun : RunsBehindTaker s k taker c cs e rest := ⟨he, hL, htaking, hq, hne, hcs⟩
    refine ⟨_, rfl, ?_⟩
    have hends : pulseEnds c count ((s.lines.get k).progress.completed + 1) rest = false := by
      rw [pulseEnds]
      split
      next h => simp [hcont h, hc]
      next h => exact decide_eq_false (by have := hcounted h; omega)
    have hstops : stopsAtCyclePoint (headCut (s.lines.get k).claims) c (count == 0) rest = true := by
      rw [hrun.headCut, hcut, stopsAtCyclePoint_of_cycle (.inl hc)]
    have hqueue : queueAfterEnd e rest (cutOutcome c e.seg) =
        if (!e.seg.join && decide (e.seg.policy = .restart)) then { e with kept := true } :: rest else rest := by
      rw [cutOutcome_of_yielding hc]
      split <;> rfl
    have hstopsTo := hrun.stopsTo_of_yielding hc (queueAfterEnd e rest (cutOutcome c e.seg))
    rw [exec_pulseCycleEnd (hrun.front (by rw [hc]; rfl)) hb hends hstops, if_neg (by simp), if_pos rfl,
      cutAndStop_stops (ctx := s.ctx k) hg hstopsTo, hqueue, cutOutcome_of_yielding hc, endPosts_cut]
    rfl
  case behind =>
    intro k s taker c cs e rest i hrun hg
    refine ⟨fun period active pol count hcut hc hb hmore hstaged => ?goesOn,
      fun n e2 rest2 hi hcut hc hn hr hj hh => ?next,
      fun hi hpoint => ⟨fun hc => ?yields, fun hc => ?displaced⟩, fun hi hcut hc => ?displacedCut,
      fun cause posts hc hposts => ⟨fun hi => ?endingCut, fun hi => ?ending⟩⟩
    case goesOn =>
      have hx : c.state.isExecuting = true := by rcases hc with hc | hc <;> rw [hc] <;> rfl
      have hcount : count ≠ 0 := by rintro rfl; simp at hmore
      have hends : pulseEnds c count ((s.lines.get k).progress.completed + 1) rest = false := by
        rw [pulseEnds, if_neg hcount]
        exact decide_eq_false (by omega)
      have hpoint : (count == 0) = false := by simpa using hcount
      have hstops : stopsAtCyclePoint (headCut (s.lines.get k).claims) c (count == 0) rest = false := by
        rw [hrun.headCut, hcut, hpoint, stopsAtCyclePoint_of_segment hc]
      rw [exec_pulseCycleEnd (hrun.front hx) hb hends hstops, if_neg Bool.false_ne_true, if_neg Bool.false_ne_true,
        nextCycle_of_not_staged (f := ⟨c, e, rest⟩) hrun.claims hrun.hosts hrun.queue hb hstaged]
      rfl
    case next =>
      have hx : c.state.isExecuting = true := by rcases hc with hc | hc <;> rw [hc] <;> rfl
      subst hr
      have hgoes : goesOnAtEnd (headCut (s.lines.get k).claims) c (e2 :: rest2) = some n := by
        rw [hrun.headCut, hcut, goesOnAtEnd_eq_some hc hn hj]
      rw [exec_of_endsNaturally (hrun.front hx) hi, naturalEnd_next hrun.claims hrun.hosts hgoes hh,
        endPosts_done hi.not_sense]
      rfl
    case yields =>
      refine exec_stops_naturally (hrun.front (by rw [hc]; rfl)) hg hi ?_ (hrun.stopsTo_of_yielding hc rest)
      rw [hrun.headCut, goesOnAtEnd_eq_none (.inl hc) hpoint]
    case displaced =>
      refine exec_stops_naturally (hrun.front (by rw [hc]; rfl)) hg hi ?_
        (hrun.stopsTo_of_leaves (.inr (.inl ⟨hc, rfl⟩)) rest)
      rw [hrun.headCut, goesOnAtEnd_eq_none (.inr hc) hpoint]
    case displacedCut =>
      refine exec_stops_at_cycle (hrun.front (by rw [hc]; rfl)) hg hi ?_ (by simp only [cutOutcome, hc])
        (hrun.stopsTo_of_leaves (.inr (.inl ⟨hc, rfl⟩)) rest)
      rw [hrun.headCut, hcut, stopsAtCyclePoint_of_cycle (.inr hc)]
    case endingCut =>
      obtain rfl : posts = claimEndedNotice k c.host cause.reason := hposts.trans (by cases cause <;> rfl)
      exact exec_stops_at_cycle (hrun.front (by rw [hc]; rfl)) hg hi (stopsAtCyclePoint_of_ending hc _ _ _)
        (by simp only [cutOutcome, hc]) (hrun.stopsTo_of_leaves (leaves_of_ending hc) rest)
    case ending =>
      obtain rfl : posts = claimEndedNotice k c.host cause.reason := hposts.trans (by cases cause <;> rfl)
      exact exec_stops_naturally (hrun.front (by rw [hc]; rfl)) hg hi (goesOnAtEnd_of_ending hc _ _)
        (hrun.stopsTo_of_leaves (leaves_of_ending hc) rest)
  case alone =>
    intro k s c e rest i he hL hq hg
    have hfront : c.state.isExecuting = true → (s.lines.get k).front = some ⟨c, e, rest⟩ := fun hx =>
      LineState.front_of he (LineState.executing_of_head hL hx) hq
    refine ⟨fun cause posts hc hposts => ⟨fun hi => ?endingCut, fun hi => ?ending⟩, fun hc hi => ?leaving⟩
    case endingCut =>
      obtain rfl : posts = claimEndedNotice k c.host cause.reason := hposts.trans (by cases cause <;> rfl)
      exact exec_stops_at_cycle (hfront (by rw [hc]; rfl)) hg hi (stopsAtCyclePoint_of_ending hc _ _ _)
        (by simp only [cutOutcome, hc]) (stopsTo_of_alone he hL (leaves_of_ending hc) rest)
    case ending =>
      obtain rfl : posts = claimEndedNotice k c.host cause.reason := hposts.trans (by cases cause <;> rfl)
      exact exec_stops_naturally (hfront (by rw [hc]; rfl)) hg hi (goesOnAtEnd_of_ending hc _ _)
        (stopsTo_of_alone he hL (leaves_of_ending hc) rest)
    case leaving =>
      have hf := hfront (by rw [hc]; rfl)
      have hend : exec i s = .next (s.updateLine k (naturalEnd (s.ctx k) (s.lines.get k) c e rest .aborted 0))
          ∧ ∀ d l, e.seg.body ≠ .sense d l := by
        rcases hi with hi | ⟨period, active, pol, hb, rfl⟩
        · exact ⟨exec_of_endsNaturally hf hi, hi.not_sense⟩
        · have hends : pulseEnds c 0 ((s.lines.get k).progress.completed + 1) rest = true := by simp [pulseEnds, hc]
          exact ⟨(exec_pulseCycleEnd hf hb hends rfl).trans (by rw [if_pos rfl]), by simp [hb]⟩
      obtain ⟨hexec, hb⟩ := hend
      refine ⟨fun hr => ?_, fun e2 rest2 hr hh => ?_⟩ <;> subst hr
      · rw [hexec, naturalEnd_drains (ctx := s.ctx k) hg hL he hc, endPosts_done hb]
        rfl
      · have hgoes : goesOnAtEnd (headCut (s.lines.get k).claims) c (e2 :: rest2) = some c.yieldRun := by
          simp only [goesOnAtEnd, hc]
        rw [hexec, naturalEnd_next (pre := []) (post := []) hL (by simp) hgoes hh, endPosts_done hb]
        rfl

end Sys2Proof.Machine
end

section
/-! PROOFS. A pad reading (R132, R133). -/

namespace Sys2Proof.Machine

theorem padMismatches_iff {pad : PadLevel} {level : Level} : padMismatches pad level = true ↔
    (level = .low ∧ pad ≠ .low) ∨ (level = .high ∧ pad ≠ .high) := by
  cases level <;> cases pad <;> decide

theorem padMismatches_padMatching (pad : PadLevel) (level : Level) :
    padMismatches (padMatching pad level) level = false := by
  cases level <;> rfl

/-- A timer that goes on is where it was against its window, and one that is cleared is not at it. -/
theorem not_timerReached_padTimer {window : Nat} {timer : Option Nat} {mismatched : Bool}
    (h : timerReached window timer = true) : (!timerReached window (padTimer timer mismatched)) = !mismatched := by
  obtain ⟨n, rfl, -⟩ := timerReached_iff.mp h
  cases mismatched
  · rfl
  · exact congrArg not h

/-- What a reading leaves of the line: the pad, the timer, and the mark of a fault it forestalls. -/
theorem padReads_eq {ctx : LineCtx} {L : LineState} {reads : PadLevel} {mismatched due : Bool}
    (hm : mismatched = ((L.drive ctx).compared ctx.check && padMismatches reads (L.drive ctx).level))
    (hdue : due = true ↔ L.engine.canFault = true ∧ timerReached ctx.window L.mismatch = true) :
    padReads ctx L reads = { L with
      pad := reads
      mismatch := padTimer L.mismatch mismatched
      faultForestalled := L.faultForestalled || (due && !mismatched) } := by
  have htimer : (if (L.drive ctx).compared ctx.check = true then padTimer L.mismatch
    (padMismatches reads (L.drive ctx).level)
      else none) = padTimer L.mismatch mismatched := by
    rw [hm]
    cases (L.drive ctx).compared ctx.check <;> rfl
  have hmark : (LineState.forestall ctx.window L ctx.window
      { L with pad := reads, mismatch := padTimer L.mismatch mismatched }).faultForestalled
        = (L.faultForestalled || (due && !mismatched)) := by
    rw [forestall_mark_of_engine (by rfl), ← Bool.eq_iff_iff.mpr (hdue.trans Bool.and_eq_true_iff.symm)]
    cases hd : due
    · rfl
    · exact congrArg _ (congrArg _ (not_timerReached_padTimer (hdue.mp hd).2))
  calc padReads ctx L reads
      = LineState.forestall ctx.window L ctx.window
          { L with pad := reads, mismatch := padTimer L.mismatch mismatched } := by rw [← htimer]; rfl
    _ = _ := by rw [← hmark]; rfl

/-- Settles O48: the reading of each event, mismatching or not, against the level the line drives. -/
theorem padReadingDrivesTheTimer : Obligations.PadReadingDrivesTheTimer := by
  intro k s d due hd hdue
  subst hd
  have hdue' : due = true ↔ (s.lines.get k).engine.canFault = true
      ∧ timerReached (s.ctx k).window (s.lines.get k).mismatch = true := hdue.trans
      (and_congr_right' timerReached_iff.symm)
  refine ⟨fun reads => ?reading, _, rfl, ?matching⟩
  case reading =>
    have hm : ∀ m : Bool, (m = true ↔ checkEnable s.map k = true ∧ ((s.lines.get k).drive (s.ctx k)).checked = true
        ∧ ((((s.lines.get k).drive (s.ctx k)).level = .low ∧ reads ≠ .low)
          ∨ (((s.lines.get k).drive (s.ctx k)).level = .high ∧ reads ≠ .high))) →
        m = (((s.lines.get k).drive (s.ctx k)).compared (s.ctx k).check
          && padMismatches reads ((s.lines.get k).drive (s.ctx k)).level) := by
      intro m hm
      rw [Bool.eq_iff_iff, hm, Bool.and_eq_true, Drive.compared_iff, padMismatches_iff]
      refine ⟨fun ⟨hc, hk, h⟩ => ⟨⟨hc, hk, ?_⟩, h⟩, fun ⟨⟨hc, hk, _⟩, h⟩ => ⟨hc, hk, h⟩⟩
      rcases h with ⟨h, -⟩ | ⟨h, -⟩ <;> simp [h]
    change Host.Outcome.next ({ s with lines := s.lines.set k (padReads (s.ctx k) (s.lines.get k) reads) } : State) = _
    rw [padReads_eq (hm _ decide_eq_true_iff) hdue', padTimer]
    simp only [decide_eq_true_iff]
  case matching =>
    change ({ s with lines := s.lines.set k (padReads (s.ctx k) (s.lines.get k)
      (padMatching (s.lines.get k).pad ((s.lines.get k).drive (s.ctx k)).level)) } : State) = _
    rw [padReads_eq (mismatched := false) (by rw [padMismatches_padMatching, Bool.and_false]) hdue', Bool.not_false,
      Bool.and_true]
    rfl

end Sys2Proof.Machine
end

section
/-! PROOFS. A line that is broken off in FAULTED or HALTED (R15), and a readback fault (R134 to R136). -/

namespace Sys2Proof.Machine

/-! ### A line that enters FAULTED or HALTED (R15) -/

theorem brokenOffPosts_of_front {L : LineState} {c : Claim} {e : Entry} {rest : List Entry}
    (hf : L.front = some ⟨c, e, rest⟩) (hb : ∀ d l, e.seg.body ≠ .sense d l) (k : LineNo) (o : SegOutcome) :
    brokenOffPosts k L o = lostPosts k c L ++ [⟨.host c.host, .segmentEnded k e.seg.label o⟩] := by
  simp only [brokenOffPosts, hf]

theorem queueAfterEnd_of_breaksOff {o : SegOutcome} (ho : o.BreaksOff) (e : Entry) (rest : List Entry) :
    queueAfterEnd e rest o = rest := by
  rcases ho with rfl | rfl | rfl <;> rfl

/-- A line without an executing claim keeps its list. -/
theorem enterSafeStop_of_no_executing {L : LineState} (hx : L.executing = none) (ctx : LineCtx) (target : EngineState)
    (o : SegOutcome) : enterSafeStop ctx L target o = .quiet
      { L.clearRun with engine := target, guardRemaining := 0 } := by
  simp only [enterSafeStop, hx]

section holdingHead
variable {ctx : LineCtx} {L : LineState} {c : Claim} {cs : List Claim} {target : EngineState} {o : SegOutcome}
  (hL : L.claims = c :: cs) (hc : c.state = .holding) (ht : target = .faulted ∨ target = .halted)
include hL hc ht

/-- A HOLDING head keeps its claim and what is queued behind its running segment. -/
theorem enterSafeStop_of_running {e : Entry} {rest : List Entry} {posts : List Post} (he : L.engine = .running)
    (hq : c.queue = e :: rest)
    (hne : ∀ d ∈ cs, d.host ≠ c.host) (ho : o.BreaksOff)
    (hposts : brokenOffPosts ctx.line L o = posts) : enterSafeStop ctx L target o =
      ⟨{ L.clearRun with
          engine := target, guardRemaining := 0, lastEnded := some ⟨o, false⟩,
            claims := { c with queue := rest } :: cs },
        posts, []⟩ := by
  have hx : L.executing = some c := LineState.executing_of_head hL (by rw [hc]; rfl)
  have hends := (endPosts_of_front (LineState.front_of he hx hq) ho ctx.line).trans hposts
  have hexec : ({ L.clearRun with engine := target, guardRemaining := 0, lastEnded := some ⟨o, false⟩
                                  claims := { c with queue := rest } :: cs } : LineState).executing =
      some { c with queue := rest } := LineState.executing_of_head rfl (by exact hc ▸ rfl)
  simp only [enterSafeStop, hx, he, hq, endRunning_head hL hne, queueAfterEnd_of_breaksOff ho]
  rw [checkNow_of_kept hexec (by exact .inr ht) (.inl hc), hends]
  simp only [LineOut.afterSeg, LineOut.quiet, List.append_nil]

theorem enterSafeStop_of_not_running (he : L.engine ≠ .running) :
    enterSafeStop ctx L target o = .quiet { L.clearRun with engine := target, guardRemaining := 0 } := by
  have hexec : ({ L.clearRun with engine := target, guardRemaining := 0 } : LineState).executing = some c :=
    LineState.executing_of_head hL (by rw [hc]; rfl)
  rw [← checkNow_of_kept hexec (by exact .inr ht) (.inl hc) ctx]
  simp only [enterSafeStop, LineState.executing_of_head hL (show c.state.isExecuting = true by rw [hc]; rfl)]
  split
  next h _ => exact absurd h he
  next => rfl

end holdingHead

/-! ### A line that is retired (R135) -/

theorem retireLine_of_running {ctx : LineCtx} {L : LineState} {f : Front} {posts : List Post} (hf : L.front = some f)
    (hne : ∀ d ∈ L.claims, d.state ≠ .ending .departed) (hposts : brokenOffPosts ctx.line L .fault = posts) :
      retireLine ctx L =
      ⟨{ L.clearRun with engine := .retired, guardRemaining := 0, lastEnded := none, claims := [] },
        posts, L.claims.map fun d => ⟨.host d.host, .claimEnded ctx.line .retired⟩⟩ := by
  have hends := (endPosts_of_front hf (.inr (.inl rfl)) ctx.line).trans hposts
  obtain ⟨he, hx, hq⟩ := LineState.front_eq hf
  have hended : (L.claims.filterMap fun d : Claim =>
      if d.state = .ending .departed then none else some (⟨.host d.host, .claimEnded ctx.line .retired⟩ : Post))
      = L.claims.map fun d => ⟨.host d.host, .claimEnded ctx.line .retired⟩ := by
    rw [← List.filterMap_eq_map]
    exact List.filterMap_congr fun d hd => if_neg (hne d hd)
  simp only [retireLine, claimEndedNotices_eq, hended, hx, he, hq, hends]

/-! ### The fault (R134 to R136) -/

theorem readbackFaultOut_of_no_timer {ctx : LineCtx} {L : LineState} (h : L.mismatch = none ∨ L.faultForestalled = true)
    (hentry : L.mismatchAtEntry = none) : readbackFaultOut ctx L = none := by
  have hno : ((L.mismatch.isSome && !L.faultForestalled) || L.mismatchAtEntry.isSome) = false := by
    rcases h with h | h <;> simp [h, hentry]
  simp [readbackFaultOut, hno]

/-- A timer ran to its window, at this instant or up to the entry to SETUP at it. -/
theorem readbackFaultOut_of_timer {ctx : LineCtx} {L : LineState}
    (h : (L.mismatch ≠ none ∧ L.faultForestalled = false) ∨ L.mismatchAtEntry ≠ none) (he : L.engine.canFault = true) :
    readbackFaultOut ctx L = some (faultLine ctx { L with mismatchAtEntry := none }) := by
  have hran : ((L.mismatch.isSome && !L.faultForestalled) || L.mismatchAtEntry.isSome) = true := by
    rcases h with ⟨h, hf⟩ | h
    · simp [Option.isSome_iff_ne_none.mpr h, hf]
    · simp [Option.isSome_iff_ne_none.mpr h]
  exact if_pos ⟨hran, he⟩

theorem exec_readbackFault {k : LineNo} {s : State} {o : Option LineOut}
    (h : readbackFaultOut (s.ctx k) (s.lines.get k) = o) : exec (.readbackFault k) s = .next (s.applyLine k o) := by
  rw [← h]; rfl

/-- Settles O49: the fault by the device state and the count, on the line whose timer ran. -/
theorem readbackFaultIsCounted : Obligations.ReadbackFaultIsCounted := by
  refine fun k s => ⟨fun h hentry => exec_readbackFault (readbackFaultOut_of_no_timer h hentry),
    fun h => ⟨fun hd he hclaims => ?setup, fun hd c cs e rest ⟨he, hL, hc, hq, hne⟩ hb => ?run⟩⟩
  case setup =>
    rw [exec_readbackFault (readbackFaultOut_of_timer h (by rw [he]; rfl)),
      faultLine_of_setup (ctx := s.ctx k) hd (by exact hclaims)]
    rfl
  case run =>
    have hfront : ∀ L : LineState, L.engine = .running → L.claims = c :: cs → L.front =
      some ⟨c, e, rest⟩ := fun L he hL =>
      LineState.front_of he (LineState.executing_of_head hL (by rw [hc]; rfl)) hq
    refine ⟨fun hcount => ?faulted, fun hcount hw => ?retired⟩ <;>
      rw [exec_readbackFault (readbackFaultOut_of_timer h (by rw [he]; rfl))]
    case faulted =>
      have hstop := enterSafeStop_of_running (ctx := s.ctx k)
        (L := { s.lines.get k with mismatchAtEntry := none, faultCount := (s.lines.get k).faultCount + 1 })
        (by exact hL) hc (.inl rfl) (by exact he) hq hne (o := .fault) (.inr (.inl rfl))
        (brokenOffPosts_of_front (hfront _ he hL) hb _ _)
      have hfour : (s.lines.get k).faultCount + 1 < 4 := by omega
      simp only [faultLine, show (s.ctx k).device = .run from hd, if_pos hfour, hstop]
      rfl
    case retired =>
      have hstop := retireLine_of_running (ctx := s.ctx k)
        (L := { s.lines.get k with mismatchAtEntry := none, faultCount := (s.lines.get k).faultCount + 1 })
        (hfront _ he hL) (by
          rw [hL]
          rintro d (_ | ⟨_, hd⟩)
          · simp [hc]
          · simp [hw d hd])
        (brokenOffPosts_of_front (hfront _ he hL) hb _ _)
      have hfour : ¬ (s.lines.get k).faultCount + 1 < 4 := by omega
      simp only [faultLine, show (s.ctx k).device = .run from hd, if_neg hfour, hstop]
      simp only [hcount, hL]
      rfl

end Sys2Proof.Machine
end

section
/-! PROOFS. The supply watch enters LOW (R15, R139, R141). -/

namespace Sys2Proof.Machine

/-! ### An event on every line: its notices (R8, R121) -/

theorem State.updateLines_posts (s : State) (f : LineNo → LineOut) (extra : List (List Post)) : ∃ posts : List Post,
    posts.Perm (((List.finRange 8).map fun k => (f k).posts).flatten ++ extra.flatten)
      ∧ (s.updateLines f extra).ports = (s.postAll posts).ports := by
  obtain ⟨posts, hperm, hports⟩ := State.postMerged_ports_perm
    { s with lines := .ofFn fun k => remonitor (s.ctx k) (s.lines.get k) (s.ctx k) (f k).line }
    ((PerLine.ofFn fun k => (f k).posts).toList ++ extra)
  rw [PerLine.toList_ofFn, List.flatten_append] at hperm
  exact ⟨posts, hperm, hports.trans (State.postAll_ports_congr posts rfl rfl rfl)⟩

/-! ### A line at the entry to LOW (R141) -/

theorem LineState.drive_of_not_canFault {ctx : LineCtx} {L : LineState} (h : L.engine.canFault = false) :
    L.drive ctx = .floating := by
  cases he : L.engine with
  | idle | running | starved | guard => simp [he, EngineState.canFault] at h
  | faulted | retired | halted => simp only [LineState.drive, he]

/-- The watch in LOW, the lines as they were. -/
def inLow (s : State) : State := { s with supply := .low, settle := none }

/-- What the entry to LOW does to one line. -/
def haltedOut (ctx : LineCtx) (L : LineState) : LineOut :=
  if L.engine.halts then enterSafeStop ctx L .halted .supply else .quiet L

theorem supplyFallsLow_of_ok {s : State} (h : s.supply = .ok) : supplyFallsLow s =
    (inLow s).updateLines (fun k => haltedOut ((inLow s).ctx k) (s.lines.get k)) [[⟨.all, .supplyLow⟩]] := by
  simp only [supplyFallsLow, h]
  rfl

theorem EngineState.halts_iff {E : EngineState} : E.halts = true ↔ ¬ (E = .faulted ∨ E = .retired) := by
  cases E <;> decide

section haltedOut
variable (ctx : LineCtx) {L : LineState}

theorem haltedOut_of_halts (h : ¬ (L.engine = .faulted ∨ L.engine = .retired)) :
    haltedOut ctx L = enterSafeStop ctx L .halted .supply := if_pos (EngineState.halts_iff.mpr h)

theorem haltedOut_of_stays (h : L.engine = .faulted ∨ L.engine = .retired) : haltedOut ctx L = .quiet L :=
  if_neg (mt EngineState.halts_iff.mp (not_not_intro h))

theorem haltedOut_kept (L : LineState) : L.Kept (haltedOut ctx L).line := by
  rw [haltedOut]
  split
  · exact enterSafeStop_kept ctx L .halted .supply
  · exact ⟨rfl, rfl, rfl⟩

theorem haltedOut_engine (L : LineState) : (haltedOut ctx L).line.engine =
    if L.engine = .faulted ∨ L.engine = .retired then L.engine else .halted := by
  split
  next h => rw [haltedOut_of_stays ctx h]; rfl
  next h => rw [haltedOut_of_halts ctx h, enterSafeStop_engine ctx L .halted .supply rfl]

/-- A line without an executing claim keeps its list, and nothing is posted. -/
theorem haltedOut_of_no_executing (hx : L.executing = none) :
    (haltedOut ctx L).line.claims = L.claims ∧ (haltedOut ctx L).posts = [] := by
  by_cases h : L.engine = .faulted ∨ L.engine = .retired
  · rw [haltedOut_of_stays ctx h]; exact ⟨rfl, rfl⟩
  · rw [haltedOut_of_halts ctx h, enterSafeStop_of_no_executing hx]; exact ⟨rfl, rfl⟩

/-- A HOLDING head keeps its claim; its running segment ends SUPPLY. -/
theorem haltedOut_of_holding (hl : L.ListLaw) {c : Claim} {cs : List Claim} (hL : L.claims = c :: cs)
    (hc : c.state = .holding) (hf : L.engine ≠ .faulted) :
    (haltedOut ctx L).line.claims =
        { c with queue := if L.engine = .running then c.queue.tail else c.queue } :: cs
      ∧ (haltedOut ctx L).posts = brokenOffPosts ctx.line L .supply := by
  obtain ⟨⟨hnodup, -⟩, hidle, hrunning, -⟩ := hl
  have hretired : L.engine ≠ .retired := fun he => by simp [hidle (.inr he)] at hL
  have hx : L.executing = some c := LineState.executing_of_head hL (by rw [hc]; rfl)
  rw [haltedOut_of_halts ctx (not_or.mpr ⟨hf, hretired⟩)]
  by_cases he : L.engine = .running
  · obtain ⟨d, hd, hqueue⟩ := hrunning he
    obtain rfl : c = d := Option.some.inj (hx.symm.trans hd)
    obtain ⟨e, rest, hq⟩ := List.exists_cons_of_ne_nil hqueue
    have hne : ∀ d ∈ cs, d.host ≠ c.host := by
      rw [hL, List.map_cons, List.nodup_cons] at hnodup
      exact fun d hd hh => hnodup.1 (hh ▸ List.mem_map_of_mem hd)
    rw [enterSafeStop_of_running hL hc (.inr rfl) he hq hne (.inr (.inr rfl)) rfl, if_pos he, hq]
    exact ⟨rfl, List.append_nil _⟩
  · rw [enterSafeStop_of_not_running hL hc (.inr rfl) he, if_neg he,
      brokenOffPosts_of_no_front (LineState.front_of_not_running he)]
    exact ⟨hL, rfl⟩

end haltedOut

/-! ### The obligation -/

/-- Settles O51: each line by what the entry to LOW does to it, the ports by the notices of all lines. -/
theorem supplyLowHaltsTheLines : Obligations.SupplyLowHaltsTheLines := by
  refine fun s => ⟨fun h => ?again, fun hs hl => ?enters, fun h => ⟨?start, ?clear⟩, fun h => ⟨?startOk, ?clearOk⟩⟩
  case enters =>
    obtain ⟨posts, hperm, hports⟩ := State.updateLines_posts (inLow s)
      (fun k => haltedOut ((inLow s).ctx k) (s.lines.get k)) [[⟨.all, .supplyLow⟩]]
    refine ⟨_, rfl, ?_⟩
    rw [supplyFallsLow_of_ok hs]
    refine ⟨by simp [inLow], by simp [inLow], by simp [inLow], by simp [inLow], by simp [inLow], fun k => ?line,
      ⟨posts, _, hperm,
      hports.trans (State.postAll_ports_congr posts rfl rfl rfl), fun k => ⟨?none, fun c cs hL hc hf =>
        (haltedOut_of_holding _ (hl k) hL hc hf).2⟩⟩, fun h => ?port⟩
    case line =>
      rw [State.updateLines_lines, remonitor_engine, remonitor_faultCount, remonitor_arrivals, remonitor_claims,
        haltedOut_engine]
      obtain ⟨harrivals, hcount, -⟩ := haltedOut_kept ((inLow s).ctx k) (s.lines.get k)
      refine ⟨rfl, hcount, harrivals, ?_, fun hx => (haltedOut_of_no_executing _ hx).1,
        fun c cs hL hc hf => (haltedOut_of_holding _ (hl k) hL hc hf).1⟩
      rw [LineState.drive_of_not_canFault]
      · rfl
      · rw [remonitor_engine, haltedOut_engine]
        split
        next h => rcases h with h | h <;> rw [h] <;> rfl
        next => rfl
    case none =>
      rintro (h | h | hx)
      · rw [haltedOut_of_stays _ (.inl h)]; rfl
      · rw [haltedOut_of_stays _ (.inr h)]; rfl
      · exact (haltedOut_of_no_executing _ hx).2
    case port =>
      have hsame := State.updateLines_ports_same (inLow s)
        (fun k => haltedOut ((inLow s).ctx k) (s.lines.get k)) [[⟨.all, .supplyLow⟩]] h
      exact ⟨hsame.status, hsame.reply, hsame.preparing⟩
  case again =>
    change Host.Outcome.next (supplyFallsLow s) = _
    simp only [supplyFallsLow, h]
  case start | startOk =>
    change Host.Outcome.next (settleTimerStart s) = _
    simp only [settleTimerStart, h]
  case clear | clearOk =>
    change Host.Outcome.next (settleTimerCleared s) = _
    simp only [settleTimerCleared, h]

end Sys2Proof.Machine
end

section
/-! PROOFS. The supply watch returns to OK (R15, R142). -/

namespace Sys2Proof.Machine

/-! ### A line that leaves FAULTED or HALTED (R15) -/

/-- With a guard the line enters it; a list within its law keeps its states. -/
theorem leaveSafeStop_of_guard {ctx : LineCtx} {L : LineState} (hg : 0 < ctx.guard) (hl : ClaimsLaw L.claims) :
    leaveSafeStop ctx L = .quiet { L.clearRun with
      lastEnded := none, engine := .guard, guardRemaining := ctx.guard * 128 } := by
  rw [leaveSafeStop, guardOrTake, if_neg (Nat.pos_iff_ne_zero.mp hg), LineState.enterGuard, settle_of_claimsLaw hl]
  rfl

theorem leaveSafeStop_of_no_guard {ctx : LineCtx} (hg : ctx.guard = 0) (L : LineState) :
    leaveSafeStop ctx L = takeLine ctx { L.clearRun with lastEnded := none } L.claims := if_pos hg

/-- The take for a head that holds, or that is granted the line: the notice alone, where its queue is empty or its
oldest
segment starts (R13). -/
theorem takeLine_posts {ctx : LineCtx} {c : Claim} (hc : c.state = .taking ∨ c.state = .holding)
    (hq : c.queue = [] ∨ ∃ e rest, c.queue = e :: rest ∧ e.seg.join = false
      ∧ (e.seg.isContinuousHold = false ∨ rest = [])) (L : LineState) (cs : List Claim) :
    (takeLine ctx L (c :: cs)).posts = grantNotice ctx.line c := by
  have hrun : (takenRun ctx c).posts = [] := by
    rw [takenRun_of_taker hc]
    rcases hq with hq | ⟨e, rest, hq, hj, hh⟩
    · rw [hq]; rfl
    · rw [hq, runQueue_starts (.inl hj) (hh.imp_right fun h => ⟨h, rfl⟩)]
  simp [takeLine, takeEnds_of_taker hc, LineOut.posts, hrun]

/-! ### A line at the restore (R142) -/

/-- The watch in OK, the lines as they were. -/
def inOk (s : State) : State := { s with supply := .ok, settle := none }

/-- What the restore does to one line. -/
def restoredOut (ctx : LineCtx) (L : LineState) : LineOut :=
  if L.engine = .halted then leaveSafeStop ctx L else .quiet L

theorem supplyRestore_of_settled {s : State} (hlow : s.supply = .low) (hfirst : s.firstSettle = false)
    (hsettle : s.settle ≠ none) : supplyRestore s =
    (inOk s).updateLines (fun k => restoredOut ((inOk s).ctx k) (s.lines.get k)) [[⟨.all, .supplyRestored⟩]] := by
  have hdue : settling false s = true := by
    simp [settling, hlow, hfirst, Option.isSome_iff_ne_none.mpr hsettle]
  exact if_pos hdue

/-- No level depends on the supply state. -/
theorem drive_inOk (s : State) (k : LineNo) (L : LineState) : L.drive ((inOk s).ctx k) = L.drive (s.ctx k) := rfl

section restoredOut
variable {ctx : LineCtx} {L : LineState}

theorem restoredOut_of_halted (h : L.engine = .halted) : restoredOut ctx L = leaveSafeStop ctx L := if_pos h

theorem restoredOut_of_not_halted (h : L.engine ≠ .halted) : restoredOut ctx L = .quiet L := if_neg h

/-- Nothing is posted where nothing is taken. -/
theorem restoredOut_posts (hl : ClaimsLaw L.claims) (h : L.engine ≠ .halted ∨ 0 < ctx.guard ∨ L.claims = []) :
    (restoredOut ctx L).posts = [] := by
  by_cases he : L.engine = .halted
  · rw [restoredOut_of_halted he]
    rcases Nat.eq_zero_or_pos ctx.guard with hg | hg
    · have hnil : L.claims = [] := by
        rcases h with h | h | h
        · exact absurd he h
        · omega
        · exact h
      rw [leaveSafeStop_of_no_guard hg, hnil]; rfl
    · rw [leaveSafeStop_of_guard hg hl]; rfl
  · rw [restoredOut_of_not_halted he]; rfl

end restoredOut

/-- The monitor of a line that an event leaves as it is: the timer runs on where a level is compared, and nothing is
forestalled where it does. -/
theorem remonitor_quiet (ctx : LineCtx) (L : LineState) :
    (remonitor ctx L ctx L).mismatch =
        (if ctx.check = true ∧ (L.drive ctx).checked = true ∧ (L.drive ctx).level ≠ .float then L.mismatch else none)
      ∧ ((remonitor ctx L ctx L).mismatch = L.mismatch →
        (remonitor ctx L ctx L).faultForestalled = L.faultForestalled) := by
  refine ⟨?_, fun h => ?_⟩
  · rw [remonitor_mismatch, timerAfter_sameCtx, if_pos rfl]
  · rw [remonitor_mismatch] at h
    rw [remonitor_of_engine rfl, h]
    simp

/-- Settles O52: each line by what the restore does to it, the ports by the notices of all lines. -/
theorem supplyRestoreRunsTheGuards : Obligations.SupplyRestoreRunsTheGuards := by
  intro s hlow hfirst hsettle hl
  obtain ⟨posts, hperm, hports⟩ := State.updateLines_posts (inOk s)
    (fun k => restoredOut ((inOk s).ctx k) (s.lines.get k)) [[⟨.all, .supplyRestored⟩]]
  refine ⟨_, rfl, ?_⟩
  rw [supplyRestore_of_settled hlow hfirst hsettle]
  refine ⟨by simp [inOk], by simp [inOk], by simp [inOk], by simp [inOk], fun k => ?line,
    posts, _, hperm, hports.trans (State.postAll_ports_congr posts rfl rfl rfl),
    fun k => ⟨restoredOut_posts (ctx := (inOk s).ctx k) (hl k).1, fun c cs he hg hL hq => ?granted⟩⟩
  case line =>
    rw [State.updateLines_lines]
    refine ⟨fun he hg => ?guard, fun he hg hL => ?idle, fun c cs he hg hL hc hw => ⟨fun hq => ?starved,
      fun e rest hq hj hh => ?running⟩, fun he => ?stands⟩
    case guard =>
      rw [restoredOut_of_halted he, leaveSafeStop_of_guard (ctx := (inOk s).ctx k) hg (hl k).1]
      exact ⟨rfl, rfl, rfl, rfl⟩
    case idle =>
      rw [restoredOut_of_halted he, leaveSafeStop_of_no_guard (ctx := (inOk s).ctx k) hg, hL]
      rfl
    case starved =>
      rw [restoredOut_of_halted he, leaveSafeStop_of_no_guard (ctx := (inOk s).ctx k) hg, hL, takeLine_starves hc hw hq]
      exact ⟨rfl, rfl⟩
    case running =>
      rw [restoredOut_of_halted he, leaveSafeStop_of_no_guard (ctx := (inOk s).ctx k) hg, hL,
        takeLine_starts hc hw hq hj hh]
      exact ⟨rfl, rfl, rfl, rfl⟩
    case stands =>
      obtain ⟨hmismatch, hmark⟩ := remonitor_quiet ((inOk s).ctx k) (s.lines.get k)
      rw [restoredOut_of_not_halted he]
      refine ⟨rfl, rfl, ?_, hmark⟩
      rw [drive_inOk] at hmismatch
      exact (remonitor_eq _ _ _ _).trans (congrArg (fun m : Option Nat =>
        { s.lines.get k with
          mismatch := m
          faultForestalled := (remonitor ((inOk s).ctx k) (s.lines.get k) ((inOk s).ctx k)
            (s.lines.get k)).faultForestalled })
        hmismatch)
  case granted =>
    have hposts : c.state = .taking ∨ c.state = .holding →
        (restoredOut ((inOk s).ctx k) (s.lines.get k)).posts = grantNotice k c := fun hc => by
      rw [restoredOut_of_halted he, leaveSafeStop_of_no_guard (ctx := (inOk s).ctx k) hg, hL, takeLine_posts hc hq]
      rfl
    exact ⟨fun hc => by rw [hposts (.inl hc), grantNotice, hc]; rfl,
      fun hc => by rw [hposts (.inr hc), grantNotice, hc]; rfl⟩

end Sys2Proof.Machine
end

section
/-! PROOFS. CLEAR_FAULT (R137, R138). -/

namespace Sys2Proof.Machine

/-! ### The checks of CLEAR_FAULT (R137) -/

section actClearFault
variable {p : HostNo} {line : Byte} {s : State} {k : LineNo} (hk : k.val = line.toNat)
include hk

theorem actClearFault_of_forbidden (hd : s.device = .run) (hp : permitted s.map p k = false) :
    actClearFault p line s = .unchanged s (.plain .notPermitted) := by
  simp only [actClearFault, lineOfByte_of_lt hk]
  exact if_pos ⟨hd, hp⟩

variable (hp : s.device = .setup ∨ permitted s.map p k = true)
include hp

theorem actClearFault_of_allowed : actClearFault p line s =
    if (s.lines.get k).engine ≠ .faulted then .unchanged s (.plain .notFaulted)
    else ⟨s.updateLineWith k (clearFaultLine (s.ctx k) (s.lines.get k)) [⟨.permittedOn k, .faultCleared k p⟩],
      .plain .ok⟩ := by
  have hallowed : ¬(s.device = .run ∧ permitted s.map p k = false) := by
    rcases hp with h | h <;> simp [h]
  simp only [actClearFault, lineOfByte_of_lt hk, if_neg hallowed]

end actClearFault

/-! ### The line that is cleared (R138) -/

theorem settle_hosts : ∀ cs : List Claim, (settle cs).map Claim.host = cs.map Claim.host
  | [] => rfl
  | c :: cs => by
    obtain ⟨hhead, -⟩ := asHead_within c
    have hbehind : (cs.map behindHead).map Claim.host = cs.map Claim.host := by
      rw [List.map_map]
      exact List.map_congr_left fun d _ => (behindHead_within d).1
    rw [settle, List.map_cons, List.map_cons, hhead, hbehind]

/-- The one notice of the change, where the line itself posts nothing. -/
theorem State.updateLineWith_ports_of_quiet (s : State) (k : LineNo) (L : LineState) (n : Post) :
    (s.updateLineWith k (.quiet L) [n]).ports = (s.post n).ports := by
  obtain ⟨posts, hperm, hports⟩ := State.postMerged_ports_perm
    { s with lines := s.lines.set k (remonitor (s.ctx k) (s.lines.get k) (s.ctx k) L) } [[], [n]]
  obtain rfl : posts = [n] := List.perm_singleton.mp hperm
  exact hports.trans (State.postAll_ports_congr [n] rfl rfl rfl)

theorem State.updateLineWith_line (s : State) (k : LineNo) (o : LineOut) (extra : List Post) :
    (s.updateLineWith k o extra).lines.get k = remonitor (s.ctx k) (s.lines.get k) (s.ctx k) o.line := by
  rw [State.updateLineWith_lines, PerLine.get_set_self]

theorem State.updateLineWith_line_ne (s : State) {j k : LineNo} (h : j ≠ k) (o : LineOut) (extra : List Post) :
    (s.updateLineWith k o extra).lines.get j = s.lines.get j := by
  rw [State.updateLineWith_lines, PerLine.get_set_ne _ _ h]

/-- The monitor of a line that leaves FAULTED for HALTED: no timer, and nothing that was due. -/
theorem remonitor_of_not_canFault {c0 c1 : LineCtx} {L0 L1 : LineState} (h0 : L0.engine.canFault = false)
    (h1 : L1.engine.canFault = false) : remonitor c0 L0 c1 L1 = { L1 with mismatch := none } := by
  have hdue : faultDue c0.window L0 = false := by rw [faultDue, h0, Bool.and_false]
  rw [remonitor, timerAfter_of_floating (LineState.drive_of_not_canFault h1), LineState.forestall_of_not_due hdue]

/-- Settles O50: one branch of the request for each check of R137, and the line by the supply state. -/
theorem clearFaultReturnsTheLine : Obligations.ClearFaultReturnsTheLine := by
  intro p tag line s hs
  have hact : ∀ {t : State} {reply : Reply}, actClearFault p line s = ⟨t, reply⟩ →
      exec (.clearFault p tag line) s = .next (t.answer p tag reply) := fun ha =>
    exec_command_of_act (r := .clearFault line) (takenIn_clearFault_iff.mpr hs) rfl ha tag
  refine ⟨fun h => hact (by rw [actClearFault, lineOfByte_of_ge h]; rfl), fun k hk =>
    ⟨fun hd hp => hact (actClearFault_of_forbidden hk hd hp), fun hp => ?_⟩⟩
  have hallowed := actClearFault_of_allowed hk hp
  refine ⟨fun he => hact (hallowed.trans (if_pos he)), fun he => ?_⟩
  rw [if_neg (not_not_intro he)] at hallowed
  refine ⟨fun hlow => ⟨_, hact hallowed, ?_⟩, fun hok hg => ⟨_, hact hallowed, ?_⟩⟩
  · have hcleared : clearFaultLine (s.ctx k) (s.lines.get k) = .quiet { s.lines.get k with engine := .halted } := by
      simp only [clearFaultLine, show (s.ctx k).supply = .low from hlow]
    rw [hcleared, State.updateLineWith_ports_of_quiet, State.updateLineWith_line]
    exact ⟨rfl, remonitor_of_not_canFault (by rw [he]; rfl) rfl, fun j hj => State.updateLineWith_line_ne s hj _ _⟩
  · have hcleared : clearFaultLine (s.ctx k) (s.lines.get k) =
        .quiet (.enterGuard (s.ctx k) { (s.lines.get k).clearRun with lastEnded := none } (s.lines.get k).claims) := by
      simp only [clearFaultLine, show (s.ctx k).supply = .ok from hok]
      exact if_neg (Nat.pos_iff_ne_zero.mp hg)
    rw [hcleared, State.updateLineWith_ports_of_quiet, State.updateLineWith_line]
    exact ⟨rfl, rfl, rfl, rfl, rfl, settle_hosts _, fun j hj => State.updateLineWith_line_ne s hj _ _⟩

end Sys2Proof.Machine
end

section
/-! PROOFS. SUBMIT: the segments appended, and what the line makes of them (R10, R32, R35, R108, R109). -/

namespace Sys2Proof.Machine

/-! ### The entries of one host -/

/-- The entries of a host on a list that holds its one claim. -/
theorem entriesOf_of_append {pre post : List Claim} {c : Claim} {h : HostNo} (hc : c.host = h)
    (hne : ∀ d ∈ pre ++ post, d.host ≠ h) : entriesOf h (pre ++ c :: post) = c.queue.length := by
  have hpre : pre.filter (fun d => d.host == h) = [] :=
    List.filter_eq_nil_iff.mpr fun d hd => by simpa using hne d (by simp [hd])
  have hpost : post.filter (fun d => d.host == h) = [] :=
    List.filter_eq_nil_iff.mpr fun d hd => by simpa using hne d (by simp [hd])
  simp [entriesOf, List.filter_append, hpre, hpost, hc]

/-- What an event that changes a host's queue makes of its in-use count. -/
theorem State.updateLine_inUse_of_append {s : State} {k : LineNo} {o : LineOut} {pre post : List Claim} {c d : Claim}
    (hL : (s.lines.get k).claims = pre ++ c :: post) (ho : o.line.claims = pre ++ d :: post) (hd : d.host = c.host)
    (hne : ∀ x ∈ pre ++ post, x.host ≠ c.host) :
    (s.updateLine k o).inUse c.host + c.queue.length = s.inUse c.host + d.queue.length := by
  have huse := State.updateLine_inUse s k o c.host
  rwa [hL, ho, entriesOf_of_append rfl hne, entriesOf_of_append hd hne] at huse

theorem State.updateLine_inUse_of_same {s : State} {k : LineNo} {o : LineOut} {pre post : List Claim} {c d : Claim}
    (hL : (s.lines.get k).claims = pre ++ c :: post) (ho : o.line.claims = pre ++ d :: post) (hd : d.host = c.host)
    (hne : ∀ x ∈ pre ++ post, x.host ≠ c.host) (hq : d.queue.length = c.queue.length) :
    (s.updateLine k o).inUse c.host = s.inUse c.host := by
  have huse := State.updateLine_inUse_of_append hL ho hd hne
  omega

/-! ### The line after the append (R108) -/

/-- A claim with segments appended, its lease restarted. -/
def Claim.withWork (c : Claim) (segs : List Segment) : Claim :=
  { c.restartLease with queue := c.queue ++ segs.map (⟨·, false⟩) }

section submitTo
variable {ctx : LineCtx} {L : LineState} {pre post : List Claim} {c : Claim} {segs : List Segment}

theorem LineState.appendWork_eq (hL : L.claims = pre ++ c :: post) (hne : ∀ d ∈ pre ++ post, d.host ≠ c.host) :
    L.appendWork c.host segs = { L with claims := pre ++ c.withWork segs :: post } := by
  rw [LineState.appendWork, hL, mapHost_append _ rfl hne]
  rfl

section appended
variable {h : HostNo} {M : LineState} (hM : L.appendWork h segs = M)
include hM

/-- No claim of the host executes: its segments wait. -/
theorem submitTo_of_not_executes (hx : ∀ x, M.executing = some x → x.host ≠ h) : submitTo ctx L h segs = .quiet M := by
  rw [submitTo, hM]
  cases hexec : M.executing with
  | none => rfl
  | some x => exact if_neg (hx x hexec)

variable (hx : M.executing = some c) (hc : c.host = h)
include hx hc

theorem submitTo_of_starved (he : L.engine = .starved) :
    submitTo ctx L h segs = advance ctx M c c.queue c.yieldRun false := by
  simp only [submitTo, hM, hx, he, hc, if_true]

theorem submitTo_of_running (he : L.engine = .running) : submitTo ctx L h segs = checkNow ctx M := by
  simp only [submitTo, hM, hx, he, hc, if_true]

end appended

/-- Segments of a claim that does not execute wait. -/
theorem submitTo_of_waits (hL : L.claims = pre ++ c :: post) (hne : ∀ d ∈ pre ++ post, d.host ≠ c.host)
    (hx : c.state.isExecuting = false) :
    submitTo ctx L c.host segs = .quiet { L with claims := pre ++ c.withWork segs :: post } := by
  refine submitTo_of_not_executes (LineState.appendWork_eq hL hne) fun x hexec => ?_
  have hmem : x ∈ pre ++ c.withWork segs :: post := List.mem_of_find?_eq_some hexec
  have hstate : x.state.isExecuting = true :=
    List.find?_some (p := fun d : Claim => d.state.isExecuting) (show List.find? _ _ = some x from hexec)
  rw [List.mem_append, List.mem_cons] at hmem
  rcases hmem with hd | rfl | hd
  · exact hne x (by simp [hd])
  · exact absurd (hx.symm.trans hstate) Bool.false_ne_true
  · exact hne x (by simp [hd])

/-- The line of a HOLDING head with segments appended. -/
theorem appendWork_of_head (hL : L.claims = c :: post) (hne : ∀ d ∈ post, d.host ≠ c.host) (hc : c.state = .holding) :
    ∃ M : LineState, M = { L with claims := c.withWork segs :: post } ∧ L.appendWork c.host segs = M
      ∧ M.executing = some (c.withWork segs) :=
  ⟨_, rfl, LineState.appendWork_eq (pre := []) hL hne, LineState.executing_of_head rfl (by exact hc ▸ rfl)⟩

end submitTo

/-- The first of the segments submitted to a STARVED line starts (R10). -/
theorem submitTo_starts {ctx : LineCtx} {L : LineState} {c : Claim} {post : List Claim} {g : Segment}
    {gs : List Segment} (hL : L.claims = c :: post) (hne : ∀ d ∈ post, d.host ≠ c.host) (hc : c.state = .holding)
    (he : L.engine = .starved) (hq : c.queue = []) (hj : g.join = false) (hh : g.isContinuousHold = false ∨ gs = []) :
    submitTo ctx L c.host (g :: gs) = .quiet { L with
      engine := .running, progress := ⟨g.body.firstPhase, 0, 0⟩, startedAtEnd := false
      gen := startGen ctx L.gen g.body, senseCounter := 0
      claims := { c.restartLease with queue := (g :: gs).map (⟨·, false⟩) } :: post } := by
  have hqueue : (c.withWork (g :: gs)).queue = ⟨g, false⟩ :: gs.map (⟨·, false⟩) := by
    rw [Claim.withWork, hq]; rfl
  obtain ⟨M, hdef, hM, hx⟩ := appendWork_of_head (segs := g :: gs) hL hne hc
  have hclaims : mapHost (c.withWork (g :: gs)).host (fun d => { d with
      queue := ⟨g, false⟩ :: gs.map (⟨·, false⟩), yieldRun := (c.withWork (g :: gs)).yieldRun }) M.claims =
      { c.restartLease with queue := (g :: gs).map (⟨·, false⟩) } :: post := by
    rw [hdef]
    exact mapHost_head rfl hne
  have hstate : (c.withWork (g :: gs)).state = .holding := hc
  rw [submitTo_of_starved hM hx rfl he, hqueue,
    advance_starts (.inl hj) (hh.imp_right fun h => ⟨by rw [h]; rfl, hstate⟩), LineState.withQueue, hclaims, hdef]

/-- The one joined segment submitted to a STARVED line is dropped (R35). -/
theorem submitTo_drops {ctx : LineCtx} {L : LineState} {c : Claim} {post : List Claim} {g : Segment}
    (hL : L.claims = c :: post) (hne : ∀ d ∈ post, d.host ≠ c.host) (hc : c.state = .holding) (he : L.engine = .starved)
    (hq : c.queue = []) (hj : g.join = true) (hl : L.lastEnded ≠ some ⟨.done, false⟩) :
    submitTo ctx L c.host [g] = ⟨{ L with
        lastEnded := some ⟨dropOutcome L.lastEnded, true⟩, claims := c.restartLease :: post },
      endNotice ctx.line c.host g (dropOutcome L.lastEnded) .aborted 0, []⟩ := by
  have hqueue : (c.withWork [g]).queue = [⟨g, false⟩] := by rw [Claim.withWork, hq]; rfl
  have hfails : (g.join && !joinHolds L.lastEnded) = true := by simp [hj, joinHolds, hl]
  have hrun : ∀ cut, runQueue ctx.line cut (c.withWork [g]) L.lastEnded c.yieldRun [⟨g, false⟩] =
      ⟨.empty, [], some ⟨dropOutcome L.lastEnded, false⟩, c.yieldRun,
        endNotice ctx.line c.host g (dropOutcome L.lastEnded) .aborted 0⟩ := fun cut => by
    rw [runQueue, if_pos hfails, runQueue]
    exact congrArg (QueueRun.mk _ _ _ _) (List.append_nil _)
  have hstate : (c.withWork [g]).state = .holding := hc
  obtain ⟨M, hdef, hM, hx⟩ := appendWork_of_head (segs := [g]) hL hne hc
  have hclaims : mapHost (c.withWork [g]).host (fun d => { d with queue := [], yieldRun := c.yieldRun }) M.claims =
      c.restartLease :: post := by
    rw [hdef, ← hq]
    exact mapHost_head rfl hne
  have hlast : M.lastEnded = L.lastEnded := by rw [hdef]
  have hyield : (c.withWork [g]).yieldRun = c.yieldRun := rfl
  rw [submitTo_of_starved hM hx rfl he, hqueue, advance, hlast, hyield, hrun]
  simp only [hstate, if_true, LineOut.afterSeg, LineOut.quiet, LineState.starve, LineState.withQueue, List.append_nil,
    Option.map_some, hclaims]
  simp only [hdef, he]

/-- Nothing is decided of a HOLDING claim that runs, but the end of its continuous HOLD. -/
theorem checkNow_of_holding_running {ctx : LineCtx} {L : LineState} {c : Claim} {e : Entry} {rest : List Entry}
    (hx : L.executing = some c) (hc : c.state = .holding) (he : L.engine = .running) (hq : c.queue = e :: rest)
    (hh : e.seg.isContinuousHold = false) : checkNow ctx L = .quiet L := by
  cases hb : e.seg.body with
  | hold level duration =>
    have hd : duration ≠ 0 := by simpa [Segment.isContinuousHold, hb] using hh
    have hstops : stopsAtCyclePoint (headCut L.claims) c (duration == 0) rest = false := by
      simp only [stopsAtCyclePoint, hc]
    rw [checkNow_of_hold hx he hq hb, if_neg fun h => hd h.1, hstops, if_neg Bool.false_ne_true]
  | sense discharge limit =>
    rw [checkNow_of_sense hx he hq hb, hc]
    rfl
  | pulse => exact checkNow_of_cyclic hx he hq (by simp [hb]) ctx
  | carrier => exact checkNow_of_cyclic hx he hq (by simp [hb]) ctx

/-- Segments wait behind the running one of the holder. -/
theorem submitTo_runs_on {ctx : LineCtx} {L : LineState} {c : Claim} {post : List Claim} {e : Entry} {rest : List Entry}
    {segs : List Segment} (hL : L.claims = c :: post) (hne : ∀ d ∈ post, d.host ≠ c.host) (hc : c.state = .holding)
    (he : L.engine = .running) (hq : c.queue = e :: rest) (hh : e.seg.isContinuousHold = false) :
    submitTo ctx L c.host segs = .quiet { L with claims := c.withWork segs :: post } := by
  have hqueue : (c.withWork segs).queue = e :: (rest ++ segs.map (⟨·, false⟩)) := by rw [Claim.withWork, hq]; rfl
  obtain ⟨M, hdef, hM, hx⟩ := appendWork_of_head (segs := segs) hL hne hc
  rw [submitTo_of_running hM hx rfl he, checkNow_of_holding_running hx hc (by rw [hdef]; exact he) hqueue hh, hdef]

/-- A continuous HOLD behind which work arrives ends DONE, and the work starts (R32). -/
theorem submitTo_ends_hold {ctx : LineCtx} {L : LineState} {c : Claim} {post : List Claim} {e : Entry} {g : Segment}
    {gs : List Segment} (hL : L.claims = c :: post) (hne : ∀ d ∈ post, d.host ≠ c.host) (hc : c.state = .holding)
    (he : L.engine = .running) (hq : c.queue = [e]) (hcont : e.seg.isContinuousHold = true)
    (hh : g.isContinuousHold = false ∨ gs = []) : submitTo ctx L c.host (g :: gs) =
      ⟨nextAfterDone ctx L c.restartLease post ⟨g, false⟩ (gs.map (⟨·, false⟩)),
        lostPosts ctx.line c L ++ donePosts ctx.line c e, []⟩ := by
  have hqueue : (c.withWork (g :: gs)).queue = e :: (g :: gs).map (⟨·, false⟩) := by rw [Claim.withWork, hq]; rfl
  obtain ⟨M, hdef, hM, hx⟩ := appendWork_of_head (segs := g :: gs) hL hne hc
  obtain ⟨level, hb⟩ : ∃ level, e.seg.body = .hold level 0 := by
    cases hb : e.seg.body with
    | hold level duration =>
      obtain rfl : duration = 0 := by simpa [Segment.isContinuousHold, hb] using hcont
      exact ⟨level, rfl⟩
    | pulse | carrier | sense => simp [Segment.isContinuousHold, hb] at hcont
  have hstate : (c.withWork (g :: gs)).state = .holding := hc
  have hclaims : M.claims = c.withWork (g :: gs) :: post := by rw [hdef]
  have hpoint : (0 : Word16) = 0 ∧ (c.withWork (g :: gs)).state.isEnding = false
      ∧ ((g :: gs).map (Entry.mk · false) ≠ [] ∨ (c.withWork (g :: gs)).state = .leaving false) :=
    ⟨rfl, by rw [hstate]; rfl, .inl (by simp)⟩
  rw [submitTo_of_running hM hx rfl he, checkNow_of_hold hx (by rw [hdef]; exact he) hqueue hb, if_pos hpoint,
    List.map_cons, naturalEnd_starts hclaims hstate hne (hh.imp_right fun h => by rw [h]; rfl),
    endPosts_done (by simp [hb]), hdef]
  rfl

/-! ### The request -/

section accepted
variable {p : HostNo} {tag line count : Byte} {segments : List Byte} {segs : List Segment} {s : State} {k : LineNo}
  {c : Claim} {pre post : List Claim}
  (hs : (s.ports.get p).status = .attached) (h1 : 1 ≤ segments.length) (h58 : segments.length ≤ 58)
  (hk : k.val = line.toNat) (hsegs : submitSegments count segments = .ok segs)
  (hL : (s.lines.get k).claims = pre ++ c :: post) (hc : c.host = p) (hne : ∀ d ∈ pre ++ post, d.host ≠ p)
  (hw : c.state.refusesWork = false) (hroom : s.inUse p + segs.length ≤ quota s.map p)
include hs h1 h58 hk hsegs hL hc hne hw hroom

/-- A SUBMIT that passes the checks: its reply is made of the queue `d` the line has after it. -/
theorem exec_submit_of_submitTo {o : LineOut} {d : Claim} (ho : submitTo (s.ctx k) (s.lines.get k) p segs = o)
    (hline : o.line.claims = pre ++ d :: post) (hd : d.host = p) {n : Nat} (hn : d.queue.length = n) :
    exec (.submit p tag line count segments) s = .next ((s.updateLine k o).answer p tag
      ⟨.ok, [BitVec.ofNat 8 segs.length, BitVec.ofNat 8 n, BitVec.ofNat 8 ((s.updateLine k o).inUse p)]⟩) := by
  have hclaim : (s.lines.get k).claimOf p = some c := LineState.claimOf_of_append hL hc fun x hx => hne x (by simp [hx])
  have hlength : queueLength ((s.updateLine k o).lines.get k) p = n := by
    have hafter : ((s.updateLine k o).lines.get k).claimOf p = some d :=
      LineState.claimOf_of_append (pre := pre) (post := post)
        (by rw [State.updateLine_line, remonitor_claims, hline]) hd
        fun x hx => hne x (by simp [hx])
    rw [queueLength, hafter]
    exact hn
  rw [exec_submit_of_act hs h1 h58 (actSubmit_of_room hk hsegs hclaim hw hroom rfl) tag, ho, hlength]

/-- As before, where the segments are all on the list at once. -/
theorem exec_submit_appends {L' : LineState} {d : Claim} (ho : submitTo (s.ctx k) (s.lines.get k) p segs = .quiet L')
    (hline : L'.claims = pre ++ d :: post) (hd : d.host = p) (hlength : d.queue.length = c.queue.length + segs.length) :
    exec (.submit p tag line count segments) s = .next ((s.updateLine k ⟨L', [], []⟩).answer p tag
      ⟨.ok, [BitVec.ofNat 8 segs.length, BitVec.ofNat 8 (c.queue.length + segs.length),
        BitVec.ofNat 8 (s.inUse p + segs.length)]⟩) := by
  have huse := State.updateLine_inUse_of_append (o := ⟨L', [], []⟩) hL hline (hd.trans hc.symm) (by rw [hc]; exact hne)
  rw [hc, hlength] at huse
  have hinUse : (s.updateLine k ⟨L', [], []⟩).inUse p = s.inUse p + segs.length := by omega
  rw [exec_submit_of_submitTo hs h1 h58 hk hsegs hL hc hne hw hroom ho hline hd hlength, LineOut.quiet, hinUse]

end accepted

/-- Settles O38: by the state of the claim and what the line runs for it. -/
theorem submitAppendsAndStarts : Obligations.SubmitAppendsAndStarts := by
  intro p tag line count segments segs s k c cs ds hs h1 h58 hk hc1 hc8 hsegs hL hc hne hroom renewed hrenewed
  rw [← submitSegments_of_inside hc1 hc8] at hsegs
  obtain rfl : renewed = c.restartLease := hrenewed
  subst hc
  refine ⟨fun hw => ?waits, fun g gs hgs he hcs hw hq hj hh => ?starts, fun e rest hrun hcs hh => ?appends,
    fun e g gs hrun hcs hcont hgs hh => ?ends⟩
  case waits =>
    have hx : c.state.isExecuting = false := by rcases hw with hw | hw <;> rw [hw] <;> rfl
    exact exec_submit_appends hs h1 h58 hk hsegs hL rfl hne
      (ClaimState.refusesWork_eq_false_iff.mpr (hw.imp_right .inl)) hroom (submitTo_of_waits hL hne hx) rfl rfl
      (by simp)
  all_goals subst hcs
  case starts =>
    subst hgs
    have hend := exec_submit_appends hs h1 h58 hk hsegs hL rfl hne (by rw [hw]; rfl) hroom
      (submitTo_starts hL hne hw he hq hj hh) (pre := []) rfl rfl (by simp [hq]) (tag := tag)
    simpa [hq] using hend
  case appends =>
    obtain ⟨he, -, hw, hq, -⟩ := hrun
    refine exec_submit_appends hs h1 h58 hk hsegs hL rfl hne (by rw [hw]; rfl) hroom (d := c.withWork segs) (pre := [])
      (submitTo_runs_on hL hne hw he hq hh) rfl rfl (by simp [Claim.withWork])
  case ends =>
    obtain ⟨he, -, hw, hq, -⟩ := hrun
    subst hgs
    refine ⟨_, ?_, rfl⟩
    exact exec_submit_of_submitTo hs h1 h58 hk hsegs hL rfl hne (by rw [hw]; rfl) hroom
      (submitTo_ends_hold hL hne hw he hq hcont hh) (pre := []) rfl rfl (by simp)

/-- The outcome of a joined segment that comes behind another end than a DONE one at this instant. -/
theorem dropOutcome_of_late {last : Option LastEnded} (h : last ≠ some ⟨.done, false⟩) :
    dropOutcome last = if last = some ⟨.done, true⟩ then .late else .brokenChain := by
  rcases last with _ | ⟨o, starved⟩
  · rfl
  · cases o <;> cases starved <;> simp_all [dropOutcome]

/-- Settles O39: nothing is left to start, and the line is STARVED on. -/
theorem joinedSegmentIsDroppedWhenLate : Obligations.JoinedSegmentIsDroppedWhenLate := by
  intro p tag line count segments g s k c ds hs h1 h58 hk hcount hsegs hj he hL hc hw hq hne hroom hl
  have hinside : submitSegments count segments = .ok [g] := by
    rw [submitSegments_of_inside (by omega) (by omega), hcount, hsegs]
  subst hc
  refine ⟨dropOutcome (s.lines.get k).lastEnded, dropOutcome_of_late hl, ?_⟩
  have hposts : endNotice k c.host g (dropOutcome (s.lines.get k).lastEnded) .aborted 0 =
      [⟨.host c.host, .segmentEnded k g.label (dropOutcome (s.lines.get k).lastEnded)⟩] := by
    rw [dropOutcome_of_late hl]
    split <;> rfl
  have hdrops := submitTo_drops (ctx := s.ctx k) hL hne hw he hq hj hl
  rw [show (s.ctx k).line = k from rfl, hposts] at hdrops
  rw [exec_submit_of_submitTo hs h1 h58 hk hinside (pre := []) hL rfl hne (by rw [hw]; rfl) hroom hdrops rfl rfl
    (n := 0) (congrArg List.length hq), State.updateLine_inUse_of_same (pre := [])
      (d := c.restartLease) hL rfl rfl hne rfl]
  rfl

end Sys2Proof.Machine
end

section
/-! PROOFS. FLUSH: its checks, what it removes, and what follows its cut (R111 to R113, Table 7-4). -/

namespace Sys2Proof.Machine

/-! ### The checks of FLUSH (R111) -/

theorem flushScopeOfBytes_of_ge {scope : Byte} (h : 3 ≤ scope.toNat) (label : Byte) :
    flushScopeOfBytes scope label = none := by
  have h0 : scope ≠ 0x00 := by bv_omega
  have h1 : scope ≠ 0x01 := by bv_omega
  have h2 : scope ≠ 0x02 := by bv_omega
  rw [flushScopeOfBytes, if_neg h0, if_neg h1, if_neg h2]

theorem exists_flushScope {scope : Byte} (h : scope.toNat < 3) (label : Byte) :
    ∃ sc, flushScopeOfBytes scope label = some sc := by
  obtain rfl | rfl | rfl : scope = 0x00 ∨ scope = 0x01 ∨ scope = 0x02 := by bv_omega
  all_goals exact ⟨_, rfl⟩

theorem cutOfByte_of_ge {cut : Byte} (h : 2 ≤ cut.toNat) : cutOfByte cut = none := by
  have h0 : cut ≠ 0x00 := by bv_omega
  have h1 : cut ≠ 0x01 := by bv_omega
  rw [cutOfByte, if_neg h0, if_neg h1]

theorem exists_cut {cut : Byte} (h : cut.toNat < 2) : ∃ ct, cutOfByte cut = some ct := by
  obtain rfl | rfl : cut = 0x00 ∨ cut = 0x01 := by bv_omega
  all_goals exact ⟨_, rfl⟩

section actFlush
variable {p : HostNo} {line scope label cut : Byte} {s : State}

theorem actFlush_of_outside (h : 8 ≤ line.toNat ∨ 3 ≤ scope.toNat ∨ 2 ≤ cut.toNat) :
    actFlush p line scope label cut s = .unchanged s (.plain .invalid) := by
  unfold actFlush
  rcases h with h | h | h
  · rw [lineOfByte_of_ge h]
  · rw [flushScopeOfBytes_of_ge h]
    cases lineOfByte line <;> rfl
  · rw [cutOfByte_of_ge h]
    cases lineOfByte line <;> cases flushScopeOfBytes scope label <;> rfl

variable {k : LineNo} (hk : k.val = line.toNat) {sc : FlushScope} (hsc : flushScopeOfBytes scope label = some sc)
  {ct : Bool} (hct : cutOfByte cut = some ct)
include hk hsc hct

theorem actFlush_of_noClaim (h : ∀ c ∈ (s.lines.get k).claims, c.host ≠ p) :
    actFlush p line scope label cut s = .unchanged s (.plain .noClaim) := by
  simp only [actFlush, lineOfByte_of_lt hk, hsc, hct, LineState.claimOf_eq_none.mpr h]

theorem actFlush_of_claim {c : Claim} (hc : (s.lines.get k).claimOf p = some c) {f : Flushed}
    (hf : flushLine (s.ctx k) (s.lines.get k) c sc ct = f) : actFlush p line scope label cut s =
      ⟨s.updateLine k f.out,
        ⟨.ok, [BitVec.ofNat 8 f.removed, boolByte f.cut, BitVec.ofNat 8 ((s.updateLine k f.out).inUse p)]⟩⟩ := by
  simp only [actFlush, lineOfByte_of_lt hk, hsc, hct, hc, hf]

end actFlush

theorem exec_flush_of_act {p : HostNo} {line scope label cut : Byte} {s t : State} {reply : Reply}
    (hs : (s.ports.get p).status = .attached) (ha : actFlush p line scope label cut s = ⟨t, reply⟩) (tag : Byte) :
    exec (.flush p tag line scope label cut) s = .next (t.answer p tag reply) :=
  exec_command_of_act (r := .flush line scope label cut) (by rw [hs]; rfl) rfl ha tag

/-! ### The queue after the removal (R112) -/

/-- The claim of a FLUSH after the removal. -/
def Claim.flushed (c : Claim) (L : LineState) (sc : FlushScope) : Claim :=
  { c with queue := flushedQueue L c sc, yieldRun := flushedYieldRun L c sc }

section flushed
variable {L : LineState} {c : Claim} {sc : FlushScope} {pre post : List Claim} {e : Entry} {rest : List Entry}

theorem flushedLine_eq (hL : L.claims = pre ++ c :: post) (hne : ∀ d ∈ pre ++ post, d.host ≠ c.host) :
    flushedLine L c sc = { L with claims := pre ++ c.flushed L sc :: post } := by
  rw [flushedLine, LineState.withQueue, hL, mapHost_append _ rfl hne]
  rfl

/-- The running segment stays. -/
theorem flushedQueue_of_running (he : L.engine = .running) (hx : c.state.isExecuting = true)
    (hq : c.queue = e :: rest) :
    flushedQueue L c sc = e :: rest.filter fun e => !sc.covers e := by
  rw [flushedQueue, runningEntries, if_pos ⟨he, hx⟩, hq]
  rfl

theorem flushedQueue_of_waits (hx : c.state.isExecuting = false) :
    flushedQueue L c sc = c.queue.filter fun e => !sc.covers e := by
  rw [flushedQueue, runningEntries, if_neg fun h => by rw [hx] at h; exact absurd h.2 Bool.false_ne_true]
  rfl

theorem flushedYieldRun_of_zero (h : c.yieldRun = 0) : flushedYieldRun L c sc = 0 := by
  rw [flushedYieldRun, h, Nat.zero_sub]

theorem flushed_of_waits (hx : c.state.isExecuting = false) (hr : c.yieldRun = 0) :
    c.flushed L sc = { c with queue := c.queue.filter fun e => !sc.covers e } := by
  rw [Claim.flushed, flushedQueue_of_waits hx, flushedYieldRun_of_zero hr, ← hr]

theorem flushedCount_of_waits (hx : c.state.isExecuting = false) :
    flushedCount L c sc = c.queue.length - (c.queue.filter fun e => !sc.covers e).length := by
  rw [flushedCount, flushedQueue_of_waits hx]

theorem flushedCount_of_running (he : L.engine = .running) (hx : c.state.isExecuting = true)
    (hq : c.queue = e :: rest) :
    flushedCount L c sc = rest.length - (rest.filter fun e => !sc.covers e).length := by
  rw [flushedCount, flushedQueue_of_running he hx hq, hq, List.length_cons, List.length_cons, Nat.add_sub_add_right]

theorem flushed_of_running (he : L.engine = .running) (hx : c.state.isExecuting = true) (hq : c.queue = e :: rest)
    (hr : c.yieldRun = 0) : c.flushed L sc = { c with queue := e :: rest.filter fun e => !sc.covers e } := by
  rw [Claim.flushed, flushedQueue_of_running he hx hq, flushedYieldRun_of_zero hr, ← hr]

end flushed

/-! ### The removal and the cut -/

theorem flushCuts_of_running {L : LineState} {c : Claim} (he : L.engine = .running) (hx : c.state.isExecuting = true)
    (hs : L.startedAtEnd = false) : flushCuts L c = true := by
  simp [flushCuts, he, hx, hs]

theorem flushLine_of_no_cut {L : LineState} {c : Claim} {ct : Bool} (h : (ct && flushCuts L c) = false) (ctx : LineCtx)
    (sc : FlushScope) : flushLine ctx L c sc ct = ⟨.quiet (flushedLine L c sc), flushedCount L c sc, false⟩ := by
  rw [flushLine, h, if_neg Bool.false_ne_true]

theorem flushLine_of_cut {ctx : LineCtx} {L : LineState} {c : Claim} {e : Entry} {rest : List Entry} {sc : FlushScope}
    (he : L.engine = .running) (hx : c.state.isExecuting = true) (hs : L.startedAtEnd = false)
    (hq : c.queue = e :: rest) : flushLine ctx L c sc true =
      ⟨flushCut ctx (flushedLine L c sc) (c.flushed L sc) e (rest.filter fun e => !sc.covers e),
        rest.length - (rest.filter fun e => !sc.covers e).length, true⟩ := by
  have hqueue := flushedQueue_of_running (sc := sc) he hx hq
  simp only [flushLine, flushCuts_of_running he hx hs, Bool.and_self, if_true, hqueue, flushedCount_of_running he hx hq,
    Claim.flushed]

/-! ### What follows the cut (Table 7-4) -/

section flushCut
variable {ctx : LineCtx} {L : LineState} {c : Claim} {e : Entry} {rest : List Entry}

section holding
variable {cs : List Claim} (hL : L.claims = c :: cs) (hne : ∀ d ∈ cs, d.host ≠ c.host) (hc : c.state = .holding)
include hL hne hc

/-- The line of the holder runs the next segment. -/
theorem flushCut_starts {e2 : Entry} {rest2 : List Entry} (hj : e2.seg.join = false)
    (hh : e2.seg.isContinuousHold = false ∨ rest2 = []) : flushCut ctx L c e (e2 :: rest2) =
      ⟨{ nextAfterDone ctx L c cs e2 rest2 with lastEnded := some ⟨.stopped, false⟩ },
        endPosts ctx.line L c e .stopped .aborted 0, []⟩ := by
  have hclaims : mapHost c.host (fun d => { d with queue := e2 :: rest2, yieldRun := c.yieldRun })
      ({ c with queue := e2 :: rest2 } :: cs) = { c with queue := e2 :: rest2 } :: cs := mapHost_head rfl hne
  simp only [flushCut, hc]
  rw [endRunning_head hL hne, advance_starts (.inl hj) (hh.imp_right fun h => ⟨h, hc⟩)]
  simp only [LineOut.afterSeg, LineOut.quiet, LineState.withQueue, List.append_nil]
  rw [show queueAfterEnd e (e2 :: rest2) .stopped = e2 :: rest2 from rfl, hclaims]
  rfl

/-- The line of the holder is STARVED where nothing is left. -/
theorem flushCut_starves : flushCut ctx L c e [] =
      ⟨{ starvedAfterDone L c cs with lastEnded := some ⟨.stopped, true⟩ },
        endPosts ctx.line L c e .stopped .aborted 0, []⟩ := by
  have hclaims : mapHost c.host (fun d => { d with queue := [], yieldRun := c.yieldRun })
      ({ c with queue := [] } :: cs) = { c with queue := [] } :: cs := mapHost_head rfl hne
  simp only [flushCut, hc]
  rw [endRunning_head hL hne, advance_starves hc]
  simp only [LineOut.afterSeg, LineOut.quiet, LineState.withQueue, List.append_nil]
  rw [show queueAfterEnd e [] .stopped = [] from rfl, hclaims]
  rfl

end holding

variable (hg : 0 < ctx.guard)
include hg

/-- A claim at its yield or stop point stops, with a guard. -/
theorem flushCut_stops {left : List Claim} {posts : List Post} (hc : c.state.CanStop)
    (h : StopsTo ctx.line L c rest left posts) : flushCut ctx L c e rest =
      ⟨guardedWith ctx.guard L left, endPosts ctx.line L c e .stopped .aborted 0, posts⟩ := by
  have hstop : flushCut ctx L c e rest = .afterSeg (endPosts ctx.line L c e .stopped .aborted 0)
      (stopClaim ctx (endRunning L c e rest .stopped) c) := by
    rcases hc with hc | hc | ⟨cause, hc⟩ <;> simp only [flushCut, hc]
  rw [hstop, stopClaim_endRunning hg (o := .stopped) h, LineOut.afterSeg, List.append_nil]

theorem flushCut_drains (hL : L.claims = [c]) (he : L.engine = .running) (hc : c.state = .leaving false) :
    flushCut ctx L c e [] = ⟨guardedWith ctx.guard L [], endPosts ctx.line L c e .stopped .aborted 0,
      [⟨.host c.host, .claimEnded ctx.line .drained⟩]⟩ := by
  simp only [flushCut, hc]
  rw [advance_endRunning_drains hg hL he hc, LineOut.afterSeg, List.append_nil]

end flushCut

/-! ### The request -/

section accepted
variable {p : HostNo} {tag line scope label cut : Byte} {s : State} {k : LineNo} {sc : FlushScope} {ct : Bool}
  {c : Claim}
  {pre post : List Claim} (hs : (s.ports.get p).status = .attached) (hk : k.val = line.toNat)
  (hsc : flushScopeOfBytes scope label = some sc) (hct : cutOfByte cut = some ct)
  (hL : (s.lines.get k).claims = pre ++ c :: post) (hc : c.host = p) (hne : ∀ d ∈ pre ++ post, d.host ≠ p)
include hs hk hsc hct hL hc hne

theorem exec_flush_of_flushLine {f : Flushed} (hf : flushLine (s.ctx k) (s.lines.get k) c sc ct = f) :
    exec (.flush p tag line scope label cut) s = .next ((s.updateLine k f.out).answer p tag
      ⟨.ok, [BitVec.ofNat 8 f.removed, boolByte f.cut, BitVec.ofNat 8 ((s.updateLine k f.out).inUse p)]⟩) := by
  have hclaim : (s.lines.get k).claimOf p = some c := LineState.claimOf_of_append hL hc fun x hx => hne x (by simp [hx])
  exact exec_flush_of_act hs (actFlush_of_claim hk hsc hct hclaim hf) tag

/-- A FLUSH that cuts nothing. -/
theorem exec_flush_removes (hno : (ct && flushCuts (s.lines.get k) c) = false) {d : Claim} {n : Nat}
    (hd : c.flushed (s.lines.get k) sc = d) (hn : flushedCount (s.lines.get k) c sc = n) :
    ∃ t, exec (.flush p tag line scope label cut) s = .next (t.answer p tag
        ⟨.ok, [BitVec.ofNat 8 n, 0x00, BitVec.ofNat 8 (t.inUse p)]⟩)
      ∧ t = s.updateLine k ⟨{ s.lines.get k with claims := pre ++ d :: post }, [], []⟩ := by
  have hf := flushLine_of_no_cut hno (s.ctx k) sc
  rw [flushedLine_eq hL (by rw [hc]; exact hne), hd, hn] at hf
  exact ⟨_, exec_flush_of_flushLine hs hk hsc hct hL hc hne hf, rfl⟩

/-- A FLUSH that cuts the running segment. -/
theorem exec_flush_cuts {e : Entry} {rest : List Entry} {o : LineOut} (htrue : ct = true)
    (he : (s.lines.get k).engine = .running) (hx : c.state.isExecuting = true)
    (hstart : (s.lines.get k).startedAtEnd = false) (hq : c.queue = e :: rest)
    (ho : flushCut (s.ctx k) { s.lines.get k with claims := pre ++ c.flushed (s.lines.get k) sc :: post }
      (c.flushed (s.lines.get k) sc) e (rest.filter fun e => !sc.covers e) = o) :
    ∃ t, exec (.flush p tag line scope label cut) s = .next (t.answer p tag
        ⟨.ok, [BitVec.ofNat 8 (rest.length - (rest.filter fun e => !sc.covers e).length), 0x01,
          BitVec.ofNat 8 (t.inUse p)]⟩)
      ∧ t = s.updateLine k o := by
  subst htrue
  have hf := flushLine_of_cut (ctx := s.ctx k) (sc := sc) he hx hstart hq
  rw [flushedLine_eq hL (by rw [hc]; exact hne), ho] at hf
  exact ⟨_, exec_flush_of_flushLine hs hk hsc hct hL hc hne hf, rfl⟩

end accepted

theorem isExecuting_of_canStop {st : ClaimState} (h : st.CanStop) : st.isExecuting = true := by
  rcases h with rfl | rfl | ⟨cause, rfl⟩ <;> rfl

/-- A claim behind the taker that stops, by its state. -/
theorem stopsTo_of_stops {L : LineState} {k : LineNo} {taker d : Claim} {cs left : List Claim} {queue : List Entry}
    {posts : List Post} (he : L.engine = .running) (hL : L.claims = taker :: d :: cs) (htaking : taker.state = .taking)
    (hne : ∀ x ∈ [taker] ++ cs, x.host ≠ d.host) (hw : ∀ x ∈ cs, x.state = .waiting)
    (h : (d.state = .yielding ∧ left = taker :: { d with state := .waiting, yieldRun := 0, queue := queue } :: cs
        ∧ posts = [⟨.host d.host, .preempted k taker.host⟩])
      ∨ (d.state = .leaving true ∧ left = taker :: cs ∧ posts = [⟨.host d.host, .claimEnded k .displacedLeaving⟩])
      ∨ (d.state = .ending .released ∧ left = taker :: cs ∧ posts = [⟨.host d.host, .claimEnded k .released⟩])
      ∨ (d.state = .ending .lease ∧ left = taker :: cs ∧ posts = [⟨.host d.host, .claimEnded k .lease⟩])) :
    d.state.CanStop ∧ StopsTo k L d queue left posts := by
  rcases h with ⟨hd, rfl, rfl⟩ | ⟨hd, rfl, rfl⟩ | ⟨hd, rfl, rfl⟩ | ⟨hd, rfl, rfl⟩
  · exact ⟨.inl hd, stopsTo_of_yielding he hL htaking hne hw hd queue⟩
  · exact ⟨.inr (.inl hd), stopsTo_of_leaves he hL htaking hne hw (.inr (.inl ⟨hd, rfl⟩)) queue⟩
  · exact ⟨.inr (.inr ⟨_, hd⟩), stopsTo_of_leaves he hL htaking hne hw (leaves_of_ending hd) queue⟩
  · exact ⟨.inr (.inr ⟨_, hd⟩), stopsTo_of_leaves he hL htaking hne hw (leaves_of_ending hd) queue⟩

/-- The bytes of a scope, and what it keeps. -/
theorem flushScope_of_keep {scope label : Byte} {keep : Entry → Bool}
    (h : (scope = 0x00 ∧ keep = fun _ => false) ∨ (scope = 0x01 ∧ keep = fun e => e.seg.label != label)
      ∨ (scope = 0x02 ∧ keep = fun _ => true)) :
    ∃ sc, flushScopeOfBytes scope label = some sc ∧ keep = fun e => !sc.covers e := by
  rcases h with ⟨rfl, rfl⟩ | ⟨rfl, rfl⟩ | ⟨rfl, rfl⟩ <;> exact ⟨_, rfl, rfl⟩

/-- Nothing is cut without the option, nor where the running segment started at this instant. -/
theorem not_cuts_of {cut : Byte} {L : LineState} {c : Claim}
    (h : cut = 0x00 ∨ (cut = 0x01 ∧ (L.startedAtEnd = true ∨ c.state.isExecuting = false))) :
    ∃ ct, cutOfByte cut = some ct ∧ (ct && flushCuts L c) = false := by
  rcases h with rfl | ⟨rfl, h⟩
  · exact ⟨false, rfl, rfl⟩
  · exact ⟨true, rfl, by rcases h with h | h <;> simp [flushCuts, h]⟩

/-- The claim of a scope that covers nothing is as it was. -/
theorem Claim.flushed_none (c : Claim) (L : LineState) : c.flushed L .none = c := by
  have hnone : FlushScope.none.covers = fun _ => false := rfl
  simp [Claim.flushed, flushedQueue, flushedYieldRun, hnone]

theorem flushedCount_none (L : LineState) (c : Claim) : flushedCount L c .none = 0 := by
  simp [flushedCount, flushedQueue, FlushScope.covers]

/-- Settles O40: the removal by the scope, and where the option cuts, by the state of the claim. -/
theorem flushRemovesAndCuts : Obligations.FlushRemovesAndCuts := by
  refine ⟨fun p tag line scope label cut s hs h => exec_flush_of_act hs (actFlush_of_outside h) tag, ?noClaim, ?holder,
    ?byState⟩
  case noClaim =>
    intro p tag line scope label cut s k hs hk h3 h2 hno
    obtain ⟨sc, hsc⟩ := exists_flushScope h3 label
    obtain ⟨ct, hct⟩ := exists_cut h2
    exact exec_flush_of_act hs (actFlush_of_noClaim hk hsc hct hno) tag
  case holder =>
    intro p tag line scope label cut s k c cs e rest hs hk ⟨he, hL, hw, hq, hne⟩ hc
    subst hc
    have hx : c.state.isExecuting = true := by rw [hw]; rfl
    have hall : rest.filter (fun e => !FlushScope.all.covers e) = [] := by simp [FlushScope.covers]
    refine ⟨fun hscope hcut => ?nothing, fun hscope hcut hr => ?all, fun hscope hcut hr hstart => ?allCut⟩ <;>
      subst hscope hcut
    case nothing =>
      obtain ⟨t, hexec, ht⟩ := exec_flush_removes (tag := tag) (label := label) (pre := []) (scope := 0x02)
        (cut := 0x00)
        hs hk rfl rfl hL rfl hne rfl (c.flushed_none _) (flushedCount_none _ _)
      have hline : ({ s.lines.get k with claims := [] ++ c :: cs } : LineState) = s.lines.get k := by
        rw [List.nil_append, ← hL]
      rw [hline] at ht
      rw [hexec, ht, State.updateLine_inUse_of_same (pre := []) hL hL rfl hne rfl]
      rfl
    case all =>
      have hremoved := exec_flush_removes (tag := tag) (label := label) (pre := []) (scope := 0x00) (cut := 0x00)
        hs hk rfl rfl hL rfl hne rfl (flushed_of_running he hx hq hr) (flushedCount_of_running he hx hq)
      rwa [hall] at hremoved
    case allCut =>
      have hposts := endPosts_of_front (LineState.front_of he (LineState.executing_of_head hL hx) hq) (.inl rfl) k
      have hcuts := exec_flush_cuts (tag := tag) (label := label) (pre := []) (scope := 0x00) (cut := 0x01)
        (o := ⟨{ starvedAfterDone (s.lines.get k) c cs with lastEnded := some ⟨.stopped, true⟩ },
          endPosts k (s.lines.get k) c e .stopped .aborted 0, []⟩)
        hs hk rfl rfl hL rfl hne rfl he hx hstart hq (by
          rw [flushed_of_running he hx hq hr, hall, flushCut_starves (by rfl) (by exact hne) (by exact hw)]
          rfl)
      rw [hall] at hcuts
      obtain ⟨t, hexec, ht⟩ := hcuts
      refine ⟨t, hexec, ht.trans ?_⟩
      rw [endPosts, amendLostNotice_eq]
      cases hb : e.seg.body <;> simp only [endNotice, hb]
  case byState =>
    intro p tag line scope label cut s k c keep hs hk hc hkeep
    obtain ⟨sc, hsc, rfl⟩ := flushScope_of_keep hkeep
    subst hc
    refine ⟨fun cs e rest ⟨he, hL, hw, hq, hne⟩ hr hcut => ?holding, fun pre post hL hne hw hr hcut => ?waits, ?cuts⟩
    case holding =>
      have hx : c.state.isExecuting = true := by rw [hw]; rfl
      obtain ⟨ct, hct, hno⟩ := not_cuts_of (c := c) (hcut.imp_right fun h => ⟨h.1, .inl h.2⟩)
      exact exec_flush_removes (pre := []) hs hk hsc hct hL rfl hne hno (flushed_of_running he hx hq hr)
        (flushedCount_of_running he hx hq)
    case waits =>
      have hx : c.state.isExecuting = false := by rcases hw with hw | hw <;> rw [hw] <;> rfl
      obtain ⟨ct, hct, hno⟩ := not_cuts_of (L := s.lines.get k) (hcut.imp_right fun h => ⟨h, .inr hx⟩)
      exact exec_flush_removes hs hk hsc hct hL rfl hne hno (flushed_of_waits hx hr) (flushedCount_of_waits hx)
    case cuts =>
      rintro rfl hstart
      have hcut : cutOfByte 0x01 = some true := rfl
      refine ⟨fun cs e rest e2 rest2 ⟨he, hL, hw, hq, hne⟩ hr hleft hj hh => ?next,
        fun taker cs e rest hrun hg left posts hstops => ?stops, fun e rest he hL hw hq hleft hg => ?drained⟩
      case next =>
        have hx : c.state.isExecuting = true := by rw [hw]; rfl
        have hposts := endPosts_of_front (LineState.front_of he (LineState.executing_of_head hL hx) hq) (.inl rfl) k
        refine exec_flush_cuts (pre := []) hs hk hsc hcut hL rfl hne rfl he hx hstart hq ?_
        rw [flushed_of_running he hx hq hr, hleft, flushCut_starts (by rfl) (by exact hne) (by exact hw) hj hh,
          ← hposts]
        rfl
      case stops =>
        have hhosts := hrun.hosts
        obtain ⟨he, hL, htaking, hq, -, hcs⟩ := id hrun
        obtain ⟨hcan, hto⟩ := stopsTo_of_stops (k := k) (d := c.flushed (s.lines.get k) sc)
          (L := { s.lines.get k with claims := [taker] ++ c.flushed (s.lines.get k) sc :: cs })
          (queue := rest.filter fun e => !sc.covers e) (by exact he) rfl htaking (by exact hhosts)
          (fun d hd => (hcs d hd).2) (by exact hstops)
        have hx : c.state.isExecuting = true := isExecuting_of_canStop hcan
        have hposts := endPosts_of_front (hrun.front hx) (.inl rfl) k
        refine exec_flush_cuts (pre := [taker]) hs hk hsc hcut hL rfl hhosts rfl he hx hstart hq
          ((flushCut_stops (ctx := s.ctx k) hg (by exact hcan) hto).trans ?_)
        rw [← hposts]
        rfl
      case drained =>
        have hx : c.state.isExecuting = true := by rw [hw]; rfl
        have hposts := endPosts_of_front (LineState.front_of he (LineState.executing_of_head hL hx) hq) (.inl rfl) k
        have hcuts := exec_flush_cuts (tag := tag) (pre := []) hs hk hsc hcut hL rfl (by simp) rfl he hx hstart hq rfl
        rw [hleft, flushCut_drains (ctx := s.ctx k) hg rfl (by exact he) (by exact hw)] at hcuts
        rw [← hposts]
        exact hcuts

end Sys2Proof.Machine
end

section
/-! PROOFS. A step on an empty queue: the clock that passes, and what is due (R12, R23, R44, R57, R91, R133, R139,
R168). -/

namespace Sys2Proof.Machine

/-! ### One reference clock -/

theorem CarrierGen.partEnd_le_iff (gen : CarrierGen) : gen.partEnd ≤ gen.position + 1 ↔
    gen.position + 1 = gen.active ∨ gen.period ≤ gen.position + 1 := by
  rw [CarrierGen.partEnd]
  split <;> omega

theorem CarrierGen.elapse_eq (gen : CarrierGen) : gen.elapse =
    if gen.running then
      if gen.position + 1 = gen.active ∨ gen.period ≤ gen.position + 1 then { gen with atBoundary := true }
      else { gen with position := gen.position + 1 }
    else gen := by
  simp only [CarrierGen.elapse, CarrierGen.partEnd_le_iff]

theorem mismatchAfter_eq (ctx : LineCtx) (L : LineState) : mismatchAfter ctx L =
    if ctx.check = true ∧ (L.drive ctx).checked = true
        ∧ (((L.drive ctx).level = .low ∧ L.pad ≠ .low) ∨ ((L.drive ctx).level = .high ∧ L.pad ≠ .high)) then
      some ((L.mismatch.map (· + 1)).getD 0)
    else none := by
  have hcompared : (L.drive ctx).compared ctx.check = true ∧ padMismatches L.pad (L.drive ctx).level = true ↔
      ctx.check = true ∧ (L.drive ctx).checked = true
        ∧ (((L.drive ctx).level = .low ∧ L.pad ≠ .low) ∨ ((L.drive ctx).level = .high ∧ L.pad ≠ .high)) := by
    rw [Drive.compared_iff, padMismatches_iff]
    refine ⟨fun ⟨⟨hc, hk, _⟩, h⟩ => ⟨hc, hk, h⟩, fun ⟨hc, hk, h⟩ => ⟨⟨hc, hk, ?_⟩, h⟩⟩
    rcases h with ⟨h, -⟩ | ⟨h, -⟩ <;> simp [h]
  simp only [mismatchAfter, hcompared]

/-! ### The events that are due on a line -/

/-- The line a due event belongs to; none for those of the supply watch and of a port. -/
def dueLine : Instr → Option LineNo
  | .holdEnd k | .pulsePhaseEnd k | .pulseCycleEnd k | .carrierElementEnd k | .senseRelease k | .senseLimitReached k
  | .carrierPartChange k | .sensePadHigh k | .guardEnd k | .readbackFault k | .leaseExpiry k _ => some k
  | _ => none

theorem dueLine_of_mem_lineDue {s : State} {k : LineNo} {i : Instr} (h : i ∈ lineDue s k) : dueLine i = some k := by
  rcases mem_lineDue h with h | rfl | rfl | rfl | rfl | ⟨g, rfl⟩
  · simp only [List.mem_cons, List.not_mem_nil, or_false] at h
    rcases h with rfl | rfl | rfl | rfl | rfl | rfl <;> rfl
  all_goals rfl

theorem dueLine_of_mem_supplyDue {s : State} {i : Instr} (h : i ∈ supplyDue s) : dueLine i = none := by
  rcases mem_supplyDue h with rfl | rfl <;> rfl

theorem dueLine_of_mem_portDue {s : State} {p : HostNo} {i : Instr} (h : i ∈ portDue s p) : dueLine i = none := by
  rw [mem_portDue h]; rfl

/-- An event of a line is due where it is due on that line. -/
theorem mem_dueEvents_of_line {s : State} {k : LineNo} {i : Instr} (hi : dueLine i = some k) :
    i ∈ dueEvents s ↔ i ∈ lineDue s k := by
  rw [mem_dueEvents]
  constructor
  · rintro (⟨j, h⟩ | h | ⟨p, h⟩)
    · obtain rfl : j = k := Option.some.inj ((dueLine_of_mem_lineDue h).symm.trans hi)
      exact h
    · exact absurd ((dueLine_of_mem_supplyDue h).symm.trans hi) nofun
    · exact absurd ((dueLine_of_mem_portDue h).symm.trans hi) nofun
  · exact fun h => .inl ⟨k, h⟩

theorem mem_lineDue_iff {s : State} {k : LineNo} {L : LineState} (hL : s.lines.get k = L) {i : Instr} :
    i ∈ lineDue s k ↔ (∃ n, L.boundary k = some (i, n) ∧ n ≤ L.progress.elapsed)
      ∨ (i = .carrierPartChange k ∧ L.markLeft.isSome ∧ L.gen.running = true ∧ L.gen.atBoundary = true)
      ∨ (i = .sensePadHigh k ∧ (L.senseIn .release).isSome ∧ L.pad = .high)
      ∨ (i = .guardEnd k ∧ L.engine = .guard ∧ L.guardRemaining = 0)
      ∨ (i = .readbackFault k ∧ ((faultDue (faultWindow s.map k) L && !L.faultForestalled)
          || faultAtEntryDue (faultWindow s.map k) L) = true)
      ∨ (∃ c ∈ L.claims, (!c.state.isEnding && !c.forestalled && c.leaseOver) = true ∧ i = .leaseExpiry k c.host) := by
  subst hL
  have hsingle : ∀ {p : Prop} [Decidable p] {x : Instr}, i ∈ (if p then [x] else []) ↔ i = x ∧ p := fun {p} _ {x} => by
    by_cases h : p <;> simp [h]
  have hlease : ∀ p : Claim → Bool, i ∈ ((s.lines.get k).claims.filter p).map (fun c => Instr.leaseExpiry k c.host) ↔
      ∃ c ∈ (s.lines.get k).claims, p c = true ∧ i = .leaseExpiry k c.host := fun p => by
    simp only [List.mem_map, List.mem_filter, and_assoc, eq_comm]
  simp only [lineDue, List.mem_append, or_assoc, hsingle, hlease]
  refine or_congr ?_ Iff.rfl
  cases (s.lines.get k).boundary k with
  | none => simp
  | some r =>
    obtain ⟨j, n⟩ := r
    simp only [hsingle, Option.some.injEq, Prod.mk.injEq]
    exact ⟨fun ⟨hi, hle⟩ => ⟨n, ⟨hi.symm, rfl⟩, hle⟩, fun ⟨m, ⟨hi, hm⟩, hle⟩ => ⟨hi.symm, hm ▸ hle⟩⟩

/-! ### The events one by one -/

/-- The event that ends the current phase or element, by the body of the running segment. -/
theorem LineState.boundary_eq_some_iff {L : LineState} {k : LineNo} {i : Instr} {n : Nat} :
    L.boundary k = some (i, n) ↔ ∃ f, L.front = some f
      ∧ ((∃ level d, f.entry.seg.body = .hold level d ∧ L.progress.phase = .whole ∧ d ≠ 0
          ∧ Instr.holdEnd k = i ∧ d.toNat * f.entry.seg.tap.clocks = n)
        ∨ (∃ p a pol m, f.entry.seg.body = .pulse p a pol m ∧ L.progress.phase = .active ∧ a ≠ p
          ∧ Instr.pulsePhaseEnd k = i ∧ a.toNat * f.entry.seg.tap.clocks = n)
        ∨ (∃ p a pol m, f.entry.seg.body = .pulse p a pol m ∧ Instr.pulseCycleEnd k = i
          ∧ ((L.progress.phase = .active ∧ a = p ∧ p.toNat * f.entry.seg.tap.clocks = n)
            ∨ (L.progress.phase = .inactive ∧ (p.toNat - a.toNat) * f.entry.seg.tap.clocks = n)))
        ∨ (∃ src pol ds j, f.entry.seg.body = .carrier src pol ds ∧ L.progress.phase = .element j
          ∧ Instr.carrierElementEnd k = i ∧ (ds.getD j 0).toNat * f.entry.seg.tap.clocks = n)
        ∨ (∃ d l, f.entry.seg.body = .sense d l ∧ L.progress.phase = .discharge
          ∧ Instr.senseRelease k = i ∧ d.toNat * f.entry.seg.tap.clocks = n)
        ∨ (∃ d l, f.entry.seg.body = .sense d l ∧ L.progress.phase = .release
          ∧ Instr.senseLimitReached k = i ∧ l.toNat * f.entry.seg.tap.clocks = n)) := by
  unfold LineState.boundary
  cases L.front with
  | none => simp
  | some f =>
    cases hb : f.entry.seg.body with
    | hold level d => cases L.progress.phase <;> by_cases hd : d = 0 <;> simp [hb, hd]
    | pulse p a pol m => cases L.progress.phase <;> by_cases ha : a = p <;> simp [hb, ha]
    | carrier src pol ds => cases L.progress.phase <;> simp [hb]
    | sense d l => cases L.progress.phase <;> simp [hb]

end Sys2Proof.Machine
end

section
/-! PROOFS. What is due at an instant, event by event, and the step on an empty queue (log 1). -/

namespace Sys2Proof.Machine

theorem LineState.senseIn_isSome_iff {L : LineState} {phase : Phase} : (L.senseIn phase).isSome = true ↔
    ∃ f d l, L.front = some f ∧ f.entry.seg.body = .sense d l ∧ L.progress.phase = phase := by
  unfold LineState.senseIn
  cases L.front with
  | none => simp
  | some f => cases hb : f.entry.seg.body <;> by_cases hp : L.progress.phase = phase <;> simp [hb, hp]

theorem LineState.markLeft_isSome_iff {L : LineState} : L.markLeft.isSome = true ↔
    ∃ f src pol ds j, L.front = some f ∧ f.entry.seg.body = .carrier src pol ds ∧ L.progress.phase = .element j
      ∧ j % 2 = 0 := by
  unfold LineState.markLeft
  cases L.front with
  | none => simp
  | some f => cases hb : f.entry.seg.body <;> cases hp : L.progress.phase <;> simp [hb, isMark, apply_ite Option.isSome]

/-- A fault is due on an engine that can fault, with a timer at its window that stands for it. -/
theorem readbackDue_iff {window : Nat} {L : LineState} :
    ((faultDue window L && !L.faultForestalled) || faultAtEntryDue window L) = true ↔ L.engine.canFault = true
      ∧ ∃ n, ((L.mismatch = some n ∧ L.faultForestalled = false) ∨ L.mismatchAtEntry = some n) ∧ window * 8 ≤ n := by
  simp only [faultDue, faultAtEntryDue, Bool.or_eq_true, Bool.and_eq_true, Bool.not_eq_true', timerReached_iff]
  constructor
  · rintro (⟨⟨⟨n, hn, hle⟩, he⟩, hf⟩ | ⟨⟨n, hn, hle⟩, he⟩)
    · exact ⟨he, n, .inl ⟨hn, hf⟩, hle⟩
    · exact ⟨he, n, .inr hn, hle⟩
  · rintro ⟨he, n, ⟨hn, hf⟩ | hn, hle⟩
    · exact .inl ⟨⟨⟨n, hn, hle⟩, he⟩, hf⟩
    · exact .inr ⟨⟨n, hn, hle⟩, he⟩

theorem EngineState.canFault_iff {E : EngineState} :
    E.canFault = true ↔ E = .idle ∨ E = .running ∨ E = .starved ∨ E = .guard := by
  cases E <;> simp [EngineState.canFault]

section due
variable {s : State} {k : LineNo} {L : LineState} (hL : s.lines.get k = L)
include hL

/-- An event that ends a phase or element is due where its clocks have elapsed. -/
theorem mem_dueEvents_of_boundary {i : Instr} (hi : i ∈ [Instr.holdEnd k, .pulsePhaseEnd k, .pulseCycleEnd k,
    .carrierElementEnd k, .senseRelease k, .senseLimitReached k]) :
    i ∈ dueEvents s ↔ ∃ n, L.boundary k = some (i, n) ∧ n ≤ L.progress.elapsed := by
  simp only [List.mem_cons, List.not_mem_nil, or_false] at hi
  rcases hi with rfl | rfl | rfl | rfl | rfl | rfl <;> rw [mem_dueEvents_of_line rfl, mem_lineDue_iff hL] <;> simp

/-- The other events of a line. -/
theorem mem_dueEvents_of_other {i : Instr} (hk : dueLine i = some k) (hi : i ∉ [Instr.holdEnd k, .pulsePhaseEnd k,
    .pulseCycleEnd k, .carrierElementEnd k, .senseRelease k, .senseLimitReached k]) : i ∈ dueEvents s ↔
      (i = .carrierPartChange k ∧ L.markLeft.isSome ∧ L.gen.running = true ∧ L.gen.atBoundary = true)
      ∨ (i = .sensePadHigh k ∧ (L.senseIn .release).isSome ∧ L.pad = .high)
      ∨ (i = .guardEnd k ∧ L.engine = .guard ∧ L.guardRemaining = 0)
      ∨ (i = .readbackFault k ∧ ((faultDue (faultWindow s.map k) L && !L.faultForestalled)
          || faultAtEntryDue (faultWindow s.map k) L) = true)
      ∨ (∃ c ∈ L.claims, (!c.state.isEnding && !c.forestalled && c.leaseOver) = true ∧ i = .leaseExpiry k c.host) := by
  rw [mem_dueEvents_of_line hk, mem_lineDue_iff hL]
  exact or_iff_right fun ⟨n, h, _⟩ => hi (LineState.boundary_kind h)

end due

/-! ### The events of the supply watch and of the ports -/

theorem mem_dueEvents_of_supply {s : State} {i : Instr} (hi : i = .supplyRestore ∨ i = .firstSettleEnd) :
    i ∈ dueEvents s ↔ i ∈ supplyDue s := by
  have hline : dueLine i = none := by rcases hi with rfl | rfl <;> rfl
  rw [mem_dueEvents]
  constructor
  · rintro (⟨k, h⟩ | h | ⟨p, h⟩)
    · exact absurd ((dueLine_of_mem_lineDue h).symm.trans hline) nofun
    · exact h
    · obtain rfl := mem_portDue h
      rcases hi with hi | hi <;> cases hi
  · exact fun h => .inr (.inl h)

theorem mem_supplyDue_iff {s : State} {i : Instr} : i ∈ supplyDue s ↔
    s.supply = .low ∧ (∃ n, s.settle = some n ∧ 80000 ≤ n)
      ∧ i = if s.firstSettle then .firstSettleEnd else .supplyRestore := by
  unfold supplyDue
  cases s.settle with
  | none => simp
  | some n =>
    by_cases hn : Config.settleClocks ≤ n ∧ s.supply = .low
    · have hle : 80000 ≤ n := hn.1
      simp [hn, hle]
    · have hno : ¬ (s.supply = .low ∧ 80000 ≤ n) := fun h => hn ⟨h.2, h.1⟩
      simp [hn]
      tauto

theorem replyReady_mem_dueEvents {s : State} {p : HostNo} : .replyReady p ∈ dueEvents s ↔
    (s.ports.get p).preparing ≠ none ∧ 160 ≤ (s.ports.get p).preparingClocks := by
  have hdue : ∀ q, .replyReady p ∈ portDue s q ↔ p = q ∧ (s.ports.get q).preparing.isSome = true
      ∧ Config.replyClocks ≤ (s.ports.get q).preparingClocks := fun q => by
    unfold portDue
    dsimp only
    split
    next h => simp [h]
    next h => simpa using fun _ => h
  rw [mem_dueEvents]
  constructor
  · rintro (⟨k, h⟩ | h | ⟨q, h⟩)
    · exact absurd (dueLine_of_mem_lineDue h) nofun
    · rcases mem_supplyDue h with h | h <;> cases h
    · obtain ⟨rfl, hprep, hle⟩ := (hdue q).mp h
      exact ⟨Option.isSome_iff_ne_none.mp hprep, hle⟩
  · exact fun ⟨hprep, hle⟩ => .inr (.inr ⟨p, (hdue p).mpr ⟨rfl, Option.isSome_iff_ne_none.mpr hprep, hle⟩⟩)

/-! ### The step on an empty queue -/

/-- What is due is taken in some order. -/
theorem step_takes_all {s : State} (hp : s.pending = []) (h : dueEvents s ≠ []) : ∃ order : List Instr,
    order.Perm (dueEvents s) ∧ step s = .next (takeAll order { s with orderCount := s.orderCount + 1 }) := by
  refine ⟨_, ?_, (step_of_empty hp).trans (congrArg _ (tick_of_due h))⟩
  have hsingles : ((dueEvents s).map fun i => [i]).flatten = dueEvents s := by
    rw [← List.flatMap_def, List.flatMap_singleton']
  have hperm := mergeAll_perm s.orderCount ((dueEvents s).map fun i => [i]) 0
  rwa [hsingles] at hperm

/-- One event alone is taken by its command. -/
theorem step_takes_one {s : State} (hp : s.pending = []) {i : Instr} (h : dueEvents s = [i]) :
    step s = exec i { s with orderCount := s.orderCount + 1 } := by
  obtain ⟨order, hperm, hstep⟩ := step_takes_all hp (by rw [h]; exact List.cons_ne_nil _ _)
  rw [h] at hperm
  obtain rfl : order = [i] := List.perm_singleton.mp hperm
  have hdue : i ∈ dueEvents s := by rw [h]; exact List.mem_singleton_self i
  rw [hstep, exec_of_due hdue, takeAll, takeAll, dueEvents_orderCount, if_pos hdue]

/-- Settles O3: the clock field by field, and what is due kind by kind. -/
theorem clockAdvancesEveryTimer : Obligations.ClockAdvancesEveryTimer := by
  refine fun s hp => ⟨fun h => ?clock, step_takes_all hp, fun i h => step_takes_one hp h, fun k L hL => ?line, ?restore,
    ?settled, fun p => replyReady_mem_dueEvents⟩
  case clock =>
    refine ⟨s.elapse, (step_of_empty hp).trans (congrArg _ (tick_of_nothing_due h)), rfl, fun k L d hL hd => ?_,
      fun h => ?_⟩
    · subst hL hd
      rw [State.elapse_lines, LineState.elapse, mismatchAfter_eq, CarrierGen.elapse_eq]
      congr 1
      cases (s.lines.get k).mismatch <;> rfl
    · rw [State.elapse_ports, Port.elapse]
      cases hprep : (s.ports.get h).preparing <;> simp [hprep]
  case restore =>
    rw [mem_dueEvents_of_supply (.inl rfl), mem_supplyDue_iff]
    cases s.firstSettle <;> simp
  case settled =>
    rw [mem_dueEvents_of_supply (.inr rfl), mem_supplyDue_iff]
    cases s.firstSettle <;> simp
  case line =>
    have hother {i : Instr} := mem_dueEvents_of_other hL.symm (i := i)
    refine ⟨?guardEnd, ?holdEnd, ?phaseEnd, ?cycleEnd, ?elementEnd, ?partChange, ?release, ?limit, ?padHigh,
      fun h => ?lease, ?fault⟩
    case guardEnd =>
      rw [hother rfl (by simp)]
      simp
    case partChange =>
      rw [hother rfl (by simp), LineState.markLeft_isSome_iff]
      simp only [reduceCtorEq, false_and, and_false, exists_false, or_false, true_and]
      exact ⟨fun ⟨⟨f, src, pol, ds, j, hf, hb, hp, hj⟩, hr, ha⟩ => ⟨f, src, pol, ds, j, hf, hb, hp, hj, hr, ha⟩,
        fun ⟨f, src, pol, ds, j, hf, hb, hp, hj, hr, ha⟩ => ⟨⟨f, src, pol, ds, j, hf, hb, hp, hj⟩, hr, ha⟩⟩
    case padHigh =>
      rw [hother rfl (by simp), LineState.senseIn_isSome_iff]
      simp only [reduceCtorEq, false_and, and_false, exists_false, or_false, false_or, true_and]
      exact ⟨fun ⟨⟨f, d, l, hf, hb, hp⟩, hh⟩ => ⟨f, d, l, hf, hb, hp, hh⟩,
        fun ⟨f, d, l, hf, hb, hp, hh⟩ => ⟨⟨f, d, l, hf, hb, hp⟩, hh⟩⟩
    case lease =>
      rw [hother rfl (by simp)]
      simp only [reduceCtorEq, false_and, false_or, Bool.and_eq_true, Bool.not_eq_true', and_assoc,
        Instr.leaseExpiry.injEq, true_and, Claim.leaseOver, decide_eq_true_eq]
      exact ⟨fun ⟨c, hc, he, hf, hl, hh⟩ => ⟨c, hc, hh.symm, he, hf, hl⟩,
        fun ⟨c, hc, hh, he, hf, hl⟩ => ⟨c, hc, he, hf, hl, hh.symm⟩⟩
    case fault =>
      rw [hother rfl (by simp), readbackDue_iff, EngineState.canFault_iff]
      simp
    case holdEnd | phaseEnd | cycleEnd | elementEnd | release | limit =>
      rw [mem_dueEvents_of_boundary hL.symm (by simp)]
      simp only [LineState.boundary_eq_some_iff, reduceCtorEq, false_and, and_false, exists_false, or_false, false_or,
        true_and]
      grind

end Sys2Proof.Machine
end
